-- ==== Sys2Proof/Word.lean ====
section
/-! DEFINITION. The word types of the Rinkor (R6, R22, R57, R105, R123, R169). -/

namespace Sys2Proof

/-- A scalar register, a syllable, a signal word. -/
abbrev Word := BitVec 64
/-- One byte of any memory. -/
abbrev Byte := BitVec 8
/-- A vector register or a vector queue entry: 512 bytes. -/
abbrev VReg := BitVec 4096
/-- A mask register: bit i governs element i. -/
abbrev Mask := BitVec 1024
/-- A stream register. -/
abbrev SReg := BitVec 256

end Sys2Proof
end

