-- ==== Sys2Proof/Syntax.lean ====
section
/-! DEFINITION. The syntax of the Rinkor: operand classes, element types, and `Instr`, one constructor per row of the
operation table: the syllables of R39, the engine words of R43 and the steps of the device and of its host. -/

namespace Sys2Proof

/-- The four clusters of a core, numbered 0 to 3 (R12). -/
inductive Cluster | K | A | X0 | X1
  deriving DecidableEq, Repr

/-- Element types in the order of their FN codes 0 to 14 (R33). -/
inductive Ety | i8 | n8 | i16 | n16 | i32 | n32 | i4 | n4 | fp32 | fp16 | bf16 | tf8 | tf6 | i64 | n64
  deriving DecidableEq, Repr

/-- The IEEE types, FN 8, 9 and 10 (R60). -/
inductive FTy | fp32 | fp16 | bf16
  deriving DecidableEq, Repr

/-- The types of atomics and `waitm`: FN 4, 5, 13 and 14 (R204). -/
inductive ATy | i32 | n32 | i64 | n64
  deriving DecidableEq, Repr

/-- A scalar field: `x0` to `x63`, or `q12` to `q15` as 0 to 3 (R28). -/
inductive SOp | x (n : Fin 64) | q (n : Fin 4)
  deriving DecidableEq, Repr

/-- A vector field: `v0` to `v639`, or `q0` to `q11` (R28). -/
inductive VOp | v (n : Fin 640) | q (n : Fin 12)
  deriving DecidableEq, Repr

/-- The mask of a vector syllable: none, or `m`MASK (R124). -/
abbrev VMask := Option (Fin 16)

/-- A register or a ten-bit immediate, chosen by C[15] (R141, R142). -/
inductive XSrc | reg (r : SOp) | imm (n : BitVec 10)
  deriving DecidableEq, Repr

/-- The queue that `qstat` names: an inter-cluster queue or an engine queue (R183). -/
inductive QRef | ic (n : Fin 16) | eq (n : Fin 9)
  deriving DecidableEq, Repr

/-- Ordering scopes, codes 0 to 4 (R187). -/
inductive Scope | cl | co | di | dv | sy
  deriving DecidableEq, Repr

/-- The ordering variant of an atomic, codes 0 to 3 (R193, R204). -/
inductive Ord | relaxed | acq | rel | ar
  deriving DecidableEq, Repr

/-- Conditions of `waitm`, codes 0 to 3 (R206). -/
inductive MCond | eq | ne | lt | ge
  deriving DecidableEq, Repr
/-- Conditions of `waits` and of watches, codes 0 to 3 (R326). -/
inductive SCond | eq | ne | geu | ltu
  deriving DecidableEq, Repr
/-- Conditions of `fcmp`, codes 0 to 4 (R119). -/
inductive FCond | eq | ne | lt | le | un
  deriving DecidableEq, Repr
/-- Conditions of `vcmp`, codes 0 to 6 (R134). -/
inductive VCond | eq | ne | lt | le | gt | ge | un
  deriving DecidableEq, Repr
/-- Operations of `vred` and `vscan`, codes 0 to 5 (R139). -/
inductive RedOp | add | min | max | and | or | xor
  deriving DecidableEq, Repr
/-- Patterns of `vshuf`, codes 0 to 4 (R140). -/
inductive Pat | ziplo | ziphi | even | odd | rev
  deriving DecidableEq, Repr
/-- Operations on a signal word, codes 0 to 2 (R325). -/
inductive SigOp | write | add | or
  deriving DecidableEq, Repr
/-- What `c.wait` waits on: tokens as a mask, or a signal word (R255). -/
inductive WSrc | tok (mask : BitVec 8) | sg (n : BitVec 8) (v : BitVec 16)
  deriving DecidableEq, Repr

/-- What `m.wait` waits on: one token or a signal word (R233). -/
inductive MWSrc | tok (k : Fin 8) | sg (n : BitVec 8) (v : BitVec 16)
  deriving DecidableEq, Repr

/-- A link packet: the header fields of R247 and its granules. -/
structure Packet where
  op : BitVec 8
  dst : BitVec 8
  src : BitVec 8
  part : BitVec 4
  score : BitVec 6
  addr : BitVec 48
  len : BitVec 6
  xid : BitVec 32
  iset : List (BitVec 16)
  poison : BitVec 64
  value : BitVec 64
  opnd2 : BitVec 64
  byteen : BitVec 64
  data : List Byte
  rsv : BitVec 8 := 0
  deriving DecidableEq, Repr

/-- Where a trigger flit comes from: its sender, and the partition that it names (R392). -/
structure FlitFrom where
  src : BitVec 8
  part : Nat
  deriving DecidableEq, Repr
/-- The end of a key exchange: the function, and the partitions of the peer device that name this one (R385, R398). -/
structure FinishMsg where
  fn : Nat
  names : BitVec 16
  deriving DecidableEq, Repr

/-- The memories a host write reaches (R199), and the registers without a behaviour of their own (R386). -/
inductive HSpace | dram | near | host
  deriving DecidableEq, Repr
/-- Host registers written by the step REGISTER_WRITE (R281, R287, R386, R387): ring descriptor fields, an ANSWER with ACTION 0, ROUTE,
PWRLIMIT, TRRD and WINNOWCTL's stored fields. -/
inductive HReg
  | ringSaveBase (ring : Nat) | ringSaveStride (ring : Nat) | ringQuantum (ring : Nat) | ringRdMirror (ring : Nat)
  | ringExqBase (ring : Nat) | ringBase (ring : Nat) | ringDie (ring : Nat) | ringExqLog (ring : Nat)
  | ringLog (ring : Nat) | ringState (ring : Nat) | ringReadOnly (ring : Nat)
  | ringPart (ring : Nat) | ringLocal (ring : Nat) | ringAnswer (ring : Nat)
  | route (dev : Nat) | pwrlimit (core : Nat) | trrd (part : Nat) | winnowctl | readOnly
  deriving DecidableEq, Repr
/-- Who asks for memory in a core, for the tags of R175. -/
inductive Requester | k | a | copy | fetch
  deriving DecidableEq, Repr

/-- One constructor per row of the operation table. Register numbers, types and codes are already decoded; guards and the
sync bit stand beside the instruction in `Syl`. Syllables and engine words with operands stand first, then those without,
then the steps of the device and of its host. -/
inductive Instr
  -- 04: control
  | br (off : BitVec 26) | brp (off : BitVec 26) | brx (a : SOp) | call (d : Fin 64) (off : BitVec 26) | ret (a : SOp)
  | loop (l : Fin 6) (a : SOp) (off : BitVec 16) | rloop (l : Fin 6) (st : Fin 8) (a : SOp) (off : BitVec 16)
  | ovl (n : Fin 16) (mask : BitVec 4)
  | sysrd (d : SOp) (r : BitVec 10) | syswr (a : SOp) (r : BitVec 10)
  | fwVersion (d a : SOp) | fwForm (d a : SOp) | fwPower (d a : SOp) | fwGovernor (d a : SOp) | fwPlat (d a : SOp)
  | fwDebugPolicy (d a : SOp) | fwPagerRequest (d a : SOp) | fwUnknown (d a : SOp) (svc : BitVec 16)
  | trap (a : SOp) (code : BitVec 16)
  -- 05: scalar
  | add (d a b : SOp) | sub (d a b : SOp) | and (d a b : SOp) | or (d a b : SOp) | xor (d a b : SOp) | andn (d a b : SOp)
  | shl (d a b : SOp) | shr (d a b : SOp) | sra (d a b : SOp) | rot (d a b : SOp) | min (d a b : SOp) | max (d a b : SOp)
  | minu (d a b : SOp) | maxu (d a b : SOp)
  | addImm (d a : SOp) (imm : BitVec 16) | subImm (d a : SOp) (imm : BitVec 16) | andImm (d a : SOp) (imm : BitVec 16)
  | orImm (d a : SOp) (imm : BitVec 16) | xorImm (d a : SOp) (imm : BitVec 16) | andnImm (d a : SOp) (imm : BitVec 16)
  | shlImm (d a : SOp) (imm : BitVec 16) | shrImm (d a : SOp) (imm : BitVec 16) | sraImm (d a : SOp) (imm : BitVec 16)
  | rotImm (d a : SOp) (imm : BitVec 16) | minImm (d a : SOp) (imm : BitVec 16) | maxImm (d a : SOp) (imm : BitVec 16)
  | minuImm (d a : SOp) (imm : BitVec 16) | maxuImm (d a : SOp) (imm : BitVec 16)
  | mul (d a b : SOp) | mulh (d a b : SOp) | mulhu (d a b : SOp) | div (d a b : SOp) | divu (d a b : SOp)
  | rem (d a b : SOp) | remu (d a b : SOp)
  | clz (d a : SOp) | popc (d a : SOp) | ctz (d a : SOp)
  | bfxS (d a : SOp) (pos len1 : BitVec 6) | bfxU (d a : SOp) (pos len1 : BitVec 6) | bfi (d : Fin 64) (a : SOp) (pos len1 : BitVec 6)
  | li (d : SOp) (imm : BitVec 26) | lih (d : Fin 64) (chunk : Fin 4) (imm : BitVec 16)
  | cmpEq (d : Fin 16) (a b : SOp) | cmpNe (d : Fin 16) (a b : SOp) | cmpLt (d : Fin 16) (a b : SOp)
  | cmpGe (d : Fin 16) (a b : SOp) | cmpLtu (d : Fin 16) (a b : SOp) | cmpGeu (d : Fin 16) (a b : SOp)
  | cmpEqImm (d : Fin 16) (a : SOp) (imm : BitVec 16) | cmpNeImm (d : Fin 16) (a : SOp) (imm : BitVec 16)
  | cmpLtImm (d : Fin 16) (a : SOp) (imm : BitVec 16) | cmpGeImm (d : Fin 16) (a : SOp) (imm : BitVec 16)
  | cmpLtuImm (d : Fin 16) (a : SOp) (imm : BitVec 16) | cmpGeuImm (d : Fin 16) (a : SOp) (imm : BitVec 16)
  | sel (d a b : SOp) (c : Fin 16) (neg : Bool)
  | fadd (t : FTy) (d a b : SOp) | fsub (t : FTy) (d a b : SOp) | fmul (t : FTy) (d a b : SOp) | fma (t : FTy) (d a b c : SOp)
  | fmin (t : FTy) (d a b : SOp) | fmax (t : FTy) (d a b : SOp) | fcmp (t : FTy) (c : FCond) (d : Fin 16) (a b : SOp)
  | fcvt (dt st : Ety) (rz : Bool) (d a : SOp)
  | pand (d a b : Fin 16) | por (d a b : Fin 16) | pxor (d a b : Fin 16) | pandn (d a b : Fin 16) | pnot (d a : Fin 16)
  | pmov (d a : Fin 16) | ptox (d : SOp) | xtop (a : SOp)
  -- 07: memory, queues
  | ld (t : Ety) (d a b : SOp) (off : BitVec 16) | st (t : Ety) (d a b : SOp) (off : BitVec 16)
  | ldq (t : Ety) (q : Fin 8) (a b : SOp) (off : BitVec 16) | stq (t : Ety) (q : Fin 2) (a b : SOp) (off : BitVec 16)
  | lds (t : Ety) (q : Fin 8) (n : Fin 32) (a : SOp) (off : BitVec 16) | sts (t : Ety) (q : Fin 2) (n : Fin 32) (a : SOp) (off : BitVec 16)
  | gth (t : Ety) (q : Fin 8) (n : Fin 32) (a : SOp) (off : BitVec 16) | sct (t : Ety) (q : Fin 2) (n : Fin 32) (a : SOp) (off : BitVec 16)
  | pref (a b : SOp) (off : BitVec 16) | srset (n : Fin 32) (a : SOp) (k : Fin 4) | srget (d : SOp) (n : Fin 32) (k : Fin 4)
  | qstat (d : SOp) (q : QRef) | hpost (n : Fin 8) (v : BitVec 8) | htake (n : Fin 8) (v : BitVec 8) | push (e : Fin 9) (a : SOp)
  -- 08: ordering
  | phase (s : Scope) (rel acq : Bool)
  | amoAdd (t : ATy) (s : Scope) (o : Ord) (d a b : SOp) | amoMin (t : ATy) (s : Scope) (o : Ord) (d a b : SOp)
  | amoMax (t : ATy) (s : Scope) (o : Ord) (d a b : SOp) | amoAnd (t : ATy) (s : Scope) (o : Ord) (d a b : SOp)
  | amoOr (t : ATy) (s : Scope) (o : Ord) (d a b : SOp) | amoXor (t : ATy) (s : Scope) (o : Ord) (d a b : SOp)
  | amoSwap (t : ATy) (s : Scope) (o : Ord) (d a b : SOp) | cas (t : ATy) (s : Scope) (o : Ord) (d a b c : SOp)
  | waitm (t : ATy) (c : MCond) (acq : Bool) (s : Scope) (d a b : SOp)
  -- 09, 10, 16: engine state, tokens, packets
  | mstat (d : SOp) (sel : BitVec 10) | waitk (mask : BitVec 8) | tokq (d : SOp) | pkt (a b : SOp) | kslot (d a : SOp)
  -- 11: requests
  | rqopen (d a b : SOp) | rqset (a : SOp) | rqrow (a b : SOp) (n1 : BitVec 7) | rqsets (k : Bool) (a : SOp)
  | rqhalt (d a : SOp) | rqresume (d a : SOp) | rqcancel (d a : SOp) | rqcancelDrain (d a : SOp)
  | rqmeter (d a : SOp) (sel : BitVec 3) | rqmark (d a : SOp) | rqstat (d a : SOp)
  -- 12: translation and the pager
  | tlbinv (a : SOp) (mode : Fin 3) (pager : Bool) | tlbfill (a b : SOp) (target : Fin 4) | pgmap (d a b : SOp) | exqpost (a : SOp)
  -- 22
  | winnow (d a : SOp) | leaveq (d : SOp)
  -- 14: signals, barriers, interrupts
  | sig (o : SigOp) (peer loc : Bool) (n : BitVec 8) (a b : SOp) | waits (c : SCond) (d : SOp) (n : BitVec 8) (b : SOp)
  | waitsPoll (d : SOp) (n : BitVec 8) | barDv (b : BitVec 6) | bard (b : BitVec 6)
  | barsetAlloc (d a b : SOp) | barsetSet (d a b : SOp) (n : BitVec 6) | barsetFree (d : SOp) (n : BitVec 6) | barsetQuery (d : SOp) (n : BitVec 6)
  | ulienOn (a : SOp) | ulienWatch (w : BitVec 10) (n : BitVec 8) (b : SOp) (c : SCond) | ulienUnwatch (w : BitVec 10)
  -- 06: vector
  | vadd (t : Ety) (sat : Bool) (m : VMask) (d a b : VOp) | vsub (t : Ety) (sat : Bool) (m : VMask) (d a b : VOp)
  | vmul (t : Ety) (sat : Bool) (m : VMask) (d a b : VOp) | vfma (t : FTy) (m : VMask) (d a b c : VOp)
  | vmin (t : Ety) (m : VMask) (d a b : VOp) | vmax (t : Ety) (m : VMask) (d a b : VOp)
  | vabs (t : Ety) (sat : Bool) (m : VMask) (d a : VOp) | vneg (t : Ety) (sat : Bool) (m : VMask) (d a : VOp)
  | vaddImm (t : Ety) (d a : VOp) (imm : BitVec 16) | vsubImm (t : Ety) (d a : VOp) (imm : BitVec 16) | vmulImm (t : Ety) (d a : VOp) (imm : BitVec 16)
  | vminImm (t : Ety) (d a : VOp) (imm : BitVec 16) | vmaxImm (t : Ety) (d a : VOp) (imm : BitVec 16)
  | vand (t : Ety) (m : VMask) (d a b : VOp) | vor (t : Ety) (m : VMask) (d a b : VOp) | vxor (t : Ety) (m : VMask) (d a b : VOp)
  | vandn (t : Ety) (m : VMask) (d a b : VOp) | vshl (t : Ety) (m : VMask) (d a b : VOp) | vshr (t : Ety) (m : VMask) (d a b : VOp)
  | vsra (t : Ety) (m : VMask) (d a b : VOp) | vmulh (t : Ety) (m : VMask) (d a b : VOp)
  | vbcast (t : Ety) (m : VMask) (d : VOp) (a : SOp) | vbcastImm (t : Ety) (d : VOp) (imm : BitVec 16)
  | vcmp (t : Ety) (c : VCond) (m : VMask) (d : Fin 16) (a b : VOp) | vsel (t : Ety) (ms : Fin 16) (d a b : VOp) | vmov (d a : VOp)
  | vcvt (dt st : Ety) (rz : Bool) (m : VMask) (d a : VOp) | vwiden (dt st : Ety) (rz : Bool) (m : VMask) (d a : VOp)
  | vnarrow (dt st : Ety) (rz : Bool) (m : VMask) (d a : VOp) | vcvts (dt : Ety) (other blk : BitVec 2) (d a b : VOp) (t : SOp)
  | vred (t : Ety) (o : RedOp) (m : VMask) (d a : VOp) | vscan (t : Ety) (o : RedOp) (m : VMask) (d a : VOp)
  | vperm (t : Ety) (m : VMask) (d a b : VOp) | vshuf (t : Ety) (p : Pat) (m : VMask) (d a b : VOp) | vxl (t : Ety) (m : VMask) (d a b : VOp) (x : XSrc)
  | vins (t : Ety) (d : Fin 640) (a : SOp) (i : XSrc) | vext (t : Ety) (d : SOp) (a : VOp) (i : XSrc)
  | vcompress (t : Ety) (m : VMask) (d a : VOp) | vexpand (t : Ety) (m : VMask) (d a : VOp)
  | vexp (t : FTy) (m : VMask) (d a : VOp) | vln (t : FTy) (m : VMask) (d a : VOp) | vrcp (t : FTy) (m : VMask) (d a : VOp)
  | vrsq (t : FTy) (m : VMask) (d a : VOp) | vsig (t : FTy) (m : VMask) (d a : VOp) | vlut (t : Ety) (m : VMask) (d a b : VOp)
  | mand (d a b : Fin 16) | mor (d a b : Fin 16) | mxor (d a b : Fin 16) | mandn (d a b : Fin 16) | mnot (d a : Fin 16) | mmov (d a : Fin 16)
  | mpopc (d : SOp) (a : Fin 16) | vnanscan (t : Ety) (m : VMask) (d : SOp) (a : VOp)
  -- 20: awn lanes
  | dtload (c : Fin 4) (a : VOp) (first : Fin 10) (count1 : Fin 8) | dtsave (d : VOp) (c : Fin 4) (first : Fin 10) (count1 : Fin 8)
  | dtattrSet (c : Fin 4) (a : SOp) | dtattrGet (d : SOp) (c : Fin 4) | dtattrHnd (a : SOp)
  | dtx (c : Fin 4) (ovm : Bool) (o : Fin 16) (d a b : VOp) | dtmap (c : Fin 4) (ovm : Bool) (o : Fin 16) (d a : VOp) | dtcmp (c : Fin 4) (d : Fin 14) (a b : VOp)
  | dtvalI32 (c : Fin 4) (d a : VOp) | dtvalFp32 (c : Fin 4) (d a : VOp)
  -- 18: sheaf cells
  | mld (tag : Bool) (d a : SOp) (b : Fin 16) | mst (d a b : SOp) | mcas (d a b c : SOp) | mrepair (d a b : SOp) | sheafmap (d a : SOp)
  -- 09: engine words of me0 to me3
  | mShape (gang : BitVec 3) (af bf : Ety) (kb1 : BitVec 3) | mRows (r1 : BitVec 7) | mTile (t : BitVec 6) | mStr (isB : Bool) (sr : Fin 32)
  | mScale (half : Fin 4) (v : BitVec 16) | mLvl (l : Fin 6) (sa sb st : BitVec 6) (count : BitVec 16) | mPlane (p : Bool) (s : BitVec 20)
  | mGo (toggle : BitVec 12) (acc rim bstr pl : Bool) | mDrain (tile : BitVec 6) (f : Ety) (sr : Fin 32) (zero : Bool) (n : BitVec 16)
  | mSig (add uli : Bool) (core : BitVec 6) (n : BitVec 8) (v : BitVec 16) | mWait (w : MWSrc)
  -- 10: engine words of ce0 to ce3
  | cSrc (sr : Fin 32) (sl : BitVec 12) | cDst (sr : Fin 32) (sl : BitVec 12)
  | cLvl (l : Fin 6) (dst : Bool) (s1 : BitVec 10) (s2 : BitVec 9) (count : BitVec 16) | cSwz (dst : Bool) (c : BitVec 2) (w : BitVec 3) (p : BitVec 5)
  | cBound (bms bmd : BitVec 2) | cTok (hold : BitVec 8) | cGo (run1 : BitVec 6) (zf iset : Bool)
  | cSig (add uli peer : Bool) (core : BitVec 6) (n : BitVec 8) (rep : BitVec 16) | cWait (w : WSrc)
  -- 16: engine words of th
  | kAppend (rg1 : BitVec 4) (g m l : Fin 32) (n : BitVec 16) | kPinTake (g : Fin 32) (s : BitVec 16) | kPinRelease (g : Fin 32) (s : BitVec 16)
  | tMerge (rg1 : BitVec 4) (g : Fin 32) (c : BitVec 15) (s : BitVec 16) | tRequant (rg1 : BitVec 4) (g : Fin 32) (f : Bool) (keep : BitVec 13) (s : BitVec 16)
  | tStatus (add uli : Bool) (core : BitVec 6) (n : BitVec 8) (v : BitVec 16)
  -- without operands
  | nop | exit | sync | safept | idle | eret | eretSkip | eretAbort | barCo | ulienOff | uliret | dtattrRet | mMark
  -- 04, 12: rings, launches, records, pre-emption
  | ringDoorbell (ring : Nat) (wridx : BitVec 32) | launch (ring : Nat) | pad (ring : Nat) | launchPlace (ring : Nat) | instanceStart (core : Nat)
  | instanceComplete (core : Nat) | launchComplete (id : Nat) | ringOpen (ring : Nat) | ringClose (ring : Nat)
  | answerResume (ring token : Nat) | answerSkip (ring token : Nat) (newrd : BitVec 32) | answerAbort (ring token : Nat)
  | exqrdWrite (ring : Nat) (v : BitVec 32) | exceptionRecordWrite (ring : Nat) | exqWriteRetry (ring : Nat)
  | preemptionRequest (ring : Nat) | preemptTake (core : Nat) | safeptReleaseTimeout (core : Nat) | preemptLate (core : Nat)
  | preemptResume (id : Nat) | runDeadlock (core : Nat)
  -- 07, 12: walks, pager, responses
  | tableWalkDone (core : Nat) | pagerTrapEntry (core : Nat) | pagerTimeLimit (core : Nat) | memoryResponse (core : Nat) (who : Requester)
  | peerAccessAnswer (p : Packet) | linkTimeout (xid : Nat)
  -- 09, 10, 16: engines
  | matrixPlaneLoadDone (core entry : Nat) | matrixOperationCommit (core entry : Nat) (mismatch : Bool) | matrixDrainDone (core entry : Nat) (mismatch : Bool)
  | copyIterationCommit (core entry : Nat) | thresherPinGrant (stack : Nat) | thresherCommandComplete (stack idx : Nat)
  -- 14: signals, interrupts, slots, barriers
  | signalWordUpdate (idx : Nat) | uliEntry (core : Nat) | waitExhausted (core : Nat) (cl : Cluster) | waitDeadlock (unit : Nat)
  | barrierRegWrite (part b : Nat) (isExpect : Bool) (v : BitVec 64) | requestFinalRecord (id : Nat)
  -- 10, 11: packets
  | peerWrite (p : Packet) | peerReadRequest (p : Packet) | peerReadResponse (p : Packet) | peerSignalWrite (p : Packet) | peerSignalAdd (p : Packet)
  | peerAcknowledgment (p : Packet) | peerFaultReturn (p : Packet) | peerAtomicRequest (p : Packet) | peerAtomicResponse (p : Packet)
  | parkStoreRetry (xid : Nat) | linkTriggerFlit (part : FlitFrom) (tag : BitVec 32)
  -- 18: sheaf messages
  | sheafReadMsg (idx : Nat) | sheafProposeMsg (idx : Nat) | sheafCommitMsg (idx : Nat) | sheafAbortMsg (idx : Nat) | sheafAnswer (idx : Nat)
  | sheafCopyTimeout (op stack : Nat) | ptagExpiry (part region stack cell : Nat)
  -- 12, 22: freezes, host, partitions
  | correctableErrorFreeze (core : Nat) | freezeEnd (core : Nat) | debugHaltWrite (part core : Nat) (quiet porous : Bool)
  | debugPolicyUpload (part : Nat) (bits : BitVec 5) (nonce sig : Nat) | traceRingConfig (part : Nat) (isLog : Bool) (v : BitVec 64)
  | partitionCreate (addr : BitVec 64) | partitionDestroy (addr : BitVec 64) | partitionSetPlat (addr : BitVec 64)
  | mydevset (v : BitVec 8) | sheafclr (mask : BitVec 12) | winnowFire (v : BitVec 64) | winnowRelease (v : BitVec 64) | registerWrite (r : HReg) (v : BitVec 64)
  | spdmGetVersion (fn : Nat) | spdmGetCapabilities (fn : Nat) | spdmNegotiateAlgorithms (fn : Nat) | spdmGetDigests (fn : Nat) | spdmGetCertificate (fn : Nat)
  | spdmChallenge (fn : Nat) (nonce : Nat) | spdmGetMeasurements (fn : Nat) (nonce : Nat) | spdmKeyExchange (fn : Nat) (peer : Option (BitVec 8)) (key : Nat)
  | spdmFinish (fn : FinishMsg) | spdmEndSession (fn : Nat)
  | hostMemoryWrite (sp : HSpace) (addr : Nat) (bytes : List Byte)
  | powerWindowEnd (mw : Nat) | powerPeakExceeded | leaveGrant (core : Nat) | wakeLatencyExpiry (core : Option Nat) | deviceEnterL3 | deviceReset
  | overlayLoadDone (core : Nat) | linkCreditReturn (link n : Nat) (answers : Bool) | linkFlitDrop (link : Nat) | firmwareImageLoad (runtime : Bool) (image sig : Nat)
  | tdispRequest (vf part : Nat)
  deriving DecidableEq, Repr

/-- A syllable: the sync bit, the guard and the instruction (R22, R24). `id` is the id of a `safept`, 0 in every other
syllable: it names the live map that a save reads (R104, R299) and plays no part in what the syllable does. -/
structure Syl where
  s : Bool
  n : Bool
  p : Fin 16
  i : Instr
  id : BitVec 16 := 0
  deriving DecidableEq, Repr

end Sys2Proof
end

