-- ==== Sys2Proof/Config.lean ====
section
/-! DEFINITION. What an implementation fixes and the manual does not: values with no body, so that nothing can be proved
of what they are, and the fixed figures of the device. -/

namespace Sys2Proof

/-- DESIGN CHOICE (log entry 13): byte `addr` of a scratchpad that the resume numbered `epoch` left undefined (R299). -/
opaque Config.freeByte : Nat → Nat → BitVec 8
/-- DESIGN CHOICE (log entry 11): the version word of a firmware image, [31:16] major and [15:0] minor (R394). -/
opaque Config.fwVersionOf : Nat → BitVec 32
/-- DESIGN CHOICE (log entry 16): whether a signature over an image or a policy verifies (R388, R389): key, content, signature. -/
opaque Config.sigOk : Nat → Nat → Nat → Bool
/-- DESIGN CHOICE (log entry 16): the SHA-384 measurement of a block's content (R388). -/
opaque Config.sha384 : Nat → BitVec 384
/-- DESIGN CHOICE (log entry 16): the nonce of a new partition for its debug policy (R389), from its creation number. -/
opaque Config.nonceOf : Nat → Nat
/-- DESIGN CHOICE (log entry 20): the clk count of the recording block in trace record number `n` (R272, BLKCLK). -/
opaque Config.blkClk : Nat → BitVec 32
/-- DESIGN CHOICE (log entry 20): the clk that the piece of work numbered n took, where a meter counts them: a matrix operation
(R222), a firmware service (R264). -/
opaque Config.workClk : Nat → Nat
/-- DESIGN CHOICE (log entry 24): element j and exponent of a block of a glume plane that no load has written, in a plane that has
been loaded (R207). -/
opaque Config.blockQ : Nat → Nat → Int
opaque Config.blockE : Nat → Int
/-- DESIGN CHOICE (log entry 89): whether a first part of -0 that overwrites an element stays -0, by R213, or becomes +0, by R75. -/
opaque Config.keepsNegZero : Bool
/-- DESIGN CHOICE (log entry 34): the TAG of a winnow event that a fault record starts, from its TOKEN (R392). -/
opaque Config.faultTag : Nat → Nat
/-- DESIGN CHOICE (log entry 25): the slot number whose pin entry `kslot` reads for a partition and the home address of a header
(R349). -/
opaque Config.slotOf : Nat → Nat → Nat
/-- DESIGN CHOICE (log entry 93): register i of the firmware context after the n-th sleep of its core in which registers are lost (R390). -/
opaque Config.lostWord : Nat → Nat → BitVec 64
/-- The sustained power limit in mW of each form (R1, R386): false for LMV-7264-P. -/
def Config.sustained (modForm : Bool) : Nat := if modForm then 1600000 else 1500000
/-- The peak power limit in mW of each form (R1, R386). -/
def Config.peak (modForm : Bool) : Nat := if modForm then 1850000 else 1750000

end Sys2Proof
end

