-- ==== Sys2Proof/Machine/Sparse.lean ====
section
/-! DEFINITION. Finite maps held as lists of (key, value) pairs: the keys rise strictly and no entry holds
the value an unlisted key reads as, so that equal maps are equal data. Memory, registers and tables are held so. -/

namespace Sys2Proof.Machine

/-- A map from numbers to values, as plain data. -/
abbrev Sparse (α : Type) := List (Nat × α)

/-- What key `k` reads as; `d` is the value of an unlisted key. -/
def sget {α : Type} (d : α) : Sparse α → Nat → α
  | [], _ => d
  | (j, v) :: m, k => if k = j then v else sget d m k

/-- The entry of key `k`, when the list holds one. -/
def slook {α : Type} : Sparse α → Nat → Option α
  | [], _ => none
  | (j, v) :: m, k => if k = j then some v else slook m k

/-- Takes key `k` out of the list. -/
def serase {α : Type} : Sparse α → Nat → Sparse α
  | [], _ => []
  | (j, v) :: m, k => if k = j then serase m k else (j, v) :: serase m k

/-- Puts an entry before the first greater key. -/
def sinsert {α : Type} : Sparse α → Nat → α → Sparse α
  | [], k, w => [(k, w)]
  | (j, v) :: m, k, w => if k < j then (k, w) :: (j, v) :: m else (j, v) :: sinsert m k w

/-- Writes key `k`, listed whatever the value: for records, whose default need not be taken out. -/
def sput {α : Type} (m : Sparse α) (k : Nat) (v : α) : Sparse α :=
  sinsert (serase m k) k v

/-- Writes key `k` and keeps the canonical form: writing the default takes the entry out. -/
def sset {α : Type} [DecidableEq α] (d : α) (m : Sparse α) (k : Nat) (v : α) : Sparse α :=
  if v = d then serase m k else sput m k v

/-- Every key of the list is above `k`. -/
def sabove {α : Type} (k : Nat) : Sparse α → Bool
  | [] => true
  | (j, _) :: m => decide (k < j) && sabove k m

/-- The keys of a list rise strictly. -/
def srise {α : Type} : Sparse α → Bool
  | [] => true
  | e :: m => sabove e.1 m && srise m

/-- The canonical form: keys rise strictly, and no entry holds what its key reads as unlisted. -/
def swf {α : Type} [DecidableEq α] (d : Nat → α) (m : Sparse α) : Bool := srise m && m.all fun e => decide (e.2 ≠ d e.1)

/-- Writes a run of values at keys `k`, `k + 1`, ... -/
def ssetRun {α : Type} [DecidableEq α] (d : α) (m : Sparse α) (k : Nat) : List α → Sparse α
  | [] => m
  | v :: vs => ssetRun d (sset d m k v) (k + 1) vs

/-- Reads `n` values at keys `k`, `k + 1`, ... -/
def sgetRun {α : Type} (d : α) (m : Sparse α) (k : Nat) : Nat → List α
  | 0 => []
  | n + 1 => sget d m k :: sgetRun d m (k + 1) n

/-- Takes every key of `lo`, ..., `lo + n - 1` out. -/
def sclear {α : Type} (m : Sparse α) (lo n : Nat) : Sparse α :=
  m.filter (fun e => decide (e.1 < lo) || decide (lo + n ≤ e.1))

end Sys2Proof.Machine
end

