-- ==== Sys2Proof/Machine/Bits.lean ====
section
/-! DEFINITION. Bit fields, extensions, byte order (R5, R6, R57) and the placing of elements in registers
(R57, R80, R81, R127). Fields and elements are natural numbers here; a group of G registers is one number of
4096 * G bits, in which element j of width w stands at bit w * j. -/

namespace Sys2Proof.Machine

/-- Bits [lo + len - 1 : lo] of a number. -/
def fld (x lo len : Nat) : Nat := (x >>> lo) % 2 ^ len
/-- One bit as a Bool. -/
def bitN (x i : Nat) : Bool := fld x i 1 == 1
/-- Replaces bits [lo + len - 1 : lo] of a number. -/
def setFld (x lo len v : Nat) : Nat :=
  x - (fld x lo len) * 2 ^ lo + (v % 2 ^ len) * 2 ^ lo
/-- The two's complement value of the low `w` bits. -/
def sint (w x : Nat) : Int :=
  if x % 2 ^ w < 2 ^ (w - 1) then ((x % 2 ^ w : Nat) : Int) else ((x % 2 ^ w : Nat) : Int) - ((2 ^ w : Nat) : Int)
/-- The low `w` bits of an integer (wrapping, R58). -/
def wrapN (w : Nat) (i : Int) : Nat := (i % ((2 ^ w : Nat) : Int)).toNat
/-- `sext(v, w)` of the notation (02, entries): sign-extends the low `w` bits to 64. -/
def sext64 (w x : Nat) : Word := BitVec.ofInt 64 (sint w x)
/-- `zext(v, w)`. -/
def zext64 (w x : Nat) : Word := BitVec.ofNat 64 (x % 2 ^ w)
/-- 1 for true. -/
def b2n (b : Bool) : Nat := if b then 1 else 0
/-- The bytes of a number, least significant first (R6). -/
def bytesOf : Nat → Nat → List Byte
  | 0, _ => []
  | n + 1, x => BitVec.ofNat 8 x :: bytesOf n (x / 256)
/-- The number whose bytes, least significant first, are the list (R6). -/
def ofBytes : List Byte → Nat
  | [] => 0
  | b :: bs => b.toNat + 256 * ofBytes bs
/-- Element `i` of width `w` of a register or group. -/
def elemN (w x i : Nat) : Nat := fld x (w * i) w
/-- The number made of `n` elements of width `w`. -/
def buildN (w n : Nat) (f : Nat → Nat) : Nat :=
  (List.range n).foldr (fun i acc => f i % 2 ^ w + 2 ^ w * acc) 0
/-- The number of one bits among the low `n` bits. -/
def popcN : Nat → Nat → Nat
  | 0, _ => 0
  | n + 1, x => x % 2 + popcN n (x / 2)
/-- Leading zeros of a number of `n` bits. -/
def clzN : Nat → Nat → Nat
  | 0, _ => 0
  | n + 1, x => if x / 2 ^ n % 2 = 1 then 0 else 1 + clzN n x
/-- Trailing zeros of a number of `n` bits. -/
def ctzN : Nat → Nat → Nat
  | 0, _ => 0
  | n + 1, x => if x % 2 = 1 then 0 else 1 + ctzN n (x / 2)
/-- ceil(a / b). -/
def cdiv (a b : Nat) : Nat := (a + b - 1) / b
/-- Floor of log2 of a positive number, at most `fuel`. -/
def ilog2 (x : Nat) : Nat := Nat.log2 x
/-- Adds and saturates (meters, R264). -/
def satAdd (cap a b : Nat) : Nat := if cap ≤ a + b then cap else a + b
/-- Clamps an integer to lo .. hi (R58, R59). -/
def clampI (lo hi i : Int) : Int := if i < lo then lo else if hi < i then hi else i
/-- Integer square root by bisection on bits. -/
def isqrtAux (n : Nat) : Nat → Nat → Nat
  | 0, r => r
  | k + 1, r => let r' := r + 2 ^ k; isqrtAux n k (if r' * r' ≤ n then r' else r)
/-- The largest r with r * r at most n. -/
def isqrt (n : Nat) : Nat := isqrtAux n (Nat.log2 n / 2 + 1) 0

end Sys2Proof.Machine
end

