-- ==== Sys2Proof/Machine/Num.lean ====
section
/-! DEFINITION. Element types, the IEEE formats and the tapered formats, their exact values, the rounding helpers, the
NaNs that record events, and the conversions (R57 to R73, R118 to R120). Exact values are quotients of integers. -/

namespace Sys2Proof.Machine

/-- Width in bits of an element (R33, R57); tf6 is stored in a byte. -/
def etyW : Ety → Nat
  | .i4 | .n4 => 4
  | .i8 | .n8 | .tf8 | .tf6 => 8
  | .i16 | .n16 | .fp16 | .bf16 => 16
  | .i32 | .n32 | .fp32 => 32
  | .i64 | .n64 => 64
/-- Elements of a register (R57). -/
def etyE (t : Ety) : Nat := 4096 / etyW t
/-- The signed integer types. -/
def etySigned : Ety → Bool
  | .i4 | .i8 | .i16 | .i32 | .i64 => true
  | _ => false
/-- INT of R126. -/
def etyInt : Ety → Bool
  | .i8 | .n8 | .i16 | .n16 | .i32 | .n32 | .i64 | .n64 => true
  | _ => false
/-- NIB of R126. -/
def etyNib : Ety → Bool
  | .i4 | .n4 => true
  | _ => false
/-- TAP of R126. -/
def etyTap : Ety → Bool
  | .tf8 | .tf6 => true
  | _ => false
/-- FLT of R126 as an IEEE type. -/
def etyF : Ety → Option FTy
  | .fp32 => some .fp32
  | .fp16 => some .fp16
  | .bf16 => some .bf16
  | _ => none
/-- FLT of R126. -/
def etyFlt (t : Ety) : Bool := (etyF t).isSome
/-- The element type of an IEEE type. -/
def ftyE : FTy → Ety
  | .fp32 => .fp32
  | .fp16 => .fp16
  | .bf16 => .bf16
/-- The element type of an atomic's type. -/
def atyE : ATy → Ety
  | .i32 => .i32
  | .n32 => .n32
  | .i64 => .i64
  | .n64 => .n64
/-- Exponent bits, fraction bits and width of an IEEE type (R60). -/
def fEb : FTy → Nat
  | .fp32 => 8 | .fp16 => 5 | .bf16 => 8
def fMb : FTy → Nat
  | .fp32 => 23 | .fp16 => 10 | .bf16 => 7
def fW : FTy → Nat
  | .fp32 => 32 | .fp16 => 16 | .bf16 => 16
/-- The exponent bias (R60). -/
def fBias (t : FTy) : Nat := 2 ^ (fEb t - 1) - 1
/-- The encoding of +infinity. -/
def fInf (t : FTy) : Nat := (2 ^ fEb t - 1) * 2 ^ fMb t
/-- The sign bit's weight. -/
def fSgn (t : FTy) : Nat := 2 ^ (fW t - 1)
/-- Sign of an encoding. -/
def fNeg (t : FTy) (x : Nat) : Bool := bitN x (fW t - 1)
/-- The encoding less its sign. -/
def fMag (t : FTy) (x : Nat) : Nat := x % fSgn t
def fIsNan (t : FTy) (x : Nat) : Bool := decide (fInf t < fMag t x)
def fIsInf (t : FTy) (x : Nat) : Bool := fMag t x == fInf t
def fIsZero (t : FTy) (x : Nat) : Bool := fMag t x == 0
/-- Puts a sign on a magnitude's encoding. -/
def fWithSign (t : FTy) (neg : Bool) (m : Nat) : Nat := if neg then fSgn t + m else m
/-- Sets the quiet bit, the top fraction bit (R71, R72). -/
def fQuiet (t : FTy) (x : Nat) : Nat := x ||| 2 ^ (fMb t - 1)

/-- An exact real number as numerator and (positive) denominator. -/
structure Q where
  n : Int
  d : Nat
  deriving DecidableEq, Repr
/-- m * 2^e exactly. -/
def qDy (m : Int) (e : Int) : Q := if 0 ≤ e then ⟨m * 2 ^ e.toNat, 1⟩ else ⟨m, 2 ^ (-e).toNat⟩
def qAdd (a b : Q) : Q := ⟨a.n * b.d + b.n * a.d, a.d * b.d⟩
def qNeg (a : Q) : Q := ⟨-a.n, a.d⟩
def qMul (a b : Q) : Q := ⟨a.n * b.n, a.d * b.d⟩
/-- a / b for a nonzero b. -/
def qDiv (a b : Q) : Q := if b.n < 0 then ⟨-(a.n * b.d), a.d * b.n.natAbs⟩ else ⟨a.n * b.d, a.d * b.n.natAbs⟩
def qLt (a b : Q) : Bool := decide (a.n * b.d < b.n * a.d)
def qInt (i : Int) : Q := ⟨i, 1⟩

/-- The exact value of a finite encoding (R60, R61: subnormals are kept). -/
def fQ (t : FTy) (x : Nat) : Q :=
  let e := fMag t x / 2 ^ fMb t
  let f := fMag t x % 2 ^ fMb t
  let lsb : Int := 1 - (fBias t : Int) - (fMb t : Int)
  let m : Int := if e = 0 then f else f + 2 ^ fMb t
  let k : Int := if e = 0 then lsb else lsb + (e - 1 : Int)
  qDy (if fNeg t x then -m else m) k

/-- floor(n / d) to the nearest, ties to even. -/
def rneDiv (n d : Nat) : Nat :=
  let k := n / d
  let r := n % d
  if 2 * r < d then k else if d < 2 * r then k + 1 else k + k % 2
/-- floor(log2(n / d)) of a positive quotient. -/
def qLog2 (n d : Nat) : Int :=
  let e : Int := (Nat.log2 n : Int) - (Nat.log2 d : Int)
  let below : Bool := if 0 ≤ e then decide (n < d * 2 ^ e.toNat) else decide (n * 2 ^ (-e).toNat < d)
  if below then e - 1 else e
/-- The rounded encoding of a positive quotient, infinity on overflow (R61). -/
def fRoundMag (t : FTy) (n d : Nat) : Nat :=
  if n = 0 then 0
  else
    let emin : Int := 1 - (fBias t : Int)
    let e := if qLog2 n d < emin then emin else qLog2 n d
    let sh : Int := e - (fMb t : Int)
    let k := if 0 ≤ sh then rneDiv n (d * 2 ^ sh.toNat) else rneDiv (n * 2 ^ (-sh).toNat) d
    let enc := (e - emin).toNat * 2 ^ fMb t + k
    if fInf t ≤ enc then fInf t else enc
/-- `rne32`, `rne16`, `rnebf16` of a nonzero exact value; `neg0` is the sign of an exact zero (R61). -/
def fRne (t : FTy) (neg0 : Bool) (q : Q) : Nat :=
  if q.n = 0 then fWithSign t neg0 0 else fWithSign t (decide (q.n < 0)) (fRoundMag t q.n.natAbs q.d)

/-- Where a NaN arises: core, cluster and ten bits of WHERE (R71). -/
structure Loc where
  core : Nat
  cluster : Nat
  wh : Nat
  deriving DecidableEq, Repr
/-- The NaN of R71 made of the fields CLASS, CORE, CLUSTER and WHERE in a type's layout. -/
def mkNan (t : FTy) (cls : Nat) (l : Loc) : Nat :=
  match t with
  | .fp32 => 0x7FC00000 + (cls % 16) * 2 ^ 18 + (l.core % 64) * 2 ^ 12 + (l.cluster % 4) * 2 ^ 10 + l.wh % 1024
  | .fp16 => (l.core / 32 % 2) * 2 ^ 15 + 0x7E00 + (cls % 16) * 2 ^ 5 + l.core % 32
  | .bf16 => 0x7FC0 + (cls % 16) * 4
/-- A NaN's fields, read at the positions of the source type whatever they hold (R73). -/
def nanFields (t : FTy) (x : Nat) : Nat × Loc :=
  match t with
  | .fp32 => (fld x 18 4, ⟨fld x 12 6, fld x 10 2, fld x 0 10⟩)
  | .fp16 => (fld x 5 4, ⟨32 * fld x 15 1 + fld x 0 5, 0, 0⟩)
  | .bf16 => (fld x 2 4, ⟨0, 0, 0⟩)
/-- A NaN that changes width (R73). -/
def nanConv (dt st : FTy) (x : Nat) : Nat := mkNan dt (nanFields st x).1 (nanFields st x).2

/-- The first NaN among the operands, quiet bit set (R72). -/
def firstNan (t : FTy) : List Nat → Option Nat
  | [] => none
  | x :: xs => if fIsNan t x then some (fQuiet t x) else firstNan t xs
/-- Sum of two finite values with the sign rule of zeros (R61). -/
def fSum (t : FTy) (an : Bool) (a : Q) (bn : Bool) (b : Q) : Nat := fRne t (an && bn) (qAdd a b)
/-- `fadd` (R118). -/
def fAdd (t : FTy) (l : Loc) (a b : Nat) : Nat :=
  match firstNan t [a, b] with
  | some n => n
  | none =>
    if fIsInf t a then (if fIsInf t b && fNeg t a != fNeg t b then mkNan t 2 l else a)
    else if fIsInf t b then b
    else fSum t (fNeg t a) (fQ t a) (fNeg t b) (fQ t b)
/-- Flips the sign bit. -/
def fFlip (t : FTy) (x : Nat) : Nat := fWithSign t (!fNeg t x) (fMag t x)
/-- `fsub` (R118). -/
def fSub (t : FTy) (l : Loc) (a b : Nat) : Nat :=
  match firstNan t [a, b] with
  | some n => n
  | none => fAdd t l a (fFlip t b)
/-- `fmul` (R118). -/
def fMul (t : FTy) (l : Loc) (a b : Nat) : Nat :=
  match firstNan t [a, b] with
  | some n => n
  | none =>
    let s := fNeg t a != fNeg t b
    if fIsInf t a || fIsInf t b then (if fIsZero t a || fIsZero t b then mkNan t 2 l else fWithSign t s (fInf t))
    else fRne t s (qMul (fQ t a) (fQ t b))
/-- `fma`: exact product, one rounding (R118). -/
def fFma (t : FTy) (l : Loc) (a b c : Nat) : Nat :=
  match firstNan t [a, b, c] with
  | some n => n
  | none =>
    let s := fNeg t a != fNeg t b
    if fIsInf t a || fIsInf t b then
      (if fIsZero t a || fIsZero t b then mkNan t 2 l
       else if fIsInf t c && fNeg t c != s then mkNan t 2 l else fWithSign t s (fInf t))
    else if fIsInf t c then c
    else fSum t s (qMul (fQ t a) (fQ t b)) (fNeg t c) (fQ t c)
/-- Division, for the quotients of R346; 0 / 0 is class divide-by-zero (R70). -/
def fDiv (t : FTy) (l : Loc) (a b : Nat) : Nat :=
  match firstNan t [a, b] with
  | some n => n
  | none =>
    let s := fNeg t a != fNeg t b
    if fIsInf t a then (if fIsInf t b then mkNan t 2 l else fWithSign t s (fInf t))
    else if fIsInf t b then fWithSign t s 0
    else if fIsZero t b then (if fIsZero t a then mkNan t 3 l else fWithSign t s (fInf t))
    else fRne t s (qDiv (fQ t a) (fQ t b))
/-- An integer that orders the non-NaN encodings by value, with -0 below +0 (R118). -/
def fKey (t : FTy) (x : Nat) : Int := if fNeg t x then -(fMag t x : Int) - 1 else fMag t x
/-- `fmin` (R118). -/
def fMin (t : FTy) (a b : Nat) : Nat :=
  match firstNan t [a, b] with
  | some n => n
  | none => if fKey t b < fKey t a then b else a
/-- `fmax` (R118). -/
def fMax (t : FTy) (a b : Nat) : Nat :=
  match firstNan t [a, b] with
  | some n => n
  | none => if fKey t a < fKey t b then b else a
/-- An integer that orders the values numerically, -0 equal to +0 (R119). -/
def fOrd (t : FTy) (x : Nat) : Int := if fNeg t x then -(fMag t x : Int) else fMag t x
/-- `vabs` and `vneg` of an IEEE element (R130). -/
def fAbs (t : FTy) (a : Nat) : Nat := if fIsNan t a then fQuiet t a else fMag t a
def fNegate (t : FTy) (a : Nat) : Nat := if fIsNan t a then fQuiet t a else fFlip t a

/-! ### Tapered types -/

/-- Bits of the magnitude field: 7 in tf8, 5 in tf6 (R63, R64). -/
def tapN (six : Bool) : Nat := if six then 5 else 7
/-- Length of the run of bits equal to `b` from bit `k - 1` downward. -/
def runLen (b : Bool) (m : Nat) : Nat → Nat
  | 0 => 0
  | k + 1 => if bitN m k == b then 1 + runLen b m k else 0
/-- The magnitude of a nonzero magnitude field times 2^12, an integer (R63, R64). -/
def tapMag (six : Bool) (m : Nat) : Nat :=
  let n := tapN six
  if m = 0 then 0
  else
    let one := bitN m (n - 1)
    let k := runLen one m n
    let r : Int := if one then (k : Int) - 1 else -(k : Int)
    let rest := n - k - 1
    let e := if 0 < rest then fld m (rest - 1) 1 else 0
    let fb := rest - 1
    let f := fld m 0 fb
    ((2 ^ fb + f) * 2 ^ (12 + 2 * r + e).toNat) / 2 ^ fb
/-- Largest magnitude code. -/
def tapTop (six : Bool) : Nat := 2 ^ tapN six - 1
/-- The tf NaN (R63, R64). -/
def tapNan (six : Bool) : Nat := 2 ^ tapN six
/-- The code field that decoding looks at: tf6 ignores bits [7:6]. -/
def tapCode (six : Bool) (x : Nat) : Nat := x % 2 ^ (tapN six + 1)
def tapIsNan (six : Bool) (x : Nat) : Bool := tapCode six x == tapNan six
/-- The exact value of a code that is no NaN (R63). -/
def tapQ (six : Bool) (x : Nat) : Q :=
  let c := tapCode six x
  let m : Int := tapMag six (c % 2 ^ tapN six)
  ⟨if bitN c (tapN six) then -m else m, 4096⟩
/-- The largest magnitude code whose value is at most n / d, searched downward. -/
def tapFloor (six : Bool) (n d : Nat) : Nat → Nat
  | 0 => 0
  | c + 1 => if tapMag six (c + 1) * d ≤ n * 4096 then c + 1 else tapFloor six n d c
/-- The magnitude code nearest to n / d, ties to the code with bit 0 clear (R65). -/
def tapRoundMag (six : Bool) (n d : Nat) : Nat :=
  let c := tapFloor six n d (tapTop six)
  if c = tapTop six then c
  else
    let mid := (tapMag six c + tapMag six (c + 1)) * d
    let v := 2 * n * 4096
    if v < mid then c else if mid < v then c + 1 else if c % 2 = 0 then c else c + 1
/-- `sat_tf8` and `sat_tf6` of an exact real value (R65). -/
def tapSat (six : Bool) (q : Q) : Nat :=
  let m := tapRoundMag six q.n.natAbs q.d
  if m = 0 then 0 else if q.n < 0 then 2 ^ tapN six + m else m
/-- The saturated code of an infinity (R65). -/
def tapInf (six : Bool) (neg : Bool) : Nat := if neg then 2 ^ tapN six + tapTop six else tapTop six

/-! ### Decoded elements and conversions -/

/-- An element's meaning: an integer, an exact value (with the sign of a zero), an infinity or a NaN with its fields. -/
inductive Val | int (i : Int) | fin (neg : Bool) (q : Q) | inf (neg : Bool) | nan (cls : Nat) (l : Loc)
  deriving DecidableEq, Repr

/-- Reads an element (R57, R63, R66, R73): the NaN of a tapered code is of class propagated at `l`. -/
def decVal (t : Ety) (l : Loc) (x : Nat) : Val :=
  match t with
  | .tf8 => if tapIsNan false x then .nan 1 l else .fin (decide ((tapQ false x).n < 0)) (tapQ false x)
  | .tf6 => if tapIsNan true x then .nan 1 l else .fin (decide ((tapQ true x).n < 0)) (tapQ true x)
  | _ =>
    match etyF t with
    | some f =>
      if fIsNan f x then .nan (nanFields f x).1 (nanFields f x).2
      else if fIsInf f x then .inf (fNeg f x) else .fin (fNeg f x) (fQ f x)
    | none => .int (if etySigned t then sint (etyW t) x else (x % 2 ^ etyW t : Nat))
/-- The range of an integer type (R58). -/
def intLo (t : Ety) : Int := if etySigned t then -(2 ^ (etyW t - 1) : Int) else 0
def intHi (t : Ety) : Int := if etySigned t then (2 ^ (etyW t - 1) : Int) - 1 else (2 ^ etyW t : Int) - 1
/-- Rounds to an integer, half to even, or truncates toward zero (R59). -/
def qToInt (rz : Bool) (q : Q) : Int :=
  let m : Nat := if rz then q.n.natAbs / q.d else rneDiv q.n.natAbs q.d
  if q.n < 0 then -(m : Int) else m
/-- Rounds a value into an IEEE type by a conversion: overflow of a finite value into fp16 or bf16 gives the NaN of
class conversion overflow (R62). -/
def fCvtRne (t : FTy) (l : Loc) (neg0 : Bool) (q : Q) : Nat :=
  let r := fRne t neg0 q
  if fIsInf t r && t != .fp32 then mkNan t 4 l else r
/-- An integer result in its element: wrapped to the width (R136). -/
def intEnc (t : Ety) (i : Int) : Nat := wrapN (etyW t) i
/-- The conversion table of R120 (and R136, R137) for one element. -/
def convert (dt st : Ety) (rz : Bool) (l : Loc) (x : Nat) : Nat :=
  if dt = st then
    match etyF dt with
    | some f => if fIsNan f x then fQuiet f x else x
    | none => if dt = .tf6 then x % 64 else x % 2 ^ etyW dt
  else
    match etyF dt with
    | some f =>
      match decVal st l x with
      | .int i => fCvtRne f l false (qInt i)
      | .fin s q => fCvtRne f l s q
      | .inf s => fWithSign f s (fInf f)
      | .nan c nl => mkNan f c nl
    | none =>
      if dt = .tf8 ∨ dt = .tf6 then
        let six := decide (dt = .tf6)
        match decVal st l x with
        | .int i => tapSat six (qInt i)
        | .fin _ q => tapSat six q
        | .inf s => tapInf six s
        | .nan _ _ => tapNan six
      else
        match decVal st l x with
        | .int i => intEnc dt (clampI (intLo dt) (intHi dt) i)
        | .fin _ q => intEnc dt (clampI (intLo dt) (intHi dt) (qToInt rz q))
        | .inf s => intEnc dt (if s then intLo dt else intHi dt)
        | .nan _ _ => 0
/-- An element as a 64-bit register value: integers extended by their signedness, others by zeros (R117, R120). -/
def regOfElem (t : Ety) (x : Nat) : Word :=
  if etySigned t then sext64 (etyW t) x
  else if t = .tf6 then zext64 6 x else zext64 (etyW t) x
/-- A bf16 immediate converted to an operation type, or an extended integer (R34, R35). -/
def immElem (t : Ety) (l : Loc) (imm : Nat) : Nat :=
  match etyF t with
  | some f =>
    if fIsNan .bf16 imm then mkNan f 6 l
    else if fIsInf .bf16 imm then fWithSign f (fNeg .bf16 imm) (fInf f)
    else fRne f (fNeg .bf16 imm) (fQ .bf16 imm)
  | none =>
    if t = .tf8 ∨ t = .tf6 then
      let six := decide (t = .tf6)
      if fIsNan .bf16 imm then tapNan six
      else if fIsInf .bf16 imm then tapInf six (fNeg .bf16 imm)
      else tapSat six (fQ .bf16 imm)
    else if etySigned t then intEnc t (sint 16 imm) else imm % 2 ^ 16 % 2 ^ etyW t

/-! ### Scales -/

/-- 2^(b - 127) exactly (R67). -/
def scaleQ (b : Nat) : Q := qDy 1 ((b : Int) - 127)
/-- The decode of a code to fp32 (R66). -/
def tapDec32 (six : Bool) (l : Loc) (x : Nat) : Nat :=
  if tapIsNan six x then mkNan .fp32 1 l else fRne .fp32 false (tapQ six x)
/-- The scaled decode of R68: fp32 of a code, a block scale and a tensor scale. -/
def scaledDec (six : Bool) (l : Loc) (x b t : Nat) : Nat :=
  if b = 255 then
    (match firstNan .fp32 [mkNan .fp32 7 l, t] with | some n => n | none => 0)
  else
    let y := if tapIsNan six x then mkNan .fp32 1 l else fRne .fp32 (decide ((tapQ six x).n < 0)) (qMul (tapQ six x) (scaleQ b))
    fMul .fp32 l y t
/-- The scaled encode of R68: one rounding of y * 2^(127 - b) / t. -/
def scaledEnc (six : Bool) (y b t : Nat) : Nat :=
  if b = 255 || fIsNan .fp32 t || fIsInf .fp32 t || fIsZero .fp32 t || fIsNan .fp32 y then tapNan six
  else if fIsInf .fp32 y then tapInf six (fNeg .fp32 y != fNeg .fp32 t)
  else tapSat six (qDiv (qMul (fQ .fp32 y) (qDy 1 (127 - (b : Int)))) (fQ .fp32 t))

/-! ### Integer elements -/

/-- The exact value of an integer element by the type's signedness. -/
def elemInt (t : Ety) (x : Nat) : Int := if etySigned t then sint (etyW t) x else ((x % 2 ^ etyW t : Nat) : Int)
/-- Wraps, or clamps in the `.sat` forms (R58). -/
def intRes (t : Ety) (sat : Bool) (i : Int) : Nat :=
  intEnc t (if sat then clampI (intLo t) (intHi t) i else i)

/-! ### Elementary functions (R144): fixed point with 320 fraction bits, then one rounding -/

/-- Fraction bits of the fixed-point values. -/
def fxP : Nat := 320
/-- Sum of z^k / k! from k on, in fixed point. -/
def expSeries (z : Int) : Nat → Nat → Int → Int
  | 0, _, _ => 0
  | fuel + 1, k, term => term + expSeries z fuel (k + 1) (term * z / (2 ^ fxP * (k + 1 : Int)))
/-- atanh(z) = z + z^3/3 + z^5/5 + ... in fixed point. -/
def atanhSeries (z2 : Int) : Nat → Nat → Int → Int
  | 0, _, _ => 0
  | fuel + 1, k, p => p / (2 * k + 1 : Int) + atanhSeries z2 fuel (k + 1) (p * z2 / 2 ^ fxP)
/-- ln 2 = 2 atanh(1/3) in fixed point. -/
def fxLn2 : Int := 2 * atanhSeries (2 ^ fxP / 9) 110 0 (2 ^ fxP / 3)
/-- e^q as (mantissa in fixed point, power of two): q = k ln 2 + r. -/
def expFx (q : Q) : Int × Int :=
  let x : Int := q.n * 2 ^ fxP / (q.d : Int)
  let k : Int := x / fxLn2
  (expSeries (x - k * fxLn2) 80 0 (2 ^ fxP), k)
/-- e^q as an exact quotient within 2^-290 of the value. -/
def expQ (q : Q) : Q :=
  let (m, k) := expFx q
  qMul ⟨m, 2 ^ fxP⟩ (qDy 1 k)
/-- ln of a positive quotient, as a quotient within 2^-290 of the value. -/
def lnQ (q : Q) : Q :=
  let n := q.n.natAbs
  let e0 := qLog2 n q.d
  -- m in [1, 2); above 3/2 take half of it
  let (a, b) := if 0 ≤ e0 then (n, q.d * 2 ^ e0.toNat) else (n * 2 ^ (-e0).toNat, q.d)
  let up := decide (3 * b < 2 * a)
  let b' := if up then 2 * b else b
  let e := if up then e0 + 1 else e0
  let z : Int := ((a : Int) - b') * 2 ^ fxP / ((a : Int) + b')
  ⟨2 * atanhSeries (z * z / 2 ^ fxP) 160 0 z + e * fxLn2, 2 ^ fxP⟩
/-- Square root of a nonnegative quotient with a sticky bit, so that one rounding of it is right. -/
def sqrtQ (q : Q) : Q :=
  let n := q.n.natAbs * q.d * 2 ^ 640
  let s := isqrt n
  ⟨2 * s + (if s * s = n then 0 else 1 : Nat), q.d * 2 ^ 321⟩
/-- `vexp`: e^a correctly rounded (R144). -/
def fExp (t : FTy) (a : Nat) : Nat :=
  if fIsNan t a then fQuiet t a
  else if fIsInf t a then (if fNeg t a then 0 else fInf t)
  else if fIsZero t a then fRne t false (qInt 1)
  else if qLt (qInt 200) (fQ t a) then fInf t
  else if qLt (fQ t a) (qInt (-200)) then 0
  else fRne t false (expQ (fQ t a))
/-- `vln` (R144). -/
def fLn (t : FTy) (l : Loc) (a : Nat) : Nat :=
  if fIsNan t a then fQuiet t a
  else if fIsZero t a then fWithSign t true (fInf t)
  else if fNeg t a then mkNan t 2 l
  else if fIsInf t a then a
  else if (fQ t a).n = (fQ t a).d then 0
  else fRne t false (lnQ (fQ t a))
/-- `vrcp` (R144). -/
def fRcp (t : FTy) (a : Nat) : Nat :=
  if fIsNan t a then fQuiet t a
  else if fIsZero t a then fWithSign t (fNeg t a) (fInf t)
  else if fIsInf t a then fWithSign t (fNeg t a) 0
  else fRne t false (qDiv (qInt 1) (fQ t a))
/-- `vrsq` (R144). -/
def fRsq (t : FTy) (l : Loc) (a : Nat) : Nat :=
  if fIsNan t a then fQuiet t a
  else if fIsZero t a then fWithSign t (fNeg t a) (fInf t)
  else if fNeg t a then mkNan t 2 l
  else if fIsInf t a then 0
  else fRne t false (sqrtQ (qDiv (qInt 1) (fQ t a)))
/-- `vsig` = 1 / (1 + e^-a) (R144). -/
def fSig (t : FTy) (a : Nat) : Nat :=
  if fIsNan t a then fQuiet t a
  else if fIsInf t a then (if fNeg t a then 0 else fRne t false (qInt 1))
  else if qLt (qInt 200) (fQ t a) then fRne t false (qInt 1)
  else if qLt (fQ t a) (qInt (-200)) then 0
  else fRne t false (qDiv (qInt 1) (qAdd (qInt 1) (expQ (qNeg (fQ t a)))))

end Sys2Proof.Machine
end

