-- ==== Sys2Proof/Machine/State.lean ====
section
/-! DEFINITION. The state of the whole device as plain data: every register, queue, table and memory the manual names,
and the state right after device reset. -/

namespace Sys2Proof.Machine

/-- Why a step stops the model. Raised by every meaning through `onCl`, `onQ`: the instruction belongs to an agent of
another kind than the one that is moving. Safe: `step` never asks for it. -/
inductive Fault | wrongAgent
  deriving DecidableEq, Repr
/-- An instruction without a meaning, raised by its arm of `exec` (safe). -/
inductive Refusal | notModelled (mnemonic : String)
  deriving DecidableEq, Repr

/-- The contexts of a cluster: K has all three (R83, R292). -/
inductive CtxK | user | fw | pager
  deriving DecidableEq, Repr
/-- Which agent a step belongs to: a context of a cluster, the head of an engine queue, or the device. -/
inductive Agent | cl (core : Nat) (c : Cluster) (x : CtxK) | eq (core q : Nat) | dev
  deriving DecidableEq, Repr
/-- Parties of the memory order (R186). `past` names party `no` of an instance that is no longer on its core: one that has completed, or that
is saved (R91, R300); the next instance's parties are others. `dev` is the device's own walks and writes, no party of R186 but a part of the
device (DEDUCED, log 99). -/
inductive Party
  | cl (core : Nat) (c : Cluster) (x : CtxK) | cmd (core unit id : Nat) | thr (stack id : Nat) | host | peer (d : Nat)
  | past (launch core no : Nat) | dev
  deriving DecidableEq, Repr
/-- A write as one that observes it sees it: its writer, and how many of that writer's releases came before it (R190). Releases that
published nothing below `.sy` are not counted. -/
abbrev Obs := Party × Nat
/-- The fault types of R289. -/
inductive FT
  | illegalOpcode | illegalCluster | illegalPrivilege | illegalModifier | illegalOperand
  | pcRange | loopState | overlayMissing | misaligned | runDeadlock | userTrap | requestNotOpen
  | pageFault | addrUnmapped | spadRange | spadWindow | streamInvalid | poisonConsumed | atomicTarget | waitTarget | copyAddress
  | ewordUndefined | matrixConfig | matrixPoison | matrixReplayLost | matrixUncorrectable | controlDivergence | linkTimeout | digit | sheafLost
  | arenaInvalid | arenaSplit | arenaFormat | pinUnderflow | waitExhausted | waitDeadlock | barrierUnreachable
  | launchMalformed | imageMalformed | malformedLength | packetUndefined | ringOverrun | preemptLate | requestCancelled | recordLost
  | pagerFault | preemptSaveFailed | completionLost
  deriving DecidableEq, Repr
/-- The party that a record stopped, to which its answer is applied. -/
inductive Who
  | cl (core : Nat) (c : Cluster) | fw (core : Nat) | queue (core q : Nat) | mop (core id : Nat) | cmd (core id : Nat) | thr (stack id : Nat)
  | ring (r : Nat) | xid (x : Nat) | watch (core w : Nat) | save (core : Nat) | run (core : Nat) | nobody
  deriving DecidableEq, Repr
/-- A fault record with the fields of R288, whether a peer returned it, the party it stopped, and the unit of a WAIT_DEADLOCK event. -/
structure FRec where
  ty : FT
  cause : Nat := 0
  prec : Bool := false
  unit : Nat := 0
  queue : Nat := 0
  core : Nat := 0
  cluster : Nat := 0
  wh : Nat := 0
  rq : Nat := 0
  slot : Nat := 0
  addr : Nat := 0
  raw : Nat := 0
  aux0 : Nat := 0
  aux1 : Nat := 0
  peer : Nat := 0
  far : Bool := false
  token : Nat := 0
  eseq : Nat := 0
  meters : List Nat := []
  who : Who := .nobody
  ring : Nat := 0
  launch : Nat := 0
  event : Option Nat := none
  deriving DecidableEq, Repr

/-- A hardware loop level (R83, R102). -/
structure Level where
  start : Nat := 0
  fin : Nat := 0
  count : Nat := 0
  armed : Bool := false
  rot : Bool := false
  deriving DecidableEq, Repr
/-- What a wait waits on (R202, R314, R317, R319). -/
inductive WaitOn
  | sg (n : Nat) (c : SCond) (cmp : Word) | mem (isNear : Bool) (addr : Nat) (t : ATy) (c : MCond) (cmp : Word)
  | barCo (ticket : Nat) | barDv (b ticket : Nat)
  deriving DecidableEq, Repr
/-- What a wait fired on: the value, whether it was poisoned (R206), and the writes that it observed (R190). -/
structure Fire where
  v : Word
  bad : Bool := false
  obs : List Obs := []
  deriving DecidableEq, Repr
/-- A wait: its slot (or its place in the queue for one), what it fired on, and `told` while a deadlock record names it (R316). -/
structure Wait where
  on : WaitOn
  slot : Bool
  fired : Option Fire
  told : Bool
  deriving DecidableEq, Repr
/-- Why the syllable at the program counter did not issue (R92). -/
inductive Blocked | no | qEmpty (n : Nat) | qFull (n : Nat) | other
  deriving DecidableEq, Repr
/-- Scalar registers, predicates, program counter and loop levels of a context (R83, R105); `order` lists the armed levels, the
most recently armed first; `rotN` and `rotStarted` are n and started of R103. Then why the syllable at the
program counter has not issued, its wait and, while that queues for a slot, its place in the order of arrival (R202, R314), its barrier
tickets, those of the code that an interrupt handler has cut short (R317, R319, R324), and whether an answer from a peer or from sheaf
copies is outstanding. -/
structure Ctx where
  x : Sparse Word := []
  p : BitVec 16 := 0
  pc : Nat := 0
  lv : Sparse Level := []
  order : List Nat := []
  rotN : Nat := 0
  rotStarted : Nat := 0
  blocked : Blocked := .no
  wait : Option Wait := none
  arrival : Nat := 0
  tickCo : Option Nat := none
  tickDv : Option (Nat × Nat) := none
  cutCo : Option Nat := none
  cutDv : Option (Nat × Nat) := none
  peerWait : Bool := false
  sheafBusy : Option Nat := none
  sheafRes : Option (Nat × Bool) := none
  deriving DecidableEq, Repr
/-- What an execute cluster holds besides (R84, R123, R368, R375). -/
structure XSt where
  v : Sparse VReg := []
  m : Sparse Mask := []
  sp : BitVec 8 := 0
  rrb : Nat := 0
  dt : Sparse VReg := []
  digitinfo : Word := 0
  dtVec : Nat := 0
  dtEn : Bool := false
  dtActive : Bool := false
  dtRet : Nat := 0
  deriving DecidableEq, Repr
/-- Whether a cluster has a stream (R91, R269). -/
inductive Run | off | on | exited | killed
  deriving DecidableEq, Repr
/-- One cluster of a core. -/
structure Clu where
  ctx : Ctx := {}
  rqi : Nat := 0
  run : Run := .off
  stop : Option Nat := none
  syncCnt : Nat := 0
  syncWait : Bool := false
  safeStop : Bool := false
  safeId : Nat := 0
  fwStall : Bool := false
  idling : Bool := false
  skipOne : Bool := false
  imem : Sparse Word := []
  xs : XSt := {}
  sr : Sparse SReg := []
  deriving DecidableEq, Repr

/-- One nest level of a matrix shadow (R212): steps as raw six-bit fields. -/
structure MLvl where
  count : Nat := 0
  sa : BitVec 6 := 0
  sb : BitVec 6 := 0
  st : BitVec 6 := 0
  deriving DecidableEq, Repr
/-- The shadow configuration of a matrix queue (R212). -/
structure MShadow where
  gang : Nat := 0
  af : Ety := .tf8
  bf : Ety := .tf8
  kb : Nat := 8
  rows : Nat := 128
  tbase : Nat := 0
  sra : Nat := 0
  srb : Nat := 0
  ta : Nat := 0x3F800000
  tb : Nat := 0x3F800000
  lv : Sparse MLvl := []
  deriving DecidableEq, Repr
/-- One nest level of a copy shadow (R235). -/
structure CLvl where
  count : Nat := 0
  ds1 : BitVec 10 := 0
  dd1 : BitVec 10 := 0
  ds2 : BitVec 9 := 0
  dd2 : BitVec 9 := 0
  deriving DecidableEq, Repr
/-- The shadow configuration of a copy queue (R235). -/
structure CShadow where
  srs : Nat := 0
  srd : Nat := 0
  sls : Nat := 0
  sld : Nat := 0
  lv : Sparse CLvl := []
  swzs : BitVec 10 := 0
  swzd : BitVec 10 := 0
  bms : Nat := 0
  bmd : Nat := 0
  hold : BitVec 8 := 0
  deriving DecidableEq, Repr
/-- What the gleaner holds of K's user context: registers, predicates and stage predicates, program counter and loop levels, `rqi` and
identity riders, and whether an interrupt handler runs and where it returns to (R297). -/
structure GCopy where
  x : Sparse Word := []
  p : BitVec 16 := 0
  sp : BitVec 8 := 0
  pc : Nat := 0
  lv : Sparse Level := []
  order : List Nat := []
  rotN : Nat := 0
  rotStarted : Nat := 0
  rqi : Nat := 0
  idMap : Sparse Nat := []
  idDef : Nat := 0
  idSet : List Nat := []
  setk : Bool := false
  uli : Bool := false
  uliRet : Nat := 0
  deriving DecidableEq, Repr
/-- A point of the gleaner's run: its own state there, the syllables it had executed since the launch, and the records and the
values that had entered its input log (R297). -/
structure GPoint where
  copy : GCopy := {}
  n : Nat := 0
  pos : Nat := 0
  vals : Nat := 0
  deriving DecidableEq, Repr
/-- A record of the gleaner's input log, before or at syllable `n`: K's copy before and after what reached it between two syllables (an answer
that came late, the result of a service, an interrupt entry), or what the syllable received: the entries popped from `q14` and `q15`, registers and
predicates (R297). -/
structure GRec where
  n : Nat
  fed : Option (GCopy × GCopy) := none
  p14 : List Word := []
  p15 : List Word := []
  xs : List (Nat × Word) := []
  ps : List (Nat × Bool) := []
  deriving DecidableEq, Repr
/-- Syllables of K's instruction memory that an overlay replaced before syllable `n`. -/
structure GCode where
  n : Nat
  base : Nat
  old : List Word
  deriving DecidableEq, Repr
/-- The gleaner: where it is in its run, K's copy after K's last syllable, its checkpoint at the launch or the resume, and its input log with
the latest record last (R297). -/
structure Glean where
  now : GPoint := {}
  seen : GCopy := {}
  first : GPoint := {}
  log : List GRec := []
  code : List GCode := []
  deriving DecidableEq, Repr
/-- An engine word in its queue: the word, and the gleaner's word for the same position, if it has one (R44, R297), identity and
riders (R154, R220, R243), the order of its push, the gleaner's point at its push (R297), and the shadow that a word parked by a halt keeps (R221, R245). -/
structure QWord where
  w : BitVec 48
  g : Option (BitVec 48)
  fwPushed : Bool := false
  rqi : Nat := 0
  idMap : List Nat := []
  idSet : List Nat := []
  seq : Nat := 0
  point : GPoint := {}
  keepM : Option MShadow := none
  keepC : Option CShadow := none
  obs : List Obs := []
  deriving DecidableEq, Repr
/-- The kinds of operation word (R217). -/
inductive MKind | plane | go | drain
  deriving DecidableEq, Repr
/-- An operation entry of the matrix engine (R213, R217): the issued word, the copy of its shadow and of its stream registers,
the next iteration or row, the plane in use, the bytes fetched, the rows withheld, the tile rows it has written, whether it failed a
check in this replay and whether it committed before (R222, R224), the record it stands at, and its governing marker: the engine's number
and the queue's word number there (R224, R231). -/
structure MOp where
  id : Nat
  q : Nat
  kind : MKind
  word : QWord
  sh : MShadow
  sa : SReg := 0
  sb : SReg := 0
  iter : Nat := 0
  plane : Nat := 0
  lastSb : Option Int := none
  planeBytes : Nat := 0
  rowBytes : Sparse Nat := []
  masked : List Nat := []
  fresh : List Nat := []
  skipPoison : Bool := false
  failed : Bool := false
  again : Bool := false
  stop : Option Nat := none
  mkId : Nat := 0
  mkNo : Nat := 0
  deriving DecidableEq, Repr
/-- An issued word in the retained window, with the operation that it started (R154, R224). -/
structure Win where
  word : QWord
  op : Option MOp := none
  deriving DecidableEq, Repr
/-- An engine queue: unissued words, retained window (latest last), words issued since the governing marker, words issued since launch or
resume, the engine's number and the word's number at the marker (word 0 is the launch or the resume), the gleaner's checkpoint of its push, the
record that a head word stands at and the push order of that word, the pass-over count and the parked words (R154, R218, R221, R224,
R226, R297). -/
structure EQ where
  words : List QWord := []
  window : List Win := []
  since : Nat := 0
  issued : Nat := 0
  markId : Nat := 0
  markNo : Nat := 0
  mark : Option GPoint := none
  stop : Option Nat := none
  stopSeq : Nat := 0
  passed : Nat := 0
  parked : List QWord := []
  deriving DecidableEq, Repr
/-- One aligned block of a plane column: a special class or 32 aligned values and the exponent (R74, R76, R207). -/
structure Block where
  spec : Option Nat := none
  e : Int := 0
  q : List Int := []
  deriving DecidableEq, Repr
/-- One of the two planes of the 16 glumes; key (256 * glume + column) * 8 + block; `chk` is the checksum column (R207), `src` the word
that last loaded it (R225). -/
structure Plane where
  loaded : Bool := false
  blocks : Sparse Block := []
  chk : Sparse Int := []
  src : Option MOp := none
  deriving DecidableEq, Repr
/-- One row of an accumulator tile (R210, R211); an unlisted row is all +0 with SUM 0. -/
structure TRow where
  d : Nat := 0
  sum : BitVec 32 := 0
  id : Nat := 0
  stale : Bool := false
  deriving DecidableEq, Repr
/-- A copy command (R235 to R245): `phase` is 0 at an iteration boundary, 1 while a read from a peer is out, 2 with its data in `got`
(a bit of `gotPoison` for each poisoned granule), 3 while a write to a peer is out, 4 when it has been acknowledged, 5 while the check
of its stream registers has failed, 6 while it waits for its pins again. `flits` are those of the iteration's packets. -/
structure Cmd where
  id : Nat
  q : Nat
  word : QWord
  sh : CShadow
  ss : SReg := 0
  sd : SReg := 0
  run : Nat := 1
  zf : Bool := false
  ids : List Nat := []
  hold : BitVec 8 := 0
  iter : Nat := 0
  phase : Nat := 0
  flits : Nat := 0
  parked : Bool := false
  stop : Option Nat := none
  got : List Byte := []
  gotPoison : Nat := 0
  wroteSy : Bool := false
  deriving DecidableEq, Repr
/-- An entry of a translation cache: whether it is the pager's, the partition, the virtual base, the size in bytes, the leaf, and the
table entry that the walker read it from (R163, R165). -/
structure TlbE where
  pg : Bool
  part : Nat
  base : Nat
  size : Nat
  leaf : Word
  ent : Option Nat
  deriving DecidableEq, Repr
/-- A walk that goes on beside the clusters: the cache it fills (0 K, 1 the pager in K, 2 A, 3 and 4 the engines), the address, and
whether it holds a tag of its cluster (R166, R174, R181). -/
structure Walk where
  cache : Nat
  part : Nat
  va : Nat
  tag : Bool
  deriving DecidableEq, Repr
/-- A prefetched step of a primed stream register: its address, the bytes read, and which of them lay in poisoned granules (R174). -/
structure PStep where
  sr : Nat
  addr : Nat
  bytes : List Byte
  bad : List Bool
  deriving DecidableEq, Repr
/-- An overlay copy under way (04, `ovl`). -/
structure OvlLoad where
  cl : Cluster
  base : Nat
  words : List Word
  deriving DecidableEq, Repr
/-- An armed interrupt watch (R329); `told` while a deadlock record names it (R316). -/
structure Watch where
  n : Nat
  c : SCond
  cmp : Word
  slot : Bool
  told : Bool := false
  deriving DecidableEq, Repr
/-- What the resident pager serves (R293, R295). -/
inductive PagerRun | idle | trap (r : FRec) | request (wh : Nat) (d : SOp)
  deriving DecidableEq, Repr
/-- The instance on a core: its launch, its number, its coordinates, whether it has started (R88, R90). -/
structure Inst where
  launch : Nat
  index : Nat
  part : Nat
  coords : List Nat
  started : Bool
  deriving DecidableEq, Repr
/-- Power states (R390); a core without a partition and without an instance is in L2. -/
inductive Pwr | l0 | l1 | l2
  deriving DecidableEq, Repr
/-- K's own state beside its cluster: firmware and pager contexts, interrupts, riders, system registers (R83, R98, R263, R292, R296, R323).
`slept` numbers the sleeps in which its registers were lost, the model's own field (R390). -/
structure KSt where
  fw : Ctx := {}
  fwRqi : Nat := 0
  fwReady : Bool := false
  pager : Ctx := {}
  pagerRqi : Nat := 0
  pagerMem : Sparse Word := []
  pagerRun : PagerRun := .idle
  pagerQ : List FRec := []
  fr : Sparse Word := []
  fwshare : Nat := 2
  fwslots : Word := 0
  slotCtr : Nat := 0
  owed : Nat := 0
  slept : Nat := 0
  uliVec : Nat := 0
  uliEn : Bool := false
  uliActive : Bool := false
  uliPend : Nat := 0
  uliObs : List Obs := []
  uliRet : Nat := 0
  watches : Sparse Watch := []
  idMap : Sparse Nat := []
  idDef : Nat := 0
  idSet : List Nat := []
  setk : Bool := false
  deriving DecidableEq, Repr
/-- The engines of a core: queues, shadows, planes, tiles, operations and commands (R13, R154, R207 to R257). `wrote` holds, for a
tile, the queues that wrote it, each with its last operation and the engine's number at that write (R224). `ceSy` lists the copy queues with commands that wrote to a peer or to the host
since their last `c.sig`, `everSy` says whether any command of K's user context did in this launch (R327), `tokObs` holds for each token
the commands that have released it, `thOut` the thresher commands of `th` that have not completed (R198, R348). -/
structure Eng where
  eq : Sparse EQ := []
  pushSeq : Nat := 0
  msh : Sparse MShadow := []
  planes : Sparse Plane := []
  tiles : Sparse TRow := []
  wrote : Sparse (List (Nat × Nat × Nat)) := []
  mops : List MOp := []
  replays : Nat := 0
  csh : Sparse CShadow := []
  cmds : List Cmd := []
  ceSy : List Nat := []
  everSy : Bool := false
  tokObs : Sparse (List Obs) := []
  nextId : Nat := 0
  thOut : List Nat := []
  deriving DecidableEq, Repr
/-- A place of a queue whose value is still to come: the entry that an outstanding access of a context has reserved, or a scalar that was
pushed behind one (R109). -/
structure Late where
  q : Nat
  x : CtxK
  v : Option (Obs × Word) := none
  deriving DecidableEq, Repr
/-- One core. `late` are the queue entries behind which values are still to come, in the order of their issue. -/
structure Core where
  k : Clu := {}
  a : Clu := {}
  x0 : Clu := {}
  x1 : Clu := {}
  ks : KSt := {}
  eng : Eng := {}
  kdm : List Host.Cell := []
  spad : List Host.Cell := []
  spadEpoch : Nat := 0
  lsmask : BitVec 4 := 15
  lsmaskNext : Option (BitVec 4) := none
  inRun : Bool := false
  runClk : Bool := false
  runstall : Word := 0
  vq : Sparse (List VReg) := []
  sq : Sparse (List Word) := []
  q13b : List Word := []
  defV : List (Nat × VReg) := []
  defS : List (Nat × Obs × Word) := []
  late : List Late := []
  qObs : Sparse (List Obs) := []
  hc : Sparse (BitVec 8) := []
  hcObs : Sparse (List Obs) := []
  popN : Sparse Nat := []
  hcPost : Sparse Nat := []
  hcTook : Sparse Nat := []
  sg : Sparse Word := []
  sgObs : Sparse (List Obs) := []
  barGen : Nat := 0
  barArr : List Nat := []
  barNext : List Nat := []
  barObs : List Obs := []
  barNextObs : List Obs := []
  barDone : List Obs := []
  frozen : Bool := false
  freezeMore : Bool := false
  cefreeze : Word := 0
  gleanfix : Word := 0
  gl : Glean := {}
  dbgQuiet : Bool := false
  dbgPorous : Bool := false
  dbgNext : Option (Bool × Bool) := none
  pwr : Pwr := .l2
  waking : Bool := false
  pwrlimit : BitVec 12 := 4095
  inst : Option Inst := none
  lastPart : Option Nat := none
  preempt : Bool := false
  preLate : Bool := false
  tlbK : List TlbE := []
  tlbA : List TlbE := []
  tlbM : List TlbE := []
  tlbC : List TlbE := []
  walks : List Walk := []
  pre : List PStep := []
  tagsK : Nat := 0
  tagsA : Nat := 0
  tagsC : Nat := 0
  tagsF : Nat := 0
  ovl : List OvlLoad := []
  deriving DecidableEq, Repr

/-- A device barrier (R318); OWNER 31 is free. `gen` is held unwrapped and shown modulo 2^16. `told` names the arrivals reported in this
spell, by party and ticket (R321); `obs`, `nextObs` and `doneObs` are the arrivals of this generation, of the next and of the last that
fired, as their waiters observe them (R190). -/
structure Barrier where
  owner : Nat := 31
  mask : BitVec 64 := 0
  expect : Nat := 0
  arrived : Nat := 0
  arrmask : BitVec 64 := 0
  next : BitVec 64 := 0
  gen : Nat := 0
  told : List (Party × Nat) := []
  obs : List Obs := []
  nextObs : List Obs := []
  doneObs : List Obs := []
  deriving DecidableEq, Repr
/-- The states of a request-table entry (R260). -/
inductive RqSt | free | open | halted | draining | cancelling
  deriving DecidableEq, Repr
/-- A request-table entry (R259). -/
structure Rq where
  st : RqSt := .free
  part : Nat := 0
  meters : Sparse Nat := []
  seq : BitVec 32 := 1
  record : Nat := 0
  deriving DecidableEq, Repr
/-- A sheaf region (R354, R355): the stacks in ascending order and the base of the copy on each. -/
structure Region where
  sites : List Nat
  bases : List Nat
  cells : Nat
  deriving DecidableEq, Repr
/-- A partition (R384, R387, R389, R160). -/
structure Part where
  live : Bool := false
  dying : Bool := false
  cmask : BitVec 64 := 0
  vfmask : BitVec 64 := 0
  devset : BitVec 256 := 0
  plat : Nat := 0
  quota : Nat := 0
  key : Nat := 0
  policy : BitVec 5 := 0
  block : Nat := 0
  nonce : Nat := 0
  tenant : Option Nat := none
  ptroot : Word := 0
  regions : Sparse Region := []
  trbase : Nat := 0
  trlog : Nat := 0
  trwr : Nat := 0
  trrd : Nat := 0
  trdrop : Nat := 0
  deriving DecidableEq, Repr
/-- A LAUNCH packet that has passed the checks of R87 and R89. -/
structure LPkt where
  slot : Nat
  rq : Nat
  cls : Nat
  image : Nat
  argbase : Nat
  handoff : List Nat
  prime : List (Nat × SReg)
  compl : Nat
  compval : Nat
  kinds : List Nat
  counts : List Nat
  cmask : BitVec 64
  lattol : Nat
  deriving DecidableEq, Repr
/-- A ring pair: the descriptor of R281, the deficit of R99, the packet that waits at the head, the records held and pending
(R286, R291) and the counters. -/
structure Ring where
  savebase : Nat := 0
  savestride : Nat := 0
  quantum : Nat := 0
  rdmirror : Nat := 0
  exqrd : BitVec 32 := 0
  exqwr : BitVec 32 := 0
  dpart : Nat := 0
  dlocal : Nat := 0
  exqbase : Nat := 0
  rdidx : BitVec 32 := 0
  wridx : BitVec 32 := 0
  ringbase : Nat := 0
  die : Nat := 0
  state : Nat := 0
  exqlog : Nat := 0
  ringlog : Nat := 0
  deficit : Int := 0
  head : Option LPkt := none
  held : List FRec := []
  pend : List FRec := []
  unwritable : Bool := false
  refused : Nat := 0
  ignored : Nat := 0
  deriving DecidableEq, Repr
/-- A registered image: its partition, the bytes of its file, their number and the data base (R53, R55). -/
structure Image where
  part : Nat
  file : List Host.Cell
  size : Nat
  database : Nat
  deriving DecidableEq, Repr
/-- Memories as homes see them (R160, R188): device memory, near store, host memory, a core's scratchpad, K's control data memory. -/
inductive Space | dram | near | host | spad (core : Nat) | kdm (core : Nat)
  deriving DecidableEq, Repr
/-- A store that not every party sees yet (R189): the writer, the bytes, the scope published so far (0 none, 1 to 5 for the
codes of R187 plus 1), the least scope that publishes it (R197), the parties for which it is required (R190), the store as an observer
sees it, and the releases that published it: the party, the number of its release, and the level (R190, R194). -/
structure PStore where
  who : Party
  sp : Space
  addr : Nat
  bytes : List Byte
  lvl : Nat
  least : Nat
  req : List Party
  obs : Obs
  pubs : List (Party × Nat × Nat) := []
  deriving DecidableEq, Repr
/-- Where the answer to an access goes: nowhere, a scalar destination of a type, a vector queue. -/
inductive PDest | none | scalar (d : SOp) (t : Ety) | vector (q : Nat) (t : Ety)
  deriving DecidableEq, Repr
/-- What waits for the answer to a packet (R159, R248, R254, R258): an access of K or A with its syllable index and, for an atomic with
an acquire, the level of that (R193), a
signal packet of K, an iteration's read or write of a copy command, a `c.sig`, which the firmware or the pager may have pushed; or the packet is itself an answer. -/
inductive Why
  | access (core : Nat) (c : Cluster) (x : CtxK) (wh : Nat) (d : PDest) (addr raw n : Nat) (acq : Option Nat)
  | pkt (core : Nat) (x : CtxK) (wh rqi raw : Nat) | copyRead (core id : Nat) | copyWrite (core id : Nat) | csig (core q : Nat) (raw : Nat) (fw : Bool) | answer
  deriving DecidableEq, Repr
/-- A packet, with who waits for its answer: whether it has left for its link, whether it has reached this device itself, whether
its target has parked it or its park store was full, whether it is sent again, the record it stands at, and for a signal the releases
before it, as an observer sees them (R190, R247, R249, R250, R268). -/
structure Out where
  p : Packet
  why : Why
  sent : Bool := false
  got : Bool := false
  parked : Bool := false
  retry : Bool := false
  again : Bool := false
  stop : Option Nat := none
  obs : List Obs := []
  deriving DecidableEq, Repr
/-- Where a launch stands (R88, R91, R300). -/
inductive LSt | placed | running | saved | done
  deriving DecidableEq, Repr
/-- A saved instance: its core, what is restored, the scratchpad ranges that come back, or all of it, and its packets that stand at records
(R299, R300). -/
structure Saved where
  core : Nat
  o : Core
  keep : Option (List (Nat × Nat)) := none
  outs : List Out := []
  deriving DecidableEq, Repr
/-- A launch: its packet, its ring, its cores in instance order, and its saved instances (R300). -/
structure Launch where
  id : Nat
  ring : Nat
  part : Nat
  pkt : LPkt
  cores : List Nat
  left : List Nat
  st : LSt := .placed
  killed : Bool := false
  preempt : Bool := false
  saved : List Saved := []
  deriving DecidableEq, Repr
/-- A link: credits in use, flits dropped, and the core whose command it served last (R247, R249). -/
structure Link where
  used : Nat := 0
  drops : Nat := 0
  last : Nat := 63
  deriving DecidableEq, Repr
/-- A slot pin (R338, R340): its key, the owners of its read pins, and the owner of its exclusive pin. -/
structure Pin where
  part : Nat
  slot : Nat
  readers : List Nat
  excl : Option Nat
  deriving DecidableEq, Repr
/-- A waiting pin request (R338, R339): its key and kind, its owner, its place in the order of arrival, and the thresher command
that it is for. -/
structure PinReq where
  part : Nat
  slot : Nat
  excl : Bool
  owner : Nat
  ord : Nat
  forThr : Option Nat
  deriving DecidableEq, Repr
/-- A thresher command (R341). -/
structure ThCmd where
  id : Nat
  core : Nat
  launch : Nat
  part : Nat
  word : QWord
  i : Instr
  srs : List SReg
  row : Nat := 0
  pinned : Bool := false
  stop : Option Nat := none
  deriving DecidableEq, Repr
/-- A thresher (R334 to R348). -/
structure Thr where
  pins : List Pin := []
  waiting : List PinReq := []
  cmds : List ThCmd := []
  deriving DecidableEq, Repr
/-- A write to a signal unit on its way (R312): the target, the operation, the ULIPEND bit raised with it. -/
structure SigMsg where
  core : Nat
  n : Nat
  o : SigOp
  v : Word
  uli : Option Nat := none
  obs : List Obs := []
  deriving DecidableEq, Repr
/-- Kinds of sheaf-cell operation (R362 to R364). -/
inductive ShKind | mld | mst | mcas | mrepair
  deriving DecidableEq, Repr
/-- A sheaf-cell operation (R356 to R364): phase 0 reads, 1 waits for holders after a read, 2 waits for acceptances, 3 waits for
holders after a commit, 4 has returned its result. `val` and `tag` are what was read, `prop` is the tag of the proposal; `rd` counts the
copies that answered a read before the result, `left` the cells that a repair has still to do after this one; `sites` are the
region's stacks, `gone` those that did not answer in time, `obs` the releases before a store, as its readers see them (R190, R200). -/
structure ShOp where
  id : Nat
  core : Nat
  c : Cluster
  kind : ShKind
  wantTag : Bool := false
  part : Nat
  region : Nat
  cell : Nat
  sites : List Nat
  ids : List Nat
  expv : Nat := 0
  newv : Nat := 0
  left : Nat := 0
  phase : Nat := 0
  reads : List (Nat × Nat × Nat × Nat) := []
  holds : List Nat := []
  oks : List Nat := []
  nos : List Nat := []
  gone : List Nat := []
  val : Nat := 0
  tag : Nat := 0
  prop : Nat := 0
  committed : Bool := false
  rd : Nat := 0
  changed : Nat := 0
  obs : Obs := (.host, 0)
  deriving DecidableEq, Repr
/-- A message to a copy (R356). -/
inductive ShMsgK | read | propose (v t tb : Nat) (cas : Bool) | commit (v t : Nat) | abort (t : Nat)
  deriving DecidableEq, Repr
structure ShMsg where
  op : Nat
  stack : Nat
  part : Nat
  region : Nat
  cell : Nat
  m : ShMsgK
  deriving DecidableEq, Repr
/-- A copy's answer (R356). -/
inductive ShAnsK | read (v t pt : Nat) | prop (ok : Bool) | holds (t : Nat) (h changed : Bool)
  deriving DecidableEq, Repr
structure ShAns where
  op : Nat
  stack : Nat
  cell : Nat
  a : ShAnsK
  deriving DecidableEq, Repr
/-- SPDM answers (R388). -/
inductive SpdmResp
  | version | capabilities | algorithms | digests | certificate | challengeAuth (nonce : Nat) (m : List (BitVec 384))
  | measurements (nonce : Nat) (m : List (BitVec 384)) | keyExchange | finish | endSession | error
  deriving DecidableEq, Repr
/-- SPDM state of a function (R388). -/
structure Spdm where
  ver : Bool := false
  caps : Bool := false
  algs : Bool := false
  keyex : Bool := false
  session : Bool := false
  peer : Option Nat := none
  key : Nat := 0
  deriving DecidableEq, Repr
/-- What the winnow trigger latches: the program-visible blocks of R392. -/
structure Bank where
  event : Nat
  tag : Nat
  cores : Sparse Core
  rq : Sparse Rq
  thr : Sparse Thr
  links : Sparse Link
  deriving DecidableEq, Repr
/-- The winnow control (R392, R393). -/
structure Winnow where
  fwd : Bool := false
  faults : BitVec 28 := 0
  missed : BitVec 16 := 0
  event : BitVec 16 := 0
  bank : Option Bank := none
  deriving DecidableEq, Repr

/-- What moves next: an agent, a clk of a lockstep run, the head of an engine queue, a step of the device or of the host; or what
comes from outside the manual's steps: an image that the host registers (R55), the pager image of a core and the start of its firmware
context (R292), an uncorrectable error in a granule (R176), and K's or the gleaner's error in a pushed word (R297). -/
inductive Act
  | cl (core : Nat) (c : Cluster) (x : CtxK) | run (core : Nat) | eq (core q : Nat) | ev (i : Instr)
  | register (handle : Nat) (im : Image) | pagerImage (core : Nat) (words : List Word) | fwStart (core pc : Nat)
  | upset (key : Nat) | wrongWord (core q idx : Nat) (w : BitVec 48) (g : Option (BitVec 48)) | upsetK (core : Nat) (c : GCopy)
  | upsetGleaner (core : Nat) (c : GCopy)
  deriving DecidableEq, Repr

/-- Host registers and device-wide counters; `lastRing` is the ring that each die last served, `stuck` the dies whose front end has
stopped choosing (R99). -/
structure Dev where
  modForm : Bool := false
  mydev : BitVec 8 := 0
  sheafdown : BitVec 12 := 0
  scale : Nat := 16
  lastPower : Nat := 0
  partstat : BitVec 8 := 0
  route : Sparse (BitVec 8) := []
  win : Winnow := {}
  l3 : Bool := false
  hbmWaking : Bool := false
  fwBoot : Nat := 0
  fwRun : Nat := 0
  vfs : Sparse Nat := []
  spdm : Sparse Spdm := []
  spdmOut : List (Nat × SpdmResp) := []
  linkKeys : List (Nat × Nat) := []
  nextKey : Nat := 1
  nextToken : Nat := 1
  nextEvent : Nat := 1
  nextLaunch : Nat := 1
  nextXid : Nat := 1
  nextOp : Nat := 1
  nextEpoch : Nat := 1
  clkReads : Nat := 0
  lastRing : Sparse Nat := []
  stuck : Nat := 0
  deriving DecidableEq, Repr

/-- A proposed value of a sheaf cell by its tag, with the releases that it follows (R190, R200, R360). -/
structure ShTag where
  part : Nat
  region : Nat
  cell : Nat
  tag : Nat
  obs : Obs
  deriving DecidableEq, Repr
/-- A page of 64 KiB that a save has filled: its bytes are undefined, one for each epoch and address, under the key of its partition (R300; log
entry 37). -/
structure PageFill where
  epoch : Nat
  key : Nat
  deriving DecidableEq, Repr
/-- The device. `pages` are the pages that saves have filled, `hostWait` the host writes that wait for the HBM to wake (R199, R390). `linkWait` are the packets of
peers that wait at a port that is shut or for the device to wake (R298, R302, R313, R390). `rels`
counts the releases of each party, `seen` says which write of which party each party has observed, `wrote` who last wrote a byte at its
home (R190); `flits` are the trigger flits sent to peers (R392). -/
structure State where
  dev : Dev := {}
  dram : List Host.Cell := []
  near : List Host.Cell := []
  hostmem : List Host.Cell := []
  pages : Sparse PageFill := []
  hostWait : List (HSpace × Nat × List Byte) := []
  poison : Sparse Bool := []
  keys : Sparse Nat := []
  pend : List PStore := []
  snaps : List (Party × Sparse Byte) := []
  rels : List Obs := []
  seen : List (Party × Obs) := []
  wrote : Sparse Obs := []
  parts : Sparse Part := []
  barriers : Sparse Barrier := []
  rings : Sparse Ring := []
  images : Sparse Image := []
  launches : List Launch := []
  rq : Sparse Rq := []
  cores : Sparse Core := []
  out : List Out := []
  links : Sparse Link := []
  park : List Packet := []
  linkWait : List Packet := []
  flits : List (Nat × BitVec 32) := []
  thr : Sparse Thr := []
  sig : List SigMsg := []
  shOps : List ShOp := []
  shMsgs : List ShMsg := []
  shAns : List ShAns := []
  shTags : List ShTag := []
  agenda : List Act := []
  cur : Agent := .dev
  rr : Nat := 0
  deriving DecidableEq, Repr

/-- The device right after reset (R9 and the reset columns; log entries 2, 8 to 13 for what the manual leaves open). -/
def State.reset : State := {}

end Sys2Proof.Machine
end

