-- ==== Sys2Proof/Machine/Access.lean ====
section
/-! DEFINITION. Reading and writing the parts of the state: cores, clusters, contexts, requests and their meters,
inter-cluster queues and engine queues. Every meaning goes through these. -/

namespace Sys2Proof.Machine

/-- A context of a cluster: who issues a syllable. -/
structure At where
  k : Nat
  c : Cluster
  x : CtxK
  deriving DecidableEq, Repr

/-- The die of a core, and of a stack (R10, R11). -/
def dieOf (core : Nat) : Nat := core / 32
def dieOfStack (stack : Nat) : Nat := stack / 6
/-- The number of a cluster (R12). -/
def cnum : Cluster → Nat
  | .K => 0 | .A => 1 | .X0 => 2 | .X1 => 3
def clusters : List Cluster := [.K, .A, .X0, .X1]
def isX (c : Cluster) : Bool := decide (c = .X0) || decide (c = .X1)

/-! ### Cores and clusters -/

def coreAt (s : State) (k : Nat) : Core := sget {} s.cores k
def modCore (s : State) (k : Nat) (f : Core → Core) : State := { s with cores := sput s.cores k (f (sget {} s.cores k)) }
def clOf (c : Core) : Cluster → Clu
  | .K => c.k | .A => c.a | .X0 => c.x0 | .X1 => c.x1
def modCl (c : Core) (n : Cluster) (f : Clu → Clu) : Core :=
  match n with
  | .K => { c with k := f c.k }
  | .A => { c with a := f c.a }
  | .X0 => { c with x0 := f c.x0 }
  | .X1 => { c with x1 := f c.x1 }
def cluAt (s : State) (k : Nat) (c : Cluster) : Clu := clOf (coreAt s k) c
def modClu (s : State) (k : Nat) (c : Cluster) (f : Clu → Clu) : State := modCore s k fun o => modCl o c f
def modKs (s : State) (k : Nat) (f : KSt → KSt) : State := modCore s k fun o => { o with ks := f o.ks }
def modEng (s : State) (k : Nat) (f : Eng → Eng) : State := modCore s k fun o => { o with eng := f o.eng }
def mapClus (o : Core) (f : Cluster → Clu → Clu) : Core :=
  { o with k := f .K o.k, a := f .A o.a, x0 := f .X0 o.x0, x1 := f .X1 o.x1 }

/-- The context of an agent (R83, R292). -/
def ctxOf (s : State) (a : At) : Ctx :=
  match a.x with
  | .user => (cluAt s a.k a.c).ctx
  | .fw => (coreAt s a.k).ks.fw
  | .pager => (coreAt s a.k).ks.pager
def modCtx (s : State) (a : At) (f : Ctx → Ctx) : State :=
  match a.x with
  | .user => modClu s a.k a.c fun u => { u with ctx := f u.ctx }
  | .fw => modKs s a.k fun ks => { ks with fw := f ks.fw }
  | .pager => modKs s a.k fun ks => { ks with pager := f ks.pager }
def pcOf (s : State) (a : At) : Nat := (ctxOf s a).pc
/-- The word at a syllable index: the pager runs from its own memory (R292). -/
def wordAt (s : State) (a : At) (pc : Nat) : Word :=
  match a.x with
  | .pager => sget 0 (coreAt s a.k).ks.pagerMem pc
  | _ => sget 0 (cluAt s a.k a.c).imem pc
/-- Privileged contexts (R40). -/
def privileged (a : At) : Bool := decide (a.x ≠ .user)
/-- The party of the memory order (R186). -/
def partyOf (a : At) : Party := .cl a.k a.c a.x
/-- Where a NaN that the syllable makes says it arose (R71). -/
def locOf (s : State) (a : At) : Loc := ⟨a.k, cnum a.c, pcOf s a⟩

/-- The partition of the instance on a core; 16 when there is none. -/
def partAt (s : State) (k : Nat) : Nat :=
  match (coreAt s k).inst with
  | some i => i.part
  | none => 16
def launchNo (s : State) (k : Nat) : Option Nat := (coreAt s k).inst.map (·.launch)
def launchOf (s : State) (id : Nat) : Option Launch := s.launches.find? (·.id == id)
def modLaunch (s : State) (id : Nat) (f : Launch → Launch) : State :=
  { s with launches := s.launches.map fun l => if l.id == id then f l else l }
def launchAt (s : State) (k : Nat) : Option Launch :=
  match launchNo s k with
  | some id => launchOf s id
  | none => none
/-- The core runs an instance of the partition (R157, R313). -/
def runsPart (s : State) (part k : Nat) : Bool :=
  match (coreAt s k).inst with
  | some i => i.part == part && k < 64
  | none => false
def partRec (s : State) (p : Nat) : Part := sget {} s.parts p
def modPart (s : State) (p : Nat) (f : Part → Part) : State := { s with parts := sput s.parts p (f (sget {} s.parts p)) }
def ringAt (s : State) (r : Nat) : Ring := sget {} s.rings r
def modRing (s : State) (r : Nat) (f : Ring → Ring) : State := { s with rings := sput s.rings r (f (sget {} s.rings r)) }
/-- Ring pair `l` of partition `p` (12, opening). -/
def ringNo (part loc : Nat) : Nat := 64 * part + loc
def ringPart (r : Nat) : Nat := r / 64
/-- The host reaches a partition through a virtual function that is bound to it (R383). -/
def hostCan (s : State) (part : Nat) : Bool := (partRec s part).live && s.dev.vfs.any fun e => e.2 == part
/-- The debugger halts a core, quietly or porously (R302). -/
def dbgHalted (o : Core) : Bool := o.dbgQuiet || o.dbgPorous
/-- Inbound writes wait at the port of a core that is frozen or quiet-halted (R298, R302), and of one whose launch has been placed but has
not started on it (DEDUCED, log 92). -/
def coreShut (o : Core) : Bool := o.frozen || (o.dbgQuiet && !o.dbgPorous) || (o.inst.map fun i => !i.started).getD false
def modDev (s : State) (f : Dev → Dev) : State := { s with dev := f s.dev }
def thrAt (s : State) (st : Nat) : Thr := sget {} s.thr st
def modThr (s : State) (st : Nat) (f : Thr → Thr) : State := { s with thr := sput s.thr st (f (sget {} s.thr st)) }

/-- `rqi` of a context (R262). -/
def rqiOf (s : State) (a : At) : Nat :=
  match a.x with
  | .user => (cluAt s a.k a.c).rqi
  | .fw => (coreAt s a.k).ks.fwRqi
  | .pager => (coreAt s a.k).ks.pagerRqi
def setRqi (s : State) (a : At) (id : Nat) : State :=
  match a.x with
  | .user => modClu s a.k a.c fun u => { u with rqi := id }
  | .fw => modKs s a.k fun ks => { ks with fwRqi := id }
  | .pager => modKs s a.k fun ks => { ks with pagerRqi := id }
/-- The identities that a memory syllable carries (R262, R263). -/
def memIds (s : State) (a : At) : List Nat :=
  if a.x = .user ∧ a.c = .K ∧ (coreAt s a.k).ks.setk then (coreAt s a.k).ks.idSet
  else if rqiOf s a = 0 then [] else [rqiOf s a]

/-! ### Requests and meters (R259 to R266) -/

def rqAt (s : State) (id : Nat) : Rq := sget {} s.rq id
def modRq (s : State) (id : Nat) (f : Rq → Rq) : State := { s with rq := sput s.rq id (f (sget {} s.rq id)) }
/-- Live in the partition (R259). -/
def rqLive (s : State) (part id : Nat) : Bool := decide ((rqAt s id).st ≠ .free) && (rqAt s id).part == part && id != 0
/-- Open: OPEN or HALTED in the partition (R260). -/
def rqOpenIn (s : State) (part id : Nat) : Bool :=
  rqLive s part id && (decide ((rqAt s id).st = .open) || decide ((rqAt s id).st = .halted))
/-- Under a halt's effects: HALTED, or CANCELLING, which performs them (R267, R269). -/
def rqStopped (s : State) (part id : Nat) : Bool :=
  rqLive s part id && (decide ((rqAt s id).st = .halted) || decide ((rqAt s id).st = .cancelling))
/-- Active members take shares (R266). -/
def rqActive (s : State) (part id : Nat) : Bool :=
  rqLive s part id && (decide ((rqAt s id).st = .open) || decide ((rqAt s id).st = .draining))
/-- Adds to a meter, saturating at 2^63 - 1 (R264). -/
def addMeter (s : State) (id m n : Nat) : State :=
  modRq s id fun r => { r with meters := sset 0 r.meters m (satAdd (2 ^ 63 - 1) (sget 0 r.meters m) n) }
/-- Inserts into an ascending list without repeats. -/
def insAsc (x : Nat) : List Nat → List Nat
  | [] => [x]
  | y :: ys => if x < y then x :: y :: ys else if x = y then y :: ys else y :: insAsc x ys
def sortAsc (l : List Nat) : List Nat := l.foldr insAsc []
/-- Gives each member its share, the first `r` of them one unit more (R266). -/
def shares (s : State) (m q : Nat) : Nat → List Nat → State
  | _, [] => s
  | r, id :: ids => shares (addMeter s id m (if r = 0 then q else q + 1)) m q (r - 1) ids
/-- Meters a shared amount to the identities that are live in the partition (R266). -/
def meter (s : State) (part : Nat) (ids : List Nat) (m n : Nat) : State :=
  let live := sortAsc (ids.filter (rqLive s part))
  let act := live.filter (rqActive s part)
  let mem := if act.isEmpty then live else act
  if mem.isEmpty then s else shares s m (n / mem.length) (n % mem.length) mem
/-- The meters of R264 by number. -/
def mISSUE : Nat := 0
def mMACS : Nat := 1
def mRD : Nat := 2
def mWR : Nat := 3
def mLINK : Nat := 4
def mREPLAY : Nat := 5
def mLEAVE : Nat := 6
def mFAULTS : Nat := 7

/-! ### Scalar registers, predicates and queues -/

/-- The register that a scalar number names: in a handler of K's user context 56 to 63 name the shadow bank (R106). -/
def xKey (s : State) (a : At) (n : Nat) : Nat :=
  if 56 ≤ n ∧ a.c = .K ∧ a.x = .user ∧ (coreAt s a.k).ks.uliActive then n + 64 else n
def getX (s : State) (a : At) (n : Nat) : Word := if n = 0 then 0 else sget 0 (ctxOf s a).x (xKey s a n)
def setX (s : State) (a : At) (n : Nat) (v : Word) : State :=
  if n = 0 then s else modCtx s a fun t => { t with x := sset 0 t.x (xKey s a n) v }
/-- `p0` reads 1 (R32). -/
def getP (s : State) (a : At) (n : Nat) : Bool := if n = 0 then true else (ctxOf s a).p.getLsbD n
def setP (s : State) (a : At) (n : Nat) (v : Bool) : State :=
  if n = 0 then s else modCtx s a fun t => { t with p := (t.p &&& ~~~(BitVec.ofNat 16 (2 ^ n))) ||| BitVec.ofNat 16 (if v then 2 ^ n else 0) }

/-- The depth of an inter-cluster queue (R149). -/
def qDepth (q : Nat) : Nat := if q < 12 then 8 else 32
/-- Entries that the cluster could pop (R150: `q13` through its own pointer). -/
def qHeld (o : Core) (c : Cluster) (q : Nat) : Nat :=
  if q < 12 then (sget [] o.vq q).length
  else if q = 13 ∧ c = .X1 then o.q13b.length else (sget [] o.sq q).length
/-- Entries in use: held, reserved (R109), popped in this clk of a run, or pushed in it (R95); for `q13` those of the slower reader. -/
def qUsed (o : Core) (q : Nat) : Nat :=
  let d := (o.defV.filter (·.1 == q)).length + (o.defS.filter (·.1 == q)).length + (o.late.filter (·.q == q)).length
  let n := qHeld o .X0 q + sget 0 o.popN q
  let m := if q = 13 then qHeld o .X1 13 + sget 0 o.popN 32 else 0
  (if n < m then m else n) + d
def qFree (o : Core) (q : Nat) : Nat := qDepth q - qUsed o q
/-- Counts a pop of this clk of a run. -/
def notePop (o : Core) (key : Nat) : Core := if o.runClk then { o with popN := sset 0 o.popN key (sget 0 o.popN key + 1) } else o

/-- The key of a queue's entries as a cluster pops them: `X1` has its own pointer into `q13`. -/
def obsKey (c : Cluster) (q : Nat) : Nat := if q = 13 ∧ c = .X1 then 32 else q
/-- The registers of a context after a sleep in which they were lost: free values (R390; log entry 93). -/
def lostCtx (n : Nat) : Ctx :=
  { x := (List.range 63).map fun i => (i + 1, Config.lostWord n i), p := BitVec.setWidth 16 (Config.lostWord n 63) }
/-- Who pushed the entry at the head of a queue (R190). -/
def headObs (o : Core) (c : Cluster) (q : Nat) : List Obs := (sget [] o.qObs (obsKey c q)).take 1
def dropObs (o : Core) (key : Nat) : Core := { o with qObs := sset [] o.qObs key (sget [] o.qObs key).tail }
def addQObs (o : Core) (key : Nat) (b : Obs) : Core := { o with qObs := sset [] o.qObs key (sget [] o.qObs key ++ [b]) }
/-- The head of a scalar queue as the cluster sees it, and the core without it. -/
def popScalar (o : Core) (c : Cluster) (q : Nat) : Word × Core :=
  if q = 13 ∧ c = .X1 then (o.q13b.headD 0, notePop (dropObs { o with q13b := o.q13b.tail } 32) 32)
  else ((sget [] o.sq q).headD 0, notePop (dropObs { o with sq := sset [] o.sq q (sget [] o.sq q).tail } q) q)
def popVector (o : Core) (q : Nat) : VReg × Core :=
  ((sget [] o.vq q).headD 0, notePop (dropObs { o with vq := sset [] o.vq q (sget [] o.vq q).tail } q) q)
def ended (r : Run) : Bool := decide (r = .exited) || decide (r = .killed)
/-- Enters a scalar into its queue; `q13` into both readers' views, except that of a cluster whose stream has ended (R150). -/
def enterScalar (o : Core) (q : Nat) (v : Word) : Core :=
  if q = 13 then
    { o with sq := if ended o.x0.run then o.sq else sset [] o.sq 13 (sget [] o.sq 13 ++ [v])
             q13b := if ended o.x1.run then o.q13b else o.q13b ++ [v] }
  else { o with sq := sset [] o.sq q (sget [] o.sq q ++ [v]) }
def enterVector (o : Core) (q : Nat) (v : VReg) : Core := { o with vq := sset [] o.vq q (sget [] o.vq q ++ [v]) }
/-- Notes who pushes an entry, for each cluster that will pop it. -/
def notePush (o : Core) (q : Nat) (b : Obs) : Core :=
  if q = 13 then
    (fun o : Core => if ended o.x1.run then o else addQObs o 32 b) (if ended o.x0.run then o else addQObs o 13 b)
  else addQObs o q b
/-- A scalar enters its queue, or comes behind an entry that is reserved there (R109). -/
def arriveScalar (o : Core) (q : Nat) (b : Obs) (v : Word) : Core :=
  if o.late.any (·.q == q) then { o with late := o.late ++ [⟨q, .user, some (b, v)⟩] } else enterScalar (notePush o q b) q v
/-- A push: at the end of the clk inside a lockstep run (R95), else at once. -/
def pushScalar (o : Core) (q : Nat) (b : Obs) (v : Word) : Core :=
  if o.runClk then { o with defS := o.defS ++ [(q, b, v)] } else arriveScalar o q b v
/-- The entry of a queue that a context's outstanding access has reserved. -/
def isLate (q : Nat) (x : CtxK) (e : Late) : Bool := e.q == q && e.x == x && e.v.isNone
/-- An access reserves an entry of its destination queue (R109). -/
def reserveQ (o : Core) (q : Nat) (x : CtxK) : Core := { o with late := o.late ++ [⟨q, x, none⟩] }
/-- The values at the front of what is late enter the queue, in the order in which their syllables issued. -/
def drainLate (q : Nat) : Nat → Core → Core
  | 0, o => o
  | n + 1, o =>
    match o.late.find? (·.q == q) with
    | some e => (match e.v with
      | some (b, v) => drainLate q n (enterScalar (notePush { o with late := o.late.erase e } q b) q v)
      | none => o)
    | none => o
/-- The value for a reserved entry has come. -/
def fillLate (o : Core) (q : Nat) (x : CtxK) (b : Obs) (v : Word) : Core :=
  drainLate q o.late.length { o with late := o.late.map fun e => if isLate q x e then { e with v := some (b, v) } else e }
/-- A reserved entry is given up: those behind it go on. -/
def dropLate (o : Core) (q : Nat) (x : CtxK) : Core := drainLate q o.late.length { o with late := o.late.filter fun e => !isLate q x e }
def pushVector (o : Core) (q : Nat) (b : Obs) (v : VReg) : Core :=
  if o.runClk then { notePush o q b with defV := o.defV ++ [(q, v)] } else enterVector (notePush o q b) q v

/-- Masks (R123), `m0` to `m15`. -/
def getM (s : State) (a : At) (n : Nat) : Mask := sget 0 (cluAt s a.k a.c).xs.m n
def setM (s : State) (a : At) (n : Nat) (v : Mask) : State :=
  modClu s a.k a.c fun u => { u with xs := { u.xs with m := sset 0 u.xs.m n v } }
/-- The physical vector register that a logical number names (R84). -/
def vPhys (rrb n : Nat) : Nat := if n < 512 then n else 512 + (n - 512 + rrb) % 128
def getV (s : State) (a : At) (n : Nat) : VReg := sget 0 (cluAt s a.k a.c).xs.v (vPhys (cluAt s a.k a.c).xs.rrb n)
def setV (s : State) (a : At) (n : Nat) (v : VReg) : State :=
  modClu s a.k a.c fun u => { u with xs := { u.xs with v := sset 0 u.xs.v (vPhys u.xs.rrb n) v } }
/-- Stream registers, held by A (R169). -/
def getSR (s : State) (k n : Nat) : SReg := sget 0 (coreAt s k).a.sr n
def setSR (s : State) (k n : Nat) (v : SReg) : State := modClu s k .A fun u => { u with sr := sset 0 u.sr n v }

/-! ### Engine queues, signals, outbox -/

def eqAt (o : Core) (q : Nat) : EQ := sget {} o.eng.eq q
def modEQ (s : State) (k q : Nat) (f : EQ → EQ) : State := modEng s k fun e => { e with eq := sput e.eq q (f (sget {} e.eq q)) }
def getSg (s : State) (k n : Nat) : Word := sget 0 (coreAt s k).sg n

/-- Takes the agent of a cluster, or says that another kind of agent moves. -/
def onCl (s : State) (f : At → State → State) : Host.Outcome State Fault Refusal :=
  match s.cur with
  | .cl k c x => .next (f ⟨k, c, x⟩ s)
  | _ => .fault .wrongAgent
/-- Takes the queue whose head word moves. -/
def onQ (s : State) (f : Nat → Nat → State → State) : Host.Outcome State Fault Refusal :=
  match s.cur with
  | .eq k q => .next (f k q s)
  | _ => .fault .wrongAgent
/-- A step of the device or of its host: any agent's turn will do. -/
def onDev (s : State) (f : State → State) : Host.Outcome State Fault Refusal := .next (f s)

end Sys2Proof.Machine
end

