-- ==== Sys2Proof/Machine/Home.lean ====
section
/-! DEFINITION. Locations at their homes, and the memory order (R186 to R201): stores that stay with their party until a release
publishes them, phases with their snapshots, what a party observes and so what its acquires make required, and the waits that a write
may fire. -/

namespace Sys2Proof.Machine

/-! ### Bytes at the homes -/

/-- A number for a location, for snapshots and marks. -/
def spaceKey : Space → Nat
  | .dram => 0 | .near => 1 | .host => 2 | .spad k => 3 + 2 * k | .kdm k => 4 + 2 * k
/-- The number of a page of 64 KiB, and what a save left in it (R300). -/
def pageKey (sp : Space) (a : Nat) : Nat := a / 2 ^ 16 * 512 + spaceKey sp
def pageFill (s : State) (sp : Space) (a : Nat) : Option PageFill := slook s.pages (pageKey sp a)
/-- What an unlisted byte reads as (log entries 2, 13 and 37). -/
def byteDefault (s : State) (sp : Space) (a : Nat) : Byte :=
  match sp with
  | .spad k => if (coreAt s k).spadEpoch = 0 then 0 else Config.freeByte (coreAt s k).spadEpoch a
  | .kdm _ => 0
  | _ => match pageFill s sp a with
    | some f => Config.freeByte f.epoch a
    | none => 0
def cells (s : State) : Space → List Host.Cell
  | .dram => s.dram
  | .near => s.near
  | .host => s.hostmem
  | .spad k => (coreAt s k).spad
  | .kdm k => (coreAt s k).kdm
def setCells (s : State) (sp : Space) (m : List Host.Cell) : State :=
  match sp with
  | .dram => { s with dram := m }
  | .near => { s with near := m }
  | .host => { s with hostmem := m }
  | .spad k => modCore s k fun o => { o with spad := m }
  | .kdm k => modCore s k fun o => { o with kdm := m }
/-- One byte of a location at its home. -/
def homeByte (s : State) (sp : Space) (a : Nat) : Byte := sget (byteDefault s sp a) (cells s sp) a
/-- Writes one byte at its home, keeping the canonical form. -/
def homeSet (s : State) (sp : Space) (a : Nat) (b : Byte) : State :=
  setCells s sp (sset (byteDefault s sp a) (cells s sp) a b)
def homeSetRun (s : State) (sp : Space) (a : Nat) : List Byte → State
  | [] => s
  | b :: bs => homeSetRun (homeSet s sp a b) sp (a + 1) bs

/-- A number for a location, for snapshots and marks. -/
def locKey (sp : Space) (a : Nat) : Nat := a * 512 + spaceKey sp
/-- The number of a location at a peer, for snapshots (R188, R191). -/
def peerKey (d a : Nat) : Nat := a * 512 + 256 + d
def granKey (sp : Space) (a : Nat) : Nat := locKey sp (a / 64 * 64)

/-! ### Parties and scopes (R186, R187) -/

/-- A number for each party of an instance on its core, and the party that a number names: the user contexts of the clusters, then the
commands of the engines and of the threshers. -/
def partyNo : Party → Nat
  | .cl _ c _ => cnum c
  | .cmd _ u i => 4 + 4 * i + u
  | .thr st i => 4 + 4 * (12 * i + st) + 3
  | _ => 0
def partyOfNo (k n : Nat) : Party :=
  if n < 4 then .cl k (if n = 0 then .K else if n = 1 then .A else if n = 2 then .X0 else .X1) .user
  else if n % 4 = 3 then .thr ((n - 4) / 4 % 12) ((n - 4) / 4 / 12) else .cmd k (n % 4) ((n - 4) / 4)
def coreOfParty : Party → Option Nat
  | .cl k _ _ | .cmd k _ _ => some k
  | .past _ k n => if 4 ≤ n ∧ n % 4 = 3 then none else some k
  | _ => none
def dieOfParty : Party → Option Nat
  | .cl k _ _ | .cmd k _ _ => some (dieOf k)
  | .past _ k n => match partyOfNo k n with
    | .thr st _ => some (dieOfStack st)
    | _ => some (dieOf k)
  | .thr st _ => some (dieOfStack st)
  | _ => none
/-- The cluster of a party, which it shares with the cluster's other contexts. -/
def cluOfParty : Party → Option (Nat × Nat)
  | .cl k c _ => some (k, cnum c)
  | .past _ k n => if n < 4 then some (k, n) else none
  | _ => none
/-- A party on the device, or the device itself. -/
def onDevice (p : Party) : Bool := (dieOfParty p).isSome || decide (p = .dev)
/-- The level of a scope: its code plus 1. -/
def lvlOf : Scope → Nat
  | .cl => 1 | .co => 2 | .di => 3 | .dv => 4 | .sy => 5
/-- Each party lies within the other's scope of that level. -/
def within (lvl : Nat) (p q : Party) : Bool :=
  p == q ||
  match lvl with
  | 0 => false
  | 1 => (cluOfParty p).isSome && cluOfParty p == cluOfParty q
  | 2 => (coreOfParty p).isSome && coreOfParty p == coreOfParty q
  | 3 => (dieOfParty p).isSome && dieOfParty p == dieOfParty q
  | 4 => onDevice p && onDevice q
  | _ => true

/-! ### What a party sees -/

/-- The byte that a store holds for a location. -/
def pByte (w : PStore) (sp : Space) (a : Nat) : Option Byte :=
  if w.sp = sp ∧ w.addr ≤ a then w.bytes[a - w.addr]? else none
/-- The store is available to the party (R189). -/
def visible (w : PStore) (q : Party) : Bool := w.who == q || within w.lvl w.who q
/-- The newest byte among the stores that a test accepts, with its store. -/
def newest (l : List PStore) (ok : PStore → Bool) (sp : Space) (a : Nat) : Option (PStore × Byte) :=
  l.foldl (fun acc w => if ok w then ((pByte w sp a).map fun b => (w, b)).or acc else acc) none
/-- Stores of one party, or of commands of one thresher: those see each other's stores as they are made (R344, R346, R347; log
entry 90). -/
def ownOf (p q : Party) : Bool :=
  p == q || (match p, q with
    | .thr a _, .thr b _ => a == b
    | _, _ => false)
/-- The store that gives a party the current value of a location: its own unpublished one, else the newest available to it; none when
the home gives it (R186, R189, R192). -/
def curStore (s : State) (q : Party) (sp : Space) (a : Nat) : Option (PStore × Byte) :=
  (newest s.pend (fun w => w.lvl == 0 && ownOf w.who q) sp a).or (newest s.pend (fun w => w.lvl != 0 && visible w q) sp a)
/-- The current value of a location as the home gives it to a party. -/
def curByte (s : State) (q : Party) (sp : Space) (a : Nat) : Byte :=
  match curStore s q sp a with
  | some e => e.2
  | none => homeByte s sp a
def curBytes (s : State) (q : Party) (sp : Space) (a n : Nat) : List Byte := (List.range n).map fun i => curByte s q sp (a + i)

def snapOf (s : State) (q : Party) : Sparse Byte :=
  match s.snaps.find? (fun e => e.1 == q) with
  | some e => e.2
  | none => []
def setSnap (s : State) (q : Party) (m : Sparse Byte) : State :=
  { s with snaps := if m.isEmpty then s.snaps.filter (fun e => e.1 != q)
      else (q, m) :: s.snaps.filter (fun e => e.1 != q) }
def fixRun (m : Sparse Byte) (key : Nat → Nat) (a : Nat) : List Byte → Sparse Byte
  | [] => m
  | b :: bs => fixRun (sput m (key a) b) key (a + 1) bs
/-- A plain read: the snapshot's value where the phase has fixed one, else the current value (R191). -/
def readByte (s : State) (q : Party) (sp : Space) (a : Nat) : Byte := (slook (snapOf s q) (locKey sp a)).getD (curByte s q sp a)
def readBytes (s : State) (q : Party) (sp : Space) (a n : Nat) : List Byte := (List.range n).map fun i => readByte s q sp (a + i)
/-- The read fixes the values in the phase's snapshot (R191). -/
def fixBytes (s : State) (q : Party) (sp : Space) (a : Nat) (bs : List Byte) : State := setSnap s q (fixRun (snapOf s q) (locKey sp) a bs)
/-- The same for locations at a peer: what a read answered gives way to what the phase has fixed, and a write of the party's own fixes
its value (R191). -/
def fixPeer (s : State) (q : Party) (d a : Nat) (bs : List Byte) : State := setSnap s q (fixRun (snapOf s q) (peerKey d) a bs)
def peerBytes (s : State) (q : Party) (d a : Nat) (bs : List Byte) : List Byte :=
  (List.range bs.length).map fun i => (slook (snapOf s q) (peerKey d (a + i))).getD (bs.getD i 0)
def emptySnap (s : State) (q : Party) : State := setSnap s q []

/-! ### Observations (R190) -/

/-- How many releases of a party have published a store below `.sy`. -/
def relNo (s : State) (q : Party) : Nat := ((s.rels.find? fun e => e.1 == q).map (·.2)).getD 0
/-- A write that the party performs now, as its observers will see it. -/
def obsOf (s : State) (q : Party) : Obs := (q, relNo s q)
/-- A store still on its way was published by a release that the write follows. -/
def relevant (s : State) (o : Obs) : Bool := s.pend.any fun w => w.pubs.any fun e => e.1 == o.1 && decide (e.2.1 ≤ o.2)
/-- The write of a party that another has observed, by the releases before it; 0 for none. -/
def seenNo (s : State) (q p : Party) : Nat := ((s.seen.find? fun e => e.1 == q && e.2.1 == p).map (·.2.2)).getD 0
/-- The party observes a write; one that follows no release of a store on its way changes nothing. -/
def observe (q : Party) (s : State) (o : Obs) : State :=
  if o.1 == q || decide (o.2 ≤ seenNo s q o.1) || !relevant s o then s
  else { s with seen := (q, o) :: s.seen.filter fun e => !(e.1 == q && e.2.1 == o.1) }
def observeAll (q : Party) (s : State) (l : List Obs) : State := l.foldl (observe q) s
/-- Adds a write to those that a signal word, a counter or a barrier holds: the latest of each party counts. -/
def addObs (l : List Obs) (o : Obs) : List Obs := if o.2 = 0 then l else o :: l.filter fun e => !(e.1 == o.1)
def addAllObs (l m : List Obs) : List Obs := m.foldl addObs l
/-- The write that a read of a location by the party returns now. -/
def byteObs (s : State) (q : Party) (sp : Space) (a : Nat) : List Obs :=
  match curStore s q sp a with
  | some e => [e.1.obs]
  | none => (slook s.wrote (locKey sp a)).toList
def rangeObs (s : State) (q : Party) (sp : Space) (a n : Nat) : List Obs :=
  if s.pend.isEmpty then [] else (List.range n).flatMap fun i => byteObs s q sp (a + i)
/-- A plain read observes the bytes that the phase has not fixed before (R190, R191). -/
def observeRead (s : State) (q : Party) (sp : Space) (a n : Nat) : State :=
  if s.pend.isEmpty then s
  else observeAll q s ((List.range n).flatMap fun i => if (slook (snapOf s q) (locKey sp (a + i))).isSome then [] else byteObs s q sp (a + i))
/-- Notes who wrote bytes at their home, as long as an observer of them may need it. -/
def noteWrote (s : State) (sp : Space) (a n : Nat) (o : Option Obs) : State :=
  match o.filter (relevant s) with
  | some o => { s with wrote := (List.range n).foldl (fun m i => sput m (locKey sp (a + i)) o) s.wrote }
  | none => if s.wrote.isEmpty then s else { s with wrote := (List.range n).foldl (fun m i => serase m (locKey sp (a + i))) s.wrote }

/-! ### Errors that an access meets (R176, R385) -/

/-- The key under which a granule was written; 0 for none. -/
def keyAt (s : State) (sp : Space) (a : Nat) : Nat := (slook s.keys (granKey sp a)).getD (((pageFill s sp a).map (·.key)).getD 0)
/-- The granule reads as poisoned for the partition: marked, or written under another partition's key. -/
def poisoned (s : State) (part : Nat) (sp : Space) (a : Nat) : Bool :=
  sget false s.poison (granKey sp a) || (keyAt s sp a != 0 && keyAt s sp a != (partRec s part).key)
/-- Some granule of the range is poisoned. -/
def anyPoison (s : State) (part : Nat) (sp : Space) (a n : Nat) : Bool :=
  (List.range ((a + n + 63) / 64 - a / 64)).any fun i => poisoned s part sp ((a / 64 + i) * 64)
/-- A write leaves the writer's key on each granule it touches, and takes the mark off a granule it covers whole
(log entry 19). -/
def stampGran (s : State) (part : Nat) (sp : Space) (a n g : Nat) : State :=
  let key := granKey sp (g * 64)
  let encrypted := decide (sp = .dram) || decide (sp = .near)
  { s with keys := if encrypted then sput s.keys key (partRec s part).key else s.keys
           poison := if a ≤ g * 64 ∧ g * 64 + 64 ≤ a + n then sset false s.poison key false else s.poison }
def stamp (s : State) (part : Nat) (sp : Space) (a n : Nat) : State :=
  (List.range ((a + n + 63) / 64 - a / 64)).foldl (fun s i => stampGran s part sp a n (a / 64 + i)) s
def markPoison (s : State) (sp : Space) (a : Nat) (on : Bool) : State := { s with poison := sset false s.poison (granKey sp a) on }

/-! ### Waits on memory (R202, R206) -/

/-- A value meets a condition in the order of its type (R206). -/
def mcondOk (t : ATy) (c : MCond) (v b : Nat) : Bool :=
  let x := elemInt (atyE t) v
  let y := elemInt (atyE t) b
  match c with
  | .eq => x == y | .ne => x != y | .lt => decide (x < y) | .ge => decide (y ≤ x)
def nearOr (isNear : Bool) : Space := if isNear then .near else .dram
/-- The value of a wait's location when it ends the wait, with its poison: it meets the condition, or it is poisoned (R206; log
entry 83). -/
def memTest (q : Party) (part : Nat) (isNear : Bool) (ad : Nat) (t : ATy) (c : MCond) (cmp : Word) (s : State) : Option Fire :=
  let n := etyW (atyE t) / 8
  let v := ofBytes (curBytes s q (nearOr isNear) ad n)
  let bad := anyPoison s part (nearOr isNear) ad n
  if bad || mcondOk t c v cmp.toNat then some ⟨BitVec.ofNat 64 v, bad, rangeObs s q (nearOr isNear) ad n⟩ else none
/-- The wait's value at the home, when the wait is on memory, has a slot and has not fired. -/
def fireMem (s : State) (q : Party) (part : Nat) (w : Wait) : Wait :=
  match w.on with
  | .mem isNear a t c cmp =>
    if w.slot ∧ w.fired = none then { w with fired := memTest q part isNear a t c cmp s } else w
  | _ => w
def pokeCtx (s : State) (k : Nat) (c : Cluster) (x : CtxK) (t : Ctx) : Ctx := { t with wait := t.wait.map (fireMem s (.cl k c x) (partAt s k)) }
def pokeCore (s : State) (k : Nat) (o : Core) : Core :=
  { mapClus o (fun c u => { u with ctx := pokeCtx s k c .user u.ctx }) with
    ks := { o.ks with fw := pokeCtx s k .K .fw o.ks.fw, pager := pokeCtx s k .K .pager o.ks.pager } }
/-- Every memory wait is tested again after a write became visible. -/
def pokeMem (s : State) : State := { s with cores := s.cores.map fun e => (e.1, pokeCore s e.1 e.2) }

/-! ### Publishing -/

/-- What is left of a store when a range of a location's bytes is taken out of it. -/
def cut (w : PStore) (sp : Space) (a n : Nat) : List PStore :=
  if w.sp = sp ∧ w.addr < a + n ∧ a < w.addr + w.bytes.length then
    let lo := a - w.addr
    let hi := a + n - w.addr
    (if 0 < lo then [{ w with bytes := w.bytes.take lo }] else []) ++
    (if hi < w.bytes.length then [{ w with addr := w.addr + hi, bytes := w.bytes.drop hi }] else [])
  else [w]
/-- The stores that stand before the first occurrence of one, and those after it. -/
def splitAt (l : List PStore) (w : PStore) : List PStore × List PStore :=
  match l with
  | [] => ([], [])
  | x :: xs => if x = w then ([], xs) else ((x :: (splitAt xs w).1), (splitAt xs w).2)
/-- Bytes performed at their home: published stores that came before them in coherence order lose those bytes, as does the
party's own unpublished store; other parties' unpublished stores come later. -/
def commitBytes (s : State) (q : Party) (sp : Space) (a : Nat) (bs : List Byte) : State :=
  homeSetRun (noteWrote { s with pend := s.pend.flatMap fun w => if w.lvl == 0 && !ownOf w.who q then [w] else cut w sp a bs.length } sp a bs.length (some (obsOf s q))) sp a bs
/-- A store that has become visible everywhere goes to its home. Published stores that stand before it in coherence order lose its
bytes: all of them for a store not published before, those listed before it otherwise. -/
def commitStore (s : State) (w : PStore) : State :=
  let (before, after) := splitAt s.pend w
  let old := fun (v : PStore) => if v.lvl == 0 && (!ownOf v.who w.who || w.lvl != 0) then [v] else cut v w.sp w.addr w.bytes.length
  let new := fun (v : PStore) => if v.lvl != 0 && w.lvl == 0 then cut v w.sp w.addr w.bytes.length else [v]
  homeSetRun (noteWrote { s with pend := before.flatMap old ++ after.flatMap new } w.sp w.addr w.bytes.length (some w.obs)) w.sp w.addr w.bytes
/-- Replaces the first occurrence. -/
def replaceFirst (l : List PStore) (w w' : PStore) : List PStore :=
  match l with
  | [] => []
  | x :: xs => if x = w then w' :: xs else x :: replaceFirst xs w w'
/-- The party's own stores that stand before one of them lose its bytes when it is published: no other party will read them (R186). -/
def pastOwn (s : State) (w : PStore) : List PStore :=
  let (before, after) := splitAt s.pend w
  (before.flatMap fun v => if v.lvl == 0 && ownOf v.who w.who then cut v w.sp w.addr w.bytes.length else [v]) ++ after
/-- One store reaches a wider scope: a store first published enters the coherence order last, and one published everywhere
goes to its home. -/
def publishOne (s : State) (w : PStore) (lvl : Nat) : State :=
  let w' := { w with lvl := lvl }
  pokeMem (if lvl = 5 then commitStore s w
    else if w.lvl = 0 then { s with pend := pastOwn s w ++ [w'] }
    else { s with pend := replaceFirst s.pend w w' })
/-- The stores that a release at a level publishes: the party's own, and those required for it from a writer within the scope (R194),
unless they went through a window and the scope is below the one R197 asks for. -/
def reaches (q : Party) (lvl : Nat) (w : PStore) : Bool := (w.who == q || (w.req.contains q && within lvl w.who q)) && w.least ≤ lvl
/-- Those of them that were not published so far yet. -/
def publishes (q : Party) (lvl : Nat) (w : PStore) : Bool := reaches q lvl w && w.lvl < lvl
/-- A release takes its number, and leaves it with the stores that it publishes (R190). -/
def numberRel (s : State) (q : Party) (lvl : Nat) : State :=
  if lvl < 5 && s.pend.any (reaches q lvl) then
    let n := relNo s q + 1
    { s with rels := (q, n) :: s.rels.filter (fun e => !(e.1 == q))
             pend := s.pend.map fun w => if reaches q lvl w then { w with pubs := w.pubs ++ [(q, n, lvl)] } else w }
  else s
/-- A release of party `q` at a level (R189, R194, R197), store by store in coherence order. -/
def release (s : State) (q : Party) (lvl : Nat) : State :=
  let s := numberRel s q lvl
  (s.pend.filter (fun w => w.lvl != 0) ++ s.pend.filter (fun w => w.lvl == 0)).foldl
    (fun acc w => if publishes q lvl w && acc.pend.contains w then publishOne acc w lvl else acc) s
/-- The party synchronises, by an acquire at a level, with a release that published the store to it: it has observed a write that follows
the release, and the scope includes the releasing party (R190, R195). -/
def syncs (s : State) (q : Party) (lvl : Nat) (w : PStore) : Bool :=
  w.pubs.any fun e => within lvl e.1 q && within e.2.2 e.1 q && decide (e.2.1 ≤ seenNo s q e.1)
/-- An acquire at a level: the phase ends, and every store that a release published with which the party synchronises is required for it
from now on (R190, R191). -/
def acquire (s : State) (q : Party) (lvl : Nat) : State :=
  emptySnap { s with pend := s.pend.map fun w =>
    if w.who != q && syncs s q lvl w && !w.req.contains q then { w with req := w.req ++ [q] } else w } q

/-- A plain store of a party: its own until published (R189), and its own value in the phase (R191). `least` is the level below
which no release publishes it (R197). -/
def storePlain (s : State) (q : Party) (sp : Space) (a : Nat) (bs : List Byte) (least : Nat) : State :=
  if bs.isEmpty then s else fixBytes { s with pend := s.pend ++ [⟨q, sp, a, bs, 0, least, [], obsOf s q, []⟩] } q sp a bs
/-- A write performed at the home, available to every party at once (R192). -/
def storeHome (s : State) (q : Party) (sp : Space) (a : Nat) (bs : List Byte) : State :=
  pokeMem (fixBytes (commitBytes s q sp a bs) q sp a bs)
/-- A write of the device or of the host: available to all, by no party's phase (R199). -/
def storeDevice (s : State) (sp : Space) (a : Nat) (bs : List Byte) : State := pokeMem (commitBytes s .host sp a bs)
/-- A key of `locKey` lies in a range of a space. -/
def keyIn (sp : Space) (a n e : Nat) : Bool := e % 512 == spaceKey sp && decide (a ≤ e / 512) && decide (e / 512 < a + n)
/-- The range loses its marks and keys, and the published stores that stand before what is written there now. -/
def clearMarks (sp : Space) (a n : Nat) (s : State) : State :=
  { s with keys := s.keys.filter (fun e => !keyIn sp a n e.1), poison := s.poison.filter (fun e => !keyIn sp a n e.1)
           wrote := s.wrote.filter (fun e => !keyIn sp a n e.1), pend := s.pend.flatMap fun w => if w.lvl == 0 then [w] else cut w sp a n }
/-- A save fills a page of 64 KiB with bytes of its own (R300; log entry 37). -/
def fillPage (part : Nat) (sp : Space) (base : Nat) (s : State) : State :=
  let n := s.dev.nextEpoch
  let base := base / 2 ^ 16 * 2 ^ 16
  let s1 := clearMarks sp base (2 ^ 16) (modDev s fun d => { d with nextEpoch := n + 1 })
  pokeMem { setCells s1 sp (sclear (cells s1 sp) base (2 ^ 16)) with pages := sput s1.pages (pageKey sp base) ⟨n, (partRec s part).key⟩ }
/-- A store to the scratchpad or the control data memory of a core. -/
def inCore (k : Nat) (w : PStore) : Bool := decide (w.sp = .spad k) || decide (w.sp = .kdm k)
/-- A store of an instance that is no longer on the core. -/
def leftBy (k : Nat) : Party → Bool
  | .past _ k' _ => k' == k
  | _ => false
/-- What the instances that have left a core stored in its scratchpad and control data memory is performed there, in coherence order: those
hold what the previous instance left (R155). A store that another party has made through the window stays as it stands. -/
def landSpad (k : Nat) (s : State) : State :=
  let mine := s.pend.filter fun w => inCore k w && leftBy k w.who
  (mine.filter (·.lvl != 0) ++ mine.filter (·.lvl == 0)).foldl (fun acc w => if acc.pend.contains w then commitStore acc w else acc) s
/-- No store made so far comes after the zeroing of a core's memories. -/
def dropSpad (k : Nat) (s : State) : State :=
  { s with pend := s.pend.filter fun w => !inCore k w, wrote := s.wrote.filter fun e => e.1 % 512 != spaceKey (.spad k) && e.1 % 512 != spaceKey (.kdm k) }

end Sys2Proof.Machine
end

