-- ==== Sys2Proof/Machine/Translate.lean ====
section
/-! DEFINITION. The address map (R157, R158), the table walk with its checks (R161 to R164) and the translation caches (R165). -/

namespace Sys2Proof.Machine

/-! ### Table entries (R163) -/

def teV (e : Nat) : Bool := bitN e 0
def teLeaf (e : Nat) : Bool := bitN e 2
def teW (e : Nat) : Bool := bitN e 3
def teSz (e : Nat) : Nat := fld e 4 2
def teTgt (e : Nat) : Nat := fld e 6 2
def teAddr (e : Nat) : Nat := fld e 16 32 * 2 ^ 16
def teTaddr (e : Nat) : Nat := fld e 12 4
def teHi (e : Nat) : Nat := fld e 48 16
/-- ACC and D (R163). -/
def teAccBit : Nat := 2 ^ 8
def teDBit : Nat := 2 ^ 9
/-- Bytes of a leaf by SZ. -/
def szBytes (sz : Nat) : Nat := if sz = 0 then 2 ^ 16 else if sz = 1 then 2 ^ 21 else 2 ^ 29
/-- Bytes of device memory, and of the near store of all base dies (R160). -/
def dramBytes : Nat := 0xC000000000
def nearBytes : Nat := 0x60000000
/-- Reserved fields: bits 11, 10 and 1, HI except in a host leaf, TADDR in a leaf (R163). -/
def teReserved (e : Nat) : Bool :=
  bitN e 1 || fld e 10 2 != 0 || (teHi e != 0 && !(teLeaf e && teTgt e == 2)) || (teLeaf e && teTaddr e != 0)
/-- Cause 2 of a leaf by itself (R164): its target's limits and its base. -/
def leafMalformed (e : Nat) : Bool :=
  teReserved e || teAddr e % szBytes (teSz e) != 0 || teSz e == 3 ||
  (teTgt e == 0 && decide (dramBytes < teAddr e + szBytes (teSz e))) ||
  (teTgt e == 1 && (teSz e == 2 || decide (nearBytes < teAddr e + szBytes (teSz e))))
/-- Cause 3 (R164): the host window or user space against the target. -/
def leafDenied (e : Nat) (host : Bool) : Bool := teTgt e == 3 || (if host then teTgt e != 2 else teTgt e == 2)
/-- The user space and the host window (R157). -/
def isHostVa (va : Nat) : Bool := fld va 44 4 == 9

/-- What a walk ends with: a cause of R164, or the leaf and where it stands. -/
inductive WalkRes | fault (cause : Nat) | leaf (e ent : Nat)
  deriving DecidableEq, Repr

/-- The party of a walk: that of the access, or the device itself for its own accesses and for packets (R163, R201; DEDUCED, log 99). -/
def walkParty : Party → Party
  | .host | .peer _ => .dev
  | q => q
/-- Reads a table entry at its home (R162, R192). -/
def readEntry (s : State) (q : Party) (a : Nat) : Nat := ofBytes (curBytes s q .dram a 8)
/-- The address of the next table, when the pointer is sound for a table of `bytes` (R164). -/
def nextTable (e bytes : Nat) : Option Nat :=
  let t := teAddr e + teTaddr e * 2 ^ 12
  if teReserved e || t % bytes != 0 || decide (dramBytes < t + bytes) then none else some t
/-- An entry without ACC and D. -/
def clrAccD (e : Nat) : Nat := setFld e 8 2 0
/-- The 32 entries of a 2 MiB group are equal apart from ACC and D (R162). -/
def uniform (s : State) (q : Party) (tab idx : Nat) : Bool :=
  (List.range 32).all fun i =>
    decide (clrAccD (readEntry s q (tab + 8 * (idx / 32 * 32 + i))) = clrAccD (readEntry s q (tab + 8 * (idx / 32 * 32))))
/-- The checks of a leaf at its level: cause 2, 3, then 1 (R164). -/
def leafRes (e ent : Nat) (host write bad : Bool) : WalkRes :=
  if bad || leafMalformed e then .fault 2
  else if leafDenied e host then .fault 3
  else if write && !teW e then .fault 1
  else .leaf e ent
/-- The walk of R162 from PTROOT for one address. A ROOT that names a table beyond device memory is cause 2, like a pointer to one; the
manual gives it no cause (DESIGN CHOICE, log 108). -/
def walk (s : State) (q : Party) (root va : Nat) (write : Bool) : WalkRes :=
  if !bitN root 0 then .fault 0
  else if dramBytes < fld root 13 35 * 2 ^ 13 + 2 ^ 13 then .fault 2
  else
    let a1 := fld root 13 35 * 2 ^ 13 + 8 * fld va 38 10
    let e1 := readEntry s q a1
    if !teV e1 then .fault 0
    else if teLeaf e1 then .fault 2
    else match nextTable e1 (2 ^ 12) with
    | none => .fault 2
    | some t2 =>
      let a2 := t2 + 8 * fld va 29 9
      let e2 := readEntry s q a2
      if !teV e2 then .fault 0
      else if teLeaf e2 then leafRes e2 a2 (isHostVa va) write (teSz e2 != 2)
      else match nextTable e2 (2 ^ 16) with
      | none => .fault 2
      | some t3 =>
        let a3 := t3 + 8 * fld va 16 13
        let e3 := readEntry s q a3
        if !teV e3 then .fault 0
        else leafRes e3 a3 (isHostVa va) write (!teLeaf e3 || teSz e3 == 2 ||
          (teSz e3 == 1 && !uniform s q t3 (fld va 16 13)))

/-! ### Translation caches (R165) -/

/-- The caches of a core: K's, whose user and pager entries stand in one list, A's, and the stream TLBs of the engines; none for the
other agents. -/
inductive Tl | k | kp | a | m | c | none
  deriving DecidableEq, Repr
def tlGet (o : Core) : Tl → List TlbE
  | .k | .kp => o.tlbK | .a => o.tlbA | .m => o.tlbM | .c => o.tlbC | .none => []
def tlSet (o : Core) (t : Tl) (l : List TlbE) : Core :=
  match t with
  | .k | .kp => { o with tlbK := l } | .a => { o with tlbA := l }
  | .m => { o with tlbM := l } | .c => { o with tlbC := l } | .none => o
def tlSize : Tl → Nat
  | .k | .kp => 64 | .a => 512 | .m | .c => 32 | .none => 0
/-- An entry covers an address of a partition. -/
def covers (e : TlbE) (part va : Nat) : Bool := e.part == part && decide (e.base ≤ va) && decide (va < e.base + e.size)
/-- The entry that an access through a cache would hit: the pager sees its own entries alone, and K's other contexts theirs. -/
def hits (t : Tl) (part va : Nat) (e : TlbE) : Bool := e.pg == decide (t = .kp) && covers e part va
/-- Puts an entry in, taking the oldest of the cache out when it is full (R306; log entry 18). K's user and pager entries share 64. -/
def tlInstall (s : State) (k : Nat) (t : Tl) (e : TlbE) : State :=
  modCore s k fun o =>
    let l := (tlGet o t).filter (fun x => !hits t e.part e.base x)
    tlSet o t ((if l.length < tlSize t then l else l.tail) ++ [e])
def mkTlb (t : Tl) (part va : Nat) (e : Nat) (ent : Option Nat) : TlbE :=
  ⟨decide (t = .kp), part, va / szBytes (teSz e) * szBytes (teSz e), szBytes (teSz e), BitVec.ofNat 64 e, ent⟩
/-- Sets a bit of a table entry with an atomic at its home, for the party of the walk (R163, R192). -/
def setEntryBit (s : State) (q : Party) (a bit : Nat) : State :=
  pokeMem (commitBytes s q .dram a (bytesOf 8 (readEntry s q a ||| bit)))
def tgtSpace (tgt : Nat) : Space := if tgt = 0 then .dram else if tgt = 1 then .near else .host
/-- The location that a leaf gives an address (R160, R163). -/
def leafLoc (e va : Nat) : Space × Nat :=
  (tgtSpace (teTgt e), (if teTgt e = 2 then teHi e * 2 ^ 48 else 0) + teAddr e + va % szBytes (teSz e))
/-- The first store through a leaf sets D in the entry that the walker read (R163). -/
def touchD (s : State) (k : Nat) (t : Tl) (q : Party) (x : TlbE) (write : Bool) : State :=
  match x.ent with
  | some a =>
    if write && !bitN x.leaf.toNat 9 then
      let y := { x with leaf := x.leaf ||| BitVec.ofNat 64 teDBit }
      modCore (setEntryBit s (walkParty q) a teDBit) k fun o => tlSet o t ((tlGet o t).map fun z => if z = x then y else z)
    else s
  | none => s
/-- Translates one address (R161 to R165): a hit needs no walk; a walk that ends in a leaf sets ACC and installs it. With EN of PTROOT
0 nothing is translated, cached or not (R161). A walk for an agent without a cache, which installs nothing, sets ACC too (DEDUCED,
log 99). -/
def translate1 (s : State) (k : Nat) (t : Tl) (q : Party) (part va : Nat) (write : Bool) : State × Except Nat (Space × Nat) :=
  let root := (partRec s part).ptroot.toNat
  if !bitN root 0 then (s, .error 0)
  else match (tlGet (coreAt s k) t).find? (hits t part va) with
  | some x =>
    if write && !teW x.leaf.toNat then (s, .error 1) else (touchD s k t q x write, .ok (leafLoc x.leaf.toNat va))
  | none =>
    match walk s (walkParty q) root va write with
    | .fault c => (s, .error c)
    | .leaf e a =>
      let bits := teAccBit ||| (if write then teDBit else 0)
      let s1 := setEntryBit s (walkParty q) a bits
      (if t = .none then s1 else tlInstall s1 k t (mkTlb t part va (e ||| bits) (some a)), .ok (leafLoc e va))
/-- A range that a page boundary may cut in two. -/
def translate (s : State) (k : Nat) (t : Tl) (q : Party) (part va n : Nat) (write : Bool) :
    State × Except (Nat × Nat) (List (Space × Nat × Nat)) :=
  let n1 := if va / 2 ^ 16 = (va + n - 1) / 2 ^ 16 then n else 2 ^ 16 - va % 2 ^ 16
  match translate1 s k t q part va write with
  | (_, .error c) => (s, .error (c, va))
  | (s1, .ok (sp, a)) =>
    if n1 = n then (s1, .ok [(sp, a, n)])
    else match translate1 s1 k t q part (va + n1) write with
    | (_, .error c) => (s, .error (c, va + n1))
    | (s2, .ok (sp2, a2)) => (s2, .ok [(sp, a, n1), (sp2, a2, n - n1)])

/-! ### The address map -/

/-- Regions of R157; a core of the global window and a device of the peer windows are told apart. -/
inductive Region1 | spad | spadRange | kdm | user | win (core : Nat) | winRange | host | peer (d : Nat) | unmapped
  deriving DecidableEq, Repr
def regionOf (a : Nat) : Region1 :=
  if a < 0x2200000 then .spad
  else if a < 0x4000000 then .spadRange
  else if a < 0x4010000 then .kdm
  else if a < 0x100000000 then .unmapped
  else if a < 0x800000000000 then .user
  else if a < 0x800100000000 then (if a % 0x4000000 < 0x2200000 then .win (a / 0x4000000 % 64) else .winRange)
  else if a < 0x900000000000 then .unmapped
  else if a < 0xA00000000000 then .host
  else if a < 0xC00000000000 then .unmapped
  else if a < 0x1000000000000 then .peer ((a - 0xC00000000000) / 0x4000000000)
  else .unmapped
/-- Who issues an address. -/
inductive Issuer | k | a | matrix | copy | device
  deriving DecidableEq, Repr
/-- Device d is in the partition's device set (R398): the own device, or one that DEVSET names and with which the link key of the
pair is held. -/
def inSet (s : State) (part d : Nat) : Bool :=
  d == s.dev.mydev.toNat || ((partRec s part).devset.getLsbD d && s.dev.linkKeys.contains (part, d))
/-- What a region raises for an issuer of a partition, if anything (R157, R158). -/
def regionFault (s : State) (part : Nat) (i : Issuer) : Region1 → Option (FT × Nat)
  | .spad => if i = .k ∨ i = .device then some (.addrUnmapped, 0) else none
  | .spadRange | .winRange => some (.spadRange, 0)
  | .kdm => if i = .k then none else some (.addrUnmapped, 0)
  | .user | .host => none
  | .win c => if runsPart s part c then none else some (.spadWindow, 0)
  | .peer d =>
    if i = .matrix ∨ i = .device then some (.addrUnmapped, 0)
    else if inSet s part d then none else some (.pageFault, 3)
  | .unmapped => some (.addrUnmapped, 0)
/-- Where an access goes: pieces of locations with the level below which no release publishes a store there (R197), or an offset of
a peer window. -/
inductive Place | home (ps : List (Space × Nat × Nat)) (least : Nat) | peer (d o : Nat)
  deriving DecidableEq, Repr
/-- A fault of an access: type, cause, address. -/
structure AFault where
  ty : FT
  cause : Nat
  addr : Nat
  deriving DecidableEq, Repr
/-- Checks the region of a range by R157 and translates it by R162 to R164. -/
def resolve (s : State) (k : Nat) (t : Tl) (q : Party) (part : Nat) (i : Issuer) (va n : Nat) (write : Bool) :
    State × Except AFault Place :=
  let r := regionOf va
  let last := regionOf (va + n - 1)
  match regionFault s part i last with
  | some (ty, c) => (s, .error ⟨ty, c, va⟩)
  | none =>
    if r ≠ last then (s, .error ⟨.addrUnmapped, 0, va⟩)
    else match r with
    | .spad => (s, .ok (.home [(.spad k, va, n)] 0))
    | .kdm => (s, .ok (.home [(.kdm k, va - 0x4000000, n)] 0))
    | .win c => (s, .ok (.home [(.spad c, va % 0x4000000, n)] 4))
    | .peer d => (s, .ok (.peer d ((va - 0xC00000000000) % 0x4000000000)))
    | .user | .host =>
      match translate s k t q part va n write with
      | (s1, .error (c, a)) => (s1, .error ⟨.pageFault, c, a⟩)
      | (s1, .ok ps) => (s1, .ok (.home ps (if r = .host then 5 else 0)))
    | _ => (s, .error ⟨.addrUnmapped, 0, va⟩)

/-! ### Bytes of a place -/

/-- Plain reads and writes of the pieces of a place, at a party (R189 to R191). -/
def readPieces (s : State) (q : Party) : List (Space × Nat × Nat) → List Byte × State
  | [] => ([], s)
  | (sp, a, n) :: ps =>
    let bs := readBytes s q sp a n
    let (rest, s1) := readPieces (fixBytes (observeRead s q sp a n) q sp a bs) q ps
    (bs ++ rest, s1)
def writePieces (s : State) (q : Party) (part least : Nat) : List (Space × Nat × Nat) → List Byte → State
  | [], _ => s
  | (sp, a, n) :: ps, bs => writePieces (stamp (storePlain s q sp a (bs.take n) least) part sp a n) q part least ps (bs.drop n)
def piecesPoison (s : State) (part : Nat) (ps : List (Space × Nat × Nat)) : Bool := ps.any fun p => anyPoison s part p.1 p.2.1 p.2.2
/-- Accesses of the device itself: rings, records, completion values (identity 0, no cache). -/
def devRead (s : State) (part va n : Nat) : State × Except AFault (List Byte) :=
  match resolve s 64 .none .host part .device va n false with
  | (s1, .error f) => (s1, .error f)
  | (s1, .ok (.home ps _)) => (s1, .ok (ps.flatMap fun p => curBytes s1 .host p.1 p.2.1 p.2.2))
  | (s1, .ok (.peer _ _)) => (s1, .error ⟨.addrUnmapped, 0, va⟩)
def devWrite (s : State) (part va : Nat) (bs : List Byte) : State × Except AFault Unit :=
  match resolve s 64 .none .host part .device va bs.length true with
  | (s1, .error f) => (s1, .error f)
  | (s1, .ok (.home ps _)) =>
    ((ps.foldl (fun acc p => (stamp (storeDevice acc.1 p.1 p.2.1 (acc.2.take p.2.2)) part p.1 p.2.1 p.2.2, acc.2.drop p.2.2)) (s1, bs)).1, .ok ())
  | (s1, .ok (.peer _ _)) => (s1, .error ⟨.addrUnmapped, 0, va⟩)

end Sys2Proof.Machine
end

