-- ==== Sys2Proof/Machine/Ops.lean ====
section
/-! DEFINITION. What every meaning shares: the trace and the winnow trigger (R272, R392), posting a fault record (R286 to R291), taking
a precise trap (R37, R167, R293), retiring a syllable with its loop ends (R93, R102, R103, R23), waiting, and the answers of the
pager. -/

namespace Sys2Proof.Machine

/-- Sum of the values of a list, least significant field first: (width, value). -/
def packFields : List (Nat × Nat) → Nat
  | [] => 0
  | (w, v) :: fs => v % 2 ^ w + 2 ^ w * packFields fs

/-! ### Trace records (R272, R387) -/

def trRingOn (p : Part) : Bool := decide (7 ≤ p.trlog) && decide (p.trlog ≤ 20)
/-- One 32-byte record at TRWR, or one more dropped record. -/
def traceWrite (s : State) (part : Nat) (bytes : List Byte) : State :=
  let p := partRec s part
  if !p.policy.getLsbD 0 || !trRingOn p then s
  else
    let drop := fun (s : State) => modPart s part fun p => { p with trdrop := satAdd (2 ^ 64 - 1) p.trdrop 1 }
    if p.trwr - p.trrd = 2 ^ p.trlog then drop s
    else match devWrite s part (p.trbase + 32 * (p.trwr % 2 ^ p.trlog)) bytes with
    | (s1, .ok _) => modPart s1 part fun p => { p with trwr := p.trwr + 1 }
    | (s1, .error _) => drop s1
/-- The layout of R272. BLKCLK is a free value (log entry 20). -/
def traceBytes (rq kind core cl wh payload seq clk : Nat) : List Byte :=
  bytesOf 32 (packFields [(80, 0), (16, wh), (8, kind), (2, cl), (6, core), (16, rq), (32, clk), (32, seq), (64, payload)])
/-- An event takes the next SEQ of its request and is recorded when tracing is open. Answers the SEQ taken. -/
def traceEvent (s : State) (rq kind core cl wh payload : Nat) : Nat × State :=
  let r := rqAt s rq
  if rq = 0 ∨ r.st = .free then (0, s)
  else
    let s1 := modRq s rq fun r => { r with seq := r.seq + 1 }
    let n := s.dev.clkReads
    (r.seq.toNat, traceWrite (modDev s1 fun d => { d with clkReads := n + 1 }) r.part
      (traceBytes rq kind core cl wh payload r.seq.toNat (Config.blkClk n).toNat))
/-- An event whose SEQ nobody reads. -/
def traceIt (s : State) (rq kind core cl wh payload : Nat) : State := (traceEvent s rq kind core cl wh payload).2

/-! ### The winnow trigger (R392, R393) -/

/-- The devices that some partition of this one names. -/
def devsetPeers (s : State) : List Nat :=
  (List.range 256).filter fun d => d != s.dev.mydev.toNat && s.parts.any fun e => e.2.live && e.2.devset.getLsbD d
/-- Starts an event: every bank latches, and FWD forwards it. -/
def latchEvent (s : State) (tag : Nat) : Nat × State :=
  let ev := s.dev.win.event + 1
  let b : Bank := ⟨ev.toNat, tag % 2 ^ 32, s.cores, s.rq, s.thr, s.links⟩
  let s1 := modDev s fun d => { d with win := { d.win with event := ev, bank := some b } }
  (ev.toNat, if s.dev.win.fwd then { s1 with flits := s1.flits ++ (devsetPeers s).map fun d => (d, BitVec.ofNat 32 tag) } else s1)
/-- A trigger: an event when the banks are free, else one more missed. Answers the event's number, or 0. -/
def trigger (s : State) (tag : Nat) : Nat × State :=
  match s.dev.win.bank with
  | some _ => (0, modDev s fun d => { d with win := { d.win with missed := if d.win.missed = 65535 then 65535 else d.win.missed + 1 } })
  | none => latchEvent s tag

/-! ### Fault records -/

/-- The codes of R289. -/
def ftCode : FT → Nat
  | .illegalOpcode => 0x01 | .illegalCluster => 0x02 | .illegalPrivilege => 0x03 | .illegalModifier => 0x04
  | .illegalOperand => 0x05 | .pcRange => 0x06 | .loopState => 0x07 | .overlayMissing => 0x08 | .misaligned => 0x09
  | .runDeadlock => 0x0A | .userTrap => 0x0B | .requestNotOpen => 0x0C
  | .pageFault => 0x10 | .addrUnmapped => 0x11 | .spadRange => 0x12 | .spadWindow => 0x13 | .streamInvalid => 0x14
  | .poisonConsumed => 0x15 | .atomicTarget => 0x16 | .waitTarget => 0x17 | .copyAddress => 0x18
  | .ewordUndefined => 0x20 | .matrixConfig => 0x21 | .matrixPoison => 0x22 | .matrixReplayLost => 0x23
  | .matrixUncorrectable => 0x24 | .controlDivergence => 0x25 | .linkTimeout => 0x26 | .digit => 0x27 | .sheafLost => 0x28
  | .arenaInvalid => 0x30 | .arenaSplit => 0x31 | .arenaFormat => 0x32 | .pinUnderflow => 0x33
  | .waitExhausted => 0x40 | .waitDeadlock => 0x41 | .barrierUnreachable => 0x42
  | .launchMalformed => 0x50 | .imageMalformed => 0x51 | .malformedLength => 0x52 | .packetUndefined => 0x53
  | .ringOverrun => 0x54 | .preemptLate => 0x55 | .requestCancelled => 0x56 | .recordLost => 0x57
  | .pagerFault => 0x58 | .preemptSaveFailed => 0x59 | .completionLost => 0x5A
/-- The records that need no answer (R289). -/
def ftNoAnswer : FT → Bool
  | .preemptLate | .requestCancelled | .recordLost | .completionLost => true
  | _ => false
/-- The first entry of a record (R288). -/
def recNum (r : FRec) : Nat :=
  packFields [(32, 0x80 + 256 * (if r.ty = .recordLost then 2 else 1)), (32, r.eseq), (16, 0), (8, r.peer), (8, r.cause), (4, r.queue),
    (4, r.unit), (2, r.cluster), (6, r.core), (1, b2n r.prec), (15, r.wh), (16, ftCode r.ty), (16, r.rq), (32, r.slot),
    (64, r.token), (64, r.raw), (64, r.addr), (64, r.aux0), (64, r.aux1)]
/-- The entries of a record: RECORD_LOST has a second one with the meters (R288). -/
def recBytes (r : FRec) : List Byte :=
  bytesOf 64 (recNum r) ++ (if r.ty = .recordLost then bytesOf 64 (packFields (r.meters.map fun m => (64, m))) else [])
/-- How many entries a record takes. -/
def recEntries (r : FRec) : Nat := if r.ty = .recordLost then 2 else 1

/-- Names the launch of a core in a record. -/
def withLaunch (s : State) (k : Nat) (r : FRec) : FRec :=
  match launchAt s k with
  | some l => { r with slot := l.pkt.slot, ring := l.ring, launch := l.id }
  | none => r
/-- A new TOKEN (log entry 9). -/
def withToken (s : State) (r : FRec) : FRec × State :=
  ({ r with token := s.dev.nextToken }, modDev s fun d => { d with nextToken := d.nextToken + 1 })
/-- What posting a record counts: FAULTS of its request, and the request's event, whose WHERE is a syllable's index or 0 (R264, R272). An
identity that is not live in the record's partition looks free (R259). -/
def notePosted (s : State) (r : FRec) : State :=
  if r.ty = .recordLost || !rqLive s (ringPart r.ring) r.rq then s
  else traceIt (addMeter s r.rq mFAULTS 1) r.rq 5 r.core r.cluster (if r.unit = 0 ∨ r.unit = 5 then r.wh else 0) (ftCode r.ty)
/-- Hands a record that has its TOKEN to its exception queue: the first sixteen are held and pending, the others wait unposted
with their parties (R286). -/
def postRec (s : State) (r : FRec) : State :=
  if (ringAt s r.ring).held.length < 16 then
    notePosted (modRing s r.ring fun g => { g with held := g.held ++ [r], pend := g.pend ++ [r] }) r
  else modRing s r.ring fun g => { g with held := g.held ++ [r] }
/-- Posts a record that stops nobody. -/
def postNew (s : State) (r : FRec) : State :=
  let (r', s1) := withToken s r
  postRec s1 r'

/-- The record that a syllable's fault names (R37, R288). -/
def clRec (s : State) (a : At) (ty : FT) : FRec :=
  withLaunch s a.k { ty := ty, prec := true, core := a.k, cluster := cnum a.c, wh := pcOf s a % 2 ^ 15, rq := rqiOf s a
                     raw := (wordAt s a (pcOf s a)).toNat
                     who := if a.x = .fw then .fw a.k else .cl a.k a.c }
/-- The identity of a memory access when it carries exactly one (R288). -/
def oneId : List Nat → Nat
  | [i] => i
  | _ => 0
/-- The pager's context at the start of a service: nothing of an earlier one is on its way. -/
def freshPager (pc : Nat) (t : Ctx) : Ctx := { t with pc := pc, blocked := .no, wait := none, peerWait := false, sheafBusy := none, sheafRes := none }
/-- A service that is broken off waits for no result: those of its accesses go nowhere, and the queue entries that they reserved are given up. -/
def dropPagerWork (k : Nat) (s : State) : State :=
  let s1 := { s with out := s.out.filter fun o => match o.why with
    | .access k' _ x _ d _ _ _ _ => !(k' == k && x == .pager && decide (d ≠ .none))
    | _ => true }
  modCore s1 k fun o => (List.range 16).foldl (fun o q => dropLate o q .pager) { o with ks := { o.ks with pager := freshPager o.ks.pager.pc o.ks.pager } }
/-- A fault of the pager's own work posts PAGER_FAULT, which names what it was serving (R293). `own` is the type of the pager
syllable's fault, `wh` its index, 0 for the time limit. A service that the user context asked for is over, and the firmware context's `rqi`
with it (R262). -/
def pagerFail (s : State) (k own wh cause : Nat) : State :=
  let ks := (coreAt s k).ks
  let s1 := modKs (dropPagerWork k s) k fun ks => { ks with pagerRun := .idle, fwRqi := (match ks.pagerRun with | .request _ _ => 0 | _ => ks.fwRqi) }
  let base : FRec := { ty := .pagerFault, unit := 5, core := k, cause := cause, wh := wh, who := .cl k .K }
  match ks.pagerRun with
  | .idle => s1
  | .trap r =>
    postNew s1 { base with rq := r.rq, slot := r.slot, ring := r.ring, launch := r.launch, aux0 := r.token
                           aux1 := ftCode r.ty + 2 ^ 16 * own, who := r.who }
  | .request w _ => postNew s1 (withLaunch s k { base with rq := (cluAt s k .K).rqi, aux1 := 2 ^ 16 * own + 2 ^ 32 * w })
/-- PAGE_FAULT of cause 0 or 1 that the resident pager serves (R293): by K, A or an engine command of the core. -/
def toPager (r : FRec) : Bool :=
  decide (r.ty = .pageFault) && decide (r.cause < 2) && !r.far &&
    (r.unit == 1 || r.unit == 2 || (r.unit == 0 && r.cluster < 2))
/-- Posts a record that stops its party, or hands it to the pager (R293). Answers its TOKEN. -/
def raise (s : State) (r : FRec) : Nat × State :=
  let (r', s1) := withToken s r
  (r'.token, if toPager r' then modKs s1 r'.core fun ks => { ks with pagerQ := ks.pagerQ ++ [r'] } else postRec s1 r')
/-- TAKING AN EXCEPTION: a precise trap of a syllable. The program counter stays, nothing else changes, and the cluster stands
at its record (R37, R167, R288, R293). -/
def takeTrap (a : At) (r : FRec) (s : State) : State :=
  match a.x with
  | .pager => pagerFail s a.k (ftCode r.ty) r.wh 0
  | .fw =>
    let (r', s1) := withToken s r
    postRec (modKs s1 a.k fun ks => { ks with fwReady := false }) r'
  | .user =>
    let (t, s1) := raise s r
    modClu s1 a.k a.c fun u => { u with stop := some t }
/-- A trap that names nothing but the syllable. -/
def trapTy (a : At) (ty : FT) (s : State) : State := takeTrap a (clRec s a ty) s
/-- A trap of a memory access: the identities are those that the access carries (R262). -/
def trapMem (a : At) (f : AFault) (s : State) : State :=
  takeTrap a { clRec s a f.ty with cause := f.cause, addr := f.addr, rq := oneId (memIds s a) } s

/-! ### Retiring a syllable -/

/-- Takes an armed bit away; LOOPC then reads 0 (R102; log entry 21). -/
def disarm (t : Ctx) (l : Nat) : Ctx :=
  { t with lv := sset {} t.lv l { sget {} t.lv l with armed := false, count := 0, rot := false }, order := t.order.filter (· != l) }
/-- Copies the stage predicates into `p8` to `p15` (R103). -/
def spCopy (t : Ctx) (sp : BitVec 8) : Ctx := { t with p := (t.p &&& 0xFF) ||| (sp.setWidth 16 <<< 8) }
/-- A pass boundary of an `rloop` (R103). -/
def rotate (t : Ctx) (xs : XSt) : Ctx × XSt :=
  let sp := (xs.sp <<< 1) ||| (if t.rotStarted < t.rotN then 1 else 0)
  (spCopy { t with rotStarted := t.rotStarted + 1 } sp, { xs with sp := sp, rrb := (xs.rrb + 127) % 128 })
/-- The end of a syllable at index `pc` that took no branch and falls through to `nxt`: the armed levels that end there, the most recently
armed first (R102, R103). -/
def nextPc (pc nxt : Nat) : List Nat → Ctx → XSt → Ctx × XSt
  | [], t, xs => ({ t with pc := nxt }, xs)
  | l :: ls, t, xs =>
    let v := sget {} t.lv l
    if v.armed && v.fin == pc then
      if 1 < v.count then
        let t1 := { t with lv := sset {} t.lv l { v with count := v.count - 1 }, pc := v.start }
        if v.rot then rotate t1 xs else (t1, xs)
      else nextPc pc nxt ls (disarm t l) (if v.rot then { xs with sp := 0 } else xs)
    else nextPc pc nxt ls t xs
/-- The syllables of a context's instruction memory (R23, R292). -/
def pcLimit (a : At) : Nat := if a.x = .pager then 4096 else 32768
/-- No syllable stands at the program counter: PC_RANGE of R23, imprecise, WHERE 32767; in the pager it is a fault of its syllable at index
`pc` (R293). -/
def pcCheck (a : At) (pc : Nat) (s : State) : State :=
  if pcOf s a < pcLimit a then s
  else takeTrap a { clRec s a .pcRange with prec := false, wh := if a.x = .pager then pc else 32767, raw := (wordAt s a 32767).toNat } s
/-- The cluster's slot goes to its request (R264); the firmware context's slots are counted in FWSLOTS (R98). -/
def meterIssue (a : At) (s : State) : State :=
  match a.x with
  | .fw => modKs s a.k fun ks => { ks with fwslots := ks.fwslots + 1 }
  | _ => meter s (partAt s a.k) [rqiOf s a] mISSUE 1
/-- The clk that a piece of work took, a free value (log entry 20). -/
def takeClk (s : State) : Nat × State := (Config.workClk s.dev.clkReads, modDev s fun d => { d with clkReads := d.clkReads + 1 })
/-- The clk of a `fwcall` stall go to the user context's request (R264). -/
def meterStall (a : At) (s : State) : State :=
  match a.x with
  | .user => let (n, s1) := takeClk s; meter s1 (partAt s1 a.k) [rqiOf s1 a] mISSUE n
  | _ => s
/-- Goes on past the syllable: `d` syllables on, unless a loop level that ends here goes back. -/
def advanceBy (a : At) (d : Nat) (s : State) : State :=
  pcCheck a (pcOf s a) (match a.x with
    | .user => modClu s a.k a.c fun u =>
        let r := nextPc u.ctx.pc (u.ctx.pc + d) u.ctx.order u.ctx u.xs
        { u with ctx := { r.1 with blocked := .no }, xs := r.2 }
    | _ => modCtx s a fun t => { (nextPc t.pc (t.pc + d) t.order t {}).1 with blocked := .no })
def advance (a : At) (s : State) : State := advanceBy a 1 s
/-- A syllable that took its slot and no branch retires (R93, R264). -/
def retire (a : At) (s : State) : State := advance a (meterIssue a s)
/-- The levels that a branch to `t` disarms: those whose body lies elsewhere, and every level armed after one of them
(R102). `order` runs from the latest armed to the earliest. -/
def disarmOut (c : Ctx) (t : Nat) : List Nat → List Nat → Ctx
  | [], _ => c
  | l :: ls, later =>
    let v := sget {} c.lv l
    if v.armed && (decide (t < v.start) || decide (v.fin < t)) then disarmOut ((l :: later).foldl disarm c) t ls []
    else disarmOut c t ls (l :: later)
/-- A taken branch (R93, R102): it overrides a loop-back. -/
def branchTo (a : At) (t : Nat) (outs : Bool) (s : State) : State :=
  pcCheck a (pcOf s a) (modCtx (meterIssue a s) a fun c =>
    let c1 := if outs then disarmOut c t c.order [] else c
    { c1 with pc := t, blocked := .no })
/-- The syllable cannot issue yet (R92). -/
def block (a : At) (b : Blocked) (s : State) : State := modCtx s a fun t => { t with blocked := b }

end Sys2Proof.Machine
end

