-- ==== Sys2Proof/Machine/Image.lean ====
section
/-! DEFINITION. The image file as the overlay loader reads it (R53 to R56). -/

namespace Sys2Proof.Machine

/-- Bytes of the file from an offset; bytes past its end read 0. -/
def imgBytes (im : Image) (off n : Nat) : List Byte := (List.range n).map fun i => sget 0 im.file (off + i)
def imgNum (im : Image) (off n : Nat) : Nat := ofBytes (imgBytes im off n)
/-- A section descriptor (R54). -/
structure Sect where
  ty : Nat
  cluster : Nat
  ovl : Nat
  res1 : Nat
  off : Nat
  len : Nat
  load : Nat
  res2 : Nat
  deriving DecidableEq, Repr
def sectAt (im : Image) (at0 : Nat) : Sect :=
  let f := imgNum im at0 32
  ⟨fld f 0 16, fld f 16 16, fld f 32 4, fld f 36 28, fld f 64 64, fld f 128 64, fld f 192 32, fld f 224 32⟩
def imgNsect (im : Image) : Nat := imgNum im 6 2
def imgSectab (im : Image) : Nat := imgNum im 32 4
def imgSize (im : Image) : Nat := imgNum im 8 8
def imgEntry (im : Image) (c : Cluster) : Nat := imgNum im (16 + 4 * cnum c) 4
def imgSects (im : Image) : List Sect := (List.range (imgNsect im)).map fun i => sectAt im (imgSectab im + 32 * i)
/-- Sections of a type and cluster; overlays by number. -/
def textSect (im : Image) (c : Cluster) : Option Sect := (imgSects im).find? fun s => s.ty == 1 && s.cluster == cnum c
def ovlSect (im : Image) (c : Cluster) (n : Nat) : Option Sect := (imgSects im).find? fun s => s.ty == 10 && s.cluster == cnum c && s.ovl == n
def typeSects (im : Image) (ty : Nat) : List Sect := (imgSects im).filter fun s => s.ty == ty
/-- The syllables of a text section; bytes past the last whole syllable are none of it (DESIGN CHOICE, log 95). -/
def sectWords (im : Image) (s : Sect) : List Word := (List.range (s.len / 8)).map fun i => BitVec.ofNat 64 (imgNum im (s.off + 8 * i) 8)

/-- The header passes R56. -/
def imgHeadOk (im : Image) : Bool :=
  imgNum im 0 4 == 0x4D495856 && imgNum im 4 2 == 1 && imgNum im 36 4 == 0 && imgNum im 40 24 == 0 &&
  decide (1 ≤ imgNsect im) && decide (imgNsect im ≤ 1024) && imgSectab im % 32 == 0 &&
  decide (imgSectab im + 32 * imgNsect im ≤ imgSize im)
/-- One descriptor by itself passes R56. -/
def sectOk (im : Image) (s : Sect) : Bool :=
  decide (1 ≤ s.ty) && decide (s.ty ≤ 10) && s.off % 64 == 0 && s.res1 == 0 && s.res2 == 0 &&
  decide (s.off + s.len ≤ imgSize im) &&
  (if s.ty = 1 ∨ s.ty = 10 then s.load % 8 == 0 && decide (s.load + s.len ≤ 262144) else true) &&
  (if s.ty = 2 ∨ s.ty = 3 ∨ s.ty = 4 then s.load % 64 == 0 else true) &&
  (if s.ty = 2 then decide (s.load + s.len ≤ 65536) else true) &&
  (if s.ty = 3 then decide (s.load + s.len ≤ 0x2200000) else true) &&
  (if s.ty = 8 then s.len == 5120 && decide (2 ≤ s.cluster) && decide (s.cluster ≤ 4) &&
    (typeSects im s.cluster).any (fun t => decide (t.off ≤ s.off) && decide (s.off + s.len ≤ t.off + t.len)) else true)
/-- Two descriptors that R56 lets stand together. A section of length 0 strictly inside another overlaps it (DESIGN CHOICE, log 95). -/
def sectPairOk (s t : Sect) : Bool :=
  !(s.ty == 1 && t.ty == 1 && s.cluster == t.cluster) &&
  !(s.ty == 10 && t.ty == 10 && s.cluster == t.cluster && s.ovl == t.ovl) &&
  !(s.ty == t.ty && (s.ty == 5 || s.ty == 6 || s.ty == 7 || s.ty == 9)) &&
  !(s.ty == t.ty && (s.ty == 2 || s.ty == 3 || s.ty == 4) && decide (s.load < t.load + t.len) && decide (t.load < s.load + s.len))
def sectsOk : List Sect → Bool
  | [] => true
  | s :: ss => ss.all (sectPairOk s) && sectsOk ss
/-- The entry index lies in the cluster's base text. A cluster without base text has none for it to lie in, and its image is refused (DESIGN
CHOICE, log 95). -/
def entryOk (im : Image) (c : Cluster) : Bool :=
  match textSect im c with
  | some s => decide (s.load ≤ 8 * imgEntry im c) && decide (8 * imgEntry im c < s.load + s.len)
  | none => false
/-- The overlay loader accepts the image (R56). -/
def imgOk (im : Image) : Bool :=
  imgHeadOk im && (imgSects im).all (sectOk im) && sectsOk (imgSects im) && clusters.all (entryOk im)

end Sys2Proof.Machine
end

