-- ==== Sys2Proof/Machine/Operands.lean ====
section
/-! DEFINITION. Every operand form of a syllable: scalar registers and queues, vector registers, groups and queues, masks,
immediates, indices and addresses (R28 to R35, R124, R125, R127), with the order of pops and pushes of R31. -/

namespace Sys2Proof.Machine

/-! ### Queue ports -/

/-- The number of a scalar queue. -/
def sq (n : Fin 4) : Nat := 12 + n.val
/-- The queues that scalar sources pop, in field order. -/
def popsS : List SOp → List Nat
  | [] => []
  | .q n :: l => sq n :: popsS l
  | .x _ :: l => popsS l
/-- The queue that a scalar destination pushes. -/
def pushS : SOp → List Nat
  | .q n => [sq n]
  | .x _ => []
/-- The entries that a vector operand of `g` registers pops or pushes (R127). -/
def portV (g : Nat) : VOp → List Nat
  | .q n => List.replicate g n.val
  | .v _ => []
/-- The first queue that does not hold as many entries as the syllable pops. -/
def shortOf (o : Core) (c : Cluster) (pops : List Nat) : Option Nat := pops.find? fun q => decide (qHeld o c q < pops.count q)
/-- The first queue without room for what the syllable pushes. -/
def fullOf (o : Core) (pushes : List Nat) : Option Nat := pushes.find? fun q => decide (qFree o q < pushes.count q)
/-- Goes on only when every queue allows it; else the syllable stalls and pops nothing (R31, R92). -/
def needQ (a : At) (pops pushes : List Nat) (go : State → State) (s : State) : State :=
  match shortOf (coreAt s a.k) a.c pops with
  | some q => block a (.qEmpty q) s
  | none =>
    match fullOf (coreAt s a.k) pushes with
    | some q => block a (.qFull q) s
    | none => go s

/-! ### Pops and pushes -/

/-- Pops the head of a scalar or vector queue, and observes the push (R190). -/
def popS (a : At) (q : Nat) (s : State) : Word × State :=
  let r := popScalar (coreAt s a.k) a.c q
  (r.1, observeAll (partyOf a) (modCore s a.k fun _ => r.2) (headObs (coreAt s a.k) a.c q))
def popV (a : At) (q : Nat) (s : State) : VReg × State :=
  let r := popVector (coreAt s a.k) q
  (r.1, observeAll (partyOf a) (modCore s a.k fun _ => r.2) (headObs (coreAt s a.k) a.c q))
/-- A push by a context. -/
def pushedS (a : At) (q : Nat) (v : Word) (s : State) : State := modCore s a.k fun o => pushScalar o q (obsOf s (partyOf a)) v
def pushedV (a : At) (q : Nat) (e : VReg) (s : State) : State := modCore s a.k fun o => pushVector o q (obsOf s (partyOf a)) e

/-! ### Scalar operands -/

/-- A scalar source: the register, or the entry popped. -/
def takeS (a : At) (f : SOp) (s : State) : Word × State :=
  match f with
  | .x n => (getX s a n.val, s)
  | .q n => popS a (sq n) s
/-- A scalar destination: the register, or the entry pushed. -/
def putS (a : At) (f : SOp) (v : Word) (s : State) : State :=
  match f with
  | .x n => setX s a n.val v
  | .q n => pushedS a (sq n) v s
/-- IMM16 sign-extended, and zero-extended (R34). -/
def immS (i : BitVec 16) : Word := i.signExtend 64
def immZ (i : BitVec 16) : Word := i.zeroExtend 64
/-- The target of a relative branch (R47): an index that may lie outside the memory. -/
def relTarget (pc : Nat) (off : BitVec 26) : Int := (pc : Int) + off.toInt

/-! ### Vector operands -/

/-- A group of `g` registers as one number (R127). -/
def getVG (s : State) (a : At) (n : Nat) : Nat → Nat
  | 0 => 0
  | g + 1 => (getV s a n).toNat + 2 ^ 4096 * getVG s a (n + 1) g
def setVG (s : State) (a : At) (n : Nat) : Nat → Nat → State
  | 0, _ => s
  | g + 1, x => setVG (setV s a n (BitVec.ofNat 4096 x)) a (n + 1) g (x / 2 ^ 4096)
/-- Pops `g` entries of a vector queue. -/
def popVG (s : State) (a : At) (q : Nat) : Nat → Nat × State
  | 0 => (0, s)
  | g + 1 =>
    let r := popV a q s
    let t := popVG r.2 a q g
    (r.1.toNat + 2 ^ 4096 * t.1, t.2)
def pushVG (s : State) (a : At) (q : Nat) : Nat → Nat → State
  | 0, _ => s
  | g + 1, x => pushVG (pushedV a q (BitVec.ofNat 4096 x) s) a q g (x / 2 ^ 4096)
/-- A vector source of `g` registers or entries. -/
def takeV (a : At) (g : Nat) (f : VOp) (s : State) : Nat × State :=
  match f with
  | .v n => (getVG s a n.val g, s)
  | .q n => popVG s a n.val g
/-- A vector destination of `g` registers or entries. -/
def putV (a : At) (g : Nat) (f : VOp) (x : Nat) (s : State) : State :=
  match f with
  | .v n => setVG s a n.val g x
  | .q n => pushVG s a n.val g x
/-- What an inactive element of a destination keeps: its old value, +0 in an entry pushed (R125). -/
def oldV (a : At) (g : Nat) (f : VOp) (s : State) : Nat :=
  match f with
  | .v n => getVG s a n.val g
  | .q _ => 0
/-- The base of a group is a multiple of its size, when it is a register (R127). -/
def groupOk (g : Nat) : VOp → Bool
  | .v n => n.val % g == 0
  | .q _ => true

/-- The mask of a syllable as a number: all ones when it has none (R124). -/
def maskOf (a : At) (m : VMask) (s : State) : Nat :=
  match m with
  | none => 2 ^ 1024 - 1
  | some n => (getM s a n.val).toNat
/-- Active elements take the result, inactive ones keep the old element (R125). -/
def mergeV (w n mask old : Nat) (f : Nat → Nat) : Nat := buildN w n fun i => if bitN mask i then f i else elemN w old i
/-- The index or identity operand of R141 and R142: the value popped or read, when it is a register. -/
def popsX : XSrc → List Nat
  | .reg r => popsS [r]
  | .imm _ => []
/-- Registers of an index group (R139 to R141): one n16 per element. -/
def idxRegs (t : Ety) : Nat := cdiv (etyE t) 256
/-- Registers of a lookup table of 256 entries (R145). -/
def lutRegs (t : Ety) : Nat := cdiv 256 (etyE t)

end Sys2Proof.Machine
end

