-- ==== Sys2Proof/Machine/Flags.lean ====
section
/-! DEFINITION. What the Rinkor has for flags: conditions written to predicates and to masks (R116, R119, R134), predicate and mask
logic (R121, R146), and the event summary of R148. -/

namespace Sys2Proof.Machine

/-! ### Conditions -/

/-- `cmp` by signed and by unsigned order (R116). -/
def condEq (u v : Word) : Bool := u == v
def condNe (u v : Word) : Bool := u != v
def condLt (u v : Word) : Bool := u.slt v
def condGe (u v : Word) : Bool := !u.slt v
def condLtu (u v : Word) : Bool := u.ult v
def condGeu (u v : Word) : Bool := !u.ult v
/-- `fcmp`: a NaN operand makes `ne` and `un` true and the others false; -0 equals +0 (R119). -/
def fcond (t : FTy) (c : FCond) (u v : Nat) : Bool :=
  if fIsNan t u || fIsNan t v then decide (c = .ne) || decide (c = .un)
  else match c with
  | .eq => fOrd t u == fOrd t v
  | .ne => fOrd t u != fOrd t v
  | .lt => decide (fOrd t u < fOrd t v)
  | .le => decide (fOrd t u ≤ fOrd t v)
  | .un => false
/-- An order key of a vector element: integers by value, IEEE values with -0 equal to +0 (R134). -/
def ordKey (t : Ety) (x : Nat) : Int :=
  match etyF t with
  | some f => fOrd f x
  | none => elemInt t x
/-- The element is a NaN of its type. -/
def isNanE (t : Ety) (x : Nat) : Bool :=
  match etyF t with
  | some f => fIsNan f x
  | none => if t = .tf8 then tapIsNan false x else if t = .tf6 then tapIsNan true x else false
/-- `vcmp` on one element (R134). -/
def vcond (t : Ety) (c : VCond) (u v : Nat) : Bool :=
  if etyFlt t && (isNanE t u || isNanE t v) then decide (c = .ne) || decide (c = .un)
  else match c with
  | .eq => ordKey t u == ordKey t v
  | .ne => ordKey t u != ordKey t v
  | .lt => decide (ordKey t u < ordKey t v)
  | .le => decide (ordKey t u ≤ ordKey t v)
  | .gt => decide (ordKey t v < ordKey t u)
  | .ge => decide (ordKey t v ≤ ordKey t u)
  | .un => false
/-- A condition of `waits` and of a watch (R326). -/
def scondOk (c : SCond) (v b : Word) : Bool :=
  match c with
  | .eq => v == b
  | .ne => v != b
  | .geu => !v.ult b
  | .ltu => v.ult b

/-! ### Summaries -/

/-- The elements of a register that are active NaNs, in ascending order (R148). -/
def nanIdx (t : Ety) (x mask : Nat) : List Nat := (List.range (etyE t)).filter fun i => bitN mask i && isNanE t (elemN (etyW t) x i)
/-- The code of an element: bits [7:6] of a stored tf6 element are not part of it (R33, R64; log entry 55). -/
def codeOf (t : Ety) (x : Nat) : Nat := if t = .tf6 then x % 64 else x
/-- The layout of `vnanscan` (R148). -/
def nanSummary (t : Ety) (x mask : Nat) : Word :=
  match nanIdx t x mask with
  | [] => 0
  | i :: l => BitVec.ofNat 64 (packFields [(10, i), (5, 0), (1, 1), (4, 0), (12, (i :: l).length), (32, codeOf t (elemN (etyW t) x i))])
/-- A mask from a condition on each element below E: inactive bits are 0 (R134). -/
def maskFrom (n mask : Nat) (f : Nat → Bool) : Mask := BitVec.ofNat 1024 (buildN 1 n fun i => b2n (bitN mask i && f i))

end Sys2Proof.Machine
end

