-- ==== Sys2Proof/Machine/Signal.lean ====
section
/-! DEFINITION. The signal units with their wait slots (R312 to R315), the core barrier (R317) and the device barriers (R318 to R321). -/

namespace Sys2Proof.Machine

/-! ### Contexts of the device -/

def mapCtxCore (k : Nat) (f : At → Ctx → Ctx) (o : Core) : Core :=
  { mapClus o (fun c u => { u with ctx := f ⟨k, c, .user⟩ u.ctx }) with
    ks := { o.ks with fw := f ⟨k, .K, .fw⟩ o.ks.fw, pager := f ⟨k, .K, .pager⟩ o.ks.pager } }
/-- Applies a function to every context of every core. -/
def mapCtxs (s : State) (f : At → Ctx → Ctx) : State := { s with cores := s.cores.map fun e => (e.1, mapCtxCore e.1 f e.2) }
/-- The contexts of a core, in the order of R314. -/
def ctxAts (k : Nat) : List At := [⟨k, .K, .user⟩, ⟨k, .A, .user⟩, ⟨k, .X0, .user⟩, ⟨k, .X1, .user⟩, ⟨k, .K, .fw⟩, ⟨k, .K, .pager⟩]
def coreKeys (s : State) : List Nat := s.cores.map (·.1)
def allAts (s : State) : List At := (coreKeys s).flatMap ctxAts

/-! ### Wait slots -/

/-- A wait holds its slot until it fires. -/
def holdsSlot (w : Wait) : Bool := w.slot && w.fired.isNone
def onMem : WaitOn → Bool
  | .mem _ _ _ _ _ => true
  | _ => false
/-- Core wait slots in use: waits and armed watches (R314). -/
def coreSlots (s : State) (k : Nat) : Nat :=
  ((ctxAts k).filter fun a => match (ctxOf s a).wait with
    | some w => holdsSlot w && !onMem w.on
    | none => false).length +
  ((coreAt s k).ks.watches.filter fun e => e.2.slot).length
/-- The base die that is the home of a device memory address or of a near store offset (R160, R202). -/
def homeDie (isNear : Bool) (a : Nat) : Nat := if isNear then a / 0x8000000 else a / 0x1000000000
/-- Memory wait slots of a base die in use (R202). -/
def memSlots (s : State) (die : Nat) : Nat :=
  ((allAts s).filter fun a => match (ctxOf s a).wait with
    | some w => holdsSlot w && (match w.on with
      | .mem n ad _ _ _ => homeDie n ad == die
      | _ => false)
    | none => false).length
/-- The waits of a set of contexts that queue for a slot and came before the wait of `a`: all of them, when that one does not queue yet. -/
def queuedAhead (s : State) (a : At) (l : List At) (here : WaitOn → Bool) : Nat :=
  let queued := fun (b : At) => match (ctxOf s b).wait with
    | some w => !w.slot && w.fired.isNone && here w.on
    | none => false
  (l.filter fun b => queued b && (!queued a || decide ((ctxOf s b).arrival < (ctxOf s a).arrival))).length
/-- The wait is on the memory of a base die. -/
def onDie (die : Nat) : WaitOn → Bool
  | .mem n ad _ _ _ => homeDie n ad == die
  | _ => false
/-- A slot is free for the wait of a context: slots go to waiters in the order of their arrival (R202, R314). -/
def slotFree (s : State) (a : At) : WaitOn → Bool
  | .mem n ad _ _ _ => decide (memSlots s (homeDie n ad) + queuedAhead s a (allAts s) (onDie (homeDie n ad)) < 512)
  | _ => decide (coreSlots s a.k + queuedAhead s a (ctxAts a.k) (fun w => !onMem w) < 32)
/-- A waiter queues for a slot, behind those that queue already. -/
def queueWait (a : At) (on : WaitOn) (s : State) : State :=
  match (ctxOf s a).wait with
  | some _ => modCtx s a fun t => { t with wait := some ⟨on, false, none, false⟩ }
  | none =>
    let n := s.dev.nextOp
    modCtx (modDev s fun d => { d with nextOp := n + 1 }) a fun t => { t with wait := some ⟨on, false, none, false⟩, arrival := n }

/-! ### Signal words -/

/-- The value that an operation leaves (R312, R325). -/
def sigVal (o : SigOp) (old v : Word) : Word :=
  match o with
  | .write => v
  | .add => old + v
  | .or => old ||| v
/-- A wait on the word meets the value left by a write, and observes the writes that made it. -/
def fireSg (n : Nat) (v : Word) (obs : List Obs) (w : Wait) : Wait :=
  match w.on with
  | .sg m c b => if m = n ∧ holdsSlot w ∧ scondOk c v b then { w with fired := some ⟨v, false, obs⟩ } else w
  | _ => w
/-- The watches of a signal word that a value meets (R329). -/
def watchHits (o : Core) (n : Nat) (v : Word) : List Nat :=
  (o.ks.watches.filter fun e => e.2.n == n && e.2.slot && scondOk e.2.c v e.2.cmp).map (·.1)
def setPend (ks : KSt) (bit : Nat) : KSt := { ks with uliPend := ks.uliPend ||| 2 ^ bit }
/-- A watch that fires sets its bit of ULIPEND, disarms and frees its slot (R329). -/
def fireWatch (obs : List Obs) (ks : KSt) (w : Nat) : KSt :=
  setPend { ks with watches := serase ks.watches w, uliObs := addAllObs ks.uliObs obs } w
/-- The writes that a signal word's value is made of (DEDUCED, log 88): a write replaces them, an add or an or joins them. -/
def sigObs (op : SigOp) (old new : List Obs) : List Obs := if op = .write then addAllObs [] new else addAllObs old new
/-- A write, add or or is performed at the unit: every waiter and watch tests the value it leaves (R312). -/
def sigApply (s : State) (k n : Nat) (op : SigOp) (v : Word) (obs : List Obs) : State :=
  modCore s k fun o =>
    let v' := sigVal op (sget 0 o.sg n) v
    let b := sigObs op (sget [] o.sgObs n) obs
    let o1 := mapCtxCore k (fun _ t => { t with wait := t.wait.map (fireSg n v' b) }) { o with sg := sset 0 o.sg n v', sgObs := sset [] o.sgObs n b }
    { o1 with ks := (watchHits o1 n v').foldl (fireWatch b) o1.ks }
/-- Sends a write to a signal unit. -/
def sigSend (s : State) (m : SigMsg) : State := { s with sig := s.sig ++ [m] }

/-! ### The core barrier (R317) -/

/-- Every cluster that has not ended has arrived. -/
def barCoAll (o : Core) : Bool := clusters.all fun c => ended (clOf o c).run || o.barArr.contains (cnum c)
def fireCo (g : Nat) (obs : List Obs) (w : Wait) : Wait :=
  match w.on with
  | .barCo t => if t < g ∧ w.slot ∧ w.fired = none then { w with fired := some ⟨0, false, obs⟩ } else w
  | _ => w
/-- The firing test of the core barrier, at most `fuel` times over. -/
def barCoTest (k : Nat) : Nat → Core → Core
  | 0, o => o
  | f + 1, o =>
    if !o.barArr.isEmpty && barCoAll o then
      barCoTest k f (mapCtxCore k (fun _ t => { t with wait := t.wait.map (fireCo (o.barGen + 1) o.barObs) })
        { o with barGen := o.barGen + 1, barArr := o.barNext, barNext := [], barDone := o.barObs, barObs := o.barNextObs, barNextObs := [] })
    else o

/-! ### Device barriers -/

def barAt (s : State) (b : Nat) : Barrier := sget {} s.barriers b
def modBar (s : State) (b : Nat) (f : Barrier → Barrier) : State := { s with barriers := sset {} s.barriers b (f (barAt s b)) }
def bit64 (c : Nat) : BitVec 64 := BitVec.ofNat 64 (2 ^ c)
def popcW (x : BitVec 64) : Nat := popcN 64 x.toNat
/-- An arrival of a member core: the ticket, or none when the syllable stalls at issue (R319). -/
def barArrive (v : Barrier) (c : Nat) (b : Obs) : Option (Nat × Barrier) :=
  if !v.arrmask.getLsbD c then
    some (v.gen, { v with arrmask := v.arrmask ||| bit64 c, arrived := v.arrived + 1, obs := addObs v.obs b })
  else if !v.next.getLsbD c then some (v.gen + 1, { v with next := v.next ||| bit64 c, nextObs := addObs v.nextObs b })
  else none
def fireDv (b g : Nat) (obs : List Obs) (w : Wait) : Wait :=
  match w.on with
  | .barDv b' t => if b' = b ∧ t < g ∧ w.slot ∧ w.fired = none then { w with fired := some ⟨0, false, obs⟩ } else w
  | _ => w
/-- The firing test of R319, repeated. -/
def barFire (b : Nat) : Nat → State → State
  | 0, s => s
  | f + 1, s =>
    let v := barAt s b
    if v.owner ≠ 31 ∧ 0 < v.expect ∧ v.arrived = v.expect then
      let s1 := modBar s b fun v =>
        { v with gen := v.gen + 1, arrmask := v.next, arrived := popcW v.next, next := 0, doneObs := v.obs, obs := v.nextObs, nextObs := [] }
      barFire b f (mapCtxs s1 fun _ t => { t with wait := t.wait.map (fireDv b (v.gen + 1) v.obs) })
    else s
/-- Barrier b is unreachable (R321). -/
def barUnreachable (v : Barrier) : Bool := v.owner != 31 && decide (v.arrived + popcW (v.mask &&& ~~~v.arrmask) < v.expect)
/-- The arrival of a context, by its party and its ticket. -/
def barKey (s : State) (a : At) : Party × Nat := (partyOf a, ((ctxOf s a).tickDv.map (·.2)).getD 0)
/-- An arrival that waits on the barrier and has not been reported in this spell. -/
def barWaits (s : State) (b : Nat) (a : At) : Bool :=
  match (ctxOf s a).wait with
  | some w => w.fired.isNone && (match w.on with
    | .barDv b' _ => b' == b
    | _ => false) && (ctxOf s a).tickDv.isSome && !(barAt s b).told.contains (barKey s a)
  | none => false
def barReport (b : Nat) (s : State) (a : At) : State :=
  takeTrap a { clRec s a .barrierUnreachable with prec := false, cause := b } (modBar s b fun v => { v with told := barKey s a :: v.told })
/-- Reports every waiting arrival of an unreachable barrier once per spell (R321). -/
def barCheck (s : State) (b : Nat) : State :=
  if barUnreachable (barAt s b) then ((allAts s).filter (barWaits s b)).foldl (barReport b) s
  else modBar s b fun v => { v with told := [] }
/-- The tests after any change of a barrier. -/
def barTest (s : State) (b : Nat) : State := barCheck (barFire b 3 s) b
/-- Frees a barrier (R320, R328). -/
def barFree (s : State) (b : Nat) : State := modBar s b fun v => { gen := v.gen }
/-- A core leaves MASK of a barrier; a barrier without members is freed (R320). -/
def barLeave1 (k : Nat) (s : State) (b : Nat) : State :=
  let v := barAt s b
  if v.owner ≠ 31 ∧ v.mask.getLsbD k then
    let m := v.mask &&& ~~~(bit64 k)
    if m = 0 then barFree s b else barTest (modBar s b fun v => { v with mask := m }) b
  else s
def barLeave (s : State) (k : Nat) : State := (List.range 64).foldl (barLeave1 k) s

/-! ### The end of a stream -/

/-- Takes a cluster's bit out of LSMASK, and out of a value that waits for the end of a run (R97; DEDUCED, log 99). -/
def lsClear (o : Core) (c : Cluster) : Core :=
  let m := ~~~(BitVec.ofNat 4 (2 ^ cnum c))
  { o with lsmask := o.lsmask &&& m, lsmaskNext := o.lsmaskNext.map (· &&& m) }
/-- Drops the entries of `q13` that an ended execute cluster will not pop (R150). -/
def q13Drop (o : Core) (c : Cluster) : Core :=
  if c = .X0 then { o with sq := sset [] o.sq 13 [], qObs := sset [] o.qObs 13 [] }
  else if c = .X1 then { o with q13b := [], qObs := sset [] o.qObs 32 [] } else o
/-- The cluster's stream ends, by `exit` or killed: LSMASK, `q13`, the core barrier, and the device barriers when it is the last
(R91, R97, R150, R269, R317, R320). -/
def endStream (k : Nat) (c : Cluster) (r : Run) (s : State) : State :=
  let s1 := modCore s k fun o => barCoTest k 3 (q13Drop (lsClear (modCl o c fun u => { u with run := r }) c) c)
  if clusters.all fun c => ended (cluAt s1 k c).run then barLeave s1 k else s1

end Sys2Proof.Machine
end

