-- ==== Sys2Proof/Machine/SysRegs.lean ====
section
/-! DEFINITION. The system registers that `sysrd` and `syswr` reach (R101, R160, R296, R323, R357, R375), and the governor's supply
(R391). -/

namespace Sys2Proof.Machine

/-- A field of the launch of a core, 0 without one. -/
def lnch (s : State) (k : Nat) (f : LPkt → Nat) : Nat :=
  match launchAt s k with
  | some l => f l.pkt
  | none => 0
/-- The image of a launch (R53). -/
def imageOf (s : State) (k : Nat) : Option Image :=
  match launchAt s k with
  | some l => slook s.images l.pkt.image
  | none => none
/-- LKIND (R101). -/
def lkind (p : LPkt) : Nat := packFields ((List.range 6).map fun i => (2, p.kinds.getD i 0))
/-- Bits of a bitmap over the loop levels. -/
def lvBits (t : Ctx) (f : Level → Bool) : Nat := buildN 1 6 fun i => b2n (f (sget {} t.lv i))
/-- LOOPARM (R101). A level that is armed no longer reads 0 in both of its bits (DEDUCED, log 99). -/
def loopArm (t : Ctx) : Nat := lvBits t (·.armed) + 256 * lvBits t fun v => v.armed && v.rot
/-- E of R391. -/
def supply (s : State) (k : Nat) : Nat := (coreAt s k).pwrlimit.toNat * s.dev.scale / 16
/-- PTROOT's fields: V and ROOT (R161). -/
def ptrootMask : Word := 0x0000FFFFFFFFE001
/-- ULISTATE (R323). -/
def uliState (ks : KSt) : Nat := b2n ks.uliEn + 2 * b2n ks.uliActive + 4 * b2n (ks.uliPend != 0)
/-- DTHANDLER (R375). -/
def dtHandler (x : XSt) : Nat := packFields [(15, x.dtVec), (1, b2n x.dtEn), (1, b2n x.dtActive), (15, 0), (15, x.dtRet)]

/-- What `sysrd` of a register gives, or the trap it takes. -/
def sysRead (s : State) (a : At) (r : Nat) : Except FT Word :=
  let o := coreAt s a.k
  let t := ctxOf s a
  let n := fun (x : Nat) => (Except.ok (BitVec.ofNat 64 x) : Except FT Word)
  if r = 0x000 then n (a.k % 64 + 64 * dieOf a.k)
  else if r = 0x001 then n (cnum a.c + (if a.x = .fw then 4 else 0))
  else if r = 0x002 then n (lnch s a.k (·.image))
  else if r = 0x003 then n (lnch s a.k (·.argbase))
  else if r = 0x004 then n (match imageOf s a.k with | some im => im.database | none => 0)
  else if r = 0x005 then n (lnch s a.k (·.cls))
  else if r = 0x006 then n (lnch s a.k lkind)
  else if 0x008 ≤ r ∧ r ≤ 0x00D then n (lnch s a.k fun p => p.counts.getD (r - 0x008) 0)
  else if 0x010 ≤ r ∧ r ≤ 0x015 then n (match o.inst with | some i => i.coords.getD (r - 0x010) 0 | none => 0)
  else if r = 0x020 then n o.lsmask.toNat
  else if r = 0x021 then n o.ks.fwshare
  else if r = 0x022 then .ok o.runstall
  else if r = 0x023 then .ok o.ks.fwslots
  else if 0x030 ≤ r ∧ r ≤ 0x035 then n (sget {} t.lv (r - 0x030)).count
  else if r = 0x038 then n (loopArm t)
  else if r = 0x039 then n (if isX a.c then (cluAt s a.k a.c).xs.rrb else 0)
  else if r = 0x03A then n (if isX a.c then (cluAt s a.k a.c).xs.sp.toNat else 0)
  else if r = 0x100 then (if privileged a then .ok (partRec s (partAt s a.k)).ptroot else .ok 0)
  else if r = 0x101 then n s.dev.mydev.toNat
  else if 0x110 ≤ r ∧ r ≤ 0x117 then (if a.x = .pager then .ok (sget 0 o.ks.fr (r - 0x110)) else .error .illegalPrivilege)
  else if r = 0x118 then .ok o.cefreeze
  else if r = 0x119 then .ok o.gleanfix
  else if r = 0x120 then n o.ks.uliVec
  else if r = 0x121 then n (uliState o.ks)
  else if r = 0x122 then n o.ks.uliPend
  else if r = 0x123 then n o.ks.uliRet
  else if r = 0x130 then n s.dev.sheafdown.toNat
  else if r = 0x140 then .ok (if isX a.c then (cluAt s a.k a.c).xs.digitinfo else 0)
  else if r = 0x141 then n (if isX a.c then dtHandler (cluAt s a.k a.c).xs else 0)
  else .error .illegalOperand
/-- K is a member of a lockstep run under way (R97). -/
def kInRun (o : Core) : Bool := (o.inRun || o.runClk) && o.lsmask.getLsbD 0
/-- LSMASK takes a new value at once, or when the run ends (R97). -/
def lsWrite (o : Core) (v : BitVec 4) : Core := if kInRun o then { o with lsmaskNext := some v } else { o with lsmask := v, lsmaskNext := none }
/-- What `syswr` of a register does, or the trap it takes (R40, R101, R160, R296). -/
def sysWrite (s : State) (a : At) (r : Nat) (v : Word) : Except FT State :=
  if r = 0x020 then .ok (modCore s a.k fun o => lsWrite o (v.setWidth 4))
  else if r = 0x021 ∧ privileged a then
    .ok (modKs s a.k fun ks => { ks with fwshare := if 8 < v.toNat % 16 then 8 else v.toNat % 16 })
  else if r = 0x100 ∧ privileged a then .ok (modPart s (partAt s a.k) fun p => { p with ptroot := v &&& ptrootMask })
  else if 0x110 ≤ r ∧ r ≤ 0x117 ∧ a.x = .pager then .ok (modKs s a.k fun ks => { ks with fr := sset 0 ks.fr (r - 0x110) v })
  else match sysRead s ⟨a.k, a.c, .pager⟩ r with
  | .ok _ => .error .illegalPrivilege
  | .error e => .error e

end Sys2Proof.Machine
end

