-- ==== Sys2Proof/Machine/Control.lean ====
section
/-! DEFINITION. Control: branches, loops, ends of streams, rendezvous, safe points, overlays, system registers, firmware services, idle
and the user trap (04, R303, R394). -/

namespace Sys2Proof.Machine

/-! ### Branches (R93, R102) -/

/-- `br` and `brp`: they differ in fetch bubbles alone. -/
def branchRel (a : At) (off : BitVec 26) (s : State) : State :=
  let t := relTarget (pcOf s a) off
  if t < 0 ∨ 32767 < t then trapTy a .pcRange s else branchTo a t.toNat true s
def execBr (off : BitVec 26) (s : State) : Host.Outcome State Fault Refusal := onCl s fun a s => branchRel a off s
def execBrp (off : BitVec 26) (s : State) : Host.Outcome State Fault Refusal := onCl s fun a s => branchRel a off s
/-- `call`: the link register, then the branch, which disarms nothing (R102). -/
def execCall (d : Fin 64) (off : BitVec 26) (s : State) : Host.Outcome State Fault Refusal := onCl s fun a s =>
  let t := relTarget (pcOf s a) off
  if t < 0 ∨ 32767 < t then trapTy a .pcRange s
  else branchTo a t.toNat false (setX s a d.val (BitVec.ofNat 64 (pcOf s a + 1)))
/-- `brx` and `ret`: an index from a scalar source; `ret` disarms nothing. -/
def branchReg (a : At) (f : SOp) (outs : Bool) (s : State) : State :=
  needQ a (popsS [f]) [] (fun s =>
    let (t, s1) := takeS a f s
    if 32767 < t.toNat then trapTy a .pcRange s else branchTo a t.toNat outs s1) s
def execBrx (f : SOp) (s : State) : Host.Outcome State Fault Refusal := onCl s fun a s => branchReg a f true s
def execRet (f : SOp) (s : State) : Host.Outcome State Fault Refusal := onCl s fun a s => branchReg a f false s

/-! ### Loop levels (R102, R103) -/

/-- A level of the context is armed by `rloop`. -/
def rotArmed (t : Ctx) (skip : Nat) : Bool := (List.range 6).any fun i => i != skip && (sget {} t.lv i).armed && (sget {} t.lv i).rot
/-- Arms a level, replacing its state; it is then the most recently armed. -/
def arm (t : Ctx) (l e n : Nat) (rot : Bool) : Ctx :=
  { t with lv := sset {} t.lv l ⟨t.pc + 1, e, n, true, rot⟩, order := l :: t.order.filter (· != l) }
/-- The count of a loop: LCOUNT for `x0`, else the low 32 bits of the source. -/
def loopCount (a : At) (l : Nat) (f : SOp) (s : State) : Nat × State :=
  if f = .x 0 then (lnch s a.k fun p => p.counts.getD l 0, s)
  else let r := takeS a f s; (r.1.toNat % 2 ^ 32, r.2)
/-- The checks of `loop` and `rloop` that their word and its place alone decide: they come before any wait for a queue (log 84). -/
def bodyTrap (a : At) (off : BitVec 16) (s : State) : Option FT :=
  if off = 0 then some .illegalOperand else if 32767 < pcOf s a + off.toNat then some .pcRange else none
/-- The checks that `loop` and `rloop` make before they pop anything. -/
def loopTrap (a : At) (off : BitVec 16) (bad : Bool) (s : State) : Option FT :=
  if (bodyTrap a off s).isSome then bodyTrap a off s
  else if bad || (a.x == .user && a.c == .K && (coreAt s a.k).ks.uliActive) then some .loopState
  else none
/-- The body is skipped: no branch is taken, so a level that ends at this very syllable acts (R102). The level that the syllable names is
left as it was, armed or not (DESIGN CHOICE, log 91). -/
def skipBody (a : At) (off : BitVec 16) (s : State) : State := advanceBy a (off.toNat + 1) (meterIssue a s)
/-- `loop` (R102). In a user-level interrupt handler it takes LOOP_STATE (R324). -/
def execLoop (l : Fin 6) (f : SOp) (off : BitVec 16) (s : State) : Host.Outcome State Fault Refusal := onCl s fun a s =>
  needQ a (if (bodyTrap a off s).isSome then [] else popsS [f]) [] (fun s =>
    match loopTrap a off (rotArmed (ctxOf s a) 6) s with
    | some ty => trapTy a ty s
    | none =>
      let (n, s1) := loopCount a l.val f s
      if n = 0 then skipBody a off s1
      else retire a (modCtx s1 a fun t => arm t l.val (t.pc + off.toNat) n false)) s
/-- `rloop` (R103): stage 0 starts, and the stage predicates are copied. -/
def execRloop (l : Fin 6) (stages : Fin 8) (f : SOp) (off : BitVec 16) (s : State) : Host.Outcome State Fault Refusal := onCl s fun a s =>
  needQ a (if (bodyTrap a off s).isSome then [] else popsS [f]) [] (fun s =>
    match loopTrap a off (rotArmed (ctxOf s a) l.val) s with
    | some ty => trapTy a ty s
    | none =>
      let (n, s1) := loopCount a l.val f s
      if n = 0 then skipBody a off s1
      else retire a (modClu s1 a.k a.c fun u =>
        { u with ctx := spCopy { arm u.ctx l.val (u.ctx.pc + off.toNat) (n + stages.val) true with rotN := n, rotStarted := 1 } 1
                 xs := { u.xs with sp := 1 } })) s

/-! ### nop, exit, sync, safept -/

def execNop (s : State) : Host.Outcome State Fault Refusal := onCl s fun a s => retire a s
/-- `exit` ends the stream of a user context (R91, R97). The firmware context then has no syllable ready, and the pager issues nothing
more (log entry 22). -/
def execExit (s : State) : Host.Outcome State Fault Refusal := onCl s fun a s =>
  match a.x with
  | .user => endStream a.k a.c .exited (meterIssue a s)
  | .fw => modKs (meterIssue a s) a.k fun ks => { ks with fwReady := false }
  | .pager => block a .other s
/-- The S bit of the syllable at the program counter (R22). -/
def sBit (s : State) (a : At) : Bool := (wordAt s a (pcOf s a)).getLsbD 63
/-- Every other member of LSMASK that has not ended has executed as many `sync` (04, `sync`). -/
def syncAll (o : Core) (c : Cluster) : Bool :=
  clusters.all fun d => !o.lsmask.getLsbD (cnum d) || ended (clOf o d).run || decide ((clOf o c).syncCnt ≤ (clOf o d).syncCnt)
/-- `sync` in a member of LSMASK arrives once and waits for the others; with S set, or outside LSMASK, it does nothing. -/
def execSync (s : State) : Host.Outcome State Fault Refusal := onCl s fun a s =>
  if a.x ≠ .user ∨ sBit s a ∨ !(coreAt s a.k).lsmask.getLsbD (cnum a.c) then retire a s
  else
    let s1 := if (cluAt s a.k a.c).syncWait then s
      else modClu s a.k a.c fun u => { u with syncCnt := u.syncCnt + 1, syncWait := true }
    if syncAll (coreAt s1 a.k) a.c then retire a (modClu s1 a.k a.c fun u => { u with syncWait := false }) else block a .other s1
/-- `safept`: with a pre-emption requested the cluster stops with PC at the next syllable (R104). -/
def execSafept (s : State) : Host.Outcome State Fault Refusal := onCl s fun a s =>
  if a.x = .user ∧ (coreAt s a.k).preempt then
    let id := fld (wordAt s a (pcOf s a)).toNat 0 16
    modClu (retire a s) a.k a.c fun u => { u with safeStop := true, safeId := id }
  else retire a s

/-! ### Overlays -/

/-- The clusters of a mask. -/
def maskClus (m : BitVec 4) : List Cluster := clusters.filter fun c => m.getLsbD (cnum c)
/-- `ovl` gives the loader one copy for each named cluster, in order; nothing starts when an overlay is missing. -/
def execOvl (n : Fin 16) (mask : BitVec 4) (s : State) : Host.Outcome State Fault Refusal := onCl s fun a s =>
  if n.val = 0 ∨ mask = 0 then trapTy a .illegalOperand s
  else match imageOf s a.k with
  | none => trapTy a .overlayMissing s
  | some im =>
    if (maskClus mask).any fun c => (ovlSect im c n.val).isNone then trapTy a .overlayMissing s
    else retire a (modCore s a.k fun o =>
      { o with ovl := o.ovl ++ (maskClus mask).filterMap (fun c => (ovlSect im c n.val).map (fun t => ⟨c, t.load / 8, sectWords im t⟩)) })

/-! ### System registers -/

def execSysrd (d : SOp) (r : BitVec 10) (s : State) : Host.Outcome State Fault Refusal := onCl s fun a s =>
  match sysRead s a r.toNat with
  | .error ty => trapTy a ty s
  | .ok v => needQ a [] (pushS d) (fun s => retire a (putS a d v s)) s
/-- `syswr`: a register that the context may not write traps before any wait for the source's queue (log 84). -/
def execSyswr (f : SOp) (r : BitVec 10) (s : State) : Host.Outcome State Fault Refusal := onCl s fun a s =>
  match sysWrite s a r.toNat 0 with
  | .error ty => trapTy a ty s
  | .ok _ => needQ a (popsS [f]) [] (fun s =>
    let (v, s1) := takeS a f s
    match sysWrite s1 a r.toNat v with
    | .error ty => trapTy a ty s
    | .ok s2 => retire a s2) s

/-! ### Firmware services (04 `fwcall`, R394) -/

/-- A service that answers from the state; the clk of its stall are metered (R264). -/
def service (a : At) (d f : SOp) (v : State → Nat) (s : State) : State :=
  needQ a (popsS [f]) (pushS d) (fun s => retire a (meterStall a (putS a d (BitVec.ofNat 64 (v s)) (takeS a f s).2))) s
/-- The FORM register (R386). -/
def formReg (s : State) : Nat :=
  packFields [(8, b2n s.dev.modForm), (8, 0), (16, Config.sustained s.dev.modForm / 1000), (16, Config.peak s.dev.modForm / 1000)]
/-- E and SCALE as `leaveq` lays them out (R394, R396). -/
def govWord (s : State) (k : Nat) : Nat := packFields [(24, 0), (12, supply s k), (12, 0), (4, s.dev.scale - 1)]
def execFwVersion (d f : SOp) (s : State) : Host.Outcome State Fault Refusal := onCl s fun a s =>
  service a d f (fun s => (Config.fwVersionOf s.dev.fwRun).toNat) s
def execFwForm (d f : SOp) (s : State) : Host.Outcome State Fault Refusal := onCl s fun a s => service a d f formReg s
def execFwPower (d f : SOp) (s : State) : Host.Outcome State Fault Refusal := onCl s fun a s => service a d f (fun s => s.dev.lastPower) s
def execFwGovernor (d f : SOp) (s : State) : Host.Outcome State Fault Refusal := onCl s fun a s => service a d f (fun s => govWord s a.k) s
def execFwPlat (d f : SOp) (s : State) : Host.Outcome State Fault Refusal := onCl s fun a s =>
  service a d f (fun s => (partRec s (partAt s a.k)).plat) s
def execFwDebugPolicy (d f : SOp) (s : State) : Host.Outcome State Fault Refusal := onCl s fun a s =>
  service a d f (fun s => (partRec s (partAt s a.k)).policy.toNat) s
/-- A service that the firmware does not offer; a number above 255 traps. -/
def execFwUnknown (d f : SOp) (svc : BitVec 16) (s : State) : Host.Outcome State Fault Refusal := onCl s fun a s =>
  if 255 < svc.toNat then trapTy a .illegalOperand s else service a d f (fun _ => 2 ^ 64 - 1) s
/-- The eight dwords of a 64-byte block. -/
def dwords (x : Nat) : Sparse Word := (List.range 8).foldl (fun m i => sset 0 m i (BitVec.ofNat 64 (x / 2 ^ (64 * i)))) []
/-- Service 6 (R295): the user context stalls in its `fwcall`, the firmware context takes its `rqi` until the service ends (R262), and the
pager starts at pager syllable 1 with the 64 bytes in FR0 to FR7.
A firmware or pager context that asks waits (log entry 22). -/
def execFwPagerRequest (d f : SOp) (s : State) : Host.Outcome State Fault Refusal := onCl s fun a s =>
  needQ a (popsS [f]) (pushS d) (fun s =>
    let (v, s1) := takeS a f s
    if v.toNat % 64 ≠ 0 ∨ 0xFFC0 < v.toNat then retire a (meterStall a (putS a d (BitVec.ofNat 64 (2 ^ 64 - 2)) s1))
    else if a.x ≠ .user ∨ (coreAt s a.k).ks.pagerRun ≠ .idle then block a .other s
    else
      let fr := dwords (ofBytes (curBytes s1 (partyOf a) (.kdm a.k) v.toNat 64))
      modClu (modKs s1 a.k fun ks => { ks with pagerRun := .request (pcOf s a) d, fr := fr, fwRqi := rqiOf s a, pagerRqi := 0, pager := freshPager 1 ks.pager })
        a.k .K fun u => { u with fwStall := true }) s

/-! ### idle and trap -/

/-- `idle` of K's user context (04); in an interrupt handler it traps (R324). -/
def execIdle (s : State) : Host.Outcome State Fault Refusal := onCl s fun a s =>
  if a.x ≠ .user then retire a s
  else if (coreAt s a.k).ks.uliActive then trapTy a .illegalOperand s
  else modClu (retire a s) a.k a.c fun u => { u with idling := true }
/-- `trap` posts USER_TRAP and changes nothing else (R303): its source is not popped. -/
def execTrap (f : SOp) (code : BitVec 16) (s : State) : Host.Outcome State Fault Refusal := onCl s fun a s =>
  needQ a (popsS [f]) [] (fun s =>
    takeTrap a { clRec s a .userTrap with aux0 := code.toNat, aux1 := (takeS a f s).1.toNat } s) s

end Sys2Proof.Machine
end

