-- ==== Sys2Proof/Machine/Names.lean ====
section
/-! DEFINITION. The names of parties. The parties of an instance are named by its core while it runs there; when it has left, by its launch, so
that the next instance of the core has parties of its own (R186, R190, R301). -/

namespace Sys2Proof.Machine

/-- The parties of the instance on a core. -/
def instParty (k : Nat) (q : Party) : Bool :=
  match q with
  | .cl k' _ .user => k' == k
  | .cmd k' _ _ => k' == k
  | .thr _ i => i % 64 == k
  | _ => false
/-- A party of a launch whose instance has left its core. -/
def pastOf (launch : Nat) : Party → Bool
  | .past l _ _ => l == launch
  | _ => false
/-- The name of a party once its instance has left the core, and its name when the instance is back. -/
def leftName (launch k : Nat) (q : Party) : Party := if instParty k q then .past launch k (partyNo q) else q
def backName (launch k : Nat) (q : Party) : Party :=
  match q with
  | .past l k' n => if l = launch ∧ k' = k then partyOfNo k n else q
  | _ => q

def renObs (f : Party → Party) (o : Obs) : Obs := (f o.1, o.2)
def renAll (f : Party → Party) (l : List Obs) : List Obs := l.map (renObs f)
def renMap (f : Party → Party) (m : Sparse (List Obs)) : Sparse (List Obs) := m.map fun e => (e.1, renAll f e.2)
def renWord (f : Party → Party) (w : QWord) : QWord := { w with obs := renAll f w.obs }
def renEQ (f : Party → Party) (e : EQ) : EQ := { e with words := e.words.map (renWord f), parked := e.parked.map (renWord f) }
def renCtx (f : Party → Party) (t : Ctx) : Ctx :=
  { t with wait := t.wait.map fun w => { w with fired := w.fired.map fun x => { x with obs := renAll f x.obs } } }
def renCore (f : Party → Party) (o : Core) : Core :=
  let o := mapCtxCore 0 (fun _ t => renCtx f t) o
  { o with
    ks := { o.ks with uliObs := renAll f o.ks.uliObs }
    eng := { o.eng with eq := o.eng.eq.map fun e => (e.1, renEQ f e.2), tokObs := renMap f o.eng.tokObs }
    late := o.late.map fun e => { e with v := e.v.map fun x => (renObs f x.1, x.2) }
    qObs := renMap f o.qObs, hcObs := renMap f o.hcObs, sgObs := renMap f o.sgObs
    barObs := renAll f o.barObs, barNextObs := renAll f o.barNextObs, barDone := renAll f o.barDone }
def renBar (f : Party → Party) (v : Barrier) : Barrier :=
  { v with told := v.told.map fun e => (f e.1, e.2), obs := renAll f v.obs, nextObs := renAll f v.nextObs, doneObs := renAll f v.doneObs }
def renOut (f : Party → Party) (o : Out) : Out := { o with obs := renAll f o.obs }
def renStore (f : Party → Party) (w : PStore) : PStore :=
  { w with who := f w.who, req := w.req.map f, obs := renObs f w.obs, pubs := w.pubs.map fun e => (f e.1, e.2) }
def renLaunch (f : Party → Party) (l : Launch) : Launch :=
  { l with saved := l.saved.map fun e => { e with o := renCore f e.o, outs := e.outs.map (renOut f) } }
/-- Renames parties wherever the state names one: in stores and their requirements, in releases and observations, and in what queues, signal
words, barriers, packets and cells hold for those that will observe them. -/
def renameParties (f : Party → Party) (s : State) : State :=
  { s with
    pend := s.pend.map (renStore f), rels := renAll f s.rels, seen := s.seen.map fun e => (f e.1, renObs f e.2)
    wrote := s.wrote.map fun e => (e.1, renObs f e.2), cores := s.cores.map fun e => (e.1, renCore f e.2)
    barriers := s.barriers.map fun e => (e.1, renBar f e.2), out := s.out.map (renOut f), launches := s.launches.map (renLaunch f)
    sig := s.sig.map fun m => { m with obs := renAll f m.obs }, shOps := s.shOps.map fun o => { o with obs := renObs f o.obs }
    shTags := s.shTags.map fun t => { t with obs := renObs f t.obs } }

end Sys2Proof.Machine
end

