-- ==== Sys2Proof/Machine/Awn.lean ====
section
/-! DEFINITION. The awn lanes: digit-table contexts, transduction, conversion, the DIGIT trap and its handler (20). -/

namespace Sys2Proof.Machine

/-! ### Contexts (R368 to R370) -/

/-- Part i of context c, as a number of 4096 bits. -/
def dtPart (x : XSt) (c i : Nat) : Nat := (sget 0 x.dt (10 * c + i)).toNat
def setDtPart (x : XSt) (c i v : Nat) : XSt := { x with dt := sset 0 x.dt (10 * c + i) (BitVec.ofNat 4096 v) }
/-- Part 9 without the bytes that read as zero. -/
def dtKeep (i v : Nat) : Nat :=
  if i = 9 then fld v 0 128 + fld v 512 1024 * 2 ^ 512 + fld v 2048 64 * 2 ^ 2048 else v
def dtAttr (x : XSt) (c : Nat) : Nat := fld (dtPart x c 9) 2048 64
/-- Part i as it reads: the reserved half of the attributes reads as zero (R8). What was written there is held, since it makes the
attributes invalid at their use (R370). -/
def dtRead (x : XSt) (c i : Nat) : Nat := if i = 9 then setFld (dtPart x c 9) 2080 32 0 else dtPart x c i
def setDtAttr (x : XSt) (c v : Nat) : XSt := setDtPart x c 9 (setFld (dtPart x c 9) 2048 64 v)
/-- The attributes by name (R370). -/
structure DtA where
  vcode : Nat
  start : Nat
  lag : Bool
  sgn : Bool
  dir : Bool
  dw : Bool
  w : Nat
  res : Nat
  deriving DecidableEq, Repr
def dtA (n : Nat) : DtA := ⟨fld n 16 16, fld n 12 4, bitN n 11, bitN n 10, bitN n 9, bitN n 8, fld n 0 8 + 1, fld n 32 32⟩
/-- Bits of a digit, and the number of its codes. -/
def DtA.bits (a : DtA) : Nat := if a.dw then 4 else 2
def DtA.nc (a : DtA) : Nat := 2 ^ a.bits
def DtA.ok (a : DtA) : Bool := a.res == 0 && decide (a.vcode < 2 ^ a.nc) && decide (4 ≤ a.w)
/-- Numbers in a register (R371). -/
def DtA.n (a : DtA) : Nat := 4096 / a.bits / a.w
/-- Digit j of number k. -/
def DtA.digit (a : DtA) (v k j : Nat) : Nat := elemN a.bits v (k * a.w + j)
/-- Transition entry e, its validity, and a final-state entry (R368, R369). -/
def dtEntry (x : XSt) (c e : Nat) : Nat := fld (dtPart x c (e / 512)) (8 * (e % 512)) 8
def dtValid (x : XSt) (c e : Nat) : Bool := bitN (dtPart x c 8) e
def dtFinal (x : XSt) (c q : Nat) : Nat := fld (dtPart x c 9) (8 * q) 8
def dtWeight (x : XSt) (c j : Nat) : Int := sint 32 (fld (dtPart x c 9) (512 + 32 * j) 32)

/-! ### The DIGIT trap (R374, R375) -/

/-- A trap of an awn instruction: cause, lane, digit index, state. -/
structure DtTrap where
  cause : Nat
  k : Nat
  j : Nat
  st : Nat
  deriving DecidableEq, Repr
def digitInfo (t : DtTrap) (c wh : Nat) : Word :=
  BitVec.ofNat 64 (packFields [(10, t.k), (8, t.j % 256), (4, t.st), (2, c), (3, t.cause), (1, 1), (15, wh)])
def modXs (s : State) (a : At) (f : XSt → XSt) : State := modClu s a.k a.c fun u => { u with xs := f u.xs }
/-- The cluster is a member of a lockstep run (R94). -/
def inLockstep (o : Core) (c : Cluster) : Bool := (o.inRun || o.runClk) && o.lsmask.getLsbD (cnum c)
/-- DIGIT: the local handler, or a record. -/
def digitTrap (a : At) (c : Nat) (t : DtTrap) (s : State) : State :=
  let pc := pcOf s a
  let s1 := modXs s a fun x => { x with digitinfo := digitInfo t c pc }
  let x := (cluAt s1 a.k a.c).xs
  if x.dtEn && !x.dtActive && !inLockstep (coreAt s1 a.k) a.c then
    modCtx (modXs s1 a fun x => { x with dtRet := pc, dtActive := true }) a fun u => { u with pc := x.dtVec, blocked := .no }
  else takeTrap a { clRec s1 a .digit with cause := t.cause } s1

/-! ### Transduction (R372) -/

/-- One number's pass: the final state, the last position and the digits so far. -/
def dtRun (x : XSt) (c : Nat) (p : DtA) (cmp : Bool) (va vb k : Nat) : Nat → Nat → Nat → Nat → Nat → Except DtTrap (Nat × Nat × Nat)
  | 0, _, st, jp, r => .ok (st, jp, r)
  | n + 1, t, st, jp, r =>
    let j := if p.dir then p.w - 1 - t else t
    let e := st * 256 + p.digit va k j + 16 * p.digit vb k j
    if !dtValid x c e then .error ⟨0, k, j, st⟩
    else
      let out := dtEntry x c e % 16
      if !cmp && decide (p.nc ≤ out) then .error ⟨1, k, j, st⟩
      else
        let r' := if !p.lag then r + out * 2 ^ (p.bits * j) else if 0 < t then r + out * 2 ^ (p.bits * jp) else r
        dtRun x c p cmp va vb k n (t + 1) (dtEntry x c e / 16) j r'
/-- A number of `dtx` or `dtmap`: its digits and its overflow. -/
def dtNum (x : XSt) (c : Nat) (p : DtA) (va vb k : Nat) : Except DtTrap (Nat × Bool) :=
  match dtRun x c p false va vb k p.w 0 p.start 0 0 with
  | .error t => .error t
  | .ok (st, jp, r) =>
    let f := dtFinal x c st
    let kind := fld f 6 2
    if kind = 3 then .error ⟨2, k, p.w, st⟩
    else if p.lag ∧ kind = 2 ∧ p.nc ≤ f % 16 then .error ⟨1, k, p.w, st⟩
    else .ok (if p.lag ∧ kind = 2 then r + f % 16 * 2 ^ (p.bits * jp) else r, kind == 1 || (kind == 2 && !p.lag))
/-- The class of a number of `dtcmp`. -/
def dtClass (x : XSt) (c : Nat) (p : DtA) (va vb k : Nat) : Except DtTrap Nat :=
  match dtRun x c p true va vb k p.w 0 p.start 0 0 with
  | .error t => .error t
  | .ok (st, _, _) => let f := fld (dtFinal x c st) 4 2; if f = 3 then .error ⟨2, k, p.w, st⟩ else .ok f
/-- Every number from k on, or the trap of the lowest. -/
def dtAll {α : Type} (f : Nat → Except DtTrap α) : Nat → Nat → Except DtTrap (List α)
  | 0, _ => .ok []
  | n + 1, k =>
    match f k with
    | .error t => .error t
    | .ok v =>
      match dtAll f n (k + 1) with
      | .error t => .error t
      | .ok l => .ok (v :: l)
/-- Numbers beside one another; unused slots are 0 (R371). -/
def dtJoin (p : DtA) (l : List Nat) : Nat := buildN (p.bits * p.w) p.n fun k => l.getD k 0
/-- A mask from the numbers of a list that meet a test. -/
def dtMask {α : Type} (l : List α) (f : α → Bool) : Mask := BitVec.ofNat 1024 (buildN 1 l.length fun k => b2n ((l[k]?).any f))
/-- An awn instruction on sources: it pops nothing when it traps. -/
def awn (a : At) (c : Nat) (pops pushes : List Nat) (go : XSt → DtA → State → Except DtTrap State) (s : State) : State :=
  needQ a pops pushes (fun s =>
    let x := (cluAt s a.k a.c).xs
    let p := dtA (dtAttr x c)
    if !p.ok then digitTrap a c ⟨3, 0, 0, 0⟩ s
    else match go x p s with
    | .error t => digitTrap a c t s
    | .ok s1 => retire a s1) s
/-- `dtx` and `dtmap` once the digits are there. -/
def dtWrite (a : At) (p : DtA) (ovm : Bool) (o : Fin 16) (d : VOp) (l : List (Nat × Bool)) (s : State) : State :=
  let s1 := putV a 1 d (dtJoin p (l.map (·.1))) s
  if ovm then setM s1 a o.val (dtMask l (·.2)) else s1
def execDtx (c : Fin 4) (ovm : Bool) (o : Fin 16) (d x y : VOp) (s : State) : Host.Outcome State Fault Refusal := onCl s fun a s =>
  awn a c.val (portV 1 x ++ portV 1 y) (portV 1 d) (fun t p s =>
    let (u, s1) := takeV a 1 x s
    let (v, s2) := takeV a 1 y s1
    match dtAll (dtNum t c.val p u v) p.n 0 with
    | .error e => .error e
    | .ok l => .ok (dtWrite a p ovm o d l s2)) s
def execDtmap (c : Fin 4) (ovm : Bool) (o : Fin 16) (d x : VOp) (s : State) : Host.Outcome State Fault Refusal := onCl s fun a s =>
  awn a c.val (portV 1 x) (portV 1 d) (fun t p s =>
    let (u, s1) := takeV a 1 x s
    match dtAll (dtNum t c.val p u 0) p.n 0 with
    | .error e => .error e
    | .ok l => .ok (dtWrite a p ovm o d l s1)) s
def execDtcmp (c : Fin 4) (d : Fin 14) (x y : VOp) (s : State) : Host.Outcome State Fault Refusal := onCl s fun a s =>
  awn a c.val (portV 1 x ++ portV 1 y) [] (fun t p s =>
    let (u, s1) := takeV a 1 x s
    let (v, s2) := takeV a 1 y s1
    match dtAll (dtClass t c.val p u v) p.n 0 with
    | .error e => .error e
    | .ok l => .ok ((List.range 3).foldl (fun s i => setM s a (d.val + i) (dtMask l (· == i))) s2)) s

/-! ### dtval (R373, R380) -/

/-- A number's exact sum, and whether some code is invalid. -/
def dtSum (x : XSt) (c : Nat) (p : DtA) (v k : Nat) : Int × Option Nat :=
  (List.range p.w).foldl (fun acc j =>
    let code := p.digit v k j
    (if j < 32 then acc.1 + (if p.sgn then sint p.bits code else (code : Int)) * dtWeight x c j else acc.1,
      acc.2.or (if bitN p.vcode code then none else some j))) (0, none)
def dtI32 (x : XSt) (c : Nat) (p : DtA) (v k : Nat) : Except DtTrap Nat :=
  let r := dtSum x c p v k
  match r.2 with
  | some j => .error ⟨4, k, j, p.start⟩
  | none => .ok (wrapN 32 (clampI (-(2 ^ 31)) (2 ^ 31 - 1) r.1))
def dtFp32 (l : Loc) (x : XSt) (c : Nat) (p : DtA) (v k : Nat) : Except DtTrap Nat :=
  let r := dtSum x c p v k
  .ok (if r.2.isSome then mkNan .fp32 8 l else fRne .fp32 false (qInt r.1))
/-- Registers of the result group. -/
def dtG (p : DtA) : Nat := if p.n ≤ 128 then 1 else if p.n ≤ 256 then 2 else 4
def dtval (a : At) (c : Fin 4) (d x : VOp) (f : XSt → DtA → Nat → Nat → Except DtTrap Nat) (s : State) : State :=
  let t := (cluAt s a.k a.c).xs
  let g := dtG (dtA (dtAttr t c.val))
  if (dtA (dtAttr t c.val)).ok && !groupOk g d then trapTy a .illegalOperand s
  else awn a c.val (portV 1 x) (portV g d) (fun t p s =>
    let (u, s1) := takeV a 1 x s
    match dtAll (f t p u) p.n 0 with
    | .error e => .error e
    | .ok l => .ok (putV a g d (buildN 32 (128 * g) fun k => l.getD k 0) s1)) s
def execDtvalI32 (c : Fin 4) (d x : VOp) (s : State) : Host.Outcome State Fault Refusal := onCl s fun a s =>
  dtval a c d x (fun t p => dtI32 t c.val p) s
def execDtvalFp32 (c : Fin 4) (d x : VOp) (s : State) : Host.Outcome State Fault Refusal := onCl s fun a s =>
  dtval a c d x (fun t p => dtFp32 (locOf s a) t c.val p) s

/-! ### Moving contexts (R377, R378; R8 for the reserved half of the attributes) -/

/-- A run of registers that the file holds and that does not span `v511` and `v512`. -/
def runOk (n : Nat) : VOp → Bool
  | .v r => decide (r.val + n ≤ 640) && !(decide (r.val < 512) && decide (512 < r.val + n))
  | .q _ => true
def execDtload (c : Fin 4) (x : VOp) (first : Fin 10) (count1 : Fin 8) (s : State) : Host.Outcome State Fault Refusal := onCl s fun a s =>
  let n := count1.val + 1
  if 10 < first.val + n then trapTy a .illegalModifier s
  else if !runOk n x then trapTy a .illegalOperand s
  else needQ a (portV n x) [] (fun s =>
    let (u, s1) := takeV a n x s
    retire a (modXs s1 a fun t => (List.range n).foldl (fun t i =>
      setDtPart t c.val (first.val + i) (dtKeep (first.val + i) (fld u (4096 * i) 4096))) t)) s
def execDtsave (d : VOp) (c : Fin 4) (first : Fin 10) (count1 : Fin 8) (s : State) : Host.Outcome State Fault Refusal := onCl s fun a s =>
  let n := count1.val + 1
  if 10 < first.val + n then trapTy a .illegalModifier s
  else if !runOk n d then trapTy a .illegalOperand s
  else needQ a [] (portV n d) (fun s =>
    let x := (cluAt s a.k a.c).xs
    retire a (putV a n d (buildN 4096 n fun i => dtRead x c.val (first.val + i)) s)) s
def execDtattrSet (c : Fin 4) (f : SOp) (s : State) : Host.Outcome State Fault Refusal := onCl s fun a s =>
  needQ a (popsS [f]) [] (fun s =>
    let (u, s1) := takeS a f s
    retire a (modXs s1 a fun x => setDtAttr x c.val u.toNat)) s
def execDtattrGet (d : SOp) (c : Fin 4) (s : State) : Host.Outcome State Fault Refusal := onCl s fun a s =>
  needQ a [] (pushS d) (fun s => retire a (putS a d (BitVec.ofNat 64 (fld (dtAttr (cluAt s a.k a.c).xs c.val) 0 32)) s)) s
def execDtattrHnd (f : SOp) (s : State) : Host.Outcome State Fault Refusal := onCl s fun a s =>
  needQ a (popsS [f]) [] (fun s =>
    let (u, s1) := takeS a f s
    if 65535 < u.toNat then trapTy a .illegalOperand s
    else retire a (modXs s1 a fun x => { x with dtEn := u.getLsbD 15, dtVec := fld u.toNat 0 15 })) s
/-- `dtattr.ret` runs the trapping instruction again. -/
def execDtattrRet (s : State) : Host.Outcome State Fault Refusal := onCl s fun a s =>
  let x := (cluAt s a.k a.c).xs
  if !x.dtActive then trapTy a .illegalOperand s
  else branchTo a x.dtRet false (modXs s a fun x => { x with dtActive := false })

end Sys2Proof.Machine
end

