-- ==== Sys2Proof/WellFormed.lean ====
section
/-! DEFINITION. Which instructions have an encoding: the type lists of R33, R126 and the entries, and the modifier rules
that R36 checks as ILLEGAL_MODIFIER, ILLEGAL_OPCODE or EWORD_UNDEFINED. Operand limits that the manual lets an executing
syllable check (bit-field sums, group bases, reserved system registers) are no part of it. -/

namespace Sys2Proof

open Machine

/-- INT and FLT of R126. -/
def tyIntFlt (t : Ety) : Bool := etyInt t || etyFlt t
/-- INT and NIB of R126. -/
def tyIntNib (t : Ety) : Bool := etyInt t || etyNib t
/-- Every type but i4 and n4 (R120, R177). -/
def tyNoNib (t : Ety) : Bool := !etyNib t
/-- FLT and TAP of R126. -/
def tyFltTap (t : Ety) : Bool := etyFlt t || etyTap t
/-- `.rz` only from a floating-point or tapered source into an integer type (R120, R136). -/
def rzOk (rz : Bool) (dt st : Ety) : Bool := !rz || (tyFltTap st && tyIntNib dt)
/-- `.sat` only for integer types (R130). -/
def satOk (sat : Bool) (t : Ety) : Bool := !sat || etyInt t
/-- A scope only with an ordering (R204, R206). -/
def scopeOk (plain : Bool) (s : Scope) : Bool := !plain || decide (s = .cl)
/-- OTHER of `vcvts` by direction (R138): 0 and 1 when decoding, 0 to 2 when encoding. -/
def vcvtsOk (dt : Ety) (other blk : BitVec 2) (b : VOp) : Bool :=
  (if etyFlt dt then decide (other.toNat < 2) else etyTap dt && decide (other.toNat < 3)) &&
    (decide (blk.toNat ≠ 3) || decide (b = .v 0))
/-- `vred` and `vscan`: the bitwise operations only on integers (R139). -/
def redOk (t : Ety) : RedOp → Bool
  | .add | .min | .max => tyIntFlt t
  | .and | .or | .xor => etyInt t
/-- Formats of a matrix operand (R212). -/
def tyMat (t : Ety) : Bool := decide (t = .i8) || decide (t = .fp16) || decide (t = .bf16) || etyTap t
/-- Formats of a drain (R230). -/
def tyDrain (t : Ety) : Bool := etyFlt t || etyTap t

/-- The instruction has an encoding; a step of the device always counts as well formed. -/
def Instr.wf : Instr → Bool
  | .fwUnknown _ _ svc => decide (6 < svc.toNat)
  | .fcvt dt sy rz _ _ => tyNoNib dt && tyNoNib sy && rzOk rz dt sy
  | .ld t _ _ _ _ | .st t _ _ _ _ => tyNoNib t
  | .phase _ rel acq => rel || acq
  | .amoAdd _ s o _ _ _ | .amoMin _ s o _ _ _ | .amoMax _ s o _ _ _ | .amoAnd _ s o _ _ _ | .amoOr _ s o _ _ _
  | .amoXor _ s o _ _ _ | .amoSwap _ s o _ _ _ => scopeOk (decide (o = .relaxed)) s
  | .cas _ s o _ _ _ _ => scopeOk (decide (o = .relaxed)) s
  | .waitm _ _ acq s _ _ _ => scopeOk (!acq) s
  | .sig o peer loc _ a _ => !(loc && (peer || decide (a ≠ .x 0))) && !(peer && decide (o = .or))
  | .vadd t sat _ _ _ _ | .vsub t sat _ _ _ _ | .vmul t sat _ _ _ _ => tyIntFlt t && satOk sat t
  | .vabs t sat _ _ _ | .vneg t sat _ _ _ => tyIntFlt t && satOk sat t
  | .vmin t _ _ _ _ | .vmax t _ _ _ _ => tyIntFlt t
  | .vaddImm t _ _ _ | .vsubImm t _ _ _ | .vmulImm t _ _ _ | .vminImm t _ _ _ | .vmaxImm t _ _ _ => tyIntFlt t
  | .vand t _ _ _ _ | .vor t _ _ _ _ | .vxor t _ _ _ _ | .vandn t _ _ _ _ => tyIntNib t
  | .vshl t _ _ _ _ | .vshr t _ _ _ _ | .vsra t _ _ _ _ | .vmulh t _ _ _ _ => etyInt t
  | .vcmp t c _ _ _ _ => tyIntFlt t && (decide (c ≠ .un) || etyFlt t)
  | .vcvt dt sy rz _ _ _ => decide (etyW dt = etyW sy) && rzOk rz dt sy
  | .vwiden dt sy rz _ _ _ => (decide (etyW dt = 2 * etyW sy) || decide (etyW dt = 4 * etyW sy)) && rzOk rz dt sy
  | .vnarrow dt sy rz _ _ _ => (decide (etyW sy = 2 * etyW dt) || decide (etyW sy = 4 * etyW dt)) && rzOk rz dt sy
  | .vcvts dt other blk _ _ b _ => vcvtsOk dt other blk b
  | .vred t o _ _ _ | .vscan t o _ _ _ => redOk t o
  | .vshuf _ p _ _ _ b => decide (p ≠ .rev) || decide (b = .v 0)
  | .vnanscan t _ _ _ => tyFltTap t
  | .dtload _ _ first count1 | .dtsave _ _ first count1 => decide (first.val + count1.val + 1 ≤ 10)
  | .mShape gang af bf _ => decide (gang.toNat ≤ 4) && tyMat af && tyMat bf
  | .mDrain tile f _ _ n => tyDrain f && decide (1 ≤ n.toNat) && decide (tile.toNat + n.toNat ≤ 64)
  | .cLvl _ dst _ _ count => !dst || decide (count = 0)
  | .cBound bms bmd => decide (bms.toNat ≠ 3) && decide (bmd.toNat ≠ 3)
  | .kAppend _ g m _ n => decide (g.val ≤ 29) && decide (m.val ≤ 30) && decide (1 ≤ n.toNat) && decide (n.toNat ≤ 4096)
  | .kPinTake g _ | .kPinRelease g _ => decide (g.val ≤ 29)
  | .tMerge _ g c _ => decide (g.val ≤ 29) && decide (c.toNat ≤ 16384)
  | .tRequant _ g _ _ _ => decide (g.val ≤ 29)
  | _ => true

end Sys2Proof
end

