-- ==== Sys2Proof/Decode.lean ====
section
/-! DEFINITION. The decoder of syllables (R22 to R40) and of engine words (R41 to R44), total on every word and refusing by
name, and the encoder written from the same tables. -/

namespace Sys2Proof

open Machine

/-- The traps of decoding, in the order of R36. -/
inductive DTrap | opcode | cluster | privilege | modifier | operand
  deriving DecidableEq, Repr

/-- The fields of a syllable below its guard (R22). -/
structure Flds where
  op : Nat
  fn : Nat
  d : Nat
  a : Nat
  b : Nat
  c : Nat
  deriving DecidableEq, Repr

/-- Puts S, N, P and the fields into a word (R22). -/
def packSyl (s n : Bool) (p : Nat) (f : Flds) : Nat :=
  f.c + 2 ^ 16 * (f.b + 2 ^ 10 * (f.a + 2 ^ 10 * (f.d + 2 ^ 10 * (f.fn + 2 ^ 4 * (f.op + 2 ^ 8 * (p + 2 ^ 4 *
    (b2n n + 2 * b2n s)))))))
/-- The fields of a word (R22). -/
def fldsOf (w : Nat) : Flds := ⟨fld w 50 8, fld w 46 4, fld w 36 10, fld w 26 10, fld w 16 10, fld w 0 16⟩

/-! ### Register fields -/

/-- Which cluster consumes and which produces an inter-cluster queue (R149). -/
def qConsumer (q : Nat) : Cluster → Bool
  | .K => q == 14 || q == 15
  | .A => q == 8 || q == 9 || q == 12
  | .X0 => q < 4 || q == 11 || q == 13
  | .X1 => (4 ≤ q && q < 8) || q == 10 || q == 13
def qProducer (q : Nat) : Cluster → Bool
  | .K => q == 12 || q == 13
  | .A => q < 8 || q == 14
  | .X0 => q == 8 || q == 10 || q == 15
  | .X1 => q == 9 || q == 11 || q == 15
/-- A queue in a source field, or in a destination field, is used in its direction (R30). -/
def dirOk (dst : Bool) (k : Option Cluster) (q : Nat) : Bool :=
  match k with
  | none => true
  | some c => if dst then qProducer q c else qConsumer q c

/-- A number below `n`, else refused (R29). -/
def decFin (n x : Nat) : Option (Fin n) := if h : x < n then some ⟨x, h⟩ else none
/-- The number of a scalar field (R28). -/
def encS : SOp → Nat
  | .x n => n.val
  | .q n => 1020 + n.val
/-- Reads a scalar field (R28, R30). -/
def decS (dst : Bool) (k : Option Cluster) (x : Nat) : Option SOp :=
  if h : x < 64 then some (.x ⟨x, h⟩)
  else if 1020 ≤ x then
    (if dirOk dst k (x - 1008) then (decFin 4 (x - 1020)).map .q else none)
  else none
/-- The number of a vector field (R28). -/
def encV : VOp → Nat
  | .v n => n.val
  | .q n => 1008 + n.val
/-- Reads a vector field (R28, R30). -/
def decV (dst : Bool) (k : Option Cluster) (x : Nat) : Option VOp :=
  if h : x < 640 then some (.v ⟨x, h⟩)
  else if 1008 ≤ x then
    (if dirOk dst k (x - 1008) then (decFin 12 (x - 1008)).map .q else none)
  else none
/-- A queue named by `qstat`: 1008 to 1023, or an engine queue in K (R183). -/
def decQ (k : Option Cluster) (isEng : Bool) (x : Nat) : Option QRef :=
  if isEng then (if k = none || k = some .K then (decFin 9 x).map .eq else none)
  else if 1008 ≤ x then (decFin 16 (x - 1008)).map .ic else none

/-! ### Codes -/

/-- The type codes of R33. -/
def encEty : Ety → Nat
  | .i8 => 0 | .n8 => 1 | .i16 => 2 | .n16 => 3 | .i32 => 4 | .n32 => 5 | .i4 => 6 | .n4 => 7 | .fp32 => 8 | .fp16 => 9
  | .bf16 => 10 | .tf8 => 11 | .tf6 => 12 | .i64 => 13 | .n64 => 14
def decEty : Nat → Option Ety
  | 0 => some .i8 | 1 => some .n8 | 2 => some .i16 | 3 => some .n16 | 4 => some .i32 | 5 => some .n32 | 6 => some .i4
  | 7 => some .n4 | 8 => some .fp32 | 9 => some .fp16 | 10 => some .bf16 | 11 => some .tf8 | 12 => some .tf6
  | 13 => some .i64 | 14 => some .n64 | _ => none
def encFTy (t : FTy) : Nat := encEty (ftyE t)
def decFTy : Nat → Option FTy
  | 8 => some .fp32 | 9 => some .fp16 | 10 => some .bf16 | _ => none
def encATy (t : ATy) : Nat := encEty (atyE t)
def decATy : Nat → Option ATy
  | 4 => some .i32 | 5 => some .n32 | 13 => some .i64 | 14 => some .n64 | _ => none
def encScope : Scope → Nat
  | .cl => 0 | .co => 1 | .di => 2 | .dv => 3 | .sy => 4
def decScope : Nat → Option Scope
  | 0 => some .cl | 1 => some .co | 2 => some .di | 3 => some .dv | 4 => some .sy | _ => none
def encOrd : Ord → Nat
  | .relaxed => 0 | .acq => 1 | .rel => 2 | .ar => 3
def decOrd : Nat → Option Ord
  | 0 => some .relaxed | 1 => some .acq | 2 => some .rel | 3 => some .ar | _ => none
def encMCond : MCond → Nat
  | .eq => 0 | .ne => 1 | .lt => 2 | .ge => 3
def decMCond : Nat → Option MCond
  | 0 => some .eq | 1 => some .ne | 2 => some .lt | 3 => some .ge | _ => none
def encSCond : SCond → Nat
  | .eq => 0 | .ne => 1 | .geu => 2 | .ltu => 3
def decSCond : Nat → Option SCond
  | 0 => some .eq | 1 => some .ne | 2 => some .geu | 3 => some .ltu | _ => none
def encFCond : FCond → Nat
  | .eq => 0 | .ne => 1 | .lt => 2 | .le => 3 | .un => 4
def decFCond : Nat → Option FCond
  | 0 => some .eq | 1 => some .ne | 2 => some .lt | 3 => some .le | 4 => some .un | _ => none
def encVCond : VCond → Nat
  | .eq => 0 | .ne => 1 | .lt => 2 | .le => 3 | .gt => 4 | .ge => 5 | .un => 6
def decVCond : Nat → Option VCond
  | 0 => some .eq | 1 => some .ne | 2 => some .lt | 3 => some .le | 4 => some .gt | 5 => some .ge | 6 => some .un | _ => none
def encRed : RedOp → Nat
  | .add => 0 | .min => 1 | .max => 2 | .and => 3 | .or => 4 | .xor => 5
def decRed : Nat → Option RedOp
  | 0 => some .add | 1 => some .min | 2 => some .max | 3 => some .and | 4 => some .or | 5 => some .xor | _ => none
def encPat : Pat → Nat
  | .ziplo => 0 | .ziphi => 1 | .even => 2 | .odd => 3 | .rev => 4
def decPat : Nat → Option Pat
  | 0 => some .ziplo | 1 => some .ziphi | 2 => some .even | 3 => some .odd | 4 => some .rev | _ => none
def encSig : SigOp → Nat
  | .write => 0 | .add => 1 | .or => 2
def decSig : Nat → Option SigOp
  | 0 => some .write | 1 => some .add | 2 => some .or | _ => none
/-- M and MASK in C[14:10] (R124). -/
def encM : VMask → Nat
  | none => 0
  | some m => 2 ^ 14 + 2 ^ 10 * m.val
def mOk (c : Nat) : Bool := bitN c 14 || fld c 10 4 == 0
def decM (c : Nat) : VMask := if bitN c 14 then some (Fin.ofNat 16 (fld c 10 4)) else none
/-- A register or an immediate in C (R141): C[15] and C[9:0]. -/
def encX : XSrc → Nat
  | .reg r => encS r
  | .imm n => 2 ^ 15 + n.toNat
def decX (k : Option Cluster) (c : Nat) : Option XSrc :=
  if bitN c 15 then some (.imm (BitVec.ofNat 10 c)) else (decS false k (fld c 0 10)).map .reg

/-! ### Rows -/

/-- The clusters a row is legal in (R39). -/
inductive ClSet | all | k | a | ka | x
  deriving DecidableEq, Repr
def ClSet.mem : ClSet → Cluster → Bool
  | .all, _ => true
  | .k, c => c == .K
  | .a, c => c == .A
  | .ka, c => c == .K || c == .A
  | .x, c => c == .X0 || c == .X1

/-- What the decoder knows of a listed OP and FN: the clusters, whether it is privileged (R40), whether every modifier and
unused field is right (R27), and the instruction, when every register number is in its class and direction. -/
structure Row where
  cl : ClSet
  priv : Bool
  m : Bool
  v : Option Instr
  deriving DecidableEq, Repr

def row (cl : ClSet) (m : Bool) (v : Option Instr) : Option Row := some ⟨cl, false, m, v⟩
def rowP (m : Bool) (v : Option Instr) : Option Row := some ⟨.k, true, m, v⟩
def z (l : List Nat) : Bool := l.all (· == 0)
def o1 {α β : Type} (f : α → β) : Option α → Option β
  | some a => some (f a)
  | none => none
def o2 {α β γ : Type} (f : α → β → γ) : Option α → Option β → Option γ
  | some a, some b => some (f a b)
  | _, _ => none
def o3 {α β γ δ : Type} (f : α → β → γ → δ) : Option α → Option β → Option γ → Option δ
  | some a, some b, some c => some (f a b c)
  | _, _, _ => none
def o4 {α β γ δ ε : Type} (f : α → β → γ → δ → ε) : Option α → Option β → Option γ → Option δ → Option ε
  | some a, some b, some c, some d => some (f a b c d)
  | _, _, _, _ => none
/-- A row with a type in FN, listed for the types it accepts (R33, R126). -/
def tyRow (ok : Ety → Bool) (fn : Nat) (f : Ety → Option Row) : Option Row :=
  match decEty fn with
  | some t => if ok t then f t else none
  | none => none
def ftRow (fn : Nat) (f : FTy → Option Row) : Option Row :=
  match decFTy fn with
  | some t => f t
  | none => none
def atRow (fn : Nat) (f : ATy → Option Row) : Option Row :=
  match decATy fn with
  | some t => f t
  | none => none
def fn0 (fn : Nat) (r : Option Row) : Option Row := if fn = 0 then r else none
/-- A row whose modifier holds a code: an undefined code is a modifier trap. -/
def codeRow {α : Type} (cl : ClSet) (m : Bool) (code : Option α) (f : α → Bool × Option Instr) : Option Row :=
  match code with
  | some x => row cl (m && (f x).1) (f x).2
  | none => row cl false none
/-- The 26-bit immediate of F2 (R26). -/
def imm26 (f : Flds) : BitVec 26 := BitVec.ofNat 26 (f.b * 2 ^ 16 + f.c)
def c16 (f : Flds) : BitVec 16 := BitVec.ofNat 16 f.c
def sixBits (x : Nat) : BitVec 6 := BitVec.ofNat 6 x

/-- OP 0x00 to 0x0E: control (04, 12). -/
def rowControl (k : Option Cluster) (f : Flds) : Option Row :=
  match f.op with
  | 0x00 => fn0 f.fn (row .all (z [f.d, f.a, f.b, f.c]) (some .nop))
  | 0x01 => fn0 f.fn (row .all (z [f.d, f.a]) (some (.br (imm26 f))))
  | 0x02 => fn0 f.fn (row .all (z [f.d, f.a]) (some (.brp (imm26 f))))
  | 0x03 => fn0 f.fn (row .all (z [f.d, f.b, f.c]) (o1 .brx (decS false k f.a)))
  | 0x04 => fn0 f.fn (row .all (z [f.a]) (o1 (fun d => .call d (imm26 f)) (decFin 64 f.d)))
  | 0x05 => fn0 f.fn (row .all (z [f.d, f.b, f.c]) (o1 .ret (decS false k f.a)))
  | 0x06 => match decFin 6 f.fn with
    | some l => row .all (z [f.d, f.b]) (o1 (fun a => .loop l a (c16 f)) (decS false k f.a))
    | none => none
  | 0x07 => match decFin 6 f.fn with
    | some l => row .x (decide (f.d < 8) && z [f.b]) (o1 (fun a => .rloop l (Fin.ofNat 8 f.d) a (c16 f)) (decS false k f.a))
    | none => none
  | 0x08 => fn0 f.fn (row .all (z [f.d, f.a, f.b, f.c]) (some .exit))
  | 0x09 => fn0 f.fn (row .all (z [f.d, f.a, f.b, f.c]) (some .sync))
  | 0x0A => fn0 f.fn (row .all (z [f.d, f.a, f.b]) (some .safept))
  | 0x0B => fn0 f.fn (row .k (z [f.d, f.a, f.b] && f.c < 256) (some (.ovl (Fin.ofNat 16 (fld f.c 0 4)) (BitVec.ofNat 4 (fld f.c 4 4)))))
  | 0x0C => fn0 f.fn (row .all (z [f.a, f.b] && f.c < 1024) (o1 (fun d => .sysrd d (BitVec.ofNat 10 f.c)) (decS true k f.d)))
  | 0x0D => fn0 f.fn (row .k (z [f.d, f.b] && f.c < 1024) (o1 (fun a => .syswr a (BitVec.ofNat 10 f.c)) (decS false k f.a)))
  | 0x0E => match f.fn with
    | 0 => row .k (z [f.b]) (o2 (fun d a => match f.c with
        | 0 => .fwVersion d a | 1 => .fwForm d a | 2 => .fwPower d a | 3 => .fwGovernor d a | 4 => .fwPlat d a
        | 5 => .fwDebugPolicy d a | 6 => .fwPagerRequest d a | _ => .fwUnknown d a (c16 f)) (decS true k f.d) (decS false k f.a))
    | 1 => row .k (z [f.d, f.a, f.b, f.c]) (some .idle)
    | 2 => row .all (z [f.d, f.b]) (o1 (fun a => .trap a (c16 f)) (decS false k f.a))
    | 3 => rowP (z [f.d, f.a, f.b, f.c]) (some .eret)
    | 4 => rowP (z [f.d, f.a, f.b, f.c]) (some .eretSkip)
    | 5 => rowP (z [f.d, f.a, f.b, f.c]) (some .eretAbort)
    | _ => none
  | _ => none

/-- The integer group in register form, in the order of FN (R112). -/
def alu3 (k : Option Cluster) (f : Flds) (i : SOp → SOp → SOp → Instr) : Option Row :=
  row .all (z [f.c]) (o3 i (decS true k f.d) (decS false k f.a) (decS false k f.b))
/-- The integer group in immediate form (R112). -/
def alu2 (k : Option Cluster) (f : Flds) (i : SOp → SOp → BitVec 16 → Instr) : Option Row :=
  row .all (z [f.b]) (o2 (fun d a => i d a (c16 f)) (decS true k f.d) (decS false k f.a))
def cmp3 (k : Option Cluster) (f : Flds) (i : Fin 16 → SOp → SOp → Instr) : Option Row :=
  row .all (z [f.c]) (o3 i (decFin 16 f.d) (decS false k f.a) (decS false k f.b))
def cmp2 (k : Option Cluster) (f : Flds) (i : Fin 16 → SOp → BitVec 16 → Instr) : Option Row :=
  row .all (z [f.b]) (o2 (fun d a => i d a (c16 f)) (decFin 16 f.d) (decS false k f.a))

/-- OP 0x10 to 0x1A: integer (05). -/
def rowInt (k : Option Cluster) (f : Flds) : Option Row :=
  match f.op with
  | 0x10 => match f.fn with
    | 0 => alu3 k f .add | 1 => alu3 k f .sub | 2 => alu3 k f .and | 3 => alu3 k f .or | 4 => alu3 k f .xor
    | 5 => alu3 k f .andn | 6 => alu3 k f .shl | 7 => alu3 k f .shr | 8 => alu3 k f .sra | 9 => alu3 k f .rot
    | 10 => alu3 k f .min | 11 => alu3 k f .max | 12 => alu3 k f .minu | 13 => alu3 k f .maxu | _ => none
  | 0x11 => match f.fn with
    | 0 => alu2 k f .addImm | 1 => alu2 k f .subImm | 2 => alu2 k f .andImm | 3 => alu2 k f .orImm | 4 => alu2 k f .xorImm
    | 5 => alu2 k f .andnImm | 6 => alu2 k f .shlImm | 7 => alu2 k f .shrImm | 8 => alu2 k f .sraImm | 9 => alu2 k f .rotImm
    | 10 => alu2 k f .minImm | 11 => alu2 k f .maxImm | 12 => alu2 k f .minuImm | 13 => alu2 k f .maxuImm | _ => none
  | 0x12 => match f.fn with
    | 0 => alu3 k f .mul | 1 => alu3 k f .mulh | 2 => alu3 k f .mulhu | 3 => alu3 k f .div | 4 => alu3 k f .divu
    | 5 => alu3 k f .rem | 6 => alu3 k f .remu | _ => none
  | 0x13 => match f.fn with
    | 0 => row .all (z [f.b, f.c]) (o2 .clz (decS true k f.d) (decS false k f.a))
    | 1 => row .all (z [f.b, f.c]) (o2 .popc (decS true k f.d) (decS false k f.a))
    | 2 => row .all (z [f.b, f.c]) (o2 .ctz (decS true k f.d) (decS false k f.a))
    | _ => none
  | 0x14 => match f.fn with
    | 0 => row .all (z [f.b] && f.c < 4096) (o2 (fun d a => .bfxS d a (sixBits f.c) (sixBits (fld f.c 6 6))) (decS true k f.d) (decS false k f.a))
    | 1 => row .all (z [f.b] && f.c < 4096) (o2 (fun d a => .bfxU d a (sixBits f.c) (sixBits (fld f.c 6 6))) (decS true k f.d) (decS false k f.a))
    | _ => none
  | 0x15 => fn0 f.fn (row .all (z [f.b] && f.c < 4096)
      (o2 (fun d a => .bfi d a (sixBits f.c) (sixBits (fld f.c 6 6))) (decFin 64 f.d) (decS false k f.a)))
  | 0x16 => fn0 f.fn (row .all (z [f.a]) (o1 (fun d => .li d (imm26 f)) (decS true k f.d)))
  | 0x17 => match decFin 4 f.fn with
    | some c => row .all (z [f.a, f.b]) (o1 (fun d => .lih d c (c16 f)) (decFin 64 f.d))
    | none => none
  | 0x18 => match f.fn with
    | 0 => cmp3 k f .cmpEq | 1 => cmp3 k f .cmpNe | 2 => cmp3 k f .cmpLt | 3 => cmp3 k f .cmpGe | 4 => cmp3 k f .cmpLtu
    | 5 => cmp3 k f .cmpGeu | _ => none
  | 0x19 => match f.fn with
    | 0 => cmp2 k f .cmpEqImm | 1 => cmp2 k f .cmpNeImm | 2 => cmp2 k f .cmpLtImm | 3 => cmp2 k f .cmpGeImm
    | 4 => cmp2 k f .cmpLtuImm | 5 => cmp2 k f .cmpGeuImm | _ => none
  | 0x1A => fn0 f.fn (row .all (decide (f.c < 2048)) (o4 (fun d a b c => .sel d a b c (bitN f.c 10)) (decS true k f.d) (decS false k f.a)
      (decS false k f.b) (decFin 16 (fld f.c 0 10))))
  | _ => none

def pred3 (f : Flds) (i : Fin 16 → Fin 16 → Fin 16 → Instr) : Option Row :=
  row .all (z [f.c]) (o3 i (decFin 16 f.d) (decFin 16 f.a) (decFin 16 f.b))
def pred2 (f : Flds) (i : Fin 16 → Fin 16 → Instr) : Option Row :=
  row .all (z [f.b, f.c]) (o2 i (decFin 16 f.d) (decFin 16 f.a))

/-- OP 0x20 to 0x29: scalar floating point and predicates (05). -/
def rowFloat (k : Option Cluster) (f : Flds) : Option Row :=
  match f.op with
  | 0x20 => ftRow f.fn fun t => alu3 k f (.fadd t)
  | 0x21 => ftRow f.fn fun t => alu3 k f (.fsub t)
  | 0x22 => ftRow f.fn fun t => alu3 k f (.fmul t)
  | 0x23 => ftRow f.fn fun t => row .all (decide (f.c < 1024)) (o4 (.fma t) (decS true k f.d) (decS false k f.a) (decS false k f.b)
      (decS false k (fld f.c 0 10)))
  | 0x24 => ftRow f.fn fun t => alu3 k f (.fmin t)
  | 0x25 => ftRow f.fn fun t => alu3 k f (.fmax t)
  | 0x26 => ftRow f.fn fun t => codeRow .all (decide (f.c < 8192) && z [fld f.c 0 10]) (decFCond (fld f.c 10 3)) fun c =>
      (true, o3 (.fcmp t c) (decFin 16 f.d) (decS false k f.a) (decS false k f.b))
  | 0x27 => tyRow tyNoNib f.fn fun t => codeRow .all (z [f.b, fld f.c 0 10] && !bitN f.c 15) (decEty (fld f.c 10 4)) fun u =>
      (tyNoNib u && rzOk (bitN f.c 14) t u, o2 (.fcvt t u (bitN f.c 14)) (decS true k f.d) (decS false k f.a))
  | 0x28 => match f.fn with
    | 0 => pred3 f .pand | 1 => pred3 f .por | 2 => pred3 f .pxor | 3 => pred3 f .pandn | 4 => pred2 f .pnot | 5 => pred2 f .pmov
    | _ => none
  | 0x29 => match f.fn with
    | 0 => row .all (z [f.a, f.b, f.c]) (o1 .ptox (decS true k f.d))
    | 1 => row .all (z [f.d, f.b, f.c]) (o1 .xtop (decS false k f.a))
    | _ => none
  | _ => none

/-- `lds`, `sts`, `gth` and `sct`: a stream register in B[20:16] (R26). -/
def strm {n : Nat} (k : Option Cluster) (f : Flds) (lo : Nat) (i : Fin n → Fin 32 → SOp → BitVec 16 → Instr) : Option Row :=
  row .a (decide (f.b < 32)) (if 1008 + lo ≤ f.d then
    o2 (fun q a => i q (Fin.ofNat 32 f.b) a (c16 f)) (decFin n (f.d - 1008 - lo)) (decS false k f.a) else none)
/-- `ldq` and `stq`. -/
def qmem {n : Nat} (k : Option Cluster) (f : Flds) (lo : Nat) (i : Fin n → SOp → SOp → BitVec 16 → Instr) : Option Row :=
  row .a true (if 1008 + lo ≤ f.d then
    o3 (fun q a b => i q a b (c16 f)) (decFin n (f.d - 1008 - lo)) (decS false k f.a) (decS false k f.b) else none)

/-- OP 0x30 to 0x3E: memory, queues and counters (07). -/
def rowMem (k : Option Cluster) (f : Flds) : Option Row :=
  match f.op with
  | 0x30 => tyRow tyNoNib f.fn fun t => row .ka true (o3 (fun d a b => .ld t d a b (c16 f)) (decS true k f.d) (decS false k f.a) (decS false k f.b))
  | 0x31 => tyRow tyNoNib f.fn fun t => row .ka true (o3 (fun d a b => .st t d a b (c16 f)) (decS false k f.d) (decS false k f.a) (decS false k f.b))
  | 0x32 => tyRow (fun _ => true) f.fn fun t => qmem k f 0 (.ldq t)
  | 0x33 => tyRow (fun _ => true) f.fn fun t => qmem k f 8 (.stq t)
  | 0x34 => tyRow (fun _ => true) f.fn fun t => strm k f 0 (.lds t)
  | 0x35 => tyRow (fun _ => true) f.fn fun t => strm k f 8 (.sts t)
  | 0x36 => tyRow (fun _ => true) f.fn fun t => strm k f 0 (.gth t)
  | 0x37 => tyRow (fun _ => true) f.fn fun t => strm k f 8 (.sct t)
  | 0x38 => fn0 f.fn (row .ka (z [f.d]) (o2 (fun a b => .pref a b (c16 f)) (decS false k f.a) (decS false k f.b)))
  | 0x39 => fn0 f.fn (row .a (z [f.b] && f.c < 4) (o2 (fun n a => .srset n a (Fin.ofNat 4 f.c)) (decFin 32 f.d) (decS false k f.a)))
  | 0x3A => fn0 f.fn (row .a (z [f.b] && f.c < 4) (o2 (fun d n => .srget d n (Fin.ofNat 4 f.c)) (decS true k f.d) (decFin 32 f.a)))
  | 0x3B => fn0 f.fn (row .all (z [f.b] && f.c < 2) (o2 .qstat (decS true k f.d) (decQ k (f.c == 1) f.a)))
  | 0x3C => fn0 f.fn (row .all (z [f.a, f.b] && f.c < 256) (o1 (fun n => .hpost n (BitVec.ofNat 8 f.c)) (decFin 8 f.d)))
  | 0x3D => fn0 f.fn (row .all (z [f.a, f.b] && f.c < 256) (o1 (fun n => .htake n (BitVec.ofNat 8 f.c)) (decFin 8 f.d)))
  | 0x3E => fn0 f.fn (row .k (z [f.b, f.c]) (o2 .push (decFin 9 f.d) (decS false k f.a)))
  | _ => none

/-- The modifiers SCOPE and ORD of an atomic (R204). -/
def amoRow (k : Option Cluster) (f : Flds) (i : ATy → Scope → Ord → SOp → SOp → SOp → Instr) : Option Row :=
  atRow f.fn fun t => codeRow .ka (!bitN f.c 15 && z [fld f.c 0 10]) (o2 Prod.mk (decScope (fld f.c 10 3)) (decOrd (fld f.c 13 2))) fun p =>
    (scopeOk (decide (p.2 = .relaxed)) p.1, o3 (i t p.1 p.2) (decS true k f.d) (decS false k f.a) (decS false k f.b))

/-- OP 0x40 to 0x49: ordering and atomics (08). -/
def rowOrder (k : Option Cluster) (f : Flds) : Option Row :=
  match f.op with
  | 0x40 => match decScope f.fn with
    | some s => row .all (z [f.d, f.a, f.b, fld f.c 0 10, fld f.c 12 4] && (bitN f.c 10 || bitN f.c 11)) (some (.phase s (bitN f.c 10) (bitN f.c 11)))
    | none => none
  | 0x41 => amoRow k f .amoAdd
  | 0x42 => amoRow k f .amoMin
  | 0x43 => amoRow k f .amoMax
  | 0x44 => amoRow k f .amoAnd
  | 0x45 => amoRow k f .amoOr
  | 0x46 => amoRow k f .amoXor
  | 0x47 => amoRow k f .amoSwap
  | 0x48 => atRow f.fn fun t => codeRow .ka (!bitN f.c 15) (o2 Prod.mk (decScope (fld f.c 10 3)) (decOrd (fld f.c 13 2))) fun p =>
      (scopeOk (decide (p.2 = .relaxed)) p.1, o4 (.cas t p.1 p.2) (decS true k f.d) (decS false k f.a) (decS false k f.b) (decS false k (fld f.c 0 10)))
  | 0x49 => atRow f.fn fun t => codeRow .ka (z [fld f.c 0 10]) (o2 Prod.mk (decScope (fld f.c 10 3)) (decMCond (fld f.c 14 2))) fun p =>
      (scopeOk (!bitN f.c 13) p.1, o3 (.waitm t p.2 (bitN f.c 13) p.1) (decS true k f.d) (decS false k f.a) (decS false k f.b))
  | _ => none

def da (cl : ClSet) (k : Option Cluster) (f : Flds) (i : SOp → SOp → Instr) : Option Row :=
  fn0 f.fn (row cl (z [f.b, f.c]) (o2 i (decS true k f.d) (decS false k f.a)))
def dab (cl : ClSet) (k : Option Cluster) (f : Flds) (i : SOp → SOp → SOp → Instr) : Option Row :=
  fn0 f.fn (row cl (z [f.c]) (o3 i (decS true k f.d) (decS false k f.a) (decS false k f.b)))

/-- OP 0x50 to 0x76: engine state, requests, the pager, signals (09 to 14, 22). -/
def rowSys (k : Option Cluster) (f : Flds) : Option Row :=
  match f.op with
  | 0x50 => fn0 f.fn (row .k (z [f.a, f.b] && f.c < 1024) (o1 (fun d => .mstat d (BitVec.ofNat 10 f.c)) (decS true k f.d)))
  | 0x51 => fn0 f.fn (row .k (z [f.d, f.a, f.b] && f.c < 256) (some (.waitk (BitVec.ofNat 8 f.c))))
  | 0x52 => fn0 f.fn (row .k (z [f.a, f.b, f.c]) (o1 .tokq (decS true k f.d)))
  | 0x53 => fn0 f.fn (row .k (z [f.d, f.c]) (o2 .pkt (decS false k f.a) (decS false k f.b)))
  | 0x54 => da .ka k f .kslot
  | 0x60 => dab .k k f .rqopen
  | 0x61 => fn0 f.fn (row .all (z [f.d, f.b, f.c]) (o1 .rqset (decS false k f.a)))
  | 0x62 => fn0 f.fn (row .k (z [f.d] && f.c < 128) (o2 (fun a b => .rqrow a b (BitVec.ofNat 7 f.c)) (decS false k f.a) (decS false k f.b)))
  | 0x63 => fn0 f.fn (row .k (z [f.d, f.b, fld f.c 0 10, fld f.c 11 5]) (o1 (.rqsets (bitN f.c 10)) (decS false k f.a)))
  | 0x64 => da .k k f .rqhalt
  | 0x65 => da .k k f .rqresume
  | 0x66 => fn0 f.fn (if bitN f.c 10 then row .k (z [f.b, fld f.c 0 10, fld f.c 11 5]) (o2 .rqcancelDrain (decS true k f.d) (decS false k f.a))
      else row .k (z [f.b, f.c]) (o2 .rqcancel (decS true k f.d) (decS false k f.a)))
  | 0x67 => fn0 f.fn (row .k (z [f.b] && f.c < 8) (o2 (fun d a => .rqmeter d a (BitVec.ofNat 3 f.c)) (decS true k f.d) (decS false k f.a)))
  | 0x68 => da .all k f .rqmark
  | 0x69 => da .k k f .rqstat
  | 0x6A => fn0 f.fn (match decFin 3 (fld f.c 10 2) with
      | some m => rowP (z [f.d, f.b, fld f.c 0 10, fld f.c 13 3]) (o1 (fun a => .tlbinv a m (bitN f.c 12)) (decS false k f.a))
      | none => rowP false none)
  | 0x6B => fn0 f.fn (rowP (z [f.d] && f.c < 4) (o2 (fun a b => .tlbfill a b (Fin.ofNat 4 f.c)) (decS false k f.a) (decS false k f.b)))
  | 0x6C => fn0 f.fn (rowP (z [f.c]) (o3 .pgmap (decS true k f.d) (decS false k f.a) (decS false k f.b)))
  | 0x6D => fn0 f.fn (rowP (z [f.d, f.b, f.c]) (o1 .exqpost (decS false k f.a)))
  | 0x6E => da .all k f .winnow
  | 0x6F => fn0 f.fn (row .k (z [f.a, f.b, f.c]) (o1 .leaveq (decS true k f.d)))
  | 0x70 => fn0 f.fn (codeRow .all (z [f.d, fld f.c 8 2, fld f.c 14 2]) (decSig (fld f.c 10 2)) fun o =>
      (!(bitN f.c 13 && (bitN f.c 12 || f.a != 0)) && !(bitN f.c 12 && decide (o = .or)) && (!bitN f.c 12 || k = none || k = some .K),
        o2 (.sig o (bitN f.c 12) (bitN f.c 13) (BitVec.ofNat 8 f.c)) (decS false k f.a) (decS false k f.b)))
  | 0x71 => fn0 f.fn (if bitN f.c 12 then row .all (z [f.a, f.b, fld f.c 8 4, fld f.c 13 3]) (o1 (fun d => .waitsPoll d (BitVec.ofNat 8 f.c)) (decS true k f.d))
      else codeRow .all (z [f.a, fld f.c 8 2, fld f.c 13 3]) (decSCond (fld f.c 10 2)) fun c =>
        (true, o2 (fun d b => .waits c d (BitVec.ofNat 8 f.c) b) (decS true k f.d) (decS false k f.b)))
  | 0x72 => fn0 f.fn (if bitN f.c 10 then row .all (z [f.d, f.a, f.b, fld f.c 6 4, fld f.c 11 5]) (some (.barDv (sixBits f.c)))
      else row .all (z [f.d, f.a, f.b, f.c]) (some .barCo))
  | 0x73 => fn0 f.fn (row .k (z [f.d, f.a, f.b] && f.c < 64) (some (.bard (sixBits f.c))))
  | 0x74 => fn0 f.fn (match fld f.c 10 2 with
      | 0 => row .k (z [f.c]) (o3 .barsetAlloc (decS true k f.d) (decS false k f.a) (decS false k f.b))
      | 1 => row .k (z [fld f.c 6 4, fld f.c 12 4]) (o3 (fun d a b => .barsetSet d a b (sixBits f.c)) (decS true k f.d) (decS false k f.a) (decS false k f.b))
      | 2 => row .k (z [f.a, f.b, fld f.c 6 4, fld f.c 12 4]) (o1 (fun d => .barsetFree d (sixBits f.c)) (decS true k f.d))
      | _ => row .k (z [f.a, f.b, fld f.c 6 4, fld f.c 12 4]) (o1 (fun d => .barsetQuery d (sixBits f.c)) (decS true k f.d)))
  | 0x75 => fn0 f.fn (match fld f.c 10 2 with
      | 0 => row .k (z [f.d, f.b, f.c]) (o1 .ulienOn (decS false k f.a))
      | 1 => row .k (z [f.d, f.a, f.b, fld f.c 0 10, fld f.c 12 4]) (some .ulienOff)
      | 2 => codeRow .k (z [f.a, fld f.c 12 4]) (decSCond (fld f.c 8 2)) fun c =>
          (true, o1 (fun b => .ulienWatch (BitVec.ofNat 10 f.d) (BitVec.ofNat 8 f.c) b c) (decS false k f.b))
      | _ => row .k (z [f.a, f.b, fld f.c 0 10, fld f.c 12 4]) (some (.ulienUnwatch (BitVec.ofNat 10 f.d))))
  | 0x76 => fn0 f.fn (row .k (z [f.d, f.a, f.b, f.c]) (some .uliret))
  | _ => none

/-- C of a maskable syllable without `.sat` and without another use of C[9:0] (R124). -/
def cMask (c : Nat) : Bool := mOk c && z [fld c 0 10] && !bitN c 15
/-- D, A and B vector fields, maskable. -/
def v3 (k : Option Cluster) (f : Flds) (i : VMask → VOp → VOp → VOp → Instr) : Option Row :=
  row .x (cMask f.c) (o3 (i (decM f.c)) (decV true k f.d) (decV false k f.a) (decV false k f.b))
/-- D and A vector fields, maskable. -/
def v2 (k : Option Cluster) (f : Flds) (i : VMask → VOp → VOp → Instr) : Option Row :=
  row .x (cMask f.c && z [f.b]) (o2 (i (decM f.c)) (decV true k f.d) (decV false k f.a))
/-- The forms with `.sat` (R130). -/
def v3s (k : Option Cluster) (f : Flds) (t : Ety) (i : Bool → VMask → VOp → VOp → VOp → Instr) : Option Row :=
  row .x (mOk f.c && z [fld f.c 0 10] && satOk (bitN f.c 15) t) (o3 (i (bitN f.c 15) (decM f.c)) (decV true k f.d) (decV false k f.a) (decV false k f.b))
def v2s (k : Option Cluster) (f : Flds) (t : Ety) (i : Bool → VMask → VOp → VOp → Instr) : Option Row :=
  row .x (mOk f.c && z [fld f.c 0 10, f.b] && satOk (bitN f.c 15) t) (o2 (i (bitN f.c 15) (decM f.c)) (decV true k f.d) (decV false k f.a))
/-- The immediate forms (R131). -/
def vimm (k : Option Cluster) (f : Flds) (i : VOp → VOp → BitVec 16 → Instr) : Option Row :=
  row .x (z [f.b]) (o2 (fun d a => i d a (c16 f)) (decV true k f.d) (decV false k f.a))
/-- The conversions with a source type in C[3:0] and `.rz` in C[4] (R136, R137). -/
def vconv (k : Option Cluster) (f : Flds) (ok : Ety → Bool → Bool) (i : Ety → Bool → VMask → VOp → VOp → Instr) : Option Row :=
  codeRow .x (mOk f.c && z [f.b, fld f.c 5 5] && !bitN f.c 15) (decEty (fld f.c 0 4)) fun u =>
    (ok u (bitN f.c 4), o2 (i u (bitN f.c 4) (decM f.c)) (decV true k f.d) (decV false k f.a))

/-- OP 0x80 to 0x96: element arithmetic and broadcast (06). -/
def rowVec1 (k : Option Cluster) (f : Flds) : Option Row :=
  match f.op with
  | 0x80 => tyRow tyIntFlt f.fn fun t => v3s k f t (.vadd t)
  | 0x81 => tyRow tyIntFlt f.fn fun t => v3s k f t (.vsub t)
  | 0x82 => tyRow tyIntFlt f.fn fun t => v3s k f t (.vmul t)
  | 0x83 => ftRow f.fn fun t => row .x (mOk f.c && !bitN f.c 15) (o4 (.vfma t (decM f.c)) (decV true k f.d) (decV false k f.a) (decV false k f.b)
      (decV false k (fld f.c 0 10)))
  | 0x84 => tyRow tyIntFlt f.fn fun t => v3 k f (.vmin t)
  | 0x85 => tyRow tyIntFlt f.fn fun t => v3 k f (.vmax t)
  | 0x86 => tyRow tyIntFlt f.fn fun t => v2s k f t (.vabs t)
  | 0x87 => tyRow tyIntFlt f.fn fun t => v2s k f t (.vneg t)
  | 0x88 => tyRow tyIntNib f.fn fun t => v3 k f (.vand t)
  | 0x89 => tyRow tyIntNib f.fn fun t => v3 k f (.vor t)
  | 0x8A => tyRow tyIntNib f.fn fun t => v3 k f (.vxor t)
  | 0x8B => tyRow tyIntNib f.fn fun t => v3 k f (.vandn t)
  | 0x8C => tyRow etyInt f.fn fun t => v3 k f (.vshl t)
  | 0x8D => tyRow etyInt f.fn fun t => v3 k f (.vshr t)
  | 0x8E => tyRow etyInt f.fn fun t => v3 k f (.vsra t)
  | 0x8F => tyRow etyInt f.fn fun t => v3 k f (.vmulh t)
  | 0x90 => tyRow tyIntFlt f.fn fun t => vimm k f (.vaddImm t)
  | 0x91 => tyRow tyIntFlt f.fn fun t => vimm k f (.vsubImm t)
  | 0x92 => tyRow tyIntFlt f.fn fun t => vimm k f (.vmulImm t)
  | 0x93 => tyRow tyIntFlt f.fn fun t => vimm k f (.vminImm t)
  | 0x94 => tyRow tyIntFlt f.fn fun t => vimm k f (.vmaxImm t)
  | 0x95 => tyRow (fun _ => true) f.fn fun t => row .x (cMask f.c && z [f.b]) (o2 (.vbcast t (decM f.c)) (decV true k f.d) (decS false k f.a))
  | 0x96 => tyRow (fun _ => true) f.fn fun t => row .x (z [f.a, f.b]) (o1 (fun d => .vbcastImm t d (c16 f)) (decV true k f.d))
  | _ => none

/-- OP 0x97 to 0xAF: comparisons, conversions, permutes, masks (06). -/
def rowVec2 (k : Option Cluster) (f : Flds) : Option Row :=
  match f.op with
  | 0x97 => tyRow tyIntFlt f.fn fun t => codeRow .x (mOk f.c && z [fld f.c 3 7] && !bitN f.c 15) (decVCond (fld f.c 0 3)) fun c =>
      (decide (c ≠ .un) || etyFlt t, o3 (.vcmp t c (decM f.c)) (decFin 16 f.d) (decV false k f.a) (decV false k f.b))
  | 0x98 => tyRow (fun _ => true) f.fn fun t => row .x (decide (f.c < 16)) (o3 (.vsel t (Fin.ofNat 16 f.c)) (decV true k f.d) (decV false k f.a) (decV false k f.b))
  | 0x99 => tyRow (fun _ => true) f.fn fun t => vconv k f (fun u rz => decide (etyW t = etyW u) && rzOk rz t u) (.vcvt t)
  | 0x9A => tyRow tyFltTap f.fn fun t => row .x (!bitN f.c 15 && !bitN f.c 12 && (if etyFlt t then decide (fld f.c 13 2 < 2) else decide (fld f.c 13 2 < 3)) &&
        (decide (fld f.c 10 2 ≠ 3) || f.b == 0))
      (o4 (.vcvts t (BitVec.ofNat 2 (fld f.c 13 2)) (BitVec.ofNat 2 (fld f.c 10 2))) (decV true k f.d) (decV false k f.a) (decV false k f.b) (decS false k (fld f.c 0 10)))
  | 0x9B => tyRow (fun _ => true) f.fn fun t => vconv k f (fun u rz => (decide (etyW t = 2 * etyW u) || decide (etyW t = 4 * etyW u)) && rzOk rz t u) (.vwiden t)
  | 0x9C => tyRow (fun _ => true) f.fn fun t => vconv k f (fun u rz => (decide (etyW u = 2 * etyW t) || decide (etyW u = 4 * etyW t)) && rzOk rz t u) (.vnarrow t)
  | 0x9D => tyRow tyIntFlt f.fn fun t => codeRow .x (mOk f.c && z [f.b, fld f.c 3 7] && !bitN f.c 15) (decRed (fld f.c 0 3)) fun o =>
      (redOk t o, o2 (.vred t o (decM f.c)) (decV true k f.d) (decV false k f.a))
  | 0x9E => tyRow tyIntFlt f.fn fun t => codeRow .x (mOk f.c && z [f.b, fld f.c 3 7] && !bitN f.c 15) (decRed (fld f.c 0 3)) fun o =>
      (redOk t o, o2 (.vscan t o (decM f.c)) (decV true k f.d) (decV false k f.a))
  | 0x9F => tyRow (fun _ => true) f.fn fun t => v3 k f (.vperm t)
  | 0xA0 => tyRow (fun _ => true) f.fn fun t => codeRow .x (mOk f.c && z [fld f.c 3 7] && !bitN f.c 15) (decPat (fld f.c 0 3)) fun p =>
      (decide (p ≠ .rev) || f.b == 0, o3 (.vshuf t p (decM f.c)) (decV true k f.d) (decV false k f.a) (decV false k f.b))
  | 0xA1 => tyRow (fun _ => true) f.fn fun t => row .x (mOk f.c) (o4 (.vxl t (decM f.c)) (decV true k f.d) (decV false k f.a) (decV false k f.b) (decX k f.c))
  | 0xA2 => tyRow (fun _ => true) f.fn fun t => row .x (z [fld f.c 10 5] && (if bitN f.c 15 then z [f.b] else z [f.c]))
      (o3 (.vins t) (decFin 640 f.d) (decS false k f.a) (if bitN f.c 15 then some (.imm (BitVec.ofNat 10 f.c)) else o1 .reg (decS false k f.b)))
  | 0xA3 => tyRow (fun _ => true) f.fn fun t => row .x (z [fld f.c 10 5] && (if bitN f.c 15 then z [f.b] else z [f.c]))
      (o3 (.vext t) (decS true k f.d) (decV false k f.a) (if bitN f.c 15 then some (.imm (BitVec.ofNat 10 f.c)) else o1 .reg (decS false k f.b)))
  | 0xA4 => tyRow (fun _ => true) f.fn fun t => v2 k f (.vcompress t)
  | 0xA5 => tyRow (fun _ => true) f.fn fun t => v2 k f (.vexpand t)
  | 0xA6 => ftRow f.fn fun t => v2 k f (.vexp t)
  | 0xA7 => ftRow f.fn fun t => v2 k f (.vln t)
  | 0xA8 => ftRow f.fn fun t => v2 k f (.vrcp t)
  | 0xA9 => ftRow f.fn fun t => v2 k f (.vrsq t)
  | 0xAA => ftRow f.fn fun t => v2 k f (.vsig t)
  | 0xAB => tyRow (fun _ => true) f.fn fun t => v3 k f (.vlut t)
  | 0xAC => fn0 f.fn (row .x (z [f.b, f.c]) (o2 .vmov (decV true k f.d) (decV false k f.a)))
  | 0xAD => match f.fn with
    | 0 => row .x (z [f.c]) (o3 .mand (decFin 16 f.d) (decFin 16 f.a) (decFin 16 f.b))
    | 1 => row .x (z [f.c]) (o3 .mor (decFin 16 f.d) (decFin 16 f.a) (decFin 16 f.b))
    | 2 => row .x (z [f.c]) (o3 .mxor (decFin 16 f.d) (decFin 16 f.a) (decFin 16 f.b))
    | 3 => row .x (z [f.c]) (o3 .mandn (decFin 16 f.d) (decFin 16 f.a) (decFin 16 f.b))
    | 4 => row .x (z [f.b, f.c]) (o2 .mnot (decFin 16 f.d) (decFin 16 f.a))
    | 5 => row .x (z [f.b, f.c]) (o2 .mmov (decFin 16 f.d) (decFin 16 f.a))
    | _ => none
  | 0xAE => fn0 f.fn (row .x (z [f.b, f.c]) (o2 .mpopc (decS true k f.d) (decFin 16 f.a)))
  | 0xAF => tyRow tyFltTap f.fn fun t => row .x (cMask f.c && z [f.b]) (o2 (.vnanscan t (decM f.c)) (decS true k f.d) (decV false k f.a))
  | _ => none

/-- OP 0xC0 to 0xD4: awn lanes (20) and sheaf cells (18). The overflow mask O of `dtx` and `dtmap` may have any value when OVM is 0 (DESIGN
CHOICE, log 96). -/
def rowAwn (k : Option Cluster) (f : Flds) : Option Row :=
  match f.op with
  | 0xC0 => fn0 f.fn (row .x (z [f.b, fld f.c 8 8] && !bitN f.c 7 && decide (fld f.c 0 4 + fld f.c 4 4 + 1 ≤ 10))
      (o2 (fun d a => .dtload d a (Fin.ofNat 10 (fld f.c 0 4)) (Fin.ofNat 8 (fld f.c 4 4))) (decFin 4 f.d) (decV false k f.a)))
  | 0xC1 => fn0 f.fn (match fld f.c 10 2 with
      | 0 => row .x (z [f.b, f.c]) (o2 .dtattrSet (decFin 4 f.d) (decS false k f.a))
      | 1 => row .x (z [f.b, fld f.c 0 10, fld f.c 12 4]) (o2 .dtattrGet (decS true k f.d) (decFin 4 f.a))
      | 2 => row .x (z [f.d, f.b, fld f.c 0 10, fld f.c 12 4]) (o1 .dtattrHnd (decS false k f.a))
      | _ => row .x (z [f.d, f.a, f.b, fld f.c 0 10, fld f.c 12 4]) (some .dtattrRet))
  | 0xC2 => fn0 f.fn (row .x (decide (f.c < 128)) (o3 (.dtx (Fin.ofNat 4 (fld f.c 0 2)) (bitN f.c 2) (Fin.ofNat 16 (fld f.c 3 4)))
      (decV true k f.d) (decV false k f.a) (decV false k f.b)))
  | 0xC3 => fn0 f.fn (row .x (decide (f.c < 128) && z [f.b]) (o2 (.dtmap (Fin.ofNat 4 (fld f.c 0 2)) (bitN f.c 2) (Fin.ofNat 16 (fld f.c 3 4)))
      (decV true k f.d) (decV false k f.a)))
  | 0xC4 => fn0 f.fn (row .x (decide (f.c < 4)) (o3 (.dtcmp (Fin.ofNat 4 f.c)) (decFin 14 f.d) (decV false k f.a) (decV false k f.b)))
  | 0xC5 => fn0 f.fn (if bitN f.c 2 then row .x (decide (f.c < 8) && z [f.b]) (o2 (.dtvalFp32 (Fin.ofNat 4 (fld f.c 0 2))) (decV true k f.d) (decV false k f.a))
      else row .x (decide (f.c < 8) && z [f.b]) (o2 (.dtvalI32 (Fin.ofNat 4 (fld f.c 0 2))) (decV true k f.d) (decV false k f.a)))
  | 0xC6 => fn0 f.fn (row .x (z [f.b, fld f.c 8 8] && !bitN f.c 7 && decide (fld f.c 0 4 + fld f.c 4 4 + 1 ≤ 10))
      (o2 (fun d a => .dtsave d a (Fin.ofNat 10 (fld f.c 0 4)) (Fin.ofNat 8 (fld f.c 4 4))) (decV true k f.d) (decFin 4 f.a)))
  | 0xD0 => fn0 f.fn (row .ka (z [fld f.c 0 10, fld f.c 11 5]) (o3 (.mld (bitN f.c 10)) (decS true k f.d) (decS false k f.a) (decFin 16 f.b)))
  | 0xD1 => dab .ka k f .mst
  | 0xD2 => fn0 f.fn (row .ka (decide (f.c < 1024)) (o4 .mcas (decS true k f.d) (decS false k f.a) (decS false k f.b) (decS false k (fld f.c 0 10))))
  | 0xD3 => dab .ka k f .mrepair
  | 0xD4 => fn0 f.fn (rowP (z [f.b, f.c]) (o2 .sheafmap (decS true k f.d) (decS false k f.a)))
  | _ => none

/-- The row of OP and FN (R39); none is ILLEGAL_OPCODE. -/
def rowOf (k : Option Cluster) (f : Flds) : Option Row :=
  match f.op / 16 with
  | 0 => rowControl k f
  | 1 => rowInt k f
  | 2 => rowFloat k f
  | 3 => rowMem k f
  | 4 => rowOrder k f
  | 5 | 6 | 7 => rowSys k f
  | 8 => rowVec1 k f
  | 9 => if f.op < 0x97 then rowVec1 k f else rowVec2 k f
  | 10 => rowVec2 k f
  | 12 | 13 => rowAwn k f
  | _ => none

/-- The checks of R36 in their order. `ck` is the issuing cluster and whether its context is privileged; none asks only
whether the word is an instruction of some cluster and context. -/
def decodeFlds (ck : Option (Cluster × Bool)) (f : Flds) : Except DTrap Instr :=
  match rowOf (ck.map Prod.fst) f with
  | none => .error .opcode
  | some r =>
    if (match ck with | some (c, _) => !r.cl.mem c | none => false) then .error .cluster
    else if (match ck with | some (_, p) => r.priv && !p | none => false) then .error .privilege
    else if !r.m then .error .modifier
    else match r.v with
      | none => .error .operand
      | some i => .ok i

/-- Decodes a syllable, guard included (R22). -/
def decodeWith (ck : Option (Cluster × Bool)) (w : Nat) : Except DTrap Syl :=
  match decodeFlds ck (fldsOf w) with
  | .error t => .error t
  | .ok i => .ok ⟨bitN w 63, bitN w 62, Fin.ofNat 16 (fld w 58 4), i, if i = .safept then BitVec.ofNat 16 w else 0⟩

/-! ### Engine words (R41 to R43) -/

/-- The fields of an engine word. -/
structure EFlds where
  eop : Nat
  lvl : Nat
  fl : Nat
  rep : Nat
  deriving DecidableEq, Repr
def eFldsOf (w : Nat) : EFlds := ⟨fld w 40 8, fld w 36 4, fld w 16 20, fld w 0 16⟩
def packE (f : EFlds) : Nat := f.rep + 2 ^ 16 * (f.fl + 2 ^ 20 * (f.lvl + 2 ^ 4 * f.eop))
def five (x : Nat) : Fin 32 := Fin.ofNat 32 x
def chk (b : Bool) (i : Instr) : Option Instr := if b then some i else none
def b16 (x : Nat) : BitVec 16 := BitVec.ofNat 16 x

/-- Words of `me0` to `me3` (R227 to R233). -/
def decodeM (f : EFlds) : Option Instr :=
  match f.eop with
  | 0x01 => chk (decide (f.lvl < 2) && z [f.rep]) (.mPlane (f.lvl == 1) (BitVec.ofNat 20 f.fl))
  | 0x02 => match decEty (fld f.fl 13 4), decEty (fld f.fl 9 4) with
    | some a, some b => chk (z [f.lvl, f.rep, fld f.fl 0 6] && decide (fld f.fl 17 3 ≤ 4) && tyMat a && tyMat b)
        (.mShape (BitVec.ofNat 3 (fld f.fl 17 3)) a b (BitVec.ofNat 3 (fld f.fl 6 3)))
    | _, _ => none
  | 0x03 => match decFin 6 f.lvl with
    | some l => chk (z [fld f.fl 0 2]) (.mLvl l (sixBits (fld f.fl 14 6)) (sixBits (fld f.fl 8 6)) (sixBits (fld f.fl 2 6)) (b16 f.rep))
    | none => none
  | 0x04 => chk (decide (f.lvl < 2) && z [f.rep] && decide (f.fl < 32)) (.mStr (f.lvl == 1) (five f.fl))
  | 0x05 => match decFin 4 f.lvl with
    | some h => chk (z [f.rep] && decide (f.fl < 65536)) (.mScale h (b16 f.fl))
    | none => none
  | 0x06 => chk (z [f.lvl, f.rep, fld f.fl 0 14]) (.mTile (sixBits (fld f.fl 14 6)))
  | 0x07 => chk (z [f.lvl, f.rep, fld f.fl 0 13]) (.mRows (BitVec.ofNat 7 (fld f.fl 13 7)))
  | 0x08 => chk (z [f.lvl, f.fl, f.rep]) .mMark
  | 0x09 => chk (z [f.lvl, f.rep, fld f.fl 0 4]) (.mGo (BitVec.ofNat 12 (fld f.fl 8 12)) (bitN f.fl 7) (bitN f.fl 6) (bitN f.fl 5) (bitN f.fl 4))
  | 0x0A => match decEty (fld f.fl 10 4) with
    | some t => chk (z [f.lvl, fld f.fl 0 4] && tyDrain t && decide (1 ≤ f.rep) && decide (fld f.fl 14 6 + f.rep ≤ 64))
        (.mDrain (sixBits (fld f.fl 14 6)) t (five (fld f.fl 5 5)) (bitN f.fl 4) (b16 f.rep))
    | none => none
  | 0x0B => chk (z [f.lvl, fld f.fl 14 4]) (.mSig (bitN f.fl 19) (bitN f.fl 18) (sixBits (fld f.fl 8 6)) (BitVec.ofNat 8 f.fl) (b16 f.rep))
  | 0x0C => if bitN f.fl 19 then chk (z [f.lvl, fld f.fl 8 11]) (.mWait (.sg (BitVec.ofNat 8 f.fl) (b16 f.rep)))
      else chk (decide (f.lvl < 8) && z [f.fl, f.rep]) (.mWait (.tok (Fin.ofNat 8 f.lvl)))
  | _ => none

/-- Words of `ce0` to `ce3` (R252 to R255). -/
def decodeC (f : EFlds) : Option Instr :=
  match f.eop with
  | 0x41 => chk (z [f.lvl, f.rep, fld f.fl 0 3]) (.cSrc (five (fld f.fl 15 5)) (BitVec.ofNat 12 (fld f.fl 3 12)))
  | 0x42 => chk (z [f.lvl, f.rep, fld f.fl 0 3]) (.cDst (five (fld f.fl 15 5)) (BitVec.ofNat 12 (fld f.fl 3 12)))
  | 0x43 => match decFin 6 f.lvl with
    | some l => chk (!bitN f.fl 19 || f.rep == 0) (.cLvl l (bitN f.fl 19) (BitVec.ofNat 10 (fld f.fl 9 10)) (BitVec.ofNat 9 (fld f.fl 0 9)) (b16 f.rep))
    | none => none
  | 0x44 => chk (z [f.lvl, f.rep, fld f.fl 0 9]) (.cSwz (bitN f.fl 19) (BitVec.ofNat 2 (fld f.fl 17 2)) (BitVec.ofNat 3 (fld f.fl 14 3)) (BitVec.ofNat 5 (fld f.fl 9 5)))
  | 0x45 => chk (z [f.lvl, f.rep, fld f.fl 4 16] && decide (fld f.fl 0 2 ≠ 3) && decide (fld f.fl 2 2 ≠ 3))
      (.cBound (BitVec.ofNat 2 (fld f.fl 0 2)) (BitVec.ofNat 2 (fld f.fl 2 2)))
  | 0x46 => chk (z [f.lvl, f.rep, fld f.fl 8 12]) (.cTok (BitVec.ofNat 8 f.fl))
  | 0x47 => chk (z [f.lvl, fld f.fl 14 3]) (.cSig (bitN f.fl 19) (bitN f.fl 18) (bitN f.fl 17) (sixBits (fld f.fl 8 6)) (BitVec.ofNat 8 f.fl) (b16 f.rep))
  | 0x48 => if bitN f.fl 19 then chk (z [f.lvl, fld f.fl 8 11]) (.cWait (.sg (BitVec.ofNat 8 f.fl) (b16 f.rep)))
      else chk (z [f.lvl, fld f.fl 8 11, f.rep]) (.cWait (.tok (BitVec.ofNat 8 f.fl)))
  | 0x49 => chk (z [f.lvl, f.rep, fld f.fl 0 12]) (.cGo (sixBits (fld f.fl 14 6)) (bitN f.fl 13) (bitN f.fl 12))
  | _ => none

/-- The field G of a `th` word names a granary register 0 to 29 (R334). -/
def gOk (f : EFlds) : Bool := decide (fld f.fl 15 5 ≤ 29)
/-- Words of `th` (R344 to R348). -/
def decodeT (f : EFlds) : Option Instr :=
  match f.eop with
  | 0x81 => chk (z [fld f.fl 0 5] && gOk f && decide (fld f.fl 10 5 ≤ 30) && decide (1 ≤ f.rep) && decide (f.rep ≤ 4096))
      (.kAppend (BitVec.ofNat 4 f.lvl) (five (fld f.fl 15 5)) (five (fld f.fl 10 5)) (five (fld f.fl 5 5)) (b16 f.rep))
  | 0x82 => match f.lvl with
    | 0 => chk (z [fld f.fl 0 15] && gOk f) (.kPinTake (five (fld f.fl 15 5)) (b16 f.rep))
    | 1 => chk (z [fld f.fl 0 15] && gOk f) (.kPinRelease (five (fld f.fl 15 5)) (b16 f.rep))
    | _ => none
  | 0x83 => chk (gOk f && decide (fld f.fl 0 15 ≤ 16384)) (.tMerge (BitVec.ofNat 4 f.lvl) (five (fld f.fl 15 5)) (BitVec.ofNat 15 (fld f.fl 0 15)) (b16 f.rep))
  | 0x84 => chk (gOk f && !bitN f.fl 13) (.tRequant (BitVec.ofNat 4 f.lvl) (five (fld f.fl 15 5)) (bitN f.fl 14) (BitVec.ofNat 13 (fld f.fl 0 13)) (b16 f.rep))
  | 0x85 => chk (z [f.lvl, fld f.fl 14 4]) (.tStatus (bitN f.fl 19) (bitN f.fl 18) (sixBits (fld f.fl 8 6)) (BitVec.ofNat 8 f.fl) (b16 f.rep))
  | _ => none

/-- The engine word for queue number `q` (0 to 3 `me`, 4 to 7 `ce`, 8 `th`); none is EWORD_UNDEFINED (R44). -/
def decodeEng (q w : Nat) : Option Instr :=
  if q < 4 then decodeM (eFldsOf w) else if q < 8 then decodeC (eFldsOf w) else decodeT (eFldsOf w)
/-- The engine word, for the queue class its EOP belongs to. -/
def decodeEWord (w : Nat) : Option Instr :=
  if fld w 40 8 < 0x40 then decodeEng 0 w else if fld w 40 8 < 0x80 then decodeEng 4 w else decodeEng 8 w

/-- What the decoder reads from `w` in the table's numbering: a syllable of 64 bits or an engine word of 48. -/
def decodeTableWord (nbits w : Nat) : Option Instr :=
  if nbits = 64 then
    (match decodeWith none (w % 2 ^ 64) with
     | .ok s => some s.i
     | .error _ => none)
  else if nbits = 48 then decodeEWord (w % 2 ^ 48)
  else none

/-! ### The encoder -/

/-- C of the shifts and masks of a vector syllable: SAT, M and MASK, and C[9:0]. -/
def encC (sat : Bool) (m : VMask) (c : Nat) : Nat := b2n sat * 2 ^ 15 + encM m + c
def encBf (pos len1 : BitVec 6) : Nat := pos.toNat + 2 ^ 6 * len1.toNat
def encF2 (op d : Nat) (off : BitVec 26) : Flds := ⟨op, 0, d, 0, off.toNat / 2 ^ 16, off.toNat % 2 ^ 16⟩
def encAlu (fn : Nat) (d a b : SOp) : Flds := ⟨0x10, fn, encS d, encS a, encS b, 0⟩
def encAluI (fn : Nat) (d a : SOp) (i : BitVec 16) : Flds := ⟨0x11, fn, encS d, encS a, 0, i.toNat⟩
def encV3 (op fn : Nat) (sat : Bool) (m : VMask) (d a b : VOp) : Flds := ⟨op, fn, encV d, encV a, encV b, encC sat m 0⟩
def encV2 (op fn : Nat) (sat : Bool) (m : VMask) (d a : VOp) (c : Nat) : Flds := ⟨op, fn, encV d, encV a, 0, encC sat m c⟩
def encVI (op fn : Nat) (d a : VOp) (i : BitVec 16) : Flds := ⟨op, fn, encV d, encV a, 0, i.toNat⟩
def encAmo (op : Nat) (t : ATy) (s : Scope) (o : Ord) (d a b : SOp) : Flds :=
  ⟨op, encATy t, encS d, encS a, encS b, encScope s * 2 ^ 10 + encOrd o * 2 ^ 13⟩
def encSv (t : Ety) (rz : Bool) : Nat := encEty t + 2 ^ 4 * b2n rz
def encIx (x : XSrc) : Nat × Nat :=
  match x with
  | .reg r => (encS r, 0)
  | .imm n => (0, 2 ^ 15 + n.toNat)

/-- The fields of a syllable's instruction; none for engine words and steps of the device. -/
def encFlds : Instr → Option Flds
  | .nop => some ⟨0, 0, 0, 0, 0, 0⟩
  | .br off => some (encF2 1 0 off)
  | .brp off => some (encF2 2 0 off)
  | .brx a => some ⟨3, 0, 0, encS a, 0, 0⟩
  | .call d off => some (encF2 4 d.val off)
  | .ret a => some ⟨5, 0, 0, encS a, 0, 0⟩
  | .loop l a off => some ⟨6, l.val, 0, encS a, 0, off.toNat⟩
  | .rloop l n a off => some ⟨7, l.val, n.val, encS a, 0, off.toNat⟩
  | .exit => some ⟨8, 0, 0, 0, 0, 0⟩
  | .sync => some ⟨9, 0, 0, 0, 0, 0⟩
  | .safept => some ⟨0x0A, 0, 0, 0, 0, 0⟩
  | .ovl n mask => some ⟨0x0B, 0, 0, 0, 0, n.val + 2 ^ 4 * mask.toNat⟩
  | .sysrd d r => some ⟨0x0C, 0, encS d, 0, 0, r.toNat⟩
  | .syswr a r => some ⟨0x0D, 0, 0, encS a, 0, r.toNat⟩
  | .fwVersion d a => some ⟨0x0E, 0, encS d, encS a, 0, 0⟩
  | .fwForm d a => some ⟨0x0E, 0, encS d, encS a, 0, 1⟩
  | .fwPower d a => some ⟨0x0E, 0, encS d, encS a, 0, 2⟩
  | .fwGovernor d a => some ⟨0x0E, 0, encS d, encS a, 0, 3⟩
  | .fwPlat d a => some ⟨0x0E, 0, encS d, encS a, 0, 4⟩
  | .fwDebugPolicy d a => some ⟨0x0E, 0, encS d, encS a, 0, 5⟩
  | .fwPagerRequest d a => some ⟨0x0E, 0, encS d, encS a, 0, 6⟩
  | .fwUnknown d a svc => some ⟨0x0E, 0, encS d, encS a, 0, svc.toNat⟩
  | .idle => some ⟨0x0E, 1, 0, 0, 0, 0⟩
  | .trap a code => some ⟨0x0E, 2, 0, encS a, 0, code.toNat⟩
  | .eret => some ⟨0x0E, 3, 0, 0, 0, 0⟩
  | .eretSkip => some ⟨0x0E, 4, 0, 0, 0, 0⟩
  | .eretAbort => some ⟨0x0E, 5, 0, 0, 0, 0⟩
  | .add d a b => some (encAlu 0 d a b) | .sub d a b => some (encAlu 1 d a b) | .and d a b => some (encAlu 2 d a b)
  | .or d a b => some (encAlu 3 d a b) | .xor d a b => some (encAlu 4 d a b) | .andn d a b => some (encAlu 5 d a b)
  | .shl d a b => some (encAlu 6 d a b) | .shr d a b => some (encAlu 7 d a b) | .sra d a b => some (encAlu 8 d a b)
  | .rot d a b => some (encAlu 9 d a b) | .min d a b => some (encAlu 10 d a b) | .max d a b => some (encAlu 11 d a b)
  | .minu d a b => some (encAlu 12 d a b) | .maxu d a b => some (encAlu 13 d a b)
  | .addImm d a i => some (encAluI 0 d a i) | .subImm d a i => some (encAluI 1 d a i) | .andImm d a i => some (encAluI 2 d a i)
  | .orImm d a i => some (encAluI 3 d a i) | .xorImm d a i => some (encAluI 4 d a i) | .andnImm d a i => some (encAluI 5 d a i)
  | .shlImm d a i => some (encAluI 6 d a i) | .shrImm d a i => some (encAluI 7 d a i) | .sraImm d a i => some (encAluI 8 d a i)
  | .rotImm d a i => some (encAluI 9 d a i) | .minImm d a i => some (encAluI 10 d a i) | .maxImm d a i => some (encAluI 11 d a i)
  | .minuImm d a i => some (encAluI 12 d a i) | .maxuImm d a i => some (encAluI 13 d a i)
  | .mul d a b => some ⟨0x12, 0, encS d, encS a, encS b, 0⟩
  | .mulh d a b => some ⟨0x12, 1, encS d, encS a, encS b, 0⟩
  | .mulhu d a b => some ⟨0x12, 2, encS d, encS a, encS b, 0⟩
  | .div d a b => some ⟨0x12, 3, encS d, encS a, encS b, 0⟩
  | .divu d a b => some ⟨0x12, 4, encS d, encS a, encS b, 0⟩
  | .rem d a b => some ⟨0x12, 5, encS d, encS a, encS b, 0⟩
  | .remu d a b => some ⟨0x12, 6, encS d, encS a, encS b, 0⟩
  | .clz d a => some ⟨0x13, 0, encS d, encS a, 0, 0⟩
  | .popc d a => some ⟨0x13, 1, encS d, encS a, 0, 0⟩
  | .ctz d a => some ⟨0x13, 2, encS d, encS a, 0, 0⟩
  | .bfxS d a p l => some ⟨0x14, 0, encS d, encS a, 0, encBf p l⟩
  | .bfxU d a p l => some ⟨0x14, 1, encS d, encS a, 0, encBf p l⟩
  | .bfi d a p l => some ⟨0x15, 0, d.val, encS a, 0, encBf p l⟩
  | .li d i => some (encF2 0x16 (encS d) i)
  | .lih d c i => some ⟨0x17, c.val, d.val, 0, 0, i.toNat⟩
  | .cmpEq d a b => some ⟨0x18, 0, d.val, encS a, encS b, 0⟩
  | .cmpNe d a b => some ⟨0x18, 1, d.val, encS a, encS b, 0⟩
  | .cmpLt d a b => some ⟨0x18, 2, d.val, encS a, encS b, 0⟩
  | .cmpGe d a b => some ⟨0x18, 3, d.val, encS a, encS b, 0⟩
  | .cmpLtu d a b => some ⟨0x18, 4, d.val, encS a, encS b, 0⟩
  | .cmpGeu d a b => some ⟨0x18, 5, d.val, encS a, encS b, 0⟩
  | .cmpEqImm d a i => some ⟨0x19, 0, d.val, encS a, 0, i.toNat⟩
  | .cmpNeImm d a i => some ⟨0x19, 1, d.val, encS a, 0, i.toNat⟩
  | .cmpLtImm d a i => some ⟨0x19, 2, d.val, encS a, 0, i.toNat⟩
  | .cmpGeImm d a i => some ⟨0x19, 3, d.val, encS a, 0, i.toNat⟩
  | .cmpLtuImm d a i => some ⟨0x19, 4, d.val, encS a, 0, i.toNat⟩
  | .cmpGeuImm d a i => some ⟨0x19, 5, d.val, encS a, 0, i.toNat⟩
  | .sel d a b c neg => some ⟨0x1A, 0, encS d, encS a, encS b, c.val + 2 ^ 10 * b2n neg⟩
  | .fadd t d a b => some ⟨0x20, encFTy t, encS d, encS a, encS b, 0⟩
  | .fsub t d a b => some ⟨0x21, encFTy t, encS d, encS a, encS b, 0⟩
  | .fmul t d a b => some ⟨0x22, encFTy t, encS d, encS a, encS b, 0⟩
  | .fma t d a b c => some ⟨0x23, encFTy t, encS d, encS a, encS b, encS c⟩
  | .fmin t d a b => some ⟨0x24, encFTy t, encS d, encS a, encS b, 0⟩
  | .fmax t d a b => some ⟨0x25, encFTy t, encS d, encS a, encS b, 0⟩
  | .fcmp t c d a b => some ⟨0x26, encFTy t, d.val, encS a, encS b, 2 ^ 10 * encFCond c⟩
  | .fcvt t u rz d a => some ⟨0x27, encEty t, encS d, encS a, 0, 2 ^ 10 * encEty u + 2 ^ 14 * b2n rz⟩
  | .pand d a b => some ⟨0x28, 0, d.val, a.val, b.val, 0⟩
  | .por d a b => some ⟨0x28, 1, d.val, a.val, b.val, 0⟩
  | .pxor d a b => some ⟨0x28, 2, d.val, a.val, b.val, 0⟩
  | .pandn d a b => some ⟨0x28, 3, d.val, a.val, b.val, 0⟩
  | .pnot d a => some ⟨0x28, 4, d.val, a.val, 0, 0⟩
  | .pmov d a => some ⟨0x28, 5, d.val, a.val, 0, 0⟩
  | .ptox d => some ⟨0x29, 0, encS d, 0, 0, 0⟩
  | .xtop a => some ⟨0x29, 1, 0, encS a, 0, 0⟩
  | .ld t d a b off => some ⟨0x30, encEty t, encS d, encS a, encS b, off.toNat⟩
  | .st t d a b off => some ⟨0x31, encEty t, encS d, encS a, encS b, off.toNat⟩
  | .ldq t q a b off => some ⟨0x32, encEty t, 1008 + q.val, encS a, encS b, off.toNat⟩
  | .stq t q a b off => some ⟨0x33, encEty t, 1016 + q.val, encS a, encS b, off.toNat⟩
  | .lds t q n a off => some ⟨0x34, encEty t, 1008 + q.val, encS a, n.val, off.toNat⟩
  | .sts t q n a off => some ⟨0x35, encEty t, 1016 + q.val, encS a, n.val, off.toNat⟩
  | .gth t q n a off => some ⟨0x36, encEty t, 1008 + q.val, encS a, n.val, off.toNat⟩
  | .sct t q n a off => some ⟨0x37, encEty t, 1016 + q.val, encS a, n.val, off.toNat⟩
  | .pref a b off => some ⟨0x38, 0, 0, encS a, encS b, off.toNat⟩
  | .srset n a k => some ⟨0x39, 0, n.val, encS a, 0, k.val⟩
  | .srget d n k => some ⟨0x3A, 0, encS d, n.val, 0, k.val⟩
  | .qstat d q => some (match q with
      | .ic n => ⟨0x3B, 0, encS d, 1008 + n.val, 0, 0⟩
      | .eq n => ⟨0x3B, 0, encS d, n.val, 0, 1⟩)
  | .hpost n v => some ⟨0x3C, 0, n.val, 0, 0, v.toNat⟩
  | .htake n v => some ⟨0x3D, 0, n.val, 0, 0, v.toNat⟩
  | .push e a => some ⟨0x3E, 0, e.val, encS a, 0, 0⟩
  | .phase s rel acq => some ⟨0x40, encScope s, 0, 0, 0, 2 ^ 10 * b2n rel + 2 ^ 11 * b2n acq⟩
  | .amoAdd t s o d a b => some (encAmo 0x41 t s o d a b)
  | .amoMin t s o d a b => some (encAmo 0x42 t s o d a b)
  | .amoMax t s o d a b => some (encAmo 0x43 t s o d a b)
  | .amoAnd t s o d a b => some (encAmo 0x44 t s o d a b)
  | .amoOr t s o d a b => some (encAmo 0x45 t s o d a b)
  | .amoXor t s o d a b => some (encAmo 0x46 t s o d a b)
  | .amoSwap t s o d a b => some (encAmo 0x47 t s o d a b)
  | .cas t s o d a b c => some ⟨0x48, encATy t, encS d, encS a, encS b, encS c + encScope s * 2 ^ 10 + encOrd o * 2 ^ 13⟩
  | .waitm t c acq s d a b => some ⟨0x49, encATy t, encS d, encS a, encS b, encScope s * 2 ^ 10 + b2n acq * 2 ^ 13 + encMCond c * 2 ^ 14⟩
  | .mstat d sel => some ⟨0x50, 0, encS d, 0, 0, sel.toNat⟩
  | .waitk mask => some ⟨0x51, 0, 0, 0, 0, mask.toNat⟩
  | .tokq d => some ⟨0x52, 0, encS d, 0, 0, 0⟩
  | .pkt a b => some ⟨0x53, 0, 0, encS a, encS b, 0⟩
  | .kslot d a => some ⟨0x54, 0, encS d, encS a, 0, 0⟩
  | .rqopen d a b => some ⟨0x60, 0, encS d, encS a, encS b, 0⟩
  | .rqset a => some ⟨0x61, 0, 0, encS a, 0, 0⟩
  | .rqrow a b n1 => some ⟨0x62, 0, 0, encS a, encS b, n1.toNat⟩
  | .rqsets k a => some ⟨0x63, 0, 0, encS a, 0, 2 ^ 10 * b2n k⟩
  | .rqhalt d a => some ⟨0x64, 0, encS d, encS a, 0, 0⟩
  | .rqresume d a => some ⟨0x65, 0, encS d, encS a, 0, 0⟩
  | .rqcancel d a => some ⟨0x66, 0, encS d, encS a, 0, 0⟩
  | .rqcancelDrain d a => some ⟨0x66, 0, encS d, encS a, 0, 2 ^ 10⟩
  | .rqmeter d a sel => some ⟨0x67, 0, encS d, encS a, 0, sel.toNat⟩
  | .rqmark d a => some ⟨0x68, 0, encS d, encS a, 0, 0⟩
  | .rqstat d a => some ⟨0x69, 0, encS d, encS a, 0, 0⟩
  | .tlbinv a m p => some ⟨0x6A, 0, 0, encS a, 0, 2 ^ 10 * m.val + 2 ^ 12 * b2n p⟩
  | .tlbfill a b t => some ⟨0x6B, 0, 0, encS a, encS b, t.val⟩
  | .pgmap d a b => some ⟨0x6C, 0, encS d, encS a, encS b, 0⟩
  | .exqpost a => some ⟨0x6D, 0, 0, encS a, 0, 0⟩
  | .winnow d a => some ⟨0x6E, 0, encS d, encS a, 0, 0⟩
  | .leaveq d => some ⟨0x6F, 0, encS d, 0, 0, 0⟩
  | .sig o peer loc n a b => some ⟨0x70, 0, 0, encS a, encS b, n.toNat + 2 ^ 10 * encSig o + 2 ^ 12 * b2n peer + 2 ^ 13 * b2n loc⟩
  | .waits c d n b => some ⟨0x71, 0, encS d, 0, encS b, n.toNat + 2 ^ 10 * encSCond c⟩
  | .waitsPoll d n => some ⟨0x71, 0, encS d, 0, 0, n.toNat + 2 ^ 12⟩
  | .barCo => some ⟨0x72, 0, 0, 0, 0, 0⟩
  | .barDv b => some ⟨0x72, 0, 0, 0, 0, b.toNat + 2 ^ 10⟩
  | .bard b => some ⟨0x73, 0, 0, 0, 0, b.toNat⟩
  | .barsetAlloc d a b => some ⟨0x74, 0, encS d, encS a, encS b, 0⟩
  | .barsetSet d a b n => some ⟨0x74, 0, encS d, encS a, encS b, n.toNat + 2 ^ 10⟩
  | .barsetFree d n => some ⟨0x74, 0, encS d, 0, 0, n.toNat + 2 ^ 11⟩
  | .barsetQuery d n => some ⟨0x74, 0, encS d, 0, 0, n.toNat + 2 ^ 10 + 2 ^ 11⟩
  | .ulienOn a => some ⟨0x75, 0, 0, encS a, 0, 0⟩
  | .ulienOff => some ⟨0x75, 0, 0, 0, 0, 2 ^ 10⟩
  | .ulienWatch w n b c => some ⟨0x75, 0, w.toNat, 0, encS b, n.toNat + 2 ^ 8 * encSCond c + 2 ^ 11⟩
  | .ulienUnwatch w => some ⟨0x75, 0, w.toNat, 0, 0, 2 ^ 10 + 2 ^ 11⟩
  | .uliret => some ⟨0x76, 0, 0, 0, 0, 0⟩
  | .vadd t s m d a b => some (encV3 0x80 (encEty t) s m d a b)
  | .vsub t s m d a b => some (encV3 0x81 (encEty t) s m d a b)
  | .vmul t s m d a b => some (encV3 0x82 (encEty t) s m d a b)
  | .vfma t m d a b c => some ⟨0x83, encFTy t, encV d, encV a, encV b, encC false m (encV c)⟩
  | .vmin t m d a b => some (encV3 0x84 (encEty t) false m d a b)
  | .vmax t m d a b => some (encV3 0x85 (encEty t) false m d a b)
  | .vabs t s m d a => some (encV2 0x86 (encEty t) s m d a 0)
  | .vneg t s m d a => some (encV2 0x87 (encEty t) s m d a 0)
  | .vand t m d a b => some (encV3 0x88 (encEty t) false m d a b)
  | .vor t m d a b => some (encV3 0x89 (encEty t) false m d a b)
  | .vxor t m d a b => some (encV3 0x8A (encEty t) false m d a b)
  | .vandn t m d a b => some (encV3 0x8B (encEty t) false m d a b)
  | .vshl t m d a b => some (encV3 0x8C (encEty t) false m d a b)
  | .vshr t m d a b => some (encV3 0x8D (encEty t) false m d a b)
  | .vsra t m d a b => some (encV3 0x8E (encEty t) false m d a b)
  | .vmulh t m d a b => some (encV3 0x8F (encEty t) false m d a b)
  | .vaddImm t d a i => some (encVI 0x90 (encEty t) d a i)
  | .vsubImm t d a i => some (encVI 0x91 (encEty t) d a i)
  | .vmulImm t d a i => some (encVI 0x92 (encEty t) d a i)
  | .vminImm t d a i => some (encVI 0x93 (encEty t) d a i)
  | .vmaxImm t d a i => some (encVI 0x94 (encEty t) d a i)
  | .vbcast t m d a => some ⟨0x95, encEty t, encV d, encS a, 0, encC false m 0⟩
  | .vbcastImm t d i => some ⟨0x96, encEty t, encV d, 0, 0, i.toNat⟩
  | .vcmp t c m d a b => some ⟨0x97, encEty t, d.val, encV a, encV b, encC false m (encVCond c)⟩
  | .vsel t ms d a b => some ⟨0x98, encEty t, encV d, encV a, encV b, ms.val⟩
  | .vcvt t u rz m d a => some (encV2 0x99 (encEty t) false m d a (encSv u rz))
  | .vcvts t o blk d a b x => some ⟨0x9A, encEty t, encV d, encV a, encV b, encS x + 2 ^ 10 * blk.toNat + 2 ^ 13 * o.toNat⟩
  | .vwiden t u rz m d a => some (encV2 0x9B (encEty t) false m d a (encSv u rz))
  | .vnarrow t u rz m d a => some (encV2 0x9C (encEty t) false m d a (encSv u rz))
  | .vred t o m d a => some (encV2 0x9D (encEty t) false m d a (encRed o))
  | .vscan t o m d a => some (encV2 0x9E (encEty t) false m d a (encRed o))
  | .vperm t m d a b => some (encV3 0x9F (encEty t) false m d a b)
  | .vshuf t p m d a b => some ⟨0xA0, encEty t, encV d, encV a, encV b, encC false m (encPat p)⟩
  | .vxl t m d a b x => some ⟨0xA1, encEty t, encV d, encV a, encV b, encM m + encX x⟩
  | .vins t d a x => some ⟨0xA2, encEty t, d.val, encS a, (encIx x).1, (encIx x).2⟩
  | .vext t d a x => some ⟨0xA3, encEty t, encS d, encV a, (encIx x).1, (encIx x).2⟩
  | .vcompress t m d a => some (encV2 0xA4 (encEty t) false m d a 0)
  | .vexpand t m d a => some (encV2 0xA5 (encEty t) false m d a 0)
  | .vexp t m d a => some (encV2 0xA6 (encFTy t) false m d a 0)
  | .vln t m d a => some (encV2 0xA7 (encFTy t) false m d a 0)
  | .vrcp t m d a => some (encV2 0xA8 (encFTy t) false m d a 0)
  | .vrsq t m d a => some (encV2 0xA9 (encFTy t) false m d a 0)
  | .vsig t m d a => some (encV2 0xAA (encFTy t) false m d a 0)
  | .vlut t m d a b => some (encV3 0xAB (encEty t) false m d a b)
  | .vmov d a => some ⟨0xAC, 0, encV d, encV a, 0, 0⟩
  | .mand d a b => some ⟨0xAD, 0, d.val, a.val, b.val, 0⟩
  | .mor d a b => some ⟨0xAD, 1, d.val, a.val, b.val, 0⟩
  | .mxor d a b => some ⟨0xAD, 2, d.val, a.val, b.val, 0⟩
  | .mandn d a b => some ⟨0xAD, 3, d.val, a.val, b.val, 0⟩
  | .mnot d a => some ⟨0xAD, 4, d.val, a.val, 0, 0⟩
  | .mmov d a => some ⟨0xAD, 5, d.val, a.val, 0, 0⟩
  | .mpopc d a => some ⟨0xAE, 0, encS d, a.val, 0, 0⟩
  | .vnanscan t m d a => some ⟨0xAF, encEty t, encS d, encV a, 0, encC false m 0⟩
  | .dtload c a first n1 => some ⟨0xC0, 0, c.val, encV a, 0, first.val + 2 ^ 4 * n1.val⟩
  | .dtsave d c first n1 => some ⟨0xC6, 0, encV d, c.val, 0, first.val + 2 ^ 4 * n1.val⟩
  | .dtattrSet c a => some ⟨0xC1, 0, c.val, encS a, 0, 0⟩
  | .dtattrGet d c => some ⟨0xC1, 0, encS d, c.val, 0, 2 ^ 10⟩
  | .dtattrHnd a => some ⟨0xC1, 0, 0, encS a, 0, 2 ^ 11⟩
  | .dtattrRet => some ⟨0xC1, 0, 0, 0, 0, 2 ^ 10 + 2 ^ 11⟩
  | .dtx c v o d a b => some ⟨0xC2, 0, encV d, encV a, encV b, c.val + 2 ^ 2 * b2n v + 2 ^ 3 * o.val⟩
  | .dtmap c v o d a => some ⟨0xC3, 0, encV d, encV a, 0, c.val + 2 ^ 2 * b2n v + 2 ^ 3 * o.val⟩
  | .dtcmp c d a b => some ⟨0xC4, 0, d.val, encV a, encV b, c.val⟩
  | .dtvalI32 c d a => some ⟨0xC5, 0, encV d, encV a, 0, c.val⟩
  | .dtvalFp32 c d a => some ⟨0xC5, 0, encV d, encV a, 0, c.val + 2 ^ 2⟩
  | .mld tag d a b => some ⟨0xD0, 0, encS d, encS a, b.val, 2 ^ 10 * b2n tag⟩
  | .mst d a b => some ⟨0xD1, 0, encS d, encS a, encS b, 0⟩
  | .mcas d a b c => some ⟨0xD2, 0, encS d, encS a, encS b, encS c⟩
  | .mrepair d a b => some ⟨0xD3, 0, encS d, encS a, encS b, 0⟩
  | .sheafmap d a => some ⟨0xD4, 0, encS d, encS a, 0, 0⟩
  | _ => none

/-- The fields of an engine word; none for every other instruction. -/
def encE : Instr → Option EFlds
  | .mPlane p s => some ⟨0x01, b2n p, s.toNat, 0⟩
  | .mShape g a b k1 => some ⟨0x02, 0, 2 ^ 17 * g.toNat + 2 ^ 13 * encEty a + 2 ^ 9 * encEty b + 2 ^ 6 * k1.toNat, 0⟩
  | .mLvl l a b t n => some ⟨0x03, l.val, 2 ^ 14 * a.toNat + 2 ^ 8 * b.toNat + 2 ^ 2 * t.toNat, n.toNat⟩
  | .mStr b n => some ⟨0x04, b2n b, n.val, 0⟩
  | .mScale h v => some ⟨0x05, h.val, v.toNat, 0⟩
  | .mTile t => some ⟨0x06, 0, 2 ^ 14 * t.toNat, 0⟩
  | .mRows r => some ⟨0x07, 0, 2 ^ 13 * r.toNat, 0⟩
  | .mMark => some ⟨0x08, 0, 0, 0⟩
  | .mGo t acc rim bs pl => some ⟨0x09, 0, 2 ^ 8 * t.toNat + 2 ^ 7 * b2n acc + 2 ^ 6 * b2n rim + 2 ^ 5 * b2n bs + 2 ^ 4 * b2n pl, 0⟩
  | .mDrain t f n zero k => some ⟨0x0A, 0, 2 ^ 14 * t.toNat + 2 ^ 10 * encEty f + 2 ^ 5 * n.val + 2 ^ 4 * b2n zero, k.toNat⟩
  | .mSig add u core n v => some ⟨0x0B, 0, 2 ^ 19 * b2n add + 2 ^ 18 * b2n u + 2 ^ 8 * core.toNat + n.toNat, v.toNat⟩
  | .mWait w => some (match w with
      | .tok k => ⟨0x0C, k.val, 0, 0⟩
      | .sg n v => ⟨0x0C, 0, 2 ^ 19 + n.toNat, v.toNat⟩)
  | .cSrc n sl => some ⟨0x41, 0, 2 ^ 15 * n.val + 2 ^ 3 * sl.toNat, 0⟩
  | .cDst n sl => some ⟨0x42, 0, 2 ^ 15 * n.val + 2 ^ 3 * sl.toNat, 0⟩
  | .cLvl l dst s1 s2 n => some ⟨0x43, l.val, 2 ^ 19 * b2n dst + 2 ^ 9 * s1.toNat + s2.toNat, n.toNat⟩
  | .cSwz dst c w p => some ⟨0x44, 0, 2 ^ 19 * b2n dst + 2 ^ 17 * c.toNat + 2 ^ 14 * w.toNat + 2 ^ 9 * p.toNat, 0⟩
  | .cBound s d => some ⟨0x45, 0, s.toNat + 2 ^ 2 * d.toNat, 0⟩
  | .cTok h => some ⟨0x46, 0, h.toNat, 0⟩
  | .cSig add u peer core n v => some ⟨0x47, 0, 2 ^ 19 * b2n add + 2 ^ 18 * b2n u + 2 ^ 17 * b2n peer + 2 ^ 8 * core.toNat + n.toNat, v.toNat⟩
  | .cWait w => some (match w with
      | .tok k => ⟨0x48, 0, k.toNat, 0⟩
      | .sg n v => ⟨0x48, 0, 2 ^ 19 + n.toNat, v.toNat⟩)
  | .cGo r zf iset => some ⟨0x49, 0, 2 ^ 14 * r.toNat + 2 ^ 13 * b2n zf + 2 ^ 12 * b2n iset, 0⟩
  | .kAppend rg g m l n => some ⟨0x81, rg.toNat, 2 ^ 15 * g.val + 2 ^ 10 * m.val + 2 ^ 5 * l.val, n.toNat⟩
  | .kPinTake g s => some ⟨0x82, 0, 2 ^ 15 * g.val, s.toNat⟩
  | .kPinRelease g s => some ⟨0x82, 1, 2 ^ 15 * g.val, s.toNat⟩
  | .tMerge rg g c s => some ⟨0x83, rg.toNat, 2 ^ 15 * g.val + c.toNat, s.toNat⟩
  | .tRequant rg g f keep s => some ⟨0x84, rg.toNat, 2 ^ 15 * g.val + 2 ^ 14 * b2n f + keep.toNat, s.toNat⟩
  | .tStatus add u core n v => some ⟨0x85, 0, 2 ^ 19 * b2n add + 2 ^ 18 * b2n u + 2 ^ 8 * core.toNat + n.toNat, v.toNat⟩
  | _ => none

/-- The number of bits and the word of an instruction that has one, with S and N 0 and P 0. -/
def encode (i : Instr) : Option (Nat × Nat) :=
  match encFlds i with
  | some f => some (64, packSyl false false 0 f)
  | none =>
    match encE i with
    | some e => some (48, packE e)
    | none => none
/-- The word of a syllable. -/
def encodeSyl (s : Syl) : Option Nat :=
  match encFlds s.i with
  | some f => some (packSyl s.s s.n s.p.val (if s.i = .safept then ⟨f.op, f.fn, f.d, f.a, f.b, s.id.toNat⟩ else f))
  | none => none

end Sys2Proof
end

