-- ==== Sys2Proof/Machine/Link.lean ====
section
/-! DEFINITION. Sending packets over the Jexelm links (R247, R249, R250). -/

namespace Sys2Proof.Machine

/-- Flits of a packet of n granules (R247). -/
def flitsOf (granules : Nat) : Nat := cdiv (granules + 1) 4
def pktFlits (p : Packet) : Nat := flitsOf (p.data.length / 64)
/-- Answers: acknowledgment, read response, atomic response, fault return (R249). -/
def isAnswerOp (op : BitVec 8) : Bool := op == 3 || op == 6 || op == 7 || op == 9
/-- The link that the route table names for a device (R386). -/
def linkOf (s : State) (d : Nat) : Option Nat :=
  let r := sget 0 s.dev.route d
  if r.getLsbD 7 then some (r.toNat % 16) else none
/-- A packet that waits to leave. -/
def unsent (o : Out) : Bool := !o.sent && !o.retry && o.stop.isNone
/-- K goes on once its signal packet is sent for the first time (R258). -/
def letGo (o : Out) (s : State) : State :=
  match o.why with
  | .pkt k x _ _ _ => if o.again then s else modCtx s ⟨k, .K, x⟩ fun t => { t with peerWait := false }
  | _ => s
def markSent (s : State) (o : Out) : State :=
  letGo o { s with out := s.out.map fun x => if x = o then { x with sent := true } else x }
/-- A packet to the own id takes no link (R250). -/
def sendOwn (s : State) : State := (s.out.filter fun o => unsent o && o.p.dst == s.dev.mydev).foldl markSent s
/-- The packets that wait for a link, answers or requests. -/
def linkWaits (s : State) (l : Nat) (ans : Bool) : List Out :=
  s.out.filter fun o => unsent o && o.p.dst != s.dev.mydev && linkOf s o.p.dst.toNat == some l && isAnswerOp o.p.op == ans
/-- How far a core is behind the one served last, in the order of the round robin. -/
def turnOf (last : Nat) (o : Out) : Nat := (o.p.score.toNat + 127 - last) % 64
/-- The first packet of the core whose turn it is (R249). -/
def nextOut (last : Nat) : List Out → Option Out
  | [] => none
  | o :: os =>
    match nextOut last os with
    | some x => if turnOf last x < turnOf last o then some x else some o
    | none => some o
/-- Sends a packet over its link, on credits for all its flits (R249). -/
def sendOn (l : Nat) (s : State) (o : Out) : State :=
  let k := sget {} s.links l
  markSent { s with links := sput s.links l { k with used := k.used + pktFlits o.p, last := if isAnswerOp o.p.op then k.last else o.p.score.toNat } } o
/-- Serves a link: answers take any of its 64 credits and go first, requests take 56 and go round robin by core, one packet at a time; a
packet that waits for credits holds up those behind it (R249). -/
def serveLink (l : Nat) : Nat → State → State
  | 0, s => s
  | f + 1, s =>
    let k := sget {} s.links l
    match linkWaits s l true with
    | o :: _ => if k.used + pktFlits o.p ≤ 64 then serveLink l f (sendOn l s o) else s
    | [] =>
      match nextOut k.last (linkWaits s l false) with
      | some o => if k.used + pktFlits o.p ≤ 56 then serveLink l f (sendOn l s o) else s
      | none => s
/-- Sends what can leave now. -/
def trySend (s : State) : State :=
  if s.out.any unsent then (List.range 16).foldl (fun s l => serveLink l s.out.length s) (sendOwn s) else s
/-- The releases that a signal packet follows: those of K, or of the commands of its copy queue (R198, R254, R258). -/
def whyObs (s : State) : Why → List Obs
  | .pkt k x _ _ _ => [obsOf s (.cl k .K x)]
  | .csig k q _ _ => s.rels.filter fun e => match e.1 with
    | .cmd k' u i => k' == k && u == 2 && i % 16 == q
    | _ => false
  | _ => []
/-- Puts a packet among those to send. -/
def enqueue (s : State) (p : Packet) (why : Why) : State := trySend { s with out := s.out ++ [{ p := p, why := why, obs := whyObs s why }] }
/-- A request packet of a core for its partition, with the next transaction number. -/
def mkReq (s : State) (k part : Nat) (p : Packet) (ids : List Nat) : Packet :=
  { p with src := s.dev.mydev, part := BitVec.ofNat 4 part, score := BitVec.ofNat 6 k, xid := BitVec.ofNat 32 s.dev.nextXid
           iset := ids.map (BitVec.ofNat 16) }
def bumpXid (s : State) : State := modDev s fun d => { d with nextXid := d.nextXid + 1 }
def sendReq (s : State) (k part : Nat) (p : Packet) (ids : List Nat) (why : Why) : State :=
  enqueue (bumpXid s) (mkReq s k part p ids) why
/-- A request packet to a device outside the partition's device set is not sent: PAGE_FAULT of cause 3 is posted, and the packet stands
at its record (R158, R248, R258). -/
def sendOrFault (s : State) (k part : Nat) (p : Packet) (ids : List Nat) (why : Why) (r : FRec) : State :=
  if inSet s part p.dst.toNat then sendReq s k part p ids why
  else
    let (t, s1) := raise s { r with ty := .pageFault, cause := 3, who := .xid s.dev.nextXid }
    { bumpXid s1 with out := s1.out ++ [{ p := mkReq s k part p ids, why := why, stop := some t, obs := whyObs s why }] }
/-- A packet with nothing but its operation, target and offset. -/
def pktBase (op dst off : Nat) : Packet :=
  { op := BitVec.ofNat 8 op, dst := BitVec.ofNat 8 dst, src := 0, part := 0, score := 0, addr := BitVec.ofNat 48 off, len := 0, xid := 0
    iset := [], poison := 0, value := 0, opnd2 := 0, byteen := 0, data := [] }
/-- A read request of n granules, and a write of granules with the bytes of granule 0 that it enables (R247). -/
def pktRead (dst off n : Nat) : Packet := { pktBase 2 dst off with len := BitVec.ofNat 6 (n - 1) }
def pktWrite (dst off byteen : Nat) (data : List Byte) (poison : Nat) : Packet :=
  { pktBase 1 dst off with len := BitVec.ofNat 6 (data.length / 64 - 1), byteen := BitVec.ofNat 64 byteen, data := data, poison := BitVec.ofNat 64 poison }
/-- A signal packet (R247): word n of a core; operation 0 writes and 1 adds. -/
def pktSig (dst core n : Nat) (add : Bool) (v : Word) : Packet :=
  { pktBase (if add then 5 else 4) dst (256 * core + n) with value := v }
/-- The answer to a packet: the reverse direction, the same transaction (R247). -/
def pktAnswer (p : Packet) (op : Nat) : Packet := { pktBase op p.src.toNat 0 with src := p.dst, part := p.part, score := p.score, xid := p.xid }
/-- An answer is a packet too (R249). -/
def answer (s : State) (p : Packet) : State := enqueue s p .answer
/-- An unanswered access of a party (R159): a release at `.sy` waits for it. -/
def accessOut (s : State) (q : Party) : Bool :=
  s.out.any fun o => match o.why with
    | .access k c x _ _ _ _ _ _ => q == .cl k c x
    | _ => false
/-- A store of the party to the own id has not been performed yet: its packet has not arrived, is parked, or waits to go out again. Until it
has, the party's next access would not see its own latest write (R186, R250), and so it waits (DESIGN CHOICE, log 104). -/
def ownOut (s : State) (q : Party) : Bool :=
  s.out.any fun o => o.p.dst == s.dev.mydev && (!o.got || o.parked || o.retry) && (match o.why with
    | .access k c x _ _ _ _ _ _ => q == .cl k c x
    | _ => false)
/-- The 64-byte header of a packet (R247), with its integrity value, which the link layer makes and checks under the link key. -/
def pktHeader (p : Packet) (icv : BitVec 64) : Nat :=
  packFields ([(64, icv.toNat), (64, p.byteen.toNat), (64, p.opnd2.toNat), (64, p.value.toNat), (8, p.rsv.toNat), (8, p.op.toNat), (8, p.dst.toNat),
    (8, p.src.toNat), (4, p.part.toNat), (6, p.score.toNat), (6, p.len.toNat), (48, p.addr.toNat), (32, p.xid.toNat)] ++
    ((List.range 4).map fun i => (16, (p.iset.getD i 0).toNat)) ++ [(64, p.poison.toNat)])
/-- The bytes of a packet's flits: header, granules, and zeros to the end of the last flit (R247). -/
def pktBytes (p : Packet) (icv : BitVec 64) : List Byte :=
  bytesOf 64 (pktHeader p icv) ++ p.data ++ List.replicate (256 * pktFlits p - 64 - p.data.length) 0
/-- A receiver drops a flit whose header holds an undefined OP or a nonzero reserved field (R247). -/
def headerOk (p : Packet) : Bool := decide (1 ≤ p.op.toNat) && decide (p.op.toNat ≤ 9) && p.rsv == 0
/-- A release of a syllable's party at a level can complete (R159, R203). -/
def relReady (s : State) (q : Party) (lvl : Nat) : Bool := !(lvl == 5 && accessOut s q)

end Sys2Proof.Machine
end

