-- ==== Sys2Proof/Machine/Stream.lean ====
section
/-! DEFINITION. Stream registers: their fields, their check at use, addresses and swizzle (R169 to R172). -/

namespace Sys2Proof.Machine

/-- The fields of R169 as decoded. -/
structure SFld where
  base : Nat
  space : Nat
  fmt : Nat
  bnd : Bool
  swzc : Nat
  swzp : Nat
  swzw : Nat
  blk : Nat
  scstr : Nat
  scoff : Int
  s1 : Int
  s2 : Int
  sl : Int
  e1 : Nat
  e2 : Nat
  i1 : Nat
  i2 : Nat
  top : Bool
  deriving DecidableEq, Repr
/-- An extent of 0 means 262144. -/
def extent (n : Nat) : Nat := if n = 0 then 262144 else n
def sfld (r : SReg) : SFld :=
  let x := r.toNat
  ⟨fld x 0 48, fld x 48 2, fld x 50 4, bitN x 54, fld x 55 2, fld x 57 5, fld x 62 3, fld x 65 2, fld x 67 12, sint 32 (fld x 79 32),
    sint 24 (fld x 111 24), sint 24 (fld x 135 24), sint 24 (fld x 159 24), extent (fld x 183 18), extent (fld x 201 18),
    fld x 219 18, fld x 237 18, bitN x 255⟩
/-- The FN code of a type (R33). -/
def etyCode : Ety → Nat
  | .i8 => 0 | .n8 => 1 | .i16 => 2 | .n16 => 3 | .i32 => 4 | .n32 => 5 | .i4 => 6 | .n4 => 7 | .fp32 => 8 | .fp16 => 9 | .bf16 => 10
  | .tf8 => 11 | .tf6 => 12 | .i64 => 13 | .n64 => 14
/-- A swizzle setting satisfies R171 and R172 in a space. -/
def swzOk (c w p space : Nat) : Bool :=
  if c = 0 then w == 0 && p == 0
  else space == 0 && decide (1 ≤ w) && decide (c + 3 + w ≤ p) && decide (p + w ≤ 26)
/-- The check at use (R172) without FMT. -/
def streamOk (f : SFld) : Bool :=
  f.space != 3 && !f.top && f.base % 64 == 0 && decide (f.i1 < f.e1) && decide (f.i2 < f.e2) && swzOk f.swzc f.swzw f.swzp f.space
/-- The check of `lds`, `sts`, `gth` and `sct`: FMT is the syllable's type (R172). -/
def streamOkT (f : SFld) (t : Ety) : Bool := streamOk f && f.fmt == etyCode t
/-- The address of a step (R170). -/
def stepAddr (f : SFld) (slot i1 i2 : Int) : Int := (f.base : Int) + (slot * f.sl + i1 * f.s1 + i2 * f.s2) * 64
/-- Stream addresses are formed in 64-bit signed arithmetic (R170). -/
def addr64 (i : Int) : Int := (BitVec.ofInt 64 i).toInt
/-- The swizzled offset (R171); it acts on every byte of a chunk alike. -/
def swizzle (c w p a : Nat) : Nat := if c = 0 then a else a ^^^ ((a / 2 ^ p % 2 ^ w) * 2 ^ (c + 3))
/-- A step of an arena stream with BND at or past E1 reads zeros and writes nothing (R170). -/
def zeroStep (f : SFld) (i1 : Int) : Bool := f.space == 2 && f.bnd && decide ((f.e1 : Int) ≤ i1)
/-- The cursor after a step (R170). -/
def cursorNext (f : SFld) : Nat × Nat :=
  if f.i1 + 1 < f.e1 then (f.i1 + 1, f.i2) else (0, if f.i2 + 1 < f.e2 then f.i2 + 1 else 0)
def setCursor (r : SReg) (c : Nat × Nat) : SReg := BitVec.ofNat 256 (setFld (setFld r.toNat 219 18 c.1) 237 18 c.2)
/-- The scratchpad pieces of a range, chunk by chunk when a swizzle is in force. -/
def spadPieces (k c w p a n : Nat) : List (Space × Nat × Nat) :=
  if c = 0 then [(.spad k, a, n)]
  else (List.range (n / 2 ^ (c + 3))).map fun i => (.spad k, swizzle c w p (a + i * 2 ^ (c + 3)), 2 ^ (c + 3))

end Sys2Proof.Machine
end

