-- ==== Sys2Proof/Machine/Mem.lean ====
section
/-! DEFINITION. Loads and stores of K and A, stream registers, queue state, handoff counters and pushes (07). -/

namespace Sys2Proof.Machine

/-! ### Accesses of a cluster -/

def tlOf (a : At) : Tl := if a.c = .A then .a else if a.x = .pager then .kp else .k
def issuerOf (a : At) : Issuer := if a.c = .A then .a else .k
/-- ea := x[A] + x[B] + sext(C, 16) (R177). -/
def eaOf (u v : Word) (off : BitVec 16) : Nat := (u + v + immS off).toNat
/-- Checks and translates a range; on a fault the syllable traps at `s`, else it goes on from `t`. -/
def withPlace (a : At) (va n : Nat) (write : Bool) (s t : State) (go : State → Place → State) : State :=
  match resolve t a.k (tlOf a) (partyOf a) (partAt t a.k) (issuerOf a) va n write with
  | (_, .error f) => trapMem a f s
  | (s1, .ok p) => go s1 p
/-- Tags that an access takes: none in the own scratchpad or the control data memory (R175). -/
def tagsOf (k n : Nat) : Place → Nat
  | .home ps _ => if ps.all (fun p => decide (p.1 = .spad k) || decide (p.1 = .kdm k)) then 0 else cdiv n 64
  | .peer _ _ => cdiv n 64
/-- Tags that a packet holds for a cluster, or for the copy engine (none named), until its answer: one for each granule (R175). -/
def outTag (k : Nat) (c : Option Cluster) (o : Out) : Nat :=
  match o.why with
  | .access k' c' _ _ _ _ _ n _ => if k' = k ∧ c = some c' then cdiv n 64 else 0
  | .pkt k' _ _ _ _ => if k' = k ∧ c = some .K then 1 else 0
  | .copyRead k' _ | .copyWrite k' _ => if k' = k ∧ c = none then o.p.len.toNat + 1 else 0
  | _ => 0
def outTags (s : State) (k : Nat) (c : Option Cluster) : Nat := (s.out.map (outTag k c)).foldl (· + ·) 0
def walkTags (o : Core) (c : Cluster) : Nat := (o.walks.filter fun w => w.tag && (w.cache == 2) == (c == .A)).length
/-- Tags in use by K or A, by the copy engine, and by operand fetch (R175). -/
def tagsUsed (s : State) (a : At) : Nat :=
  (if a.c = .A then (coreAt s a.k).tagsA else (coreAt s a.k).tagsK) + outTags s a.k (some a.c) + walkTags (coreAt s a.k) a.c +
    (s.shOps.filter fun o => o.core == a.k && o.c == a.c && decide (o.phase < 4)).length
def copyTags (s : State) (k : Nat) : Nat := (coreAt s k).tagsC + outTags s k none
def fetchTags (s : State) (k : Nat) : Nat := (coreAt s k).tagsF
/-- The most tags that a requester may hold: its floor, and what the other two leave of the shared pool of 1024; the floors are 512 for A,
512 for the copy engine and 1024 for operand fetch (R175). -/
def tagCap (floor used1 floor1 used2 floor2 : Nat) : Nat := floor + (1024 - ((used1 - floor1) + (used2 - floor2)))
def tagLeft (s : State) (a : At) : Nat :=
  (if a.c = .A then tagCap 512 (copyTags s a.k) 512 (fetchTags s a.k) 1024 else 32) - tagsUsed s a
def copyLeft (s : State) (k : Nat) : Nat := tagCap 512 (tagsUsed s ⟨k, .A, .user⟩) 512 (fetchTags s k) 1024 - copyTags s k
def fetchLeft (s : State) (k : Nat) : Nat := tagCap 1024 (tagsUsed s ⟨k, .A, .user⟩) 512 (copyTags s k) 512 - fetchTags s k
/-- K or A has a tag for each of n granules. -/
def tagRoom (s : State) (a : At) (n : Nat) : Bool := n == 0 || decide (n ≤ tagLeft s a)
/-- The granules of pieces that take a tag of an engine: those outside the own scratchpad (R175). -/
def farGrans (k : Nat) (ps : List (Space × Nat × Nat)) : Nat := (ps.map fun p => if p.1 = .spad k then 0 else cdiv p.2.2 64).foldl (· + ·) 0
/-- An engine's run of n granules goes on when one tag is left, and then holds as many as it can; more granules than tags reuse them. -/
def holdCopyTags (k n : Nat) (s : State) : State := modCore s k fun o => { o with tagsC := o.tagsC + (if n < copyLeft s k then n else copyLeft s k) }
def holdFetchTags (k n : Nat) (s : State) : State := modCore s k fun o => { o with tagsF := o.tagsF + (if n < fetchLeft s k then n else fetchLeft s k) }
/-- A store holds its tags until its home acknowledges it. -/
def holdTags (a : At) (n : Nat) (s : State) : State :=
  modCore s a.k fun o => if a.c = .A then { o with tagsA := o.tagsA + n } else { o with tagsK := o.tagsK + n }
/-- No piece lies in the scratchpad of another core whose port takes no inbound write: its writer stalls (R298, R302). -/
def portFree (s : State) (k : Nat) (ps : List (Space × Nat × Nat)) : Bool :=
  ps.all fun p => match p.1 with
    | .spad c => c == k || !coreShut (coreAt s c)
    | _ => true
/-- The pieces of a place. -/
def piecesOf : Place → List (Space × Nat × Nat)
  | .home ps _ => ps
  | .peer _ _ => []
def meterIds (a : At) (ids : List Nat) (m n : Nat) (s : State) : State := meter s (partAt s a.k) ids m n

/-! ### Loaded errors (R176) -/

/-- What a poisoned element reads as: the NaN of class memory poison, the tf NaN, or zeros. -/
def poisonEl (t : Ety) (l : Loc) : Nat :=
  match etyF t with
  | some f => mkNan f 5 l
  | none => if t = .tf8 then tapNan false else if t = .tf6 then tapNan true else 0
/-- Which bytes of the pieces lie in poisoned granules. -/
def poisonFlags (s : State) (part : Nat) (ps : List (Space × Nat × Nat)) : List Bool :=
  ps.flatMap fun p => (List.range p.2.2).map fun i => poisoned s part p.1 (p.2.1 + i)
/-- Loaded bytes with the elements of poisoned granules replaced. -/
def fillPoison (t : Ety) (l : Loc) (bytes : List Byte) (bad : List Bool) : List Byte :=
  if bad.all (!·) then bytes
  else
    let w := etyW t
    let x := ofBytes bytes
    bytesOf bytes.length (buildN w (8 * bytes.length / w) fun i => if bad.getD (i * w / 8) false then poisonEl t l else elemN w x i)
/-- The type's errors are reported, not encoded: integers (R176). -/
def errInt (t : Ety) : Bool := etyInt t || etyNib t
/-- POISON_CONSUMED of a queue load: A stops after the syllable, not precisely (R176). -/
def lateAt (a : At) (r : FRec) (s : State) : State :=
  let (t, s1) := raise s { r with prec := false }
  modClu s1 a.k a.c fun u => { u with stop := some t }

/-! ### ld and st (R177) -/

/-- The queue that takes the answer of an access. -/
def destQ : PDest → List Nat
  | .scalar (.q n) _ => [sq n]
  | .vector q _ => [q]
  | _ => []
/-- The access reserves an entry of that queue until its answer (R109). -/
def reserveDest (a : At) (d : PDest) (s : State) : State := (destQ d).foldl (fun s q => modCore s a.k fun o => reserveQ o q a.x) s
/-- A request packet of an access through a peer window (R159, R247), with its answer expected. -/
def sendAccess (a : At) (p : Packet) (d : PDest) (ea n : Nat) (acq : Option Nat) (s : State) : State :=
  sendReq (reserveDest a d s) a.k (partAt s a.k) p (memIds s a)
    (.access a.k a.c a.x (pcOf s a) d ea (wordAt s a (pcOf s a)).toNat n acq)
/-- A store through a peer window is the party's own value of the phase (R191); with the own id as the peer, the packet's work fixes it at
its location. -/
def fixPeerOwn (a : At) (dv o : Nat) (bs : List Byte) (s : State) : State :=
  if dv = s.dev.mydev.toNat then s else fixPeer s (partyOf a) dv o bs
/-- A cluster that waits for a peer's data issues nothing (log entry 6). -/
def awaitPeer (a : At) (s : State) : State := modCtx s a fun t => { t with peerWait := true }
/-- The write packet of bytes within one granule (R247). -/
def granWrite (dv o : Nat) (bs : List Byte) : Packet :=
  let lo := o % 64
  pktWrite dv (o / 64 * 64) ((2 ^ bs.length - 1) * 2 ^ lo) (List.replicate lo 0 ++ bs ++ List.replicate (64 - lo - bs.length) 0) 0
def execLd (t : Ety) (d x y : SOp) (off : BitVec 16) (s : State) : Host.Outcome State Fault Refusal := onCl s fun a s =>
  needQ a (popsS [x, y]) (pushS d) (fun s =>
    let (u, t1) := takeS a x s
    let (v, t2) := takeS a y t1
    let ea := eaOf u v off
    let n := etyW t / 8
    if ea % n ≠ 0 then trapMem a ⟨.misaligned, 0, ea⟩ s
    else withPlace a ea n false s t2 fun s1 p =>
      if !tagRoom s1 a (tagsOf a.k n p) || ownOut s1 (partyOf a) then block a .other s
      else match p with
      | .peer dv o => awaitPeer a (retire a (sendAccess a (pktRead dv (o / 64 * 64) 1) (.scalar d t) ea n none s1))
      | .home ps _ =>
        let bad := piecesPoison s1 (partAt s1 a.k) ps
        if bad && errInt t then trapMem a ⟨.poisonConsumed, 0, ea⟩ s
        else
          let (bs, s2) := readPieces s1 (partyOf a) ps
          let e := if bad then poisonEl t (locOf s a) else ofBytes bs
          retire a (putS a d (regOfElem t e) (meterIds a (memIds s a) mRD n s2))) s
def execSt (t : Ety) (d x y : SOp) (off : BitVec 16) (s : State) : Host.Outcome State Fault Refusal := onCl s fun a s =>
  needQ a (popsS [x, y, d]) [] (fun s =>
    let (u, t1) := takeS a x s
    let (v, t2) := takeS a y t1
    let (z, t3) := takeS a d t2
    let ea := eaOf u v off
    let n := etyW t / 8
    let bs := bytesOf n z.toNat
    if ea % n ≠ 0 then trapMem a ⟨.misaligned, 0, ea⟩ s
    else withPlace a ea n true s t3 fun s1 p =>
      if !tagRoom s1 a (tagsOf a.k n p) || !portFree s1 a.k (piecesOf p) || ownOut s1 (partyOf a) then block a .other s
      else match p with
      | .peer dv o => retire a (fixPeerOwn a dv o bs (sendAccess a (granWrite dv o bs) .none ea n none s1))
      | .home ps least =>
        let s2 := writePieces s1 (partyOf a) (partAt s1 a.k) least ps bs
        retire a (holdTags a (tagsOf a.k n p) (meterIds a (memIds s a) mWR n s2))) s

/-! ### Vector loads and stores -/

/-- A vector load from places: the entry enters its queue, and an error in integer data is raised afterwards (R176, R178). -/
def loadEntry (a : At) (t : Ety) (q ea : Nat) (ps : List (Space × Nat × Nat)) (s : State) (done : State → State) : State :=
  let bad := poisonFlags s (partAt s a.k) ps
  let r := { clRec s a .poisonConsumed with addr := ea, rq := oneId (memIds s a) }
  let (bs, s1) := readPieces s (partyOf a) ps
  let e := BitVec.ofNat 4096 (ofBytes (fillPoison t (locOf s a) bs bad))
  let s2 := retire a (done (pushedV a q e (meterIds a (memIds s a) mRD 512 s1)))
  if errInt t && bad.any id then lateAt a r s2 else s2
/-- A vector store to places. -/
def storeEntry (a : At) (e : VReg) (p : Place) (ps : List (Space × Nat × Nat)) (least : Nat) (s : State) (done : State → State) : State :=
  let s1 := writePieces s (partyOf a) (partAt s a.k) least ps (bytesOf 512 e.toNat)
  retire a (done (holdTags a (tagsOf a.k 512 p) (meterIds a (memIds s a) mWR 512 s1)))
/-- Pops the entry that a store writes. -/
def takeEntry (a : At) (q : Nat) (s : State) : VReg × State := popV a q s
/-- The load of 512 bytes at a place, local or at a peer (log entry 6 for the peer's packet). -/
def vecLoad (a : At) (t : Ety) (q ea : Nat) (p : Place) (ps : List (Space × Nat × Nat)) (s s1 : State) (done : State → State) : State :=
  if !tagRoom s1 a (tagsOf a.k 512 p) || ownOut s1 (partyOf a) then block a .other s
  else match p with
  | .peer dv o => awaitPeer a (retire a (done (sendAccess a (pktRead dv o 8) (.vector q t) ea 512 none s1)))
  | .home _ _ => loadEntry a t q ea ps s1 done
def vecStore (a : At) (e : VReg) (ea : Nat) (p : Place) (ps : List (Space × Nat × Nat)) (s s1 : State) (done : State → State) : State :=
  if !tagRoom s1 a (tagsOf a.k 512 p) || !portFree s1 a.k ps || ownOut s1 (partyOf a) then block a .other s
  else match p with
  | .peer dv o =>
    let bs := bytesOf 512 e.toNat
    retire a (done (fixPeerOwn a dv o bs (sendAccess a (pktWrite dv o 0 bs 0) .none ea 512 none s1)))
  | .home _ least => storeEntry a e p ps least s1 done
def execLdq (t : Ety) (q : Fin 8) (x y : SOp) (off : BitVec 16) (s : State) : Host.Outcome State Fault Refusal := onCl s fun a s =>
  needQ a (popsS [x, y]) [q.val] (fun s =>
    let (u, t1) := takeS a x s
    let (v, t2) := takeS a y t1
    let ea := eaOf u v off
    if ea % 64 ≠ 0 then trapMem a ⟨.misaligned, 0, ea⟩ s
    else withPlace a ea 512 false s t2 fun s1 p => vecLoad a t q.val ea p (piecesOf p) s s1 id) s
def execStq (_t : Ety) (q : Fin 2) (x y : SOp) (off : BitVec 16) (s : State) : Host.Outcome State Fault Refusal := onCl s fun a s =>
  needQ a (popsS [x, y] ++ [8 + q.val]) [] (fun s =>
    let (u, t1) := takeS a x s
    let (v, t2) := takeS a y t1
    let (e, t3) := takeEntry a (8 + q.val) t2
    let ea := eaOf u v off
    if ea % 64 ≠ 0 then trapMem a ⟨.misaligned, 0, ea⟩ s
    else withPlace a ea 512 true s t3 fun s1 p => vecStore a e ea p (piecesOf p) s s1 id) s

/-! ### Streams (R170, R179, R180) -/

/-- Where a step goes: the scratchpad chunk by chunk, or an address of R157 outside the core-local regions. -/
def stepPlace (a : At) (f : SFld) (addr : Int) (write : Bool) (s t : State) (go : State → Place → State) : State :=
  if addr < 0 ∨ (2 ^ 48 - 512 : Int) < addr then trapMem a ⟨.addrUnmapped, 0, wrapN 64 addr⟩ s
  else
    let va := addr.toNat
    if f.space = 0 then
      (if 0x2200000 < va + 512 then trapMem a ⟨.spadRange, 0, va⟩ s
       else go t (.home (spadPieces a.k f.swzc f.swzw f.swzp va 512) 0))
    else if regionOf (va + 511) = .spad ∨ regionOf (va + 511) = .kdm then trapMem a ⟨.addrUnmapped, 0, va⟩ s
    else withPlace a va 512 write s t go
/-- The checks before a stream access: R172, then the offset (R179). -/
def streamTrap (f : SFld) (t : Ety) (off : BitVec 16) : Option FT :=
  if !streamOkT f t then some .streamInvalid
  else if off.toNat % 64 ≠ 0 then some .misaligned
  else none
/-- The prefetched steps of a register, in the order of its stream (R174). A step that is executed takes the first of them away, whether
or not it uses it; a register that A writes has none (log entry 3). -/
def preHead (o : Core) (n : Nat) : Option PStep := o.pre.find? fun p => p.sr == n
def preDrop (k n : Nat) (s : State) : State := modCore s k fun o => { o with pre := o.pre.eraseP fun p => p.sr == n }
def preVoid (k n : Nat) (s : State) : State := modCore s k fun o => { o with pre := o.pre.filter fun p => p.sr != n }
/-- The prefetched step that a load at an address takes. -/
def preAt (o : Core) (n : Nat) (addr : Int) : Option PStep := (preHead o n).filter fun p => decide ((p.addr : Int) = addr)
/-- A load of a step that was read at the launch: what was read then enters the queue, errors included (R174, R176). -/
def preEntry (a : At) (t : Ety) (q : Nat) (p : PStep) (s : State) (done : State → State) : State :=
  let r := { clRec s a .poisonConsumed with addr := p.addr, rq := oneId (memIds s a) }
  let e := BitVec.ofNat 4096 (ofBytes (fillPoison t (locOf s a) p.bytes p.bad))
  let s1 := retire a (done (pushedV a q e (meterIds a (memIds s a) mRD 512 s)))
  if errInt t && p.bad.any id then lateAt a r s1 else s1
/-- Moves the cursor of a stream register one step on. -/
def stepCursor (a : At) (n : Nat) (s : State) : State :=
  preDrop a.k n (setSR s a.k n (setCursor (getSR s a.k n) (cursorNext (sfld (getSR s a.k n)))))
def execLds (t : Ety) (q : Fin 8) (n : Fin 32) (x : SOp) (off : BitVec 16) (s : State) : Host.Outcome State Fault Refusal := onCl s fun a s =>
  needQ a (popsS [x]) [q.val] (fun s =>
    let f := sfld (getSR s a.k n.val)
    match streamTrap f t off with
    | some ty => trapMem a ⟨ty, 0, 0⟩ s
    | none =>
      let (u, t1) := takeS a x s
      if zeroStep f f.i1 then retire a (stepCursor a n.val (pushedV a q.val 0 t1))
      else
        let addr := addr64 (stepAddr f u.toInt f.i1 f.i2 + off.toInt)
        match preAt (coreAt s a.k) n.val addr with
        | some p => preEntry a t q.val p t1 (stepCursor a n.val)
        | none => stepPlace a f addr false s t1 fun s1 p => vecLoad a t q.val addr.toNat p (piecesOf p) s s1 (stepCursor a n.val)) s
def execSts (t : Ety) (q : Fin 2) (n : Fin 32) (x : SOp) (off : BitVec 16) (s : State) : Host.Outcome State Fault Refusal := onCl s fun a s =>
  needQ a (popsS [x] ++ [8 + q.val]) [] (fun s =>
    let f := sfld (getSR s a.k n.val)
    match streamTrap f t off with
    | some ty => trapMem a ⟨ty, 0, 0⟩ s
    | none =>
      let (u, t1) := takeS a x s
      let (e, t2) := takeEntry a (8 + q.val) t1
      if zeroStep f f.i1 then retire a (stepCursor a n.val t2)
      else
        let addr := addr64 (stepAddr f u.toInt f.i1 f.i2 + off.toInt)
        stepPlace a f addr true s t2 fun s1 p => vecStore a e addr.toNat p (piecesOf p) s s1 (stepCursor a n.val)) s
/-- An index out of bounds with BND set (R180). -/
def idxOut (f : SFld) (idx : Int) : Bool := f.bnd && (decide (idx < 0) || decide ((f.e1 : Int) ≤ idx))
/-- The row address of R180. -/
def rowAddr (f : SFld) (idx : Int) (off : BitVec 16) : Int := addr64 ((f.base : Int) + idx * f.s1 * 64 + off.toInt)
/-- The index source is `x1` to `x63` or `q12` (the entries of `gth` and `sct`); `x0` is no operand of theirs (log entry 49). -/
def execGth (t : Ety) (q : Fin 8) (n : Fin 32) (x : SOp) (off : BitVec 16) (s : State) : Host.Outcome State Fault Refusal := onCl s fun a s =>
  if x = .x 0 then trapTy a .illegalOperand s
  else needQ a (popsS [x]) [q.val] (fun s =>
    let f := sfld (getSR s a.k n.val)
    match streamTrap f t off with
    | some ty => trapMem a ⟨ty, 0, 0⟩ s
    | none =>
      let (u, t1) := takeS a x s
      if idxOut f u.toInt then retire a (pushedV a q.val 0 t1)
      else
        let addr := rowAddr f u.toInt off
        stepPlace a f addr false s t1 fun s1 p => vecLoad a t q.val addr.toNat p (piecesOf p) s s1 id) s
def execSct (t : Ety) (q : Fin 2) (n : Fin 32) (x : SOp) (off : BitVec 16) (s : State) : Host.Outcome State Fault Refusal := onCl s fun a s =>
  if x = .x 0 then trapTy a .illegalOperand s
  else needQ a (popsS [x] ++ [8 + q.val]) [] (fun s =>
    let f := sfld (getSR s a.k n.val)
    match streamTrap f t off with
    | some ty => trapMem a ⟨ty, 0, 0⟩ s
    | none =>
      let (u, t1) := takeS a x s
      let (e, t2) := takeEntry a (8 + q.val) t1
      if idxOut f u.toInt then retire a t2
      else
        let addr := rowAddr f u.toInt off
        stepPlace a f addr true s t2 fun s1 p => vecStore a e addr.toNat p (piecesOf p) s s1 id) s

/-! ### pref, stream registers, queue state -/

def tlCode : Tl → Nat
  | .k => 0 | .kp => 1 | .a => 2 | .m => 3 | .c => 4 | .none => 5
/-- `pref` (R181): a translated address that its cache misses is walked, under one tag; any other address is dropped. -/
def execPref (x y : SOp) (off : BitVec 16) (s : State) : Host.Outcome State Fault Refusal := onCl s fun a s =>
  needQ a (popsS [x, y]) [] (fun s =>
    let (u, t1) := takeS a x s
    let (v, t2) := takeS a y t1
    let ea := eaOf u v off
    let part := partAt s a.k
    if !tagRoom s a 1 then block a .other s
    else if (regionOf ea = .user ∨ regionOf ea = .host) ∧ !((tlGet (coreAt s a.k) (tlOf a)).any (hits (tlOf a) part ea)) then
      retire a (modCore t2 a.k fun o => { o with walks := o.walks ++ [⟨tlCode (tlOf a), part, ea, true⟩] })
    else retire a t2) s
/-- Chunk `k` of a stream register as it reads (R182): bit 255 is reserved and reads as zero (R8). What `srset` wrote there is held, since a
use raises STREAM_INVALID for it (R172). -/
def srChunk (r : SReg) (k : Nat) : Word := BitVec.ofNat 64 (fld r.toNat (64 * k) (if k = 3 then 63 else 64))
def execSrset (n : Fin 32) (x : SOp) (k : Fin 4) (s : State) : Host.Outcome State Fault Refusal := onCl s fun a s =>
  needQ a (popsS [x]) [] (fun s =>
    let (u, s1) := takeS a x s
    retire a (preVoid a.k n.val (setSR s1 a.k n.val (BitVec.ofNat 256 (setFld (getSR s1 a.k n.val).toNat (64 * k.val) 64 u.toNat))))) s
def execSrget (d : SOp) (n : Fin 32) (k : Fin 4) (s : State) : Host.Outcome State Fault Refusal := onCl s fun a s =>
  needQ a [] (pushS d) (fun s => retire a (putS a d (srChunk (getSR s a.k n.val) k.val) s)) s
/-- The directions of R149: consumers and producers of a queue. -/
def isCons (c : Cluster) (q : Nat) : Bool :=
  if q < 4 ∨ q = 11 then c == .X0 else if q < 8 ∨ q = 10 then c == .X1 else if q = 8 ∨ q = 9 ∨ q = 12 then c == .A
  else if q = 13 then isX c else c == .K
def isProd (c : Cluster) (q : Nat) : Bool :=
  if q < 8 ∨ q = 14 then c == .A else if q = 8 ∨ q = 10 then c == .X0 else if q = 9 ∨ q = 11 then c == .X1
  else if q = 15 then isX c else c == .K
/-- The layout of R183. -/
def qstatWord (s : State) (a : At) : QRef → Nat
  | .ic n =>
    let o := coreAt s a.k
    packFields [(8, qHeld o a.c n.val), (8, qFree o n.val), (1, b2n (isProd a.c n.val)), (1, b2n (isCons a.c n.val))]
  | .eq n =>
    let h := (eqAt (coreAt s a.k) n.val).words.length
    packFields [(8, h), (8, 64 - h), (1, 1), (1, 0)]
def execQstat (d : SOp) (q : QRef) (s : State) : Host.Outcome State Fault Refusal := onCl s fun a s =>
  needQ a [] (pushS d) (fun s => retire a (putS a d (BitVec.ofNat 64 (qstatWord s a q)) s)) s

/-! ### Handoff counters (R152, R153, R184) -/

def hcAt (o : Core) (n : Nat) : Nat := (sget 0 o.hc n).toNat
/-- Adds to a per-clk amount of a lockstep run. -/
def noteClk (o : Core) (m : Sparse Nat) (n v : Nat) : Sparse Nat := if o.runClk then sset 0 m n (sget 0 m n + v) else m
/-- A post leaves its write with the counter, and a take observes those that it holds (R190). -/
def execHpost (n : Fin 8) (v : BitVec 8) (s : State) : Host.Outcome State Fault Refusal := onCl s fun a s =>
  let o := coreAt s a.k
  if v = 0 then trapTy a .illegalOperand s
  else if 255 < hcAt o n.val + sget 0 o.hcTook n.val + v.toNat then block a .other s
  else
    let s1 := release s (partyOf a) 2
    retire a (modCore s1 a.k fun o =>
      { o with hc := sset 0 o.hc n.val (sget 0 o.hc n.val + v), hcPost := noteClk o o.hcPost n.val v.toNat
               hcObs := sset [] o.hcObs n.val (addObs (sget [] o.hcObs n.val) (obsOf s1 (partyOf a))) })
def execHtake (n : Fin 8) (v : BitVec 8) (s : State) : Host.Outcome State Fault Refusal := onCl s fun a s =>
  let o := coreAt s a.k
  if v = 0 then trapTy a .illegalOperand s
  else if hcAt o n.val < sget 0 o.hcPost n.val + v.toNat then block a .other s
  else
    let s1 := acquire (observeAll (partyOf a) s (sget [] o.hcObs n.val)) (partyOf a) 2
    retire a (modCore s1 a.k fun o => { o with hc := sset 0 o.hc n.val (sget 0 o.hc n.val - v), hcTook := noteClk o o.hcTook n.val v.toNat })

/-! ### push (R42, R154, R185) -/

/-- The level at which a push releases: the core, the device for `th`. -/
def pushLvl (e : Nat) : Nat := if e = 8 then 4 else 2
/-- The word as it enters its queue: K's `rqi`, the point that the gleaner has reached, the row identity map of an `m.go`, the identity set of a `c.go` with
ISET. -/
def mkQWord (s : State) (a : At) (e : Nat) (w : BitVec 48) : QWord :=
  let ks := (coreAt s a.k).ks
  let eop := fld w.toNat 40 8
  { w := w, g := some w, fwPushed := privileged a, rqi := rqiOf s a, seq := (coreAt s a.k).eng.pushSeq, point := (coreAt s a.k).gl.now
    idMap := if e < 4 ∧ eop = 0x09 then (List.range 128).map (fun i => (slook ks.idMap i).getD ks.idDef) else []
    idSet := if 4 ≤ e ∧ e < 8 ∧ eop = 0x49 ∧ bitN w.toNat 28 then ks.idSet else []
    obs := addObs [] (obsOf s (partyOf a)) }
def execPush (e : Fin 9) (x : SOp) (s : State) : Host.Outcome State Fault Refusal := onCl s fun a s =>
  needQ a (popsS [x]) [] (fun s =>
    let (u, s1) := takeS a x s
    if u.toNat / 2 ^ 48 ≠ 0 then trapTy a .illegalOperand s
    else if 64 ≤ (eqAt (coreAt s a.k) e.val).words.length then block a .other s
    else
      let s2 := release s1 (partyOf a) (pushLvl e.val)
      let w := mkQWord s2 a e.val (u.setWidth 48)
      retire a (modEng (modEQ s2 a.k e.val fun q => { q with words := q.words ++ [w] }) a.k fun g => { g with pushSeq := g.pushSeq + 1 })) s

end Sys2Proof.Machine
end

