-- ==== Sys2Proof/Machine/Engine.lean ====
section
/-! DEFINITION. What the engine queues share: their heads, the retained window, the records and the parties of engine commands, the
places that engines address, halted identities, and the signal words that engines write (R44, R154, R187, R196 to R198, R214, R218,
R219, R241). -/

namespace Sys2Proof.Machine

/-! ### Heads and the retained window (R44, R154) -/

def headOf (s : State) (k q : Nat) : Option QWord := (eqAt (coreAt s k) q).words.head?
/-- The gleaner's word agrees (R44); words of the pager and of firmware are not compared (R297). -/
def gleanOk (w : QWord) : Bool := w.fwPushed || w.g == some w.w
/-- What the gleaner copies of K (R297). -/
def kCopy (o : Core) : GCopy :=
  let t := o.k.ctx
  { x := t.x, p := t.p, sp := o.k.xs.sp, pc := t.pc, lv := t.lv, order := t.order, rotN := t.rotN, rotStarted := t.rotStarted, rqi := o.k.rqi
    idMap := o.ks.idMap, idDef := o.ks.idDef, idSet := o.ks.idSet, setk := o.ks.setk, uli := o.ks.uliActive, uliRet := o.ks.uliRet }
/-- K with a copy in the place of its own registers. -/
def setCopy (c : GCopy) (o : Core) : Core :=
  { o with
    k := { o.k with ctx := { o.k.ctx with x := c.x, p := c.p, pc := c.pc, lv := c.lv, order := c.order, rotN := c.rotN, rotStarted := c.rotStarted }
                    xs := { o.k.xs with sp := c.sp }, rqi := c.rqi }
    ks := { o.ks with idMap := c.idMap, idDef := c.idDef, idSet := c.idSet, setk := c.setk, uliActive := c.uli, uliRet := c.uliRet } }
/-- The gleaner takes its state from K's at a launch or a resume, which is the checkpoint of the words that follow (R297, R301). -/
def loadGlean (o : Core) : Glean :=
  let p := { o.gl.now with copy := kCopy o }
  { now := p, seen := kCopy o, first := p }
/-- An overlay writes K's instruction memory: what stood there is kept, so that syllables executed before can be executed again. -/
def keepCode (o : Core) (base len : Nat) : Core :=
  { o with gl := { o.gl with code := o.gl.code ++ [⟨o.gl.now.n, base, (List.range len).map fun i => sget 0 o.k.imem (base + i)⟩] } }
/-- The last 64 entries. -/
def last64 {α : Type} (l : List α) : List α := l.drop (l.length - 64)
/-- Takes the head word away without issuing it. -/
def dropHead (k q : Nat) (s : State) : State := modEQ s k q fun e => { e with words := e.words.tail }
/-- The head word issues: it leaves the queue and enters the window (R154). -/
def issueHead (k q : Nat) (op : Option MOp) (s : State) : State :=
  modEQ s k q fun e => match e.words with
    | w :: ws => { e with words := ws, window := last64 (e.window ++ [⟨w, op⟩]), since := if 255 ≤ e.since then 255 else e.since + 1
                          issued := e.issued + 1 }
    | [] => e
/-- The word that issued last becomes the governing marker of the words after it, with the gleaner's checkpoint of its push (R224, R231,
R297). -/
def setMarker (k q : Nat) (s : State) : State :=
  modEQ s k q fun e =>
    { e with since := 0, markId := (coreAt s k).eng.nextId, markNo := e.issued, mark := (e.window.getLast?.map fun x => some x.word.point).getD e.mark }
/-- Word `no` of the queue, or all words since launch or resume for number 0, are still in the retained window (R224, R297). -/
def inWindow (e : EQ) (no : Nat) : Bool := decide (e.issued < (if no = 0 then 1 else no) + e.window.length)
/-- A new number for an operation or a command, from 1. -/
def newId (k : Nat) (s : State) : Nat × State :=
  ((coreAt s k).eng.nextId + 1, modEng s k fun e => { e with nextId := e.nextId + 1 })

/-! ### Parties of the engines (R186, R196) -/

/-- Units of R288. -/
def uMatrix : Nat := 1
def uCopy : Nat := 2
def uThresher : Nat := 3
/-- The party of command `id` of queue `q`; the party of the queue itself has `id` 0. -/
def cmdParty (k unit q id : Nat) : Party := .cmd k unit (16 * id + q)
def ofQueue (k unit q : Nat) : Party → Bool
  | .cmd k' u i => k' == k && u == unit && i % 16 == q
  | _ => false
def ofCore (k : Nat) : Party → Bool
  | .cmd k' _ _ => k' == k
  | _ => false
/-- The parties that an engine's stores and requirements name, among those of a test. -/
def partiesIn (s : State) (ok : Party → Bool) : List Party := ((s.pend.flatMap fun w => w.who :: w.req).filter ok).eraseDups
/-- What is required for one party becomes required for another: its command or its queue (R190, R196, R333). -/
def inherit (s : State) (p q : Party) : State :=
  { s with pend := s.pend.map fun w => if w.req.contains p && w.who != q && !w.req.contains q then { w with req := w.req ++ [q] } else w }
/-- The stores of a set of commands become required for a party that has waited for their completion (R327). -/
def requireOf (s : State) (q : Party) (ok : Party → Bool) : State :=
  { s with pend := s.pend.map fun w => if ok w.who && !w.req.contains q then { w with req := w.req ++ [q] } else w }
/-- A command starts: it acquires what the push released and what its queue's waits acquired. -/
def startParty (s : State) (k unit q id : Nat) (obs : List Obs) : State :=
  inherit (acquire (observeAll (cmdParty k unit q id) s obs) (cmdParty k unit q id) 2) (cmdParty k unit q 0) (cmdParty k unit q id)
/-- The party wrote through the host window: its unpublished stores reach a release at `.sy` alone (R197, R198). -/
def wroteSys (s : State) (ok : Party → Bool) : Bool := s.pend.any fun w => ok w.who && w.lvl == 0 && w.least == 5
/-- The release of the writes of a set of engine commands (R198). -/
def releaseParties (s : State) (ok : Party → Bool) (lvl : Nat) : State := (partiesIn s ok).foldl (fun s q => release s q lvl) s

/-- The last releases of a set of commands, as an observer of what they wrote next sees them. -/
def cmdObs (s : State) (ok : Party → Bool) : List Obs := s.rels.filter fun e => ok e.1
/-- The commands that held and released the tokens of a mask (R196). -/
def tokensObs (o : Core) (m : BitVec 8) : List Obs := (List.range 8).flatMap fun i => if m.getLsbD i then sget [] o.eng.tokObs i else []
/-- A wait of an engine queue on tokens is over (R196, R333). -/
def tokAcquire (k unit q : Nat) (m : BitVec 8) (s : State) : State :=
  acquire (observeAll (cmdParty k unit q 0) s (tokensObs (coreAt s k) m)) (cmdParty k unit q 0) 2
/-- A wait of an engine queue on a signal word is over (R198, R333). -/
def sgAcquire (k unit q n : Nat) (s : State) : State :=
  acquire (observeAll (cmdParty k unit q 0) s (sget [] (coreAt s k).sgObs n)) (cmdParty k unit q 0) 5

/-! ### Halted identities (R221, R245, R267) -/

/-- The distinct nonzero identities of a list. -/
def realIds (ids : List Nat) : List Nat := (ids.filter (· != 0)).eraseDups
/-- Every identity belongs to a request under a halt's effects. -/
def allStopped (s : State) (part : Nat) (ids : List Nat) : Bool := !ids.isEmpty && ids.all fun i => rqStopped s part i
/-- Every identity belongs to a request that is being cancelled. -/
def allCancelled (s : State) (part : Nat) (ids : List Nat) : Bool :=
  !ids.isEmpty && ids.all fun i => rqLive s part i && decide ((rqAt s i).st = .cancelling)
/-- Parks the head word, with the copy of its queue's shadow, or discards it when its identities are being cancelled (R221, R245,
R269). -/
def parkHead (k q : Nat) (cancelled : Bool) (f : QWord → QWord) (s : State) : State :=
  modEQ s k q fun e => match e.words with
    | w :: ws => { e with words := ws, parked := if cancelled then e.parked else e.parked ++ [f w] }
    | [] => e

/-! ### Records (R226, R241, R288, R289) -/

/-- The locator of R71: the low ten bits of WHERE. -/
def locWhere (unit low : Nat) : Nat := packFields [(6, low), (2, unit - 1), (2, 3)]
def engLoc (k unit low : Nat) : Loc := ⟨k, 0, locWhere unit low⟩
/-- AUX0 and AUX1 of an engine fault: nest indices and side (R289). -/
def nestAux (ls : List Nat) (side : Nat) : Nat × Nat :=
  (packFields ((ls.take 4).map fun l => (16, l)), packFields [(16, ls.getD 4 0), (16, ls.getD 5 0), (2, side)])
/-- The record of an engine's fault: WHERE holds the locator for the matrix and copy engines (R226, R241), and 0 for the thresher (R288). -/
def engRec (s : State) (k unit q low : Nat) (w : QWord) (ids : List Nat) (f : AFault) (ls : List Nat) (side : Nat) (who : Who) : FRec :=
  withLaunch s k { ty := f.ty, cause := f.cause, unit := unit, queue := q, core := k, wh := if unit = uThresher then 0 else locWhere unit low, rq := oneId (realIds ids)
                   addr := f.addr, raw := w.w.toNat, aux0 := (nestAux ls side).1, aux1 := (nestAux ls side).2, who := who }
/-- The queue stops at its head word (R45, R226), with the side that failed (R289). -/
def stopHeadAt (k q unit low side : Nat) (w : QWord) (ids : List Nat) (f : AFault) (s : State) : State :=
  let (t, s1) := raise s (engRec s k unit q low w ids f [] side (.queue k q))
  modEQ s1 k q fun e => { e with stop := some t, stopSeq := w.seq }
def stopHead (k q unit low : Nat) (w : QWord) (ids : List Nat) (f : AFault) (s : State) : State := stopHeadAt k q unit low 0 w ids f s
/-- The word that a queue stands at, which need not be its head: parked words return ahead of it (R221, R226). -/
def stopWord (e : EQ) : Option QWord := if e.stop.isSome then e.words.find? fun w => w.seq == e.stopSeq else none
/-- Takes a word of a queue away without issuing it. -/
def dropWord (k q seq : Nat) (s : State) : State := modEQ s k q fun e => { e with words := e.words.eraseP fun w => w.seq == seq }
/-- A queue of the matrix engine stands: at a record of its head word, or at one of its operations (R226). -/
def qStopped (o : Core) (q : Nat) : Bool := (eqAt o q).stop.isSome || o.eng.mops.any fun e => e.q == q && e.stop.isSome

/-! ### Where a pre-emption finds the clusters (R104, R168, R267, R300) -/

/-- Memory syllables (R262). -/
def isMemSyl : Instr → Bool
  | .ld _ _ _ _ _ | .st _ _ _ _ _ | .ldq _ _ _ _ _ | .stq _ _ _ _ _ | .lds _ _ _ _ _ | .sts _ _ _ _ _ | .gth _ _ _ _ _ | .sct _ _ _ _ _
  | .pref _ _ _ | .amoAdd _ _ _ _ _ _ | .amoMin _ _ _ _ _ _ | .amoMax _ _ _ _ _ _ | .amoAnd _ _ _ _ _ _ | .amoOr _ _ _ _ _ _
  | .amoXor _ _ _ _ _ _ | .amoSwap _ _ _ _ _ _ | .cas _ _ _ _ _ _ _ | .waitm _ _ _ _ _ _ _ | .mld _ _ _ _ | .mst _ _ _
  | .mcas _ _ _ _ | .mrepair _ _ _ => true
  | _ => false
/-- The syllable at the program counter of a context. -/
def sylAt (s : State) (a : At) : Except DTrap Syl := decodeWith (some (a.c, privileged a)) (wordAt s a (pcOf s a)).toNat
/-- K under SETK, with every member of its set halted, does not issue a memory syllable (R267). -/
def setHolds (s : State) (a : At) : Bool :=
  let ks := (coreAt s a.k).ks
  a.c == .K && a.x == .user && ks.setk && allStopped s (partAt s a.k) ks.idSet && (match sylAt s a with
    | .ok y => isMemSyl y.i
    | .error _ => false)
/-- A cluster can be saved where it stands: at a safe point (R104), stopped by a halt (R267), or in an instance whose A is stopped for a
fault: A itself, K, and an execute cluster where it stalls (R168). -/
def canSave (s : State) (k : Nat) (c : Cluster) : Bool :=
  let o := coreAt s k
  let u := clOf o c
  ended u.run || u.safeStop || rqStopped s (partAt s k) u.rqi || setHolds s ⟨k, c, .user⟩ ||
  (o.a.stop.isSome && (decide (c = .A) || decide (c = .K) || (isX c && decide (u.ctx.blocked ≠ .no))))
/-- The pre-emption of an instance is being taken: every cluster can be saved where it stands, and none goes on (R104, R300). -/
def taken (s : State) (k : Nat) : Bool :=
  (coreAt s k).preempt && ((coreAt s k).inst.map (·.started)).getD false && clusters.all (canSave s k)

/-! ### Nests (R213, R237) -/

/-- Trip counts with unused levels as one. -/
def trips (counts : List Nat) : List Nat := counts.map fun c => if c = 0 then 1 else c
/-- The indices of iteration n, level 0 first. -/
def nestAt (n : Nat) : List Nat → List Nat
  | [] => []
  | c :: cs => n % c :: nestAt (n / c) cs
def nestTotal (counts : List Nat) : Nat := (trips counts).foldl (· * ·) 1
/-- Sum over the levels of a step times an index. -/
def nestSum (steps : List Int) (ls : List Nat) : Int := (steps.zip ls).foldl (fun a p => a + p.1 * (p.2 : Int)) 0

/-! ### Places of the engines (R171, R214, R239, R240) -/

/-- Pieces of 16 bytes at their swizzled offsets; the range is a multiple of 16 bytes. -/
def swzPieces (k : Nat) (f : SFld) (a n : Nat) : List (Space × Nat × Nat) :=
  if f.swzc = 0 then [(.spad k, a, n)]
  else (List.range (n / 16)).map fun i => (.spad k, swizzle f.swzc f.swzw f.swzp (a + 16 * i), 16)
/-- The place of a range of a stream of an engine. `far` and `near` are the faults of an address outside the space, and outside the
scratchpad with SPACE 0. -/
def engPlace (s : State) (k : Nat) (t : Tl) (q : Party) (iss : Issuer) (f : SFld) (swz : Bool) (far near : FT) (addr : Int) (n : Nat) (write : Bool) :
    State × Except AFault Place :=
  if addr < 0 ∨ (2 ^ 48 - n : Int) < addr then (s, .error ⟨far, 0, wrapN 64 addr⟩)
  else
    let a := addr.toNat
    if f.space = 0 then
      (if 0x2200000 < a + n then (s, .error ⟨near, 0, a⟩)
       else (s, .ok (.home (if swz then swzPieces k f a n else [(.spad k, a, n)]) 0)))
    else if regionOf (a + n - 1) = .spad ∨ regionOf (a + n - 1) = .kdm then (s, .error ⟨.addrUnmapped, 0, a⟩)
    else resolve s k t q (partAt s k) iss a n write

/-- When an address of a stream passes the midpoint of its page, the page that comes next in the direction of the stream's innermost
stride is walked, under one of the engine's 4 prefetch tags (R166). `prev` is the stream's address before, if it had one. -/
def midWalk (k cache : Nat) (t : Tl) (prev cur : Option Int) (dir : Int) (s : State) : State :=
  let part := partAt s k
  match cur with
  | none => s
  | some a =>
    match (tlGet (coreAt s k) t).find? (hits t part a.toNat) with
    | none => s
    | some e =>
      let beyond := fun (x : Nat) => if 0 ≤ dir then decide (e.base + e.size / 2 ≤ x) else decide (x < e.base + e.size / 2)
      let passed := beyond a.toNat && !(prev.any fun p => decide (0 ≤ p) && covers e part p.toNat && beyond p.toNat)
      let next := if 0 ≤ dir then e.base + e.size else e.base - 1
      if passed && decide (0 ≤ dir ∨ 0 < e.base) && decide (((coreAt s k).walks.filter fun w => w.cache == cache).length < 4) &&
          !((tlGet (coreAt s k) t).any (hits t part next)) && !((coreAt s k).walks.any fun w => w.cache == cache && w.va == next) then
        modCore s k fun o => { o with walks := o.walks ++ [⟨cache, part, next, false⟩] }
      else s

/-! ### Signals of the engines (R232, R254) -/

/-- The write of an engine's signal word, and the interrupt raised on K of the issuing core once it is performed (R323). -/
def engSignal (k core n : Nat) (add uli : Bool) (bit v : Nat) (obs : List Obs) (s : State) : State :=
  sigSend s ⟨core, n, if add then .add else .write, BitVec.ofNat 64 v, if uli then some (32 * k + bit) else none, obs⟩
/-- A wait of an engine queue on a signal word of its core (R233, R255). -/
def sgAtLeast (s : State) (k n v : Nat) : Bool := decide (v ≤ (getSg s k n).toNat)
/-- Tokens that copy commands hold (R246). -/
def tokensHeld (o : Core) : BitVec 8 := o.eng.cmds.foldl (fun m c => m ||| c.hold) 0

end Sys2Proof.Machine
end

