-- ==== Sys2Proof/Machine/Matrix.lean ====
section
/-! DEFINITION. The matrix engine: shadows, planes, operations, drains, replay, its engine words and `mstat` (09, R74 to R77). -/

namespace Sys2Proof.Machine

/-! ### Fields of operation words and shapes (R208, R212, R213) -/

def goToggle (w : QWord) : Nat := fld w.w.toNat 24 12
def goAcc (w : QWord) : Bool := bitN w.w.toNat 23
def goRim (w : QWord) : Bool := bitN w.w.toNat 22
def goBstr (w : QWord) : Bool := bitN w.w.toNat 21
def goPl (w : QWord) : Nat := fld w.w.toNat 20 1
def drTile (w : QWord) : Nat := fld w.w.toNat 30 6
def drSr (w : QWord) : Nat := fld w.w.toNat 21 5
def drZero (w : QWord) : Bool := bitN w.w.toNat 20
def drN (w : QWord) : Nat := fld w.w.toNat 0 16
/-- The type of a drain from its code (R230). -/
def drTy (w : QWord) : Ety :=
  let c := fld w.w.toNat 26 4
  if c = 8 then .fp32 else if c = 9 then .fp16 else if c = 10 then .bf16 else if c = 11 then .tf8 else .tf6
def gk (sh : MShadow) : Nat := 2 ^ sh.gang
def gn (sh : MShadow) : Nat := 16 / 2 ^ sh.gang
def nbOf (sh : MShadow) : Nat := sh.kb * gk sh
def mlvl (sh : MShadow) (l : Nat) : MLvl := sget {} sh.lv l
def mlvls (sh : MShadow) : List MLvl := (List.range 6).map (mlvl sh)
def mcounts (sh : MShadow) : List Nat := (mlvls sh).map (·.count)
def saSteps (sh : MShadow) : List Int := (mlvls sh).map (·.sa.toInt)
def sbSteps (sh : MShadow) : List Int := (mlvls sh).map (·.sb.toInt)
def stSteps (sh : MShadow) : List Int := (mlvls sh).map (·.st.toInt)
/-- Tiles that one iteration writes from its tile offset on. -/
def tileSpan (sh : MShadow) : Nat := cdiv sh.rows 32 * gn sh
/-- The least and the greatest tile offset of the nest. -/
def tileLo (sh : MShadow) : Int :=
  ((stSteps sh).zip (trips (mcounts sh))).foldl (fun a p => a + (if p.1 < 0 then p.1 * ((p.2 : Int) - 1) else 0)) (sh.tbase : Int)
def tileHi (sh : MShadow) : Int :=
  ((stSteps sh).zip (trips (mcounts sh))).foldl (fun a p => a + (if 0 < p.1 then p.1 * ((p.2 : Int) - 1) else 0)) (sh.tbase : Int)
/-- Every tile number of the nest lies in 0 to 63 (R226). -/
def tilesOk (sh : MShadow) : Bool := decide (0 ≤ tileLo sh) && decide (tileHi sh + (tileSpan sh : Int) ≤ 64)
/-- The tile offsets of the nest, when they are in range. -/
def tileOffs (sh : MShadow) : List Int :=
  if tilesOk sh then
    ((stSteps sh).zip (trips (mcounts sh))).foldl (fun l p =>
      if p.1 = 0 then l else (l.flatMap fun t => (List.range p.2).map fun (i : Nat) => t + p.1 * (i : Int)).eraseDups) [(sh.tbase : Int)]
  else []
/-- The tiles that an operation writes. -/
def goTiles (sh : MShadow) : List Nat := ((tileOffs sh).flatMap fun t => (List.range (tileSpan sh)).map fun i => t.toNat + i).eraseDups

/-! ### Identities (R220) -/

def rowId (w : QWord) (i : Nat) : Nat := if goRim w then w.idMap.getD i 0 else w.rqi
def goIds (w : QWord) (sh : MShadow) : List Nat := ((List.range sh.rows).map (rowId w)).eraseDups
def tileRow (o : Core) (key : Nat) : TRow := sget {} o.eng.tiles key
def setTileRow (s : State) (k key : Nat) (r : TRow) : State := modEng s k fun e => { e with tiles := sset {} e.tiles key r }
/-- The rows that a drain reads, by their numbers 32 t + r. -/
def drRows (w : QWord) : List Nat := (List.range (32 * drN w)).map fun i => 32 * drTile w + i
def mKind (w : QWord) : MKind := if fld w.w.toNat 40 8 = 0x09 then .go else if fld w.w.toNat 40 8 = 0x0A then .drain else .plane
/-- The identities that a word serves (R221). -/
def servedIds (o : Core) (w : QWord) (sh : MShadow) : List Nat :=
  match mKind w with
  | .go => goIds w sh
  | .plane => [w.rqi]
  | .drain => ((drRows w).map fun r => (tileRow o r).id).eraseDups

/-! ### Dependences (R217) -/

/-- Tiles written and read, planes read and loaded. -/
structure Foot where
  wt : List Nat := []
  rt : List Nat := []
  rp : List Nat := []
  lp : List Nat := []
  deriving DecidableEq, Repr
/-- The planes that a streamed operation may use: both when a step of B is taken. -/
def goPlanes (w : QWord) (sh : MShadow) : List Nat :=
  if goBstr w && ((mlvls sh).any fun l => l.sb != 0 && decide (1 < l.count)) then [0, 1] else [goPl w]
def footOf (w : QWord) (sh : MShadow) : Foot :=
  match mKind w with
  | .go => { wt := goTiles sh, rp := goPlanes w sh, lp := if goBstr w then goPlanes w sh else [] }
  | .plane => { lp := [fld w.w.toNat 36 1] }
  | .drain => { rt := (List.range (drN w)).map fun j => drTile w + j }
def meets (a b : List Nat) : Bool := a.any b.contains
/-- The later word waits for the earlier one. -/
def conflict (l e : Foot) : Bool := meets l.rt e.wt || meets l.wt e.wt || meets l.wt e.rt || meets l.rp e.lp || meets l.lp e.rp || meets l.lp e.lp
/-- An operation may go on: no earlier entry that it depends on, computes before it, or drains before it. An entry that stands at a
record holds back its own queue and what depends on it (R226; log entry 71). -/
def opReady (o : Core) (op : MOp) : Bool :=
  (o.eng.mops.takeWhile fun e => e.id != op.id).all fun e =>
    !(if e.stop.isSome then e.q == op.q else decide (e.kind = op.kind) && decide (op.kind ≠ .plane)) &&
    !conflict (footOf op.word op.sh) (footOf e.word e.sh)
/-- A head depends on a word that was pushed before it and stands parked (R221). -/
def onParked (o : Core) (w : QWord) (sh : MShadow) : Bool :=
  (List.range 4).any fun q => (eqAt o q).parked.any fun p => decide (p.seq < w.seq) && conflict (footOf w sh) (footOf p (p.keepM.getD {}))

/-! ### The arbiter (R218, R219) -/

def shadowAt (o : Core) (q : Nat) : MShadow := sget {} o.eng.msh q
/-- The shadow under which a word issues: the one it was parked with, else its queue's. -/
def shadowOf (o : Core) (q : Nat) (w : QWord) : MShadow := w.keepM.getD (shadowAt o q)
/-- The leave demand of an operation word; none for another word. -/
def demandOf (w : QWord) : Option Nat :=
  match decodeEng 0 w.w.toNat with
  | some (.mGo t _ _ _ _) => some t.toNat
  | some (.mPlane _ _) => some 0
  | some (.mDrain _ _ _ _ _) => some 0
  | _ => none
/-- Leave units held by issued operations (R219, R396). -/
def leaveHeld (o : Core) : Nat := (o.eng.mops.filter fun e => decide (e.kind = .go)).foldl (fun n e => n + goToggle e.word) 0
/-- The governor grants a demand (R391). -/
def grants (s : State) (k d : Nat) : Bool := d == 0 || leaveHeld (coreAt s k) == 0 || decide (leaveHeld (coreAt s k) + d ≤ supply s k)
/-- A head that waits for the arbiter: its queue, its word and its demand. -/
def arbHead (s : State) (k q : Nat) : Option (Nat × QWord × Nat) :=
  let o := coreAt s k
  match qStopped o q, headOf s k q with
  | false, some w =>
    if !gleanOk w || allStopped s (partAt s k) (servedIds o w (shadowOf o q w)) then none
    else (demandOf w).map fun d => (q, w, d)
  | _, _ => none
/-- The first of a list in an order. -/
def bestOf {α : Type} (lt : α → α → Bool) : List α → Option α
  | [] => none
  | x :: xs => match bestOf lt xs with
    | none => some x
    | some y => if lt y x then some y else some x
/-- The queue that the arbiter chooses. -/
def arbiter (s : State) (k : Nat) : Option Nat :=
  let o := coreAt s k
  let hs := ((List.range 4).filterMap (arbHead s k)).filter fun h => !onParked o h.2.1 (shadowOf o h.1 h.2.1)
  let old := hs.filter fun h => decide (16 ≤ (eqAt o h.1).passed)
  if 8 ≤ o.eng.mops.length then none
  else match bestOf (fun a b => decide (a.2.1.seq < b.2.1.seq)) old with
  | some h => if grants s k h.2.2 then some h.1 else none
  | none =>
    (bestOf (fun a b => decide (a.2.2 < b.2.2) || (a.2.2 == b.2.2 && decide (a.2.1.seq < b.2.1.seq)))
      (hs.filter fun h => grants s k h.2.2)).map (·.1)
/-- Counts the heads that were passed over (R218). -/
def passOver (k q : Nat) (s : State) : State :=
  (List.range 4).foldl (fun acc j =>
    if j = q then modEQ acc k j fun e => { e with passed := 0 }
    else if (arbHead s k j).isSome then modEQ acc k j fun e => { e with passed := if 16 ≤ e.passed then 16 else e.passed + 1 }
    else acc) s
/-- An operation word at the head: parked, left waiting, stopped at a fault, or issued with its entry (R217 to R221, R226). -/
def issueOp (k q : Nat) (fault : QWord → MShadow → State → Option (FT × Nat)) (mk : Nat → QWord → MShadow → State → MOp) (s : State) : State :=
  match headOf s k q with
  | none => s
  | some w =>
    let o := coreAt s k
    let e := eqAt o q
    let sh := shadowOf o q w
    let ids := servedIds o w sh
    if allStopped s (partAt s k) ids then parkHead k q (allCancelled s (partAt s k) ids) (fun w => { w with keepM := some sh }) s
    else if arbiter s k ≠ some q then s
    else match fault w sh s with
    | some (ty, side) => stopHeadAt k q uMatrix 0 side w (if mKind w = .go then goIds w sh else [w.rqi]) ⟨ty, 0, 0⟩ s
    | none =>
      let (id, s1) := newId k s
      let op := { mk id w sh s1 with mkId := e.markId, mkNo := e.markNo }
      let s2 := startParty (issueHead k q (some op) (passOver k q s1)) k uMatrix q id w.obs
      modEng s2 k fun e => { e with mops := e.mops ++ [op] }

/-! ### Operand fetch (R66, R67, R74, R214) -/

def locM (k tile : Nat) : Loc := engLoc k uMatrix tile
/-- `align16` of R74 over exact values. -/
def alignVals (vs : List Q) : Block :=
  match (vs.filter fun v => v.n != 0).map fun v => qLog2 v.n.natAbs v.d with
  | [] => {}
  | e :: es =>
    let emax := es.foldl (fun a b => if a < b then b else a) e
    { e := emax, q := vs.map fun v =>
        let t := qMul v (qDy 1 (14 - emax))
        let m := rneDiv t.n.natAbs t.d
        if t.n < 0 then -(m : Int) else (m : Int) }
/-- One alignment block: its scales, whether a granule of it is poisoned, and its elements, in the order of R76 with R226's poison. -/
def mkBlock (t : Ety) (xs scales : List Nat) (bad : Bool) : Block :=
  let vs := xs.map fun x => decVal t (⟨0, 0, 0⟩ : Loc) x
  if scales.contains 255 then { spec := some 7 }
  else if bad then { spec := some 5 }
  else if vs.any fun v => match v with | .nan _ _ => true | _ => false then { spec := some 1 }
  else if vs.any fun v => match v with | .inf _ => true | _ => false then { spec := some 2 }
  else alignVals ((vs.zip scales).map fun p => qMul (match p.1 with | .int i => qInt i | .fin _ q => q | _ => qInt 0) (scaleQ p.2))
/-- What an operand read gives: bytes with their poison flags, or a fault. Poisoned granules of an i8 operand raise MATRIX_POISON,
or read as zeros after a skip (R226). -/
def engBytes (s : State) (k : Nat) (q : Party) (f : SFld) (swz int skip : Bool) (addr : Int) (n : Nat) : State × Except AFault (List Byte × List Bool) :=
  match engPlace s k .m q .matrix f swz .addrUnmapped .spadRange addr n false with
  | (_, .error e) => (s, .error e)
  | (_, .ok (.peer _ _)) => (s, .error ⟨.addrUnmapped, 0, addr.toNat⟩)
  | (s1, .ok (.home ps _)) =>
    let bad := poisonFlags s1 (partAt s k) ps
    let (bs, s2) := readPieces s1 q ps
    if int && bad.any id then
      (if skip then (s2, .ok ((bs.zip bad).map (fun p => if p.2 then 0 else p.1), bad.map fun _ => false))
       else (s, .error ⟨.matrixPoison, 0, addr.toNat⟩))
    else (s2, .ok (bs, bad))
/-- The blocks of a run of elements with their scale bytes; `len` is the block length of the scales. -/
def blocksOf (t : Ety) (nb len : Nat) (bs : List Byte) (bad : List Bool) (sc : List Byte) (scBad : List Bool) : List Block :=
  let w := etyW t
  let x := ofBytes bs
  (List.range nb).map fun kb =>
    let es := (List.range 32).map fun j => 32 * kb + j
    mkBlock t (es.map fun e => elemN w x e) (es.map fun e => if len = 0 then 127 else (sc.getD (e / len) 0).toNat)
      (es.any fun e => bad.getD (e * w / 8) false || (len != 0 && scBad.getD (e / len) false))
/-- The step address of coordinates (i1, i2), unless the stream lies in the scratchpad: what the stream TLB watches (R166, R214). -/
def runAddr (f : SFld) (i1 : Nat) (i2 : Int) : Option Int := if f.space = 0 then none else some (addr64 (stepAddr f 0 (i1 : Int) i2))
/-- A row of A or a column of B at coordinates (i1, i2): its blocks and the bytes fetched, block scales included (R214, R222, R353). -/
def fetchRun (s : State) (k : Nat) (q : Party) (sr : SReg) (t : Ety) (skip : Bool) (nb i1 : Nat) (i2 : Int) : State × Except AFault (List Block × Nat) :=
  let f := sfld sr
  let n := nb * 32 * (etyW t / 8)
  if f.bnd && decide (f.e1 ≤ i1) then (s, .ok (List.replicate nb {}, 0))
  else match engBytes s k q f true (etyInt t) skip (addr64 (stepAddr f 0 (i1 : Int) i2)) n with
  | (_, .error e) => (s, .error e)
  | (s1, .ok (bs, bad)) =>
    if f.blk = 3 then (s1, .ok (blocksOf t nb 0 bs bad [] [], n))
    else
      let len := 16 * 2 ^ f.blk
      let m := cdiv (nb * 32) len
      match engBytes s1 k q f false (etyInt t) skip (addr64 ((f.base : Int) + f.scoff + (i2 * (f.e1 : Int) + (i1 : Int)) * (f.scstr : Int))) m with
      | (_, .error e) => (s, .error e)
      | (s2, .ok (sc, scBad)) => (s2, .ok (blocksOf t nb len bs bad sc scBad, n + m))
/-- The runs of a list of first coordinates, in order. -/
def fetchAll (k : Nat) (q : Party) (sr : SReg) (t : Ety) (skip : Bool) (nb : Nat) (i2 : Int) :
    List Nat → State → State × Except AFault (List (Nat × List Block × Nat))
  | [], s => (s, .ok [])
  | i :: is, s =>
    let f := sfld sr
    match fetchRun (midWalk k 3 .m (if i = 0 then none else runAddr f (i - 1) i2) (runAddr f i i2) (f.s1 * 64) s) k q sr t skip nb i i2 with
    | (_, .error e) => (s, .error e)
    | (s1, .ok (b, n)) =>
      match fetchAll k q sr t skip nb i2 is s1 with
      | (_, .error e) => (s, .error e)
      | (s2, .ok l) => (s2, .ok ((i, b, n) :: l))

/-! ### Planes (R207, R208) -/

/-- The place of block kb of output column c: glume, column and block of that glume. -/
def physKey (sh : MShadow) (c kb : Nat) : Nat :=
  let g := c / 256 * gk sh + kb / sh.kb
  (g * 256 + c % 256) * 8 + kb % sh.kb
/-- A block of a loaded plane that no load has written holds values that the manual leaves open (log entry 24). -/
def openBlock (key : Nat) : Block := { e := Config.blockE key, q := (List.range 32).map (Config.blockQ key) }
def planeBlock (p : Plane) (key : Nat) : Block := (slook p.blocks key).getD (openBlock key)
/-- The checksum column: the sum over the 256 columns of a glume at block b and position j. -/
def chkSum (m : Sparse Block) (g b j : Nat) : Int :=
  (List.range 256).foldl (fun a c => a + ((slook m ((g * 256 + c) * 8 + b)).getD (openBlock ((g * 256 + c) * 8 + b))).q.getD j 0) 0
def planeAt (o : Core) (p : Nat) : Plane := sget {} o.eng.planes p
/-- A plane with the columns of a load, and the checksum column of all 8 blocks of every glume. -/
def loadedPlane (old : Plane) (sh : MShadow) (cols : List (Nat × List Block × Nat)) (src : MOp) : Plane :=
  let m := cols.foldl (fun m c => (List.range (nbOf sh)).foldl (fun m kb => sput m (physKey sh c.1 kb) (c.2.1.getD kb {})) m) old.blocks
  let chk := (List.range 16).foldl (fun t g => (List.range 8).foldl (fun t b => (List.range 32).foldl (fun t j =>
    sset 0 t ((g * 8 + b) * 32 + j) (chkSum m g b j)) t) t) old.chk
  { loaded := true, blocks := m, chk := chk, src := some src }
/-- Loads plane p at coordinate sB for an operation: the bytes that the load fetched, or a fault that leaves the plane as it is. -/
def loadPlane (s : State) (k : Nat) (op : MOp) (p : Nat) (sB : Int) : State × Except AFault Nat :=
  match fetchAll k (cmdParty k uMatrix op.q op.id) op.sb op.sh.bf op.skipPoison (nbOf op.sh) sB (List.range (256 * gn op.sh)) s with
  | (_, .error e) => (s, .error e)
  | (s1, .ok cols) =>
    let src := { op with kind := .plane, plane := p, lastSb := some sB }
    (modEng s1 k fun e => { e with planes := sput e.planes p (loadedPlane (sget {} e.planes p) op.sh cols src) },
      .ok (cols.foldl (fun n c => n + c.2.2) 0))

/-! ### Computing (R75, R76, R213, R223) -/

/-- The exact integer sum of R75. -/
def dotQ (a b : List Int) : Int := (a.zip b).foldl (fun n p => n + p.1 * p.2) 0
/-- The class of a special pair of blocks, by R76 and R226's poison. -/
def specOf (a b : Option Nat) : Option Nat :=
  let has := fun (c : Nat) => a == some c || b == some c
  if has 7 then some 7 else if has 5 then some 5 else if has 1 then some 1 else if has 2 then some 2 else none
def partOf (l : Loc) (a b : Block) : Nat :=
  match specOf a.spec b.spec with
  | some c => mkNan .fp32 c l
  | none =>
    let d := dotQ a.q b.q
    if d = 0 then 0 else fRne .fp32 false (qMul (qInt d) (qDy 1 (a.e + b.e - 28)))
/-- The first part of an element that is overwritten: R213 takes it as it is, R75 adds it to +0, and the two differ for -0 alone (DESIGN
CHOICE, log 89). -/
def firstAcc (l : Loc) (p : Nat) : Nat := if p = 0x80000000 ∧ Config.keepsNegZero then p else fAdd .fp32 l 0 p
/-- The parts of an element enter its accumulator by R75; the first write of an operation without ACC overwrites (R213). -/
def accEl (l : Loc) (ovw : Bool) (old : Nat) (parts : List Nat) : Nat :=
  match ovw, parts with
  | true, p :: ps => ps.foldl (fun a p => fAdd .fp32 l a p) (firstAcc l p)
  | true, [] => 0
  | false, ps => ps.foldl (fun a p => fAdd .fp32 l a p) old
/-- SUM of R211. -/
def rowSum (d : Nat) : BitVec 32 := BitVec.ofNat 32 ((List.range 256).foldl (fun n c => n + elemN 32 d c) 0)
def sumOk (r : TRow) : Bool := r.sum == rowSum r.d
/-- The glume check of R223 for one row: over every glume, the dot product with the checksum column equals the sum of the dots. -/
def glumeOk (sh : MShadow) (p : Plane) (ablk : List Block) : Bool :=
  (List.range 16).all fun g => (List.range sh.kb).all fun b =>
    let a := ablk.getD (g % gk sh * sh.kb + b) {}
    let bs := (List.range 256).map fun c => planeBlock p ((g * 256 + c) * 8 + b)
    a.spec.isSome || bs.any (·.spec.isSome) ||
      dotQ a.q ((List.range 32).map fun j => sget 0 p.chk ((g * 8 + b) * 32 + j)) == bs.foldl (fun n x => n + dotQ a.q x.q) 0
/-- One row of one tile after an iteration. -/
def rowAfter (k : Nat) (sh : MShadow) (p : Plane) (ablk : List Block) (tile ct id : Nat) (ovw : Bool) (r : TRow) : TRow :=
  let d := buildN 32 256 fun c => accEl (locM k tile) ovw (elemN 32 r.d c)
    ((List.range (nbOf sh)).map fun kb => partOf (locM k tile) (ablk.getD kb {}) (planeBlock p (physKey sh (256 * ct + c) kb)))
  { d := d, sum := rowSum d, id := id, stale := if ovw then false else r.stale }
/-- The tile rows of row i of an iteration: key and column group. -/
def rowKeys (sh : MShadow) (tOff i : Nat) : List (Nat × Nat) := (List.range (gn sh)).map fun ct => (32 * (tOff + i / 32 * gn sh + ct) + i % 32, ct)
/-- Notes that operation `id` of queue q wrote tiles, each write with a number of its own among the engine's (R224). -/
def noteTiles (k q id : Nat) (tiles : List Nat) (s : State) : State :=
  let (n, s1) := newId k s
  modEng s1 k fun e => { e with wrote := tiles.foldl (fun m t => sput m t ((q, id, n) :: (sget [] m t).filter (fun x => x.1 != q))) e.wrote }
/-- How an iteration ends; `wait`: it has no tag for its operands (R175). -/
inductive IterRes | fault (f : AFault) (side : Nat) | mismatch | wait | ok (op : MOp)
  deriving DecidableEq, Repr
/-- Writes the rows of an iteration; a row that is masked has STALE set instead (R213, R221). -/
def writeRows (k : Nat) (op : MOp) (p : Plane) (tOff : Nat) (rows : List (Nat × List Block × Nat)) (masked : List Nat) (s : State) : State :=
  let s1 := rows.foldl (fun s r => (rowKeys op.sh tOff r.1).foldl (fun s kc =>
    setTileRow s k kc.1 (rowAfter k op.sh p r.2.1 (kc.1 / 32) kc.2 (rowId op.word r.1) (!goAcc op.word && !op.fresh.contains kc.1)
      (tileRow (coreAt s k) kc.1))) s) s
  masked.foldl (fun s i => (rowKeys op.sh tOff i).foldl (fun s kc =>
    setTileRow s k kc.1 { tileRow (coreAt s k) kc.1 with stale := true }) s) s1
/-- A stream of an operand has a tag: those in the scratchpad take none (R175). -/
def tagFree (s : State) (k : Nat) (r : SReg) : Bool := (sfld r).space == 0 || decide (0 < fetchLeft s k)
/-- One iteration of R213: B by R215, then every row of A, then the writes. -/
def goIter (s : State) (k : Nat) (op : MOp) : State × IterRes :=
  let sh := op.sh
  let ls := nestAt op.iter (trips (mcounts sh))
  let sA := nestSum (saSteps sh) ls
  let sB := nestSum (sbSteps sh) ls
  let tOff := ((sh.tbase : Int) + nestSum (stSteps sh) ls).toNat
  let load := goBstr op.word && op.lastSb != some sB
  let p := if load && op.lastSb.isSome then 1 - op.plane else op.plane
  let masked := (List.range sh.rows).filter fun i => op.masked.contains i || rqStopped s (partAt s k) (rowId op.word i)
  let live := (List.range sh.rows).filter fun i => !masked.contains i
  if !tagFree s k op.sa || (load && !tagFree s k op.sb) then (s, .wait)
  else match (if load then loadPlane s k op p sB else (s, .ok 0)) with
  | (_, .error f) => (s, .fault f 1)
  | (s1, .ok nB) =>
    if !(planeAt (coreAt s1 k) p).loaded then (s, .fault ⟨.matrixConfig, 0, 0⟩ 1)
    else match fetchAll k (cmdParty k uMatrix op.q op.id) op.sa sh.af op.skipPoison (nbOf sh) sA live s1 with
    | (_, .error f) => (s, .fault f 0)
    | (s2, .ok rows) =>
      let o := coreAt s2 k
      let pl := planeAt o p
      let keys := rows.flatMap fun r => (rowKeys sh tOff r.1).map (·.1)
      if rows.any (fun r => !glumeOk sh pl r.2.1) || keys.any (fun x => (goAcc op.word || op.fresh.contains x) && !sumOk (tileRow o x)) then (s, .mismatch)
      else
        (noteTiles k op.q op.id ((keys.map (· / 32)).eraseDups) (writeRows k op pl tOff rows masked s2),
          .ok { op with iter := op.iter + 1, plane := p, lastSb := if goBstr op.word then some sB else none, planeBytes := op.planeBytes + nB
                        rowBytes := rows.foldl (fun m r => sset 0 m r.1 (sget 0 m r.1 + r.2.2)) op.rowBytes
                        masked := masked, fresh := (op.fresh ++ keys).eraseDups })

/-! ### The end of an operation (R222, R265) -/

def mopAt (o : Core) (id : Nat) : Option MOp := o.eng.mops.find? fun e => e.id == id
def setMop (k : Nat) (op : MOp) (s : State) : State := modEng s k fun e => { e with mops := e.mops.map fun x => if x.id == op.id then op else x }
/-- The entry is free again, and the queue goes on if it stood at the operation alone. -/
def endOp (k : Nat) (op : MOp) (s : State) : State :=
  modEng (emptySnap s (cmdParty k uMatrix op.q op.id)) k fun e => { e with mops := e.mops.filter fun x => x.id != op.id }
/-- The operation stops at its record, and with it its queue (R226). -/
def stopOp (k : Nat) (op : MOp) (low : Nat) (ids : List Nat) (f : AFault) (ls : List Nat) (side : Nat) (s : State) : State :=
  let (t, s1) := raise s (engRec s k uMatrix op.q low op.word ids f ls side (.mop k op.id))
  setMop k { op with stop := some t } s1
/-- The meters of an operation that commits (R222): those of a replay of a committed operation are REPLAYMACS alone. -/
def meterGo (k : Nat) (op : MOp) (s : State) : State :=
  let part := partAt s k
  let rows := (List.range op.sh.rows).filter fun i => !op.masked.contains i
  let macs := 256 * gn op.sh * nbOf op.sh * 32 * op.iter
  if op.again then rows.foldl (fun s i => meter s part [rowId op.word i] mREPLAY macs) s
  else
    let s1 := rows.foldl (fun s i => meter (meter s part [rowId op.word i] mMACS macs) part [rowId op.word i] mRD (sget 0 op.rowBytes i)) s
    let ids := (rows.map (rowId op.word)).eraseDups
    let (clk, s2) := takeClk s1
    meter (meter s2 part ids mRD op.planeBytes) part ids mLEAVE (goToggle op.word * clk)
/-- The meters of a drain that commits: each drained row's bytes go to the row's ID (R222); a replay adds none. -/
def meterDrain (k : Nat) (op : MOp) (s : State) : State :=
  if op.again then s
  else op.rowBytes.foldl (fun s e => meter s (partAt s k) [(tileRow (coreAt s k) (32 * drTile op.word + e.1)).id] mWR e.2) s

/-! ### Replay (R224) -/

/-- Operations of a queue issued since the marker with number mk, oldest first, as they issued. -/
def sinceMarker (e : EQ) (mk : Nat) : List MOp := (e.window.filterMap (·.op)).filter fun x => decide (mk < x.id)
/-- The tiles that operations of the queue issued since the marker have written (R224). -/
def wroteSince (o : Core) (q mk : Nat) : List Nat :=
  (o.eng.wrote.filter fun e => e.2.any fun w => w.1 == q && decide (mk < w.2.1)).map (·.1)
/-- The tile rows that a go word writes. -/
def goRows (sh : MShadow) : List Nat :=
  (tileOffs sh).flatMap fun t => (List.range sh.rows).flatMap fun i => (rowKeys sh t.toNat i).map (·.1)
/-- The tile rows that an operation issued since the marker has written so far, or zeroed: all of its rows once it has completed. -/
def wroteRows (o : Core) (x : MOp) : List Nat :=
  match x.kind, mopAt o x.id with
  | .go, some y => y.fresh
  | .go, none => goRows x.sh
  | .drain, some y => if drZero x.word then y.rowBytes.map fun e => 32 * drTile x.word + e.1 else []
  | .drain, none => if drZero x.word then drRows x.word else []
  | .plane, _ => []
/-- Some operation has accumulated into a row that none before it wrote since the marker: a discarded tile held older contents. -/
def accOld (o : Core) (seen : List Nat) : List MOp → Bool
  | [] => false
  | x :: xs =>
    (decide (x.kind = .go) && goAcc x.word && (wroteRows o x).any fun r => !seen.contains r) || accOld o (seen ++ wroteRows o x) xs
/-- The cases of step 4. -/
def replayLost (o : Core) (op : MOp) (ops : List MOp) (tiles : List Nat) : Bool :=
  !inWindow (eqAt o op.q) op.mkNo || accOld o [] ops ||
  (tiles.any fun t => (sget [] o.eng.wrote t).any fun w => w.1 != op.q && decide (op.mkId < w.2.2)) ||
  (decide (op.kind = .go) && !goBstr op.word && (match (planeAt o (goPl op.word)).src with
    | some src => decide (src.id ≤ op.mkId)
    | none => true))
/-- Step 2: the tiles are +0 with STALE set, and what discarded drains wrote was never available. -/
def discardTiles (k q markId : Nat) (tiles : List Nat) (s : State) : State :=
  let s1 := tiles.foldl (fun s t => (List.range 32).foldl (fun s r =>
    setTileRow s k (32 * t + r) { tileRow (coreAt s k) (32 * t + r) with d := 0, sum := 0, stale := true }) s) s
  { s1 with pend := s1.pend.filter fun w => !(w.lvl == 0 && (match w.who with
      | .cmd k' u i => k' == k && u == uMatrix && i % 16 == q && decide (markId < i / 16)
      | _ => false)) }
/-- An entry at its place in the order of issue. -/
def insMop (x : MOp) : List MOp → List MOp
  | [] => [x]
  | y :: ys => if x.id < y.id then x :: y :: ys else y :: insMop x ys
/-- Step 3: the operations since the marker run again, each at its place in the order of issue. -/
def replayOps (k : Nat) (op : MOp) (ops : List MOp) (s : State) : State :=
  modEng s k fun e =>
    let again := ops.map fun x => match e.mops.find? fun y => y.id == x.id with
      | some y => { x with again := y.again, failed := y.failed || x.id == op.id, stop := y.stop }
      | none => { x with again := true, failed := x.id == op.id }
    { e with mops := again.foldl (fun l x => insMop x l) (e.mops.filter (fun y => !ops.any fun x => x.id == y.id))
             replays := satAdd (2 ^ 32 - 1) e.replays 1 }
/-- A mismatch in an operation word (R224). -/
def mismatchAt (k : Nat) (op : MOp) (s : State) : State :=
  let o := coreAt (setMop k op s) k
  let ops := sinceMarker (eqAt o op.q) op.mkId
  let tiles := wroteSince o op.q op.mkId
  let s1 := discardTiles k op.q op.mkId tiles s
  let low := match op.kind with | .go => op.sh.tbase | .drain => drTile op.word | .plane => 0
  let stop := fun ty => stopOp k op low (servedIds o op.word op.sh) ⟨ty, 0, 0⟩ [] (if op.kind = .drain then 2 else 0) s1
  if op.failed then stop .matrixUncorrectable
  else if replayLost o op ops tiles then stop .matrixReplayLost
  else replayOps k op ops s1

/-! ### The steps of the engine -/

/-- Runs the iterations of an operation up to its end, a fault or a mismatch. -/
def runGo (k : Nat) : Nat → MOp → State → State
  | 0, op, s => endOp k op (meterGo k op s)
  | n + 1, op, s =>
    let ls := nestAt op.iter (trips (mcounts op.sh))
    match goIter s k op with
    | (s1, .ok op') => runGo k n op' s1
    | (s1, .mismatch) => mismatchAt k op s1
    | (_, .wait) => setMop k op s
    | (s1, .fault f side) =>
      stopOp k op ((op.sh.tbase : Int) + nestSum (stSteps op.sh) ls).toNat (goIds op.word op.sh) f ls side s1
/-- The operation can move: its dependences are met, it stands at no record, and the core is not frozen. -/
def canRun (s : State) (k : Nat) (kind : MKind) (op : MOp) : Bool :=
  decide (op.kind = kind) && op.stop.isNone && opReady (coreAt s k) op && !(coreAt s k).frozen
def withMop (k id : Nat) (kind : MKind) (go : MOp → State → State) (s : State) : State :=
  match mopAt (coreAt s k) id with
  | some op => if canRun s k kind op then go op s else s
  | none => s
/-- A plane load of `m.plane` ends (R207, R228): its bytes go to the pushing identity. -/
def planeDone (k : Nat) (op : MOp) (s : State) : State :=
  if !tagFree s k op.sb then s
  else match loadPlane s k op op.plane (op.lastSb.getD 0) with
  | (s1, .error f) => stopOp k op 0 [op.word.rqi] f [] 1 s1
  | (s1, .ok n) => endOp k op (if op.again then s1 else meter s1 (partAt s1 k) [op.word.rqi] mRD n)
def execMatrixPlaneLoadDone (core entry : Nat) (s : State) : Host.Outcome State Fault Refusal := onDev s fun s =>
  withMop core entry .plane (planeDone core) s
/-- An operation completes and commits, stops at a fault, or meets a mismatch (R213, R222 to R226). -/
def execMatrixOperationCommit (core entry : Nat) (mismatch : Bool) (s : State) : Host.Outcome State Fault Refusal := onDev s fun s =>
  withMop core entry .go (fun op s =>
    if mismatch then mismatchAt core op s else runGo core (nestTotal (mcounts op.sh) - op.iter) op s) s
/-- What a drain writes for one element (R77). -/
def drainEl (k tile : Nat) (sh : MShadow) (t : Ety) (x : Nat) : Nat :=
  let l := locM k tile
  convert t .fp32 false l (fMul .fp32 l (fMul .fp32 l x sh.ta) sh.tb)
/-- Zeroes a drained row. -/
def zeroRow (k key : Nat) (s : State) : State := setTileRow s k key { tileRow (coreAt s k) key with d := 0, sum := 0, stale := false }
/-- The rows of a drain from its row `op.iter` on (R221, R230); it waits for a tag, and for the port of another core (R175, R298). -/
def runDrain (k : Nat) : Nat → MOp → State → State
  | 0, op, s => endOp k op (meterDrain k op s)
  | n + 1, op, s =>
    let i := op.iter
    let key := 32 * drTile op.word + i
    let tile := key / 32
    let row := tileRow (coreAt s k) key
    let f := sfld op.sa
    let t := drTy op.word
    let next := { op with iter := i + 1 }
    if !sumOk row then mismatchAt k op s
    else if row.stale || rqStopped s (partAt s k) row.id || (f.bnd && decide (f.e1 ≤ i % 32)) then runDrain k n next (setMop k next s)
    else
      let size := 256 * (etyW t / 8)
      let addr := addr64 (stepAddr f ((i / 32 / gn op.sh : Nat) : Int) ((i % 32 : Nat) : Int) ((i / 32 % gn op.sh : Nat) : Int))
      let q := cmdParty k uMatrix op.q op.id
      let far := fun (a : Int) => if f.space = 0 then none else some a
      let prev := if i % 32 = 0 then none else far (addr - f.s1 * 64)
      match engPlace (midWalk k 3 .m prev (far addr) (f.s1 * 64) s) k .m q .matrix f true .addrUnmapped .spadRange addr size true with
      | (s1, .ok (.home ps least)) =>
        if !portFree s1 k ps || (farGrans k ps != 0 && fetchLeft s1 k == 0) then setMop k op s
        else
          let bytes := bytesOf size (buildN (etyW t) 256 fun c => drainEl k tile op.sh t (elemN 32 row.d c))
          let s2 := holdFetchTags k (farGrans k ps) (writePieces s1 q (partAt s k) least ps bytes)
          let drawn := { next with rowBytes := sset 0 op.rowBytes i size }
          runDrain k n drawn (setMop k drawn (if drZero op.word then noteTiles k op.q op.id [tile] (zeroRow k key s2) else s2))
      | (s1, .ok (.peer _ _)) => stopOp k op tile (servedIds (coreAt s k) op.word op.sh) ⟨.addrUnmapped, 0, addr.toNat⟩ [] 2 s1
      | (_, .error e) => stopOp k op tile (servedIds (coreAt s k) op.word op.sh) e [] 2 s
def execMatrixDrainDone (core entry : Nat) (mismatch : Bool) (s : State) : Host.Outcome State Fault Refusal := onDev s fun s =>
  withMop core entry .drain (fun op s => if mismatch then mismatchAt core op s else runDrain core (32 * drN op.word - op.iter) op s) s

/-! ### Engine words -/

/-- A configuration word takes effect and issues (R217, R227). -/
def configWord (k q : Nat) (f : MShadow → MShadow) (s : State) : State :=
  issueHead k q none (modEng s k fun e => { e with msh := sput e.msh q (f (sget {} e.msh q)) })
def execMShape (gang : BitVec 3) (af bf : Ety) (kb1 : BitVec 3) (s : State) : Host.Outcome State Fault Refusal := onQ s fun k q s =>
  configWord k q (fun sh => { sh with gang := gang.toNat, af := af, bf := bf, kb := kb1.toNat + 1 }) s
def execMRows (r1 : BitVec 7) (s : State) : Host.Outcome State Fault Refusal := onQ s fun k q s =>
  configWord k q (fun sh => { sh with rows := r1.toNat + 1 }) s
def execMTile (t : BitVec 6) (s : State) : Host.Outcome State Fault Refusal := onQ s fun k q s => configWord k q (fun sh => { sh with tbase := t.toNat }) s
def execMStr (isB : Bool) (sr : Fin 32) (s : State) : Host.Outcome State Fault Refusal := onQ s fun k q s =>
  configWord k q (fun sh => if isB then { sh with srb := sr.val } else { sh with sra := sr.val }) s
/-- Halves 0 and 1 are of TA, 2 and 3 of TB. -/
def execMScale (half : Fin 4) (v : BitVec 16) (s : State) : Host.Outcome State Fault Refusal := onQ s fun k q s =>
  configWord k q (fun sh =>
    if half.val < 2 then { sh with ta := setFld sh.ta (16 * half.val) 16 v.toNat }
    else { sh with tb := setFld sh.tb (16 * (half.val - 2)) 16 v.toNat }) s
def execMLvl (l : Fin 6) (sa sb st : BitVec 6) (count : BitVec 16) (s : State) : Host.Outcome State Fault Refusal := onQ s fun k q s =>
  configWord k q (fun sh => { sh with lv := sset {} sh.lv l.val ⟨count.toNat, sa, sb, st⟩ }) s

/-- The stream check of an operand at issue (R172, R214). -/
def matStreamOk (r : SReg) (t : Ety) : Bool := streamOkT (sfld r) t
def execMPlane (p : Bool) (sB : BitVec 20) (s : State) : Host.Outcome State Fault Refusal := onQ s fun k q s =>
  issueOp k q
    (fun _ sh s => if matStreamOk (getSR s k sh.srb) sh.bf then none else some (.streamInvalid, 1))
    (fun id w sh s => { id := id, q := q, kind := .plane, word := w, sh := sh, sb := getSR s k sh.srb, plane := b2n p, lastSb := some sB.toInt }) s
/-- A load of the plane stands in an entry. -/
def loadPending (o : Core) (p : Nat) : Bool := o.eng.mops.any fun e => (footOf e.word e.sh).lp.contains p
/-- MATRIX_CONFIG of a go word at issue (R215, R226). -/
def goConfigBad (o : Core) (w : QWord) (sh : MShadow) : Bool :=
  !tilesOk sh || (!goBstr w && ((mlvls sh).any (fun l => l.sb != 0) || (!(planeAt o (goPl w)).loaded && !loadPending o (goPl w))))
/-- The fault of a go word at issue, with the side that failed (R226, R289): MATRIX_CONFIG comes before STREAM_INVALID (DEDUCED, log 99). -/
def goFault (k : Nat) (w : QWord) (sh : MShadow) (s : State) : Option (FT × Nat) :=
  if goConfigBad (coreAt s k) w sh then some (.matrixConfig, 0)
  else if !matStreamOk (getSR s k sh.sra) sh.af then some (.streamInvalid, 0)
  else if goBstr w && !matStreamOk (getSR s k sh.srb) sh.bf then some (.streamInvalid, 1)
  else none
/-- `m.go`: its fields are read from the word that its entry keeps (R229). -/
def goHead (k q : Nat) (s : State) : State :=
  issueOp k q (goFault k)
    (fun id w sh s => { id := id, q := q, kind := .go, word := w, sh := sh, sa := getSR s k sh.sra, sb := getSR s k sh.srb, plane := goPl w }) s
def execMGo (_toggle : BitVec 12) (_acc _rim _bstr _pl : Bool) (s : State) : Host.Outcome State Fault Refusal := onQ s goHead
def execMDrain (_tile : BitVec 6) (f : Ety) (sr : Fin 32) (_zero : Bool) (_n : BitVec 16) (s : State) : Host.Outcome State Fault Refusal :=
  onQ s fun k q s =>
    issueOp k q
      (fun _ _ s => if matStreamOk (getSR s k sr.val) f then none else some (.streamInvalid, 2))
      (fun id w sh s => { id := id, q := q, kind := .drain, word := w, sh := sh, sa := getSR s k sr.val }) s
/-- A word of the queue that was pushed before its head stands parked. -/
def parkedAhead (o : Core) (q : Nat) (w : QWord) : Bool := (eqAt o q).parked.any fun p => decide (p.seq < w.seq)
/-- `m.mark` (R231). -/
def execMMark (s : State) : Host.Outcome State Fault Refusal := onQ s fun k q s =>
  match headOf s k q with
  | none => s
  | some w => if parkedAhead (coreAt s k) q w then s else setMarker k q (issueHead k q none s)
/-- `m.sig` (R232, R198): it waits for its queue's operations, releases what they wrote, and is the next governing marker. -/
def execMSig (add uli : Bool) (core : BitVec 6) (n : BitVec 8) (v : BitVec 16) (s : State) : Host.Outcome State Fault Refusal := onQ s fun k q s =>
  match headOf s k q with
  | none => s
  | some w =>
    let o := coreAt s k
    if parkedAhead o q w || (o.eng.mops.any fun e => e.q == q) then s
    else if !runsPart s (partAt s k) core.toNat then stopHead k q uMatrix 0 w [w.rqi] ⟨.spadWindow, 0, 0⟩ s
    else if coreShut (coreAt s core.toNat) then s
    else
      let own := ofQueue k uMatrix q
      let s1 := releaseParties s own (if wroteSys s own then 5 else 4)
      setMarker k q (issueHead k q none (engSignal k core.toNat n.toNat add uli 24 v.toNat (cmdObs s1 own) s1))
/-- `m.wait` (R233, R333). -/
def execMWait (w : MWSrc) (s : State) : Host.Outcome State Fault Refusal := onQ s fun k q s =>
  match w with
  | .tok t => if (tokensHeld (coreAt s k)).getLsbD t.val then s else issueHead k q none (tokAcquire k uMatrix q (BitVec.ofNat 8 (2 ^ t.val)) s)
  | .sg n v => if sgAtLeast s k n.toNat v.toNat then issueHead k q none (sgAcquire k uMatrix q n.toNat s) else s

/-! ### mstat (R234) -/

def mstatWord (o : Core) (sel : Nat) : Nat :=
  if sel = 0 then
    packFields [(4, (List.range 4).foldl (fun n q => n + 2 ^ q * b2n (qStopped o q)) 0), (4, 0),
      (8, (List.range 4).foldl (fun n q => n + (eqAt o q).parked.length) 0), (8, o.eng.mops.length), (8, 0), (32, o.eng.replays)]
  else if sel ≤ 4 then packFields [(8, (eqAt o (sel - 1)).since), (8, (eqAt o (sel - 1)).passed)]
  else buildN 1 32 fun r => b2n (tileRow o (32 * (sel - 64) + r)).stale
def execMstat (d : SOp) (sel : BitVec 10) (s : State) : Host.Outcome State Fault Refusal := onCl s fun a s =>
  let n := sel.toNat
  if 4 < n ∧ (n < 64 ∨ 127 < n) then trapTy a .illegalOperand s
  else needQ a [] (pushS d) (fun s => retire a (putS a d (BitVec.ofNat 64 (mstatWord (coreAt s a.k) n)) s)) s

end Sys2Proof.Machine
end

