-- ==== Sys2Proof/Machine/Pins.lean ====
section
/-! DEFINITION. Slot pins at the threshers (R338 to R340). -/

namespace Sys2Proof.Machine

/-- Owners of pins: an instance, a copy command by the order of its push, and a thresher command. -/
def instOwner (launch core : Nat) : Nat := 3 * (64 * launch + core)
def copyOwner (core seq : Nat) : Nat := 3 * (64 * seq + core) + 1
def thOwner (id : Nat) : Nat := 3 * id + 2
def isPin (part slot : Nat) (p : Pin) : Bool := p.part == part && p.slot == slot
def pinOf (t : Thr) (part slot : Nat) : Option Pin := t.pins.find? (isPin part slot)
def readersOf (t : Thr) (part slot : Nat) : Nat :=
  match pinOf t part slot with
  | some p => p.readers.length
  | none => 0
def exclHeld (t : Thr) (part slot : Nat) : Bool :=
  match pinOf t part slot with
  | some p => p.excl.isSome
  | none => false
/-- An exclusive request for the key waits that arrived before `ord`. -/
def exclWaits (t : Thr) (part slot ord : Nat) : Bool := t.waiting.any fun r => r.part == part && r.slot == slot && r.excl && decide (r.ord < ord)
/-- The thresher's part of the grant (R338): in order of arrival for one key; a new key takes one of 8192 entries. -/
def pinFree (t : Thr) (r : PinReq) : Bool :=
  !(t.waiting.any fun x => x.part == r.part && x.slot == r.slot && decide (x.ord < r.ord)) &&
  (match pinOf t r.part r.slot with
  | none => decide (t.pins.length < 8192)
  | some p => !r.excl && p.excl.isNone && decide (p.readers.length < 65535))
/-- Gives a request its pin. -/
def grantPin (t : Thr) (r : PinReq) : Thr :=
  let old := (pinOf t r.part r.slot).getD ⟨r.part, r.slot, [], none⟩
  let new := if r.excl then { old with excl := some r.owner } else { old with readers := old.readers ++ [r.owner] }
  { t with pins := t.pins.filter (fun p => !isPin r.part r.slot p) ++ [new], waiting := t.waiting.filter (fun x => x.ord != r.ord) }
/-- Entries without a pin are free. -/
def prunePins (l : List Pin) : List Pin := l.filter fun p => !p.readers.isEmpty || p.excl.isSome
/-- Takes one of an owner's read pins on a key away, else another's (log entry 31). -/
def releaseRead (t : Thr) (part slot owner : Nat) : Thr :=
  { t with pins := prunePins (t.pins.map fun p =>
      if isPin part slot p then { p with readers := if p.readers.contains owner then p.readers.erase owner else p.readers.tail } else p) }
/-- Every pin and request of an owner goes, at every thresher (R339, R340). -/
def dropPins (owner : Nat) (s : State) : State :=
  { s with thr := s.thr.map fun e => (e.1, { e.2 with
      pins := prunePins (e.2.pins.map fun p =>
        { p with readers := p.readers.filter (· != owner), excl := if p.excl == some owner then none else p.excl })
      waiting := e.2.waiting.filter fun r => r.owner != owner }) }
/-- The owner holds a pin of the kind. -/
def holdsPin (t : Thr) (part slot owner : Nat) (excl : Bool) : Bool :=
  match pinOf t part slot with
  | some p => if excl then p.excl == some owner else p.readers.contains owner
  | none => false
def asksPin (t : Thr) (part slot owner : Nat) (excl : Bool) : Bool :=
  t.waiting.any fun r => r.part == part && r.slot == slot && r.owner == owner && r.excl == excl
/-- A request arrives at a thresher. -/
def askPin (s : State) (st part slot owner : Nat) (excl : Bool) (forThr : Option Nat) : State :=
  let n := s.dev.nextOp
  modThr (modDev s fun d => { d with nextOp := n + 1 }) st fun t => { t with waiting := t.waiting ++ [⟨part, slot, excl, owner, n, forThr⟩] }
/-- The stack of a piece that lies in device memory or a near store. -/
def pieceHome (p : Space × Nat × Nat) : Option Nat :=
  match p.1 with
  | .dram => some (homeDie false p.2.1)
  | .near => some (homeDie true p.2.1)
  | _ => none
/-- The home of a place: its stack, when it lies in device memory or a near store (R336, R339). -/
def homeOf : Place → Option Nat
  | .home ((.dram, a, _) :: _) _ => some (homeDie false a)
  | .home ((.near, a, _) :: _) _ => some (homeDie true a)
  | _ => none

end Sys2Proof.Machine
end

