-- ==== Sys2Proof/Machine/Copy.lean ====
section
/-! DEFINITION. The copy engine: shadows, commands, iterations, tokens, its engine words, `waitk`, `tokq` and `pkt` (10). -/

namespace Sys2Proof.Machine

/-! ### Commands as they stand -/

def cshAt (o : Core) (q : Nat) : CShadow := sget {} o.eng.csh q
/-- The shadow under which a `c.go` issues: the one it was parked with, else its queue's. -/
def cshOf (o : Core) (q : Nat) (w : QWord) : CShadow := w.keepC.getD (cshAt o q)
def clvl (sh : CShadow) (l : Nat) : CLvl := sget {} sh.lv l
def clvls (sh : CShadow) : List CLvl := (List.range 6).map (clvl sh)
def ccounts (sh : CShadow) : List Nat := (clvls sh).map (·.count)
def cmdAt (o : Core) (id : Nat) : Option Cmd := o.eng.cmds.find? fun c => c.id == id
def setCmd (k : Nat) (c : Cmd) (s : State) : State := modEng s k fun e => { e with cmds := e.cmds.map fun x => if x.id == c.id then c else x }
/-- A stream register with the override of a side (R235, R239). -/
def sideFld (r : SReg) (swz : BitVec 10) : SFld :=
  let f := sfld r
  if swz = 0 then f else { f with swzc := fld swz.toNat 8 2, swzw := fld swz.toNat 5 3, swzp := fld swz.toNat 0 5 }
/-- One side of a command: its stream, slot value, steps and bounds mode. -/
structure Side where
  f : SFld
  slot : Nat
  d1 : List Int
  d2 : List Int
  bnd : Bool
  deriving DecidableEq, Repr
def bndOf (mode : Nat) (f : SFld) : Bool := if mode = 0 then f.bnd else mode == 2
def srcSide (sh : CShadow) (r : SReg) : Side :=
  let f := sideFld r sh.swzs
  ⟨f, sh.sls, (clvls sh).map (·.ds1.toInt), (clvls sh).map (·.ds2.toInt), bndOf sh.bms f⟩
def dstSide (sh : CShadow) (r : SReg) : Side :=
  let f := sideFld r sh.swzd
  ⟨f, sh.sld, (clvls sh).map (·.dd1.toInt), (clvls sh).map (·.dd2.toInt), bndOf sh.bmd f⟩
/-- The address of a side in an iteration; none when bounds are on and its coordinates lie outside (R237). -/
def sideAddr (d : Side) (ls : List Nat) : Option Int :=
  let i1 := (d.f.i1 : Int) + nestSum d.d1 ls
  let i2 := (d.f.i2 : Int) + nestSum d.d2 ls
  if d.bnd && !(decide (0 ≤ i1) && decide (i1 < (d.f.e1 : Int)) && decide (0 ≤ i2) && decide (i2 < (d.f.e2 : Int))) then none
  else some (addr64 (stepAddr d.f (d.slot : Int) i1 i2))

/-! ### The ends of a command (R198, R246) -/

/-- A command completes, is discarded or is skipped: a command that frees a token releases its writes; its entry, its tokens and its
pins are free. -/
def endCmd (k : Nat) (c : Cmd) (s : State) : State :=
  let q := cmdParty k uCopy c.q c.id
  let s1 := if c.hold = 0 then s else release s q (if c.wroteSy then 5 else 4)
  modEng (dropPins (copyOwner k c.word.seq) (emptySnap s1 q)) k fun e =>
    { e with cmds := e.cmds.filter (fun x => x.id != c.id), ceSy := if c.wroteSy && !e.ceSy.contains c.q then c.q :: e.ceSy else e.ceSy
             everSy := e.everSy || (c.wroteSy && !c.word.fwPushed)
             tokObs := (List.range 8).foldl (fun m i =>
               if c.hold.getLsbD i then sset [] m i (addObs ((sget [] m i).filter (relevant s1)) (obsOf s1 q)) else m) e.tokObs }
/-- A command stops at its record (R241). -/
def stopCmd (k : Nat) (c : Cmd) (f : AFault) (peer : Option Nat) (side : Nat) (s : State) : State :=
  let ls := nestAt c.iter (trips (ccounts c.sh))
  let (t, s1) := raise s { engRec s k uCopy c.q (c.q - 4) c.word c.ids f ls side (.cmd k c.id) with peer := peer.getD 0, far := peer.isSome }
  setCmd k { c with stop := some t } s1

/-! ### Iterations (R237 to R245) -/

/-- The part of a list of pieces from byte `off` on, `n` bytes long. -/
def slicePs : List (Space × Nat × Nat) → Nat → Nat → List (Space × Nat × Nat)
  | [], _, _ => []
  | (sp, a, m) :: ps, off, n =>
    if n = 0 then []
    else if m ≤ off then slicePs ps (off - m) n
    else
      let t := if n < m - off then n else m - off
      (sp, a + off, t) :: slicePs ps 0 (n - t)
/-- Checks a side and translates its pages: nothing, or its place (R240). -/
def sidePlace (s : State) (k : Nat) (q : Party) (f : SFld) (addr : Option Int) (n : Nat) (write : Bool) : State × Except AFault (Option Place) :=
  match addr with
  | none => (s, .ok none)
  | some a =>
    match engPlace s k .c q .copy f true .copyAddress .copyAddress a n write with
    | (_, .error e) => (s, .error e)
    | (s1, .ok p) => (s1, .ok (some p))
/-- A granule of a source, as R242 hands it on: bytes and whether it is marked poisoned. -/
def readGran (s : State) (q : Party) (part : Nat) (ps : List (Space × Nat × Nat)) (zf : Bool) : List Byte × Bool × State :=
  let bad := piecesPoison s part ps
  let (bs, s1) := readPieces s q ps
  if bad && zf then (List.replicate 64 0, false, s1) else (bs, bad, s1)
/-- Writes a granule, marked poisoned when its source was and unmarked otherwise: its pieces cover one granule whole, swizzled or not
(R242). -/
def writeGran (s : State) (q : Party) (part least : Nat) (ps : List (Space × Nat × Nat)) (bs : List Byte) (bad : Bool) : State :=
  ps.foldl (fun s p => markPoison s p.1 p.2.1 bad) (writePieces s q part least ps bs)
/-- The granules of an iteration from `g` on, each read and then written. -/
def moveGrans (c : Cmd) (q : Party) (part : Nat) (src : Option (List (Space × Nat × Nat))) (dst : Option (List (Space × Nat × Nat) × Nat)) :
    Nat → Nat → State → State
  | 0, _, s => s
  | n + 1, g, s =>
    let (bs, bad, s1) := match src with
      | some ps => readGran s q part (slicePs ps (64 * g) 64) c.zf
      | none =>
        let b := bitN c.gotPoison g
        if c.got.isEmpty then (List.replicate 64 0, false, s)
        else if b && c.zf then (List.replicate 64 0, false, s) else ((c.got.drop (64 * g)).take 64, b, s)
    let s2 := match dst with
      | some (ps, least) => writeGran s1 q part least (slicePs ps (64 * g) 64) bs bad
      | none => s1
    moveGrans c q part src dst n (g + 1) s2
/-- The granules of a local source for a write packet: bytes and poison bits. -/
def gatherGrans (q : Party) (part : Nat) (zf : Bool) (ps : List (Space × Nat × Nat)) : Nat → Nat → State → List Byte × Nat × State
  | 0, _, s => ([], 0, s)
  | n + 1, g, s =>
    let (bs, bad, s1) := readGran s q part (slicePs ps (64 * g) 64) zf
    let (r, p, s2) := gatherGrans q part zf ps n (g + 1) s1
    (bs ++ r, p + (if bad then 2 ^ g else 0), s2)
/-- An iteration commits: its meters, then the next iteration or the end (R238, R244). -/
def commitIter (k : Nat) (c : Cmd) (rd wr : Nat) (s : State) : State :=
  let part := partAt s k
  let s1 := meter (meter (meter s part c.ids mRD (64 * rd)) part c.ids mWR (64 * wr)) part c.ids mLINK (256 * c.flits)
  let c' := { c with iter := c.iter + 1, phase := 0, flits := 0, got := [], gotPoison := 0 }
  if c'.iter < nestTotal (ccounts c.sh) then setCmd k c' s1 else endCmd k c' s1
/-- A skipped iteration writes and meters nothing (R241). -/
def skipIter (k : Nat) (c : Cmd) (s : State) : State :=
  let c' := { c with iter := c.iter + 1, phase := if c.phase = 6 then 6 else 0, flits := 0, got := [], gotPoison := 0, stop := none }
  if c'.iter < nestTotal (ccounts c.sh) then setCmd k c' s else endCmd k c' s
/-- The stream check of a command (R172, R236, R239): FMT is not read. -/
def cmdStreamsOk (sh : CShadow) (ss sd : SReg) : Bool := streamOk (sideFld ss sh.swzs) && streamOk (sideFld sd sh.swzd)
/-- A place of this device, with the release that publishes stores there. -/
def localPs : Option Place → Option (List (Space × Nat × Nat) × Nat)
  | some (.home ps l) => some (ps, l)
  | _ => none
def isHostPs (l : Nat) : Bool := l == 5
/-- The bytes from one step of a side's innermost level to the next (R166). -/
def sideDir (d : Side) : Int := (d.d1.headD 0 * d.f.s1 + d.d2.headD 0 * d.f.s2) * 64
/-- The next-page walks of an iteration's two sides. -/
def cmdWalks (k : Nat) (c : Cmd) (src dst : Side) (s : State) : State :=
  let at' := fun (d : Side) (i : Nat) => if d.f.space = 0 then none else sideAddr d (nestAt i (trips (ccounts c.sh)))
  let one := fun (d : Side) (s : State) => midWalk k 4 .c (if c.iter = 0 then none else at' d (c.iter - 1)) (at' d c.iter) (sideDir d) s
  one dst (one src s)
/-- The pin that one side of a `c.go` needs (R339): asked for and not granted, or there. -/
inductive PinRes | wait (s : State) | go (s : State)
/-- The pin is kept at the home of the side's address. Where the side forms no address in the iteration, at the home of its slot's first
row, if that can be reached (DESIGN CHOICE, log 102). -/
def sidePin (k : Nat) (q : Party) (w : QWord) (d : Side) (ls : List Nat) (excl : Bool) (s : State) : PinRes :=
  if d.f.space ≠ 2 then .go s
  else
    let part := partAt s k
    let own := copyOwner k w.seq
    let addr := (sideAddr d ls).getD (addr64 (stepAddr d.f (d.slot : Int) (d.f.i1 : Int) (d.f.i2 : Int)))
    match engPlace s k .c q .copy d.f false .copyAddress .copyAddress addr 64 excl with
    | (_, .error _) => .go s
    | (s1, .ok p) =>
      match homeOf p with
      | none => .go s1
      | some st =>
        let t := thrAt s1 st
        if holdsPin t part d.slot own excl then .go s1
        else if asksPin t part d.slot own excl then .wait s1
        else .wait (askPin s1 st part d.slot own excl none)
/-- The pins of both sides at once: the state, and whether it has them. -/
def bothPins (k : Nat) (q : Party) (w : QWord) (src dst : Side) (ls : List Nat) (s : State) : State × Bool :=
  match sidePin k q w src ls false s with
  | .wait s1 => (match sidePin k q w dst ls true s1 with
    | .wait s2 | .go s2 => (s2, false))
  | .go s1 =>
    match sidePin k q w dst ls true s1 with
    | .wait s2 => (s2, false)
    | .go s2 => (s2, true)
/-- A command of `n` bytes an iteration that needs a pin checks the iteration whole first, side S before side D (R240): the side that
faults, or the pins. -/
def cmdPins (k : Nat) (q : Party) (w : QWord) (src dst : Side) (ls : List Nat) (n : Nat) (s : State) : Except (AFault × Nat) (State × Bool) :=
  if src.f.space ≠ 2 ∧ dst.f.space ≠ 2 then .ok (s, true)
  else match sidePlace s k q src.f (sideAddr src ls) n false with
  | (_, .error f) => .error (f, 0)
  | (s1, .ok _) =>
    match sidePlace s1 k q dst.f (sideAddr dst ls) n true with
    | (_, .error f) => .error (f, 1)
    | (s2, .ok _) => .ok (bothPins k q w src dst ls s2)
/-- The granules of the packet that an iteration sends next: one tag each (R175). -/
def packetGrans (run : Nat) : Option Place → Option Place → Nat
  | some (.peer _ _), _ | _, some (.peer _ _) => run
  | _, _ => 0
/-- One move of a command: it parks or ends at an iteration boundary, stops at a fault, sends a packet, or commits an iteration; a command
that stood at a record before it had its pins asks for them first. -/
def stepCmd (k : Nat) (c : Cmd) (s : State) : State :=
  let part := partAt s k
  let q := cmdParty k uCopy c.q c.id
  if c.phase = 0 ∧ allStopped s part (realIds c.ids) then
    (if allCancelled s part (realIds c.ids) then endCmd k c s else setCmd k { c with parked := true } s)
  else if c.phase = 1 ∨ c.phase = 3 ∨ c.phase = 5 then s
  else
    let ls := nestAt c.iter (trips (ccounts c.sh))
    let src := srcSide c.sh c.ss
    let dst := dstSide c.sh c.sd
    let aS := sideAddr src ls
    let aD := sideAddr dst ls
    let n := 64 * c.run
    let wr := if aD.isSome then c.run else 0
    let rd := if aS.isSome then c.run else 0
    if c.phase = 6 then
      match cmdPins k q c.word src dst ls n s with
      | .error (f, side) => stopCmd k c f none side s
      | .ok (s1, true) => setCmd k { c with phase := 0 } s1
      | .ok (s1, false) => s1
    else if c.phase = 4 then commitIter k { c with wroteSy := true } rd wr s
    else match sidePlace s k q src.f aS n false with
    | (_, .error e) => stopCmd k c e none 0 s
    | (s1, .ok pS) =>
      match sidePlace s1 k q dst.f aD n true with
      | (_, .error e) => stopCmd k c e none 1 s
      | (s2, .ok pD) =>
        let psS := ((localPs (if c.phase = 0 then pS else none)).map (·.1)).getD []
        let psD := ((localPs pD).map (·.1)).getD []
        let tags := farGrans k psS + farGrans k psD
        let s2 := if c.phase = 0 then cmdWalks k c src dst s2 else s2
        if (tags ≠ 0 ∧ copyLeft s2 k = 0) ∨ copyLeft s2 k < packetGrans c.run (if c.phase = 0 then pS else none) pD ∨ !portFree s2 k psD then s
        else match (if c.phase = 0 then pS else none), pD with
        | some (.peer d o), _ =>
          setCmd k { c with phase := 1, flits := flitsOf c.run + 1 } (sendReq s2 k part (pktRead d o c.run) (realIds c.ids) (.copyRead k c.id))
        | sp, some (.peer d o) =>
          let (bs, bits, s3) := match localPs sp with
            | some (ps, _) => gatherGrans q part c.zf ps c.run 0 s2
            | none => if c.got.isEmpty then (List.replicate n 0, 0, s2)
                else if c.zf then ((List.range c.run).flatMap (fun g => if bitN c.gotPoison g then List.replicate 64 0 else (c.got.drop (64 * g)).take 64), 0, s2)
                else (c.got, c.gotPoison, s2)
          setCmd k { c with phase := 3, flits := c.flits + flitsOf c.run + 1 } (sendReq s3 k part (pktWrite d o 0 bs bits) (realIds c.ids) (.copyWrite k c.id))
        | sp, _ =>
          let sy := match localPs pD with
            | some (_, l) => isHostPs l
            | none => false
          commitIter k { c with wroteSy := c.wroteSy || sy } rd wr
            (moveGrans c q part ((localPs sp).map (·.1)) (localPs pD) c.run 0 (holdCopyTags k (farGrans k psD) s2))
def execCopyIterationCommit (core entry : Nat) (s : State) : Host.Outcome State Fault Refusal := onDev s fun s =>
  match cmdAt (coreAt s core) entry with
  | some c => if c.stop.isSome || c.parked || (coreAt s core).frozen then s else stepCmd core c s
  | none => s

/-! ### Engine words -/

/-- A configuration word takes effect and issues (R252). -/
def copyConfig (k q : Nat) (f : CShadow → CShadow) (s : State) : State :=
  issueHead k q none (modEng s k fun e => { e with csh := sput e.csh q (f (sget {} e.csh q)) })
def execCSrc (sr : Fin 32) (sl : BitVec 12) (s : State) : Host.Outcome State Fault Refusal := onQ s fun k q s =>
  copyConfig k q (fun sh => { sh with srs := sr.val, sls := sl.toNat }) s
def execCDst (sr : Fin 32) (sl : BitVec 12) (s : State) : Host.Outcome State Fault Refusal := onQ s fun k q s =>
  copyConfig k q (fun sh => { sh with srd := sr.val, sld := sl.toNat }) s
/-- SIDE 0 sets the source steps and the count, SIDE 1 the destination steps. -/
def execCLvl (l : Fin 6) (dst : Bool) (s1 : BitVec 10) (s2 : BitVec 9) (count : BitVec 16) (s : State) : Host.Outcome State Fault Refusal :=
  onQ s fun k q s => copyConfig k q (fun sh =>
    let v := sget {} sh.lv l.val
    { sh with lv := sset {} sh.lv l.val (if dst then { v with dd1 := s1, dd2 := s2 } else { v with ds1 := s1, ds2 := s2, count := count.toNat }) }) s
def swzBits (c : BitVec 2) (w : BitVec 3) (p : BitVec 5) : BitVec 10 := BitVec.ofNat 10 (packFields [(5, p.toNat), (3, w.toNat), (2, c.toNat)])
def execCSwz (dst : Bool) (c : BitVec 2) (w : BitVec 3) (p : BitVec 5) (s : State) : Host.Outcome State Fault Refusal := onQ s fun k q s =>
  copyConfig k q (fun sh => if dst then { sh with swzd := swzBits c w p } else { sh with swzs := swzBits c w p }) s
def execCBound (bms bmd : BitVec 2) (s : State) : Host.Outcome State Fault Refusal := onQ s fun k q s =>
  copyConfig k q (fun sh => { sh with bms := bms.toNat, bmd := bmd.toNat }) s
def execCTok (hold : BitVec 8) (s : State) : Host.Outcome State Fault Refusal := onQ s fun k q s => copyConfig k q (fun sh => { sh with hold := hold }) s
/-- HOLD clears when a `c.go` issues, or leaves the head with a copy of its shadow (R235, R245). -/
def clearHold (k q : Nat) (w : QWord) (s : State) : State :=
  if w.keepC.isSome then s else modEng s k fun e => { e with csh := sput e.csh q { sget {} e.csh q with hold := 0 } }
/-- The identities of a command (R243). -/
def cmdIds (w : QWord) (iset : Bool) : List Nat := if iset then w.idSet else [w.rqi]
def execCGo (run1 : BitVec 6) (zf iset : Bool) (s : State) : Host.Outcome State Fault Refusal := onQ s fun k q s =>
  match headOf s k q with
  | none => s
  | some w =>
    let o := coreAt s k
    let sh := cshOf o q w
    let ids := realIds (cmdIds w iset)
    let part := partAt s k
    if allStopped s part ids then
      clearHold k q w (parkHead k q (allCancelled s part ids) (fun w => { w with keepC := some sh })
        (if allCancelled s part ids then dropPins (copyOwner k w.seq) s else s))
    else if 8 ≤ o.eng.cmds.length ∨ (tokensHeld o &&& sh.hold) ≠ 0 ∨ taken s k then s
    else
      let ss := getSR s k sh.srs
      let sd := getSR s k sh.srd
      let ok := cmdStreamsOk sh ss sd
      let src := srcSide sh ss
      let dst := dstSide sh sd
      let issue := fun (phase : Nat) (s : State) =>
        let (id, s1) := newId k s
        let c : Cmd := { id := id, q := q, word := w, sh := { sh with hold := 0 }, ss := ss, sd := sd, run := run1.toNat + 1, zf := zf, ids := cmdIds w iset
                         hold := sh.hold, phase := phase }
        (c, modEng (startParty (clearHold k q w (issueHead k q none s1)) k uCopy q id w.obs) k fun e => { e with cmds := e.cmds ++ [c] })
      if !ok then
        let (c, s1) := issue 5 s
        stopCmd k c ⟨.streamInvalid, 0, 0⟩ none (if streamOk (sideFld ss sh.swzs) then 1 else 0) s1
      else match cmdPins k (cmdParty k uCopy q 0) w src dst (nestAt 0 (trips (ccounts sh))) (64 * (run1.toNat + 1)) s with
      | .error (f, side) =>
        let (c, s1) := issue 6 s
        stopCmd k c f none side s1
      | .ok (s1, true) => (issue 0 s1).2
      | .ok (s1, false) => s1
/-- `c.sig` (R254, R198, R332). -/
def execCSig (add uli peer : Bool) (core : BitVec 6) (n : BitVec 8) (rep : BitVec 16) (s : State) : Host.Outcome State Fault Refusal := onQ s fun k q s =>
  match headOf s k q with
  | none => s
  | some w =>
    let o := coreAt s k
    let part := partAt s k
    if ((eqAt o q).parked.any fun p => decide (p.seq < w.seq)) || (o.eng.cmds.any fun c => c.q == q) then s
    else if !peer && !runsPart s part core.toNat then stopHead k q uCopy (q - 4) w [w.rqi] ⟨.spadWindow, 0, 0⟩ s
    else if !peer && coreShut (coreAt s core.toNat) then s
    else if peer && !inSet s part (fld rep.toNat 8 8) then
      stopHead k q uCopy (q - 4) w [w.rqi] ⟨.pageFault, 3, 0⟩ s
    else
      let own := ofQueue k uCopy q
      let sy := peer || o.eng.ceSy.contains q || wroteSys s own
      let s1 := modEng (releaseParties s own (if sy then 5 else 4)) k fun e => { e with ceSy := e.ceSy.filter (· != q) }
      let s2 := if peer then sendReq s1 k part (pktSig (fld rep.toNat 8 8) core.toNat n.toNat add (BitVec.ofNat 64 (fld rep.toNat 0 8)))
            (realIds [w.rqi]) (.csig k q w.w.toNat w.fwPushed)
          else s1
      let s3 := if peer then (if uli then modKs s2 k fun ks => setPend ks 25 else s2)
          else engSignal k core.toNat n.toNat add uli 25 rep.toNat (cmdObs s1 own) s2
      setMarker k q (issueHead k q none s3)
/-- `c.wait` (R255, R333). -/
def execCWait (w : WSrc) (s : State) : Host.Outcome State Fault Refusal := onQ s fun k q s =>
  match w with
  | .tok m => if (tokensHeld (coreAt s k) &&& m) ≠ 0 then s else issueHead k q none (tokAcquire k uCopy q m s)
  | .sg n v => if sgAtLeast s k n.toNat v.toNat then issueHead k q none (sgAcquire k uCopy q n.toNat s) else s

/-! ### waitk, tokq, pkt (R256 to R258) -/

/-- `waitk`; a mask of 0 acquires nothing. -/
def execWaitk (mask : BitVec 8) (s : State) : Host.Outcome State Fault Refusal := onCl s fun a s =>
  if (tokensHeld (coreAt s a.k) &&& mask) ≠ 0 then block a .other s
  else retire a (if mask = 0 then s else acquire (observeAll (partyOf a) s (tokensObs (coreAt s a.k) mask)) (partyOf a) 2)
/-- Tokens that `c.go` words at the heads name in HOLD. -/
def tokensWanted (s : State) (k : Nat) : BitVec 8 :=
  (List.range 4).foldl (fun m i => match headOf s k (4 + i) with
    | some w => if fld w.w.toNat 40 8 = 0x49 then m ||| (cshOf (coreAt s k) (4 + i) w).hold else m
    | none => m) 0
def copyStopped (o : Core) (q : Nat) : Bool := (eqAt o q).stop.isSome || o.eng.cmds.any fun c => c.q == q && c.stop.isSome
def tokqWord (s : State) (k : Nat) : Nat :=
  let o := coreAt s k
  packFields [(8, (tokensHeld o).toNat), (8, (tokensWanted s k).toNat),
    (4, (List.range 4).foldl (fun n i => n + 2 ^ i * b2n (copyStopped o (4 + i))) 0), (4, (o.eng.cmds.filter (·.parked)).length), (4, o.eng.cmds.length)]
def execTokq (d : SOp) (s : State) : Host.Outcome State Fault Refusal := onCl s fun a s =>
  needQ a [] (pushS d) (fun s => retire a (putS a d (BitVec.ofNat 64 (tokqWord s a.k)) s)) s
/-- A signal packet of K, held with one tag until it is acknowledged. K goes on once it is sent (R258, R325). -/
def sendSignal (a : At) (dv core n : Nat) (add : Bool) (v : Word) (s : State) : State :=
  let xid := s.dev.nextXid
  let s1 := sendOrFault s a.k (partAt s a.k) (pktSig dv core n add v) (realIds [rqiOf s a])
    (.pkt a.k a.x (pcOf s a) (rqiOf s a) (wordAt s a (pcOf s a)).toNat) { clRec s a .pageFault with prec := false }
  if s1.out.any fun o => unsent o && decide (o.why ≠ .answer) && o.p.xid == BitVec.ofNat 32 xid then awaitPeer a s1 else s1
def execPkt (x y : SOp) (s : State) : Host.Outcome State Fault Refusal := onCl s fun a s =>
  needQ a (popsS [x, y]) [] (fun s =>
    let (u, t1) := takeS a x s
    let (v, t2) := takeS a y t1
    let n := u.toNat
    if n / 2 ^ 26 ≠ 0 ∨ fld n 14 2 ≠ 0 ∨ 1 < fld n 24 2 then trapTy a .illegalOperand s
    else if !tagRoom s a 1 || !relReady s (partyOf a) 5 then block a .other s
    else retire a (sendSignal a (fld n 0 8) (fld n 8 6) (fld n 16 8) (fld n 24 2 == 1) v (release t2 (partyOf a) 5))) s

end Sys2Proof.Machine
end

