-- ==== Sys2Proof/Machine/Order.lean ====
section
/-! DEFINITION. `phase`, the atomics, `cas` and `waitm` (08). -/

namespace Sys2Proof.Machine

/-- `phase` (R203): the release, then the acquire. A release at `.sy` waits for the answers of peers. -/
def execPhase (sc : Scope) (rel acq : Bool) (s : State) : Host.Outcome State Fault Refusal := onCl s fun a s =>
  if rel && !relReady s (partyOf a) (lvlOf sc) then block a .other s
  else
    let s1 := if rel then release s (partyOf a) (lvlOf sc) else s
    retire a (if acq then acquire s1 (partyOf a) (lvlOf sc) else s1)

/-! ### Atomics (R193, R204, R205) -/

/-- What an atomic writes: none when a `cas` fails. -/
structure Rmw where
  code : Nat
  hostOk : Bool
  f : ATy → Nat → Nat → Nat → Option Nat
/-- The order of a type (R204). -/
def atLe (t : ATy) (u v : Nat) : Bool := decide (elemInt (atyE t) u ≤ elemInt (atyE t) v)
def rmwAdd : Rmw := ⟨0, true, fun t u v _ => some ((u + v) % 2 ^ etyW (atyE t))⟩
def rmwMin : Rmw := ⟨1, false, fun t u v _ => some (if atLe t u v then u else v)⟩
def rmwMax : Rmw := ⟨2, false, fun t u v _ => some (if atLe t u v then v else u)⟩
def rmwAnd : Rmw := ⟨3, false, fun _ u v _ => some (u &&& v)⟩
def rmwOr : Rmw := ⟨4, false, fun _ u v _ => some (u ||| v)⟩
def rmwXor : Rmw := ⟨5, false, fun _ u v _ => some (u ^^^ v)⟩
def rmwSwap : Rmw := ⟨6, true, fun _ _ v _ => some v⟩
def rmwCas : Rmw := ⟨7, true, fun _ u v z => if u = v then some z else none⟩
/-- The FN code of an atomic's type. -/
def atyCode (t : ATy) : Nat := etyCode (atyE t)
def isRel : Ord → Bool
  | .rel | .ar => true
  | _ => false
def isAcq : Ord → Bool
  | .acq | .ar => true
  | _ => false
/-- The atomic request packet of R247. -/
def pktAtomic (dv o code tcode v z : Nat) : Packet :=
  { pktBase 8 dv o with value := BitVec.ofNat 64 v, opnd2 := BitVec.ofNat 64 z, byteen := BitVec.ofNat 64 (code + 256 * tcode) }
/-- The first location of a place that lies in one piece. -/
def firstPiece (ps : List (Space × Nat × Nat)) : Space × Nat :=
  match ps with
  | p :: _ => (p.1, p.2.1)
  | [] => (.dram, 0)
/-- An atomic at its home, indivisibly (R192, R193, R204): the old value is the current one, which the party observes (R190), and the new
one is available to all. -/
def atHome (r : Rmw) (t : ATy) (q : Party) (part : Nat) (sp : Space) (ad v z : Nat) (s : State) : Nat × Bool × State :=
  let n := etyW (atyE t) / 8
  let old := ofBytes (curBytes s q sp ad n)
  let s1 := observeAll q s (rangeObs s q sp ad n)
  match r.f t old v z with
  | some x => (old, true, stamp (storeHome s1 q sp ad (bytesOf n x)) part sp ad n)
  | none => (old, false, s1)
/-- `amo` and `cas`: `c` is the new value of a `cas`, `x0` otherwise. Through a peer window the acquire comes with the answer (R193). -/
def atomic (r : Rmw) (a : At) (t : ATy) (sc : Scope) (o : Ord) (d x y c : SOp) (s : State) : State :=
  needQ a (popsS [x, y, c]) (pushS d) (fun s =>
    let (u, t1) := takeS a x s
    let (v, t2) := takeS a y t1
    let (z, t3) := takeS a c t2
    let n := etyW (atyE t) / 8
    let ea := u.toNat
    let v' := v.toNat % 2 ^ (8 * n)
    let z' := z.toNat % 2 ^ (8 * n)
    if ea % n ≠ 0 then trapMem a ⟨.misaligned, 0, ea⟩ s
    else withPlace a ea n true s t3 fun s1 p =>
      if regionOf ea = .host ∧ !r.hostOk then trapMem a ⟨.atomicTarget, 0, ea⟩ s
      else if !tagRoom s1 a (tagsOf a.k n p) || !portFree s1 a.k (piecesOf p) || ownOut s1 (partyOf a) then block a .other s
      else if isRel o && !relReady s (partyOf a) (lvlOf sc) then block a .other s
      else
        let rel := fun (s : State) => if isRel o then release s (partyOf a) (lvlOf sc) else s
        let acq := fun (s : State) => if isAcq o then acquire s (partyOf a) (lvlOf sc) else s
        match p with
        | .peer dv off =>
          awaitPeer a (retire a (sendAccess a (pktAtomic dv off r.code (atyCode t) v' z') (.scalar d (atyE t)) ea n
            (if isAcq o then some (lvlOf sc) else none) (rel s1)))
        | .home ps _ =>
          if piecesPoison s1 (partAt s1 a.k) ps then trapMem a ⟨.poisonConsumed, 0, ea⟩ s
          else
            let (sp, ad) := firstPiece ps
            let (old, wrote, s2) := atHome r t (partyOf a) (partAt s1 a.k) sp ad v' z' (rel s1)
            let s3 := meterIds a (memIds s a) mRD n s2
            let s4 := if wrote then meterIds a (memIds s a) mWR n s3 else s3
            retire a (putS a d (regOfElem (atyE t) old) (acq s4))) s
def execAmoAdd (t : ATy) (sc : Scope) (o : Ord) (d x y : SOp) (s : State) : Host.Outcome State Fault Refusal := onCl s fun a s =>
  atomic rmwAdd a t sc o d x y (.x 0) s
def execAmoMin (t : ATy) (sc : Scope) (o : Ord) (d x y : SOp) (s : State) : Host.Outcome State Fault Refusal := onCl s fun a s =>
  atomic rmwMin a t sc o d x y (.x 0) s
def execAmoMax (t : ATy) (sc : Scope) (o : Ord) (d x y : SOp) (s : State) : Host.Outcome State Fault Refusal := onCl s fun a s =>
  atomic rmwMax a t sc o d x y (.x 0) s
def execAmoAnd (t : ATy) (sc : Scope) (o : Ord) (d x y : SOp) (s : State) : Host.Outcome State Fault Refusal := onCl s fun a s =>
  atomic rmwAnd a t sc o d x y (.x 0) s
def execAmoOr (t : ATy) (sc : Scope) (o : Ord) (d x y : SOp) (s : State) : Host.Outcome State Fault Refusal := onCl s fun a s =>
  atomic rmwOr a t sc o d x y (.x 0) s
def execAmoXor (t : ATy) (sc : Scope) (o : Ord) (d x y : SOp) (s : State) : Host.Outcome State Fault Refusal := onCl s fun a s =>
  atomic rmwXor a t sc o d x y (.x 0) s
def execAmoSwap (t : ATy) (sc : Scope) (o : Ord) (d x y : SOp) (s : State) : Host.Outcome State Fault Refusal := onCl s fun a s =>
  atomic rmwSwap a t sc o d x y (.x 0) s
def execCas (t : ATy) (sc : Scope) (o : Ord) (d x y c : SOp) (s : State) : Host.Outcome State Fault Refusal := onCl s fun a s =>
  atomic rmwCas a t sc o d x y c s

/-! ### Waits (R202, R206, R314) -/

/-- Starts a wait, or looks at it again. `test` is what fires it now; a fired wait has given its slot back, and `done` completes the
syllable, which has observed the writes it fired on (R190). A wait without a slot queues for one. -/
def waitStep (a : At) (on : WaitOn) (test : State → Option Fire) (done : Fire → State → State) (s : State) : State :=
  let fin := fun (f : Fire) (s : State) => done f (observeAll (partyOf a) (modCtx s a fun t => { t with wait := none }) f.obs)
  match (ctxOf s a).wait with
  | some ⟨_, _, some f, _⟩ => fin f s
  | some ⟨_, true, none, _⟩ => block a .other s
  | _ =>
    if slotFree s a on then
      match test s with
      | some f => fin f s
      | none => block a .other (modCtx s a fun t => { t with wait := some ⟨on, true, none, false⟩ })
    else block a .other (queueWait a on s)
/-- Takes a wait that has not fired away; its syllable issues again later (R202). -/
def withdraw (s : State) (a : At) : State := modCtx s a fun t => { t with wait := t.wait.filter (·.fired.isSome) }
/-- A memory wait's place: device memory or near store (R206). -/
def waitPlace : Place → Option (Bool × Nat)
  | .home ((.dram, ad, _) :: _) _ => some (false, ad)
  | .home ((.near, ad, _) :: _) _ => some (true, ad)
  | _ => none
/-- The end of a `waitm` that fired: a poisoned value traps (R206). -/
def waitmDone (a : At) (t : ATy) (acq : Bool) (sc : Scope) (d : SOp) (pop : State → State) (ea : Nat) (f : Fire) (s : State) : State :=
  let n := etyW (atyE t) / 8
  if f.bad then trapMem a ⟨.poisonConsumed, 0, ea⟩ s
  else
    let s1 := meterIds a (memIds s a) mRD n (pop s)
    retire a (putS a d (regOfElem (atyE t) f.v.toNat) (if acq then acquire s1 (partyOf a) (lvlOf sc) else s1))
/-- `waitm`: its operands are popped when it fires (log entry 23). -/
def execWaitm (t : ATy) (c : MCond) (acq : Bool) (sc : Scope) (d x y : SOp) (s : State) : Host.Outcome State Fault Refusal := onCl s fun a s =>
  needQ a (popsS [x, y]) (pushS d) (fun s =>
    let (u, t1) := takeS a x s
    let (v, _) := takeS a y t1
    let pop := fun (s : State) => (takeS a y (takeS a x s).2).2
    let n := etyW (atyE t) / 8
    let ea := u.toNat
    match (ctxOf s a).wait with
    | some ⟨.mem nr ad t' c' b, sl, f, td⟩ =>
      waitStep a (.mem nr ad t' c' b) (memTest (partyOf a) (partAt s a.k) nr ad t' c' b) (waitmDone a t acq sc d pop ea) (modCtx s a fun x => { x with wait := some ⟨.mem nr ad t' c' b, sl, f, td⟩ })
    | _ =>
      if ea % n ≠ 0 then trapMem a ⟨.misaligned, 0, ea⟩ s
      else withPlace a ea n false s s fun s1 p =>
        match waitPlace p with
        | none => trapMem a ⟨.waitTarget, 0, ea⟩ s
        | some (nr, ad) =>
          if ownOut s1 (partyOf a) then block a .other s
          else waitStep a (.mem nr ad t c v) (memTest (partyOf a) (partAt s a.k) nr ad t c v) (waitmDone a t acq sc d pop ea) s1) s

end Sys2Proof.Machine
end

