-- ==== Sys2Proof/Machine/Peer.lean ====
section
/-! DEFINITION. Packets as they arrive: at the target, which checks and performs or parks them, and at the sender, whose answers they are
(R159, R247 to R250, R268). -/

namespace Sys2Proof.Machine

/-! ### The target (R158, R247, R248) -/

/-- VALUE of a fault return: the cause, the side and the type's code (log entry 26). -/
def faultValue (ty : FT) (cause side : Nat) : Word := BitVec.ofNat 64 (packFields [(8, cause), (8, side), (16, ftCode ty)])
/-- The type that a fault return names. -/
def faultType (v : Word) : FT := ([FT.pageFault, .addrUnmapped, .spadRange, .spadWindow].find? fun t => ftCode t == fld v.toNat 16 16).getD .addrUnmapped
/-- The packet comes from this device itself. -/
def isSelf (s : State) (p : Packet) : Bool := p.src == s.dev.mydev
/-- What waits here for the answer to a packet. -/
def waitsFor (dst xid : Nat) (o : Out) : Bool := o.sent && decide (o.why ≠ .answer) && o.p.xid.toNat == xid && o.p.dst.toNat == dst
/-- The own request that a packet to the own id is. -/
def selfOut (s : State) (p : Packet) : Option Out := if isSelf s p then s.out.find? (waitsFor s.dev.mydev.toNat p.xid.toNat) else none
/-- The party of a copy command. -/
def copyParty (s : State) (k id : Nat) : Party := cmdParty k uCopy (((cmdAt (coreAt s k) id).map (·.q)).getD 4) id
/-- The party of a packet's work: the sender's own party when it is this device, else that of the peer (log entry 27). -/
def packetParty (s : State) (p : Packet) : Party :=
  match selfOut s p with
  | none => .peer p.src.toNat
  | some o =>
    match o.why with
    | .access k c x _ _ _ _ _ _ => .cl k c x
    | .copyRead k id | .copyWrite k id => copyParty s k id
    | _ => .peer p.src.toNat
/-- The identities of a packet. -/
def packetIds (p : Packet) : List Nat := realIds (p.iset.map (·.toNat))
/-- The address that an offset of the window reaches (R158). -/
def windowVa (o : Nat) : Nat := if o < 0x3F00000000 then o else 0x800000000000 + (o - 0x3F00000000)
/-- Checks and translates the n bytes at an offset of the window, which lie to one side of offset 0x3F_0000_0000. -/
def targetRun (s : State) (p : Packet) (o n : Nat) (write : Bool) : State × Except AFault (List (Space × Nat × Nat)) :=
  let va := windowVa o
  if va < 0x100000000 then (s, .error ⟨.addrUnmapped, 0, va⟩)
  else match resolve s 64 .none (packetParty s p) p.part.toNat .device va n write with
  | (_, .error f) => (s, .error f)
  | (s1, .ok (.home ps _)) => (s1, .ok ps)
  | (_, .ok (.peer _ _)) => (s, .error ⟨.addrUnmapped, 0, va⟩)
/-- Checks and translates the range of a packet whole, each part where its offsets reach (R158, R248). -/
def targetPlace (s : State) (p : Packet) (n : Nat) (write : Bool) : State × Except AFault (List (Space × Nat × Nat)) :=
  let o := p.addr.toNat
  let lo := 0x3F00000000 - o
  if lo = 0 ∨ n ≤ lo then targetRun s p o n write
  else match targetRun s p o lo write with
  | (_, .error f) => (s, .error f)
  | (s1, .ok ps) =>
    match targetRun s1 p 0x3F00000000 (n - lo) write with
    | (_, .error f) => (s, .error f)
    | (s2, .ok qs) => (s2, .ok (ps ++ qs))
def answerFault (p : Packet) (ty : FT) (cause side : Nat) (s : State) : State := answer s { pktAnswer p 7 with value := faultValue ty cause side }
def answerAck (p : Packet) (v : Nat) (s : State) : State := answer s { pktAnswer p 6 with value := BitVec.ofNat 64 v }
/-- A peer's bytes at their home, available to all (log entry 27). -/
def putHome (s : State) (part : Nat) : List (Space × Nat × Nat) → List Byte → State
  | [], _ => s
  | (sp, a, n) :: ps, bs => putHome (stamp (storeDevice s sp a (bs.take n)) part sp a n) part ps (bs.drop n)
/-- The bytes of a write packet: a store of the sender's party when it is this device (R197, R250). -/
def putBytes (s : State) (p : Packet) (ps : List (Space × Nat × Nat)) (bs : List Byte) : State :=
  if (selfOut s p).isSome then writePieces s (packetParty s p) p.part.toNat 5 ps bs else putHome s p.part.toNat ps bs
/-- The bytes of granule 0 that a packet enables, one by one. -/
def putEnabled (p : Packet) (ps : List (Space × Nat × Nat)) (s : State) : State :=
  (List.range 64).foldl (fun s i => if p.byteen.getLsbD i then putBytes s p (slicePs ps i 1) [p.data.getD i 0] else s) s
/-- Marks the granules that the packet says are poisoned (R242); waits on them are tested again. -/
def markGrans (p : Packet) (ps : List (Space × Nat × Nat)) (s : State) : State :=
  if p.poison = 0 then s
  else pokeMem ((List.range (p.len.toNat + 1)).foldl (fun s g =>
    if p.poison.getLsbD g then (slicePs ps (64 * g) 64).foldl (fun s x => markPoison s x.1 x.2.1 true) s else s) s)
def performWrite (p : Packet) (s : State) : State :=
  match targetPlace s p (64 * (p.len.toNat + 1)) true with
  | (_, .error f) => answerFault p f.ty f.cause 1 s
  | (s1, .ok ps) =>
    answerAck p 0 (markGrans p ps (if p.byteen = 0 then putBytes s1 p ps (p.data.take (64 * (p.len.toNat + 1))) else putEnabled p ps s1))
/-- The granules of a list of pieces, and the poison bit of each. -/
def granBits (s : State) (part : Nat) (ps : List (Space × Nat × Nat)) (n : Nat) : Nat :=
  buildN 1 n fun g => b2n (piecesPoison s part (slicePs ps (64 * g) 64))
def performRead (p : Packet) (s : State) : State :=
  let n := p.len.toNat + 1
  match targetPlace s p (64 * n) false with
  | (_, .error f) => answerFault p f.ty f.cause 0 s
  | (s1, .ok ps) =>
    let q := packetParty s1 p
    let (bs, s2) := if (selfOut s1 p).isSome then readPieces s1 q ps else (ps.flatMap fun x => curBytes s1 q x.1 x.2.1 x.2.2, s1)
    answer s2 { pktAnswer p 3 with data := bs, len := p.len, poison := BitVec.ofNat 64 (granBits s1 p.part.toNat ps n) }
/-- A signal packet at its unit. -/
def performSignal (p : Packet) (s : State) : State :=
  let core := fld p.addr.toNat 8 6
  if !runsPart s p.part.toNat core then answerFault p .spadWindow 0 0 s
  else answerAck p 0 (sigApply s core (fld p.addr.toNat 0 8) (if p.op = 4 then .write else .add) p.value (((selfOut s p).map (·.obs)).getD []))
/-- The function and the type of an atomic request (R247). -/
def atomicFn (c : Nat) : Option Rmw := [rmwAdd, rmwMin, rmwMax, rmwAnd, rmwOr, rmwXor, rmwSwap, rmwCas][c]?
def atomicTy (c : Nat) : Option ATy := [ATy.i32, .n32, .i64, .n64].find? fun t => atyCode t == c
/-- An atomic request (R204, R205, R247): a poisoned old value is not replaced. -/
def performAtomic (p : Packet) (s : State) : State :=
  match atomicFn (fld p.byteen.toNat 0 8), atomicTy (fld p.byteen.toNat 8 4) with
  | some r, some t =>
    (match targetPlace s p (etyW (atyE t) / 8) true with
    | (_, .error f) => answerFault p f.ty f.cause 0 s
    | (s1, .ok ps) =>
      if piecesPoison s1 p.part.toNat ps then answer s1 { pktAnswer p 9 with poison := 1 }
      else
        let (sp, ad) := firstPiece ps
        let (old, _, s2) := atHome r t (packetParty s1 p) p.part.toNat sp ad p.value.toNat p.opnd2.toNat s1
        answer (if isSelf s p then s2 else emptySnap s2 (packetParty s1 p)) { pktAnswer p 9 with value := BitVec.ofNat 64 old })
  | _, _ => s
def performPkt (p : Packet) (s : State) : State :=
  if p.op = 1 then performWrite p s
  else if p.op = 2 then performRead p s
  else if p.op = 8 then performAtomic p s
  else performSignal p s
/-- Counts a packet or flit that a receiver drops (R247). -/
def countDrop (l : Nat) (s : State) : State := { s with links := sput s.links l { sget {} s.links l with drops := (sget {} s.links l).drops + 1 } }
/-- Every identity is halted in the partition (R268). -/
def allHalted (s : State) (part : Nat) (ids : List Nat) : Bool :=
  !ids.isEmpty && ids.all fun i => rqLive s part i && decide ((rqAt s i).st = .halted)
/-- The packet writes to a core that takes no inbound write: to its signal unit, or to its scratchpad (R298, R302, R313). -/
def portShut (s : State) (p : Packet) : Bool :=
  if p.op = 4 ∨ p.op = 5 then coreShut (coreAt s (fld p.addr.toNat 8 6))
  else if p.op = 1 ∨ p.op = 8 then
    match (targetPlace s p (if p.op = 1 then 64 * (p.len.toNat + 1) else 8) true).2 with
    | .ok ps => !portFree s 64 ps
    | .error _ => false
  else false
/-- A packet of its own that has reached this device. -/
def markGot (p : Packet) (s : State) : State :=
  { s with out := s.out.map fun o => if isSelf s p && waitsFor s.dev.mydev.toNat p.xid.toNat o then { o with got := true } else o }
/-- A packet that cannot be performed yet waits at its port, or for the device, which wakes for it; one of this device comes again by itself. -/
def holdPacket (p : Packet) (s : State) : State :=
  let s1 := modDev s fun d => { d with hbmWaking := d.hbmWaking || d.l3 }
  if isSelf s p then s1 else { s1 with linkWait := s1.linkWait ++ [p] }
/-- A request packet reaches its target: dropped for its header or without a key, parked when its identities are halted, or performed
(R247, R268). It waits while the port of the core that it writes to is shut, and while the device wakes. -/
def arrive (op : Nat) (p : Packet) (s : State) : State :=
  let part := p.part.toNat
  if p.dst ≠ s.dev.mydev then s
  else if !headerOk p then countDrop ((linkOf s p.src.toNat).getD 0) s
  else if p.op ≠ BitVec.ofNat 8 op then s
  else if isSelf s p && (match selfOut s p with | some o => o.got | none => true) then s
  else if !(partRec s part).live || !inSet s part p.src.toNat then countDrop ((linkOf s p.src.toNat).getD 0) (markGot p s)
  else if portShut s p || s.dev.l3 then holdPacket p s
  else
    let s1 := markGot p s
    if allHalted s part (packetIds p) then
      if s.park.length < 1024 then answerAck p 1 { s1 with park := s1.park ++ [p] } else answerFault p .addrUnmapped 0xFF 0 s1
    else performPkt p s1
def execPeerWrite (p : Packet) (s : State) : Host.Outcome State Fault Refusal := onDev s fun s => arrive 1 p s
def execPeerReadRequest (p : Packet) (s : State) : Host.Outcome State Fault Refusal := onDev s fun s => arrive 2 p s
def execPeerSignalWrite (p : Packet) (s : State) : Host.Outcome State Fault Refusal := onDev s fun s => arrive 4 p s
def execPeerSignalAdd (p : Packet) (s : State) : Host.Outcome State Fault Refusal := onDev s fun s => arrive 5 p s
def execPeerAtomicRequest (p : Packet) (s : State) : Host.Outcome State Fault Refusal := onDev s fun s => arrive 8 p s

/-! ### The sender (R159, R248, R258, R268) -/

/-- The work that a packet answers, unless it stands at a record or waits to be sent again. -/
def answered (s : State) (p : Packet) : Option Out :=
  s.out.find? fun o => waitsFor p.src.toNat p.xid.toNat o && o.stop.isNone && !o.retry && o.p.src == p.dst
def dropOut (o : Out) (s : State) : State := { s with out := s.out.filter (· ≠ o) }
def setOut (o o' : Out) (s : State) : State := { s with out := s.out.map fun x => if x = o then o' else x }
def outIds (o : Out) : List Nat := packetIds o.p
def meterOut (o : Out) (m n : Nat) (s : State) : State := meter s o.p.part.toNat (outIds o) m n
/-- A halt takes the waits of a core's clusters away, and an idle K goes on (R202, `idle` of 04). -/
def haltCore (k : Nat) (s : State) : State :=
  let s1 := modCore s k fun o => { o with k := { o.k with idling := false } }
  clusters.foldl (fun s c => withdraw s ⟨k, c, .user⟩) s1
/-- The result of an access of a context of the core is on its way (R108). -/
def resultOf (ok : Cluster → CtxK → Bool) (k : Nat) (o : Out) : Bool :=
  o.stop.isNone && (match o.why with
    | .access k' c x _ d _ _ _ _ => k' == k && ok c x && decide (d ≠ .none)
    | _ => false)
def resultOut (s : State) (k : Nat) (ok : Cluster → CtxK → Bool) : Bool := s.out.any (resultOf ok k)
/-- A debugger halt that waits for the results of its core takes effect when the last has come (R108, R302). -/
def settleHalt (k : Nat) (s : State) : State :=
  match (coreAt s k).dbgNext with
  | some (q, r) =>
    if (coreAt s k).preempt || resultOut s k (fun _ x => x != .pager) then s
    else haltCore k (modCore s k fun o => { o with dbgQuiet := q, dbgPorous := r, dbgNext := none })
  | none => s
/-- An access of K or A is over: the cluster that waited for it goes on. -/
def wake (k : Nat) (c : Cluster) (x : CtxK) (d : PDest) (s : State) : State :=
  if d = .none then s else settleHalt k (modCtx s ⟨k, c, x⟩ fun t => { t with peerWait := false })
/-- The result of an access: into its register, or into the entry that it reserved (R107, R109). -/
def putLate (a : At) (f : SOp) (v : Word) (s : State) : State :=
  match f with
  | .x n => setX s a n.val v
  | .q n => modCore s a.k fun o => fillLate o (sq n) a.x (obsOf s (partyOf a)) v
/-- An access gives up the entry that it reserved. -/
def giveUp (a : At) (d : PDest) (s : State) : State := (destQ d).foldl (fun s q => modCore s a.k fun o => dropLate o q a.x) s
/-- Work without its effect: a destination keeps its value, a reserved queue entry holds 0, a store or signal is dropped, an iteration
is skipped (R159, R258, R268). -/
def discardOut (o : Out) (s : State) : State :=
  let s1 := dropOut o s
  match o.why with
  | .access k c x _ d _ _ _ _ =>
    wake k c x d (match d with
      | .scalar (.q n) _ => putLate ⟨k, c, x⟩ (.q n) 0 s1
      | .vector q _ => pushedV ⟨k, c, x⟩ q 0 (giveUp ⟨k, c, x⟩ d s1)
      | _ => s1)
  | .pkt _ _ _ _ _ => if unsent o then letGo o s1 else s1
  | .copyRead k id | .copyWrite k id =>
    (match cmdAt (coreAt s1 k) id with
    | some c => skipIter k c s1
    | none => s1)
  | _ => s1
/-- An acknowledgment of work that has been performed. -/
def ackDone (o : Out) (s : State) : State :=
  let s1 := dropOut o s
  match o.why with
  | .access k c x _ d _ _ n _ => wake k c x d (giveUp ⟨k, c, x⟩ d <| meterOut o mLINK 512 (if d = .none then meterOut o mWR n s1 else s1))
  | .pkt _ _ _ _ _ | .csig _ _ _ _ => meterOut o mLINK 512 s1
  | .copyWrite k id =>
    (match cmdAt (coreAt s1 k) id with
    | some c => if c.phase = 3 then setCmd k { c with phase := 4 } s1 else s1
    | none => s1)
  | _ => s1
/-- The record of a fault that comes back for an access of K or A (R159). -/
def accessRec (s : State) (o : Out) (k : Nat) (c : Cluster) (wh addr raw : Nat) (ty : FT) (cause : Nat) : FRec :=
  withLaunch s k { ty := ty, cause := cause, core := k, cluster := cnum c, wh := wh % 2 ^ 15, rq := oneId (outIds o), addr := addr, raw := raw
                   peer := o.p.dst.toNat, far := true, who := .xid o.p.xid.toNat }
/-- The packet stands at a record. The pager's own fault ends its service (R293). -/
def stopAccess (o : Out) (k : Nat) (c : Cluster) (x : CtxK) (d : PDest) (r : FRec) (s : State) : State :=
  if x = .pager then wake k c x d (giveUp ⟨k, c, x⟩ d (dropOut o (pagerFail s k (ftCode r.ty) r.wh 0)))
  else
    let (t, s1) := raise s r
    settleHalt k (setOut o { o with stop := some t } s1)
/-- What the party reads of an answer at offset `off` of the window: what its phase has fixed, else the answer, which it fixes; with the own
id as the peer the packet's work did so at the location (R191). -/
def peerRead (o : Out) (q : Party) (off : Nat) (bs : List Byte) (s : State) : List Byte × State :=
  if o.p.dst = s.dev.mydev then (bs, s)
  else
    let r := peerBytes s q o.p.dst.toNat off bs
    (r, fixPeer s q o.p.dst.toNat off r)
/-- The data of a load (R159, R176). -/
def loadDone (o : Out) (a : At) (wh : Nat) (d : PDest) (addr raw n : Nat) (p : Packet) (s : State) : State :=
  let l : Loc := ⟨a.k, cnum a.c, wh⟩
  let done := fun (s : State) => wake a.k a.c a.x d (meterOut o mLINK 512 (meterOut o mRD n (dropOut o s)))
  match d with
  | .scalar f t =>
    let bad := p.poison.getLsbD 0
    if bad && errInt t then stopAccess o a.k a.c a.x d (accessRec s o a.k a.c wh addr raw .poisonConsumed 0) s
    else
      let (bs, s1) := peerRead o (partyOf a) (o.p.addr.toNat + addr % 64) ((p.data.drop (addr % 64)).take n) (done s)
      putLate a f (regOfElem t (if bad then poisonEl t l else ofBytes bs)) s1
  | .vector q t =>
    let bad := (List.range 512).map fun i => p.poison.getLsbD (i / 64)
    let (bs, s0) := peerRead o (partyOf a) o.p.addr.toNat (p.data.take 512) (done s)
    let e := BitVec.ofNat 4096 (ofBytes (fillPoison t l bs bad))
    let s1 := pushedV a q e (giveUp a d s0)
    if errInt t && bad.any id then
      (let (tk, s2) := raise s1 { accessRec s o a.k a.c wh addr raw .poisonConsumed 0 with who := .cl a.k a.c }
       modClu s2 a.k a.c fun u => { u with stop := some tk })
    else s1
  | .none => done s
/-- A read response: a load's data, or the granules of a copy iteration. -/
def readDone (o : Out) (p : Packet) (s : State) : State :=
  match o.why with
  | .access k c x wh d addr raw n _ => loadDone o ⟨k, c, x⟩ wh d addr raw n p s
  | .copyRead k id =>
    (match cmdAt (coreAt s k) id with
    | some c =>
      if c.phase = 1 then
        let (bs, s1) := peerRead o (copyParty s k id) o.p.addr.toNat p.data (dropOut o s)
        setCmd k { c with phase := 2, got := bs, gotPoison := p.poison.toNat } s1
      else dropOut o s
    | none => dropOut o s)
  | _ => s
/-- What an atomic packet has written at its peer, given the old value (R204, R205). -/
def atomicNew (p : Packet) (old : Nat) : Option (Nat × Nat) :=
  match atomicFn (fld p.byteen.toNat 0 8), atomicTy (fld p.byteen.toNat 8 4) with
  | some r, some t => (r.f t old p.value.toNat p.opnd2.toNat).map fun x => (etyW (atyE t) / 8, x)
  | _, _ => none
/-- An atomic response: the old value, or its poison (R159). What it wrote is the party's own value of the phase, and then comes its
acquire (R191, R193). -/
def atomicDone (o : Out) (p : Packet) (s : State) : State :=
  match o.why with
  | .access k c x wh (.scalar f t) addr raw n acq =>
    let d := PDest.scalar f t
    if p.poison.getLsbD 0 then stopAccess o k c x d (accessRec s o k c wh addr raw .poisonConsumed 0) s
    else
      let q := Party.cl k c x
      let s1 := meterOut o mLINK 512 (meterOut o mRD n (dropOut o s))
      let s2 := match atomicNew o.p p.value.toNat with
        | some (w, v) =>
          let s2 := meterOut o mWR n s1
          if o.p.dst = s.dev.mydev then s2 else fixPeer s2 q o.p.dst.toNat o.p.addr.toNat (bytesOf w v)
        | none => s1
      let s3 := match acq with
        | some l => acquire s2 q l
        | none => s2
      putLate ⟨k, c, x⟩ f (regOfElem t p.value.toNat) (wake k c x d s3)
  | _ => s
/-- Where an iteration goes on after its packet failed: after a timeout the packet goes out again, a write with the data that it holds; else
the iteration runs again (R241). -/
def backCmd (o : Out) (ty : FT) (c : Cmd) : Cmd :=
  if ty = .linkTimeout ∧ c.phase = 3 then { c with phase := 2, got := o.p.data, gotPoison := o.p.poison.toNat, flits := c.flits - (flitsOf c.run + 1) }
  else { c with phase := 0, flits := 0, got := [], gotPoison := 0 }
/-- A packet whose work failed: its record (R159, R241, R248, R254, R258). -/
def failOut (o : Out) (ty : FT) (cause : Nat) (s : State) : State :=
  match o.why with
  | .access k c x wh d addr raw _ _ => stopAccess o k c x d (accessRec s o k c wh addr raw ty cause) s
  | .pkt k _ wh rqi raw =>
    let (t, s1) := raise s (withLaunch s k { ty := ty, cause := cause, core := k, wh := wh % 2 ^ 15, rq := rqi, raw := raw, peer := o.p.dst.toNat, far := true
                                             who := .xid o.p.xid.toNat })
    setOut o { o with stop := some t } s1
  | .csig k q raw _ =>
    let (t, s1) := raise s (withLaunch s k { ty := ty, cause := cause, unit := uCopy, queue := q, core := k, wh := locWhere uCopy (q - 4), rq := oneId (outIds o)
                                             raw := raw, peer := o.p.dst.toNat, far := true, who := .xid o.p.xid.toNat })
    setOut o { o with stop := some t } s1
  | .copyRead k id =>
    (match cmdAt (coreAt s k) id with
    | some c => stopCmd k (backCmd o ty c) ⟨ty, cause, 0⟩ (some o.p.dst.toNat) 0 (dropOut o s)
    | none => dropOut o s)
  | .copyWrite k id =>
    (match cmdAt (coreAt s k) id with
    | some c => stopCmd k (backCmd o ty c) ⟨ty, cause, 0⟩ (some o.p.dst.toNat) 1 (dropOut o s)
    | none => dropOut o s)
  | .answer => s
/-- An answer reaches the sender. -/
def takeAnswer (p : Packet) (o : Out) (s : State) : State :=
  if p.op = 6 then
    (if p.value = 1 then setOut o { o with parked := true } s
     else if p.value = 2 then discardOut o s
     else ackDone o s)
  else if p.op = 3 then readDone o p s
  else if p.op = 9 then atomicDone o p s
  else if p.op = 7 then
    (if fld p.value.toNat 0 8 = 0xFF then setOut o { o with retry := true } s
     else failOut o (faultType p.value) (fld p.value.toNat 0 8) s)
  else s
/-- An own answer that has reached this device is no longer on its way. -/
def takeOwn (p : Packet) (s : State) : State := if isSelf s p then { s with out := s.out.filter fun o => !(decide (o.why = .answer) && o.p == p) } else s
def isAccess (o : Out) : Bool :=
  match o.why with
  | .access _ _ _ _ _ _ _ _ _ => true
  | _ => false
/-- An answer packet with one of the named operations, for work that a test accepts. -/
def answerPkt (ops : List Nat) (ok : Out → Bool) (p : Packet) (s : State) : State :=
  if !ops.contains p.op.toNat || p.dst != s.dev.mydev then s
  else if !headerOk p then countDrop ((linkOf s p.src.toNat).getD 0) (takeOwn p s)
  else match answered s p with
  | some o => if ok o then takeAnswer p o (takeOwn p s) else s
  | none => takeOwn p s
def execPeerReadResponse (p : Packet) (s : State) : Host.Outcome State Fault Refusal := onDev s fun s => answerPkt [3] (fun _ => true) p s
def execPeerAcknowledgment (p : Packet) (s : State) : Host.Outcome State Fault Refusal := onDev s fun s => answerPkt [6] (fun _ => true) p s
def execPeerFaultReturn (p : Packet) (s : State) : Host.Outcome State Fault Refusal := onDev s fun s => answerPkt [7] (fun _ => true) p s
def execPeerAtomicResponse (p : Packet) (s : State) : Host.Outcome State Fault Refusal := onDev s fun s => answerPkt [9] (fun _ => true) p s
def execPeerAccessAnswer (p : Packet) (s : State) : Host.Outcome State Fault Refusal := onDev s fun s => answerPkt [3, 6, 7, 9] isAccess p s
/-- A packet of its own waits at the port of one of its cores (R302). -/
def atPort (s : State) (o : Out) : Bool := isSelf s o.p && !o.got && portShut s o.p
/-- No answer in time (R159, R247): not for a packet that is parked, waits to be sent again, stands at a record, or waits at a port that a halt
keeps shut (R302). -/
def execLinkTimeout (xid : Nat) (s : State) : Host.Outcome State Fault Refusal := onDev s fun s =>
  match s.out.find? fun o => o.sent && decide (o.why ≠ .answer) && o.p.xid.toNat == xid && !o.parked && !o.retry && o.stop.isNone && !atPort s o with
  | some o => failOut o .linkTimeout 0 s
  | none => s
/-- Sends a packet again; a signal packet of K to a device outside the partition's device set is not sent this time either (R158, R258). -/
def sendAgain (o : Out) (s : State) : State := trySend (setOut o { o with sent := false, got := false, parked := false, retry := false, again := true, stop := none } s)
def resend (o : Out) (s : State) : State :=
  match o.why with
  | .pkt k _ wh rqi raw =>
    if inSet s o.p.part.toNat o.p.dst.toNat then sendAgain o s
    else
      let (t, s1) := raise s (withLaunch s k { ty := .pageFault, cause := 3, core := k, wh := wh % 2 ^ 15, rq := rqi, raw := raw, who := .xid o.p.xid.toNat })
      setOut o { o with stop := some t, retry := false } s1
  | _ => sendAgain o s
/-- A packet that a full park store turned away goes out again, unless its request is halted here (R268). -/
def execParkStoreRetry (xid : Nat) (s : State) : Host.Outcome State Fault Refusal := onDev s fun s =>
  match s.out.find? fun o => o.retry && o.p.xid.toNat == xid with
  | some o => if allStopped s o.p.part.toNat (outIds o) then s else resend o s
  | none => s

/-! ### Links (R247, R249, R392) -/

/-- Answers to other devices leave the list, first sent first, as the receiver drains their flits. -/
def drainAnswers (s : State) (l : Nat) : Nat → List Out → List Out
  | _, [] => []
  | n, o :: os =>
    if 0 < n ∧ o.why = .answer ∧ o.sent ∧ o.p.dst ≠ s.dev.mydev ∧ linkOf s o.p.dst.toNat = some l then drainAnswers s l (n - pktFlits o.p) os
    else o :: drainAnswers s l n os
/-- Credits come back, of answers or of requests; packets that wait for them go out. -/
def execLinkCreditReturn (link n : Nat) (answers : Bool) (s : State) : Host.Outcome State Fault Refusal := onDev s fun s =>
  let v := sget {} s.links link
  let s1 := { s with links := sput s.links link { v with used := v.used - n } }
  trySend (if answers then { s1 with out := drainAnswers s link n s1.out } else s1)
/-- A flit that fails its check is dropped and counted; the sender's link layer sends it again. -/
def execLinkFlitDrop (link : Nat) (s : State) : Host.Outcome State Fault Refusal := onDev s fun s => countDrop link s
/-- A trigger flit of a peer of the partition starts an event, or is missed (R392). -/
def execLinkTriggerFlit (part : FlitFrom) (tag : BitVec 32) (s : State) : Host.Outcome State Fault Refusal := onDev s fun s =>
  if (partRec s part.part).live && part.src != s.dev.mydev && inSet s part.part part.src.toNat then (trigger s tag.toNat).2 else s

end Sys2Proof.Machine
end

