-- ==== Sys2Proof/Machine/Granary.lean ====
section
/-! DEFINITION. The granary and the threshers: arenas and slots, appends, pins, merges, re-encoding, their engine words and `kslot`
(16). -/

namespace Sys2Proof.Machine

/-- The party of a thresher command: its number and the pushing core. -/
def thParty (st id core : Nat) : Party := .thr st (64 * id + core)
def thOfCore (core : Nat) : Party → Bool
  | .thr _ i => i % 64 == core
  | _ => false

/-! ### Arenas (R334, R335) -/

/-- The streams of an arena group. -/
structure Arena where
  key : SFld
  val : SFld
  side : SFld
  deriving DecidableEq, Repr
def arenaOf (srs : List SReg) : Arena := ⟨sfld (srs.getD 0 0), sfld (srs.getD 1 0), sfld (srs.getD 2 0)⟩
/-- The checks of R334. -/
def arenaOk (a : Arena) : Bool :=
  a.key.space == 2 && a.val.space == 2 && a.side.space == 2 && streamOk a.key && streamOk a.val && streamOk a.side &&
  a.key.e1 == a.val.e1 && a.key.e2 == a.val.e2 && a.side.e1 == a.key.e1 &&
  decide (1 ≤ a.side.e2) && decide (a.side.e2 ≤ 4096) && decide ((1 + cdiv a.key.e1 64 : Int) ≤ a.side.sl)
def slotsOf (a : Arena) : Nat := a.side.e2
def headsOf (a : Arena) : Nat := a.key.e2
/-- The address of head row (s, p, h), and of a slot's side area. -/
def rowAt (f : SFld) (s p h : Nat) : Int := addr64 (stepAddr f (s : Int) (p : Int) (h : Int))
def sideAt (a : Arena) (s : Nat) : Int := addr64 ((a.side.base : Int) + (s : Int) * a.side.sl * 64)
/-- The granule of a slot's multiplicity bytes that holds position p, and the byte in it. -/
def multAt (a : Arena) (s p : Nat) : Int := sideAt a s + 64 + (p : Int)

/-! ### Places of a thresher command (R336) -/

/-- What a thresher's access meets: bytes with the granules' poison, or a fault. -/
abbrev ThRes (α : Type) := State × Except AFault α
/-- What a command sees of another command's stores at the locations it addresses, with the other's stores before them, is required for it
(R194, R344; log entry 90). -/
def seeTh (q : Party) (ps : List (Space × Nat × Nat)) (s : State) : State :=
  let seen := (s.pend.filter fun w => w.lvl == 0 && w.who != q && ownOf w.who q &&
    ps.any fun p => decide (p.1 = w.sp) && decide (w.addr < p.2.1 + p.2.2) && decide (p.2.1 < w.addr + w.bytes.length)).map (·.who)
  if seen.isEmpty then s else requireOf s q fun p => seen.contains p
/-- The place of an arena's bytes: every page of them lies on the home's stack (R336). -/
def arenaPlace (s : State) (st core : Nat) (q : Party) (f : SFld) (addr : Int) (n : Nat) (write : Bool) : ThRes (List (Space × Nat × Nat) × Nat) :=
  match engPlace s core .none q .device f false .addrUnmapped .spadRange addr n write with
  | (_, .error e) => (s, .error e)
  | (s1, .ok p) =>
    match p with
    | .home ps l => if ps.all fun x => pieceHome x == some st then (seeTh q ps s1, .ok (ps, l)) else (s, .error ⟨.arenaSplit, 0, addr.toNat⟩)
    | _ => (s, .error ⟨.arenaSplit, 0, addr.toNat⟩)
def thPlace (s : State) (core : Nat) (q : Party) (f : SFld) (addr : Int) (n : Nat) (write : Bool) : ThRes (List (Space × Nat × Nat) × Nat) :=
  match engPlace s core .none q .device f true .addrUnmapped .spadRange addr n write with
  | (_, .error e) => (s, .error e)
  | (s1, .ok (.home ps l)) => (s1, .ok (ps, l))
  | (_, .ok (.peer _ _)) => (s, .error ⟨.addrUnmapped, 0, addr.toNat⟩)
/-- Reads through a place: the bytes and whether some granule is poisoned. -/
def readPlace (s : State) (part : Nat) (q : Party) (r : ThRes (List (Space × Nat × Nat) × Nat)) : ThRes (List Byte × List Bool) :=
  match r with
  | (_, .error e) => (s, .error e)
  | (s1, .ok (ps, _)) =>
    let bad := poisonFlags s1 part ps
    let (bs, s2) := readPieces s1 q ps
    (s2, .ok (bs, bad))
/-- Writes through a place that has been checked; a fault here cannot arise, and writes nothing. -/
def writePlace (s : State) (part : Nat) (q : Party) (r : ThRes (List (Space × Nat × Nat) × Nat)) (bs : List Byte) (bad : Bool) : State :=
  match r with
  | (_, .error _) => s
  | (s1, .ok (ps, l)) =>
    let s2 := writePieces s1 q part l ps bs
    if bad then ps.foldl (fun s p => markPoison s p.1 p.2.1 true) s2 else s2

/-! ### Slot headers -/

structure Hdr where
  len : Nat
  cold : Nat
  cfmt : Nat
  merged : Nat
  deriving DecidableEq, Repr
def hdrOf (bs : List Byte) : Hdr := let x := ofBytes bs; ⟨fld x 0 32, fld x 32 32, fld x 64 8, fld x 96 32⟩
/-- The fields of a header written into its first sixteen bytes; the reserved bits keep what they held. -/
def hdrBytes (old : List Byte) (h : Hdr) : List Byte :=
  let x := ofBytes old
  bytesOf 16 (packFields [(32, h.len), (32, h.cold), (8, h.cfmt), (24, fld x 72 24), (32, h.merged)])

/-! ### Commands at a thresher -/

def setTh (st : Nat) (c : ThCmd) (s : State) : State := modThr s st fun t => { t with cmds := t.cmds.map fun x => if x.id == c.id then c else x }
/-- A command completes or is discarded: an exclusive pin that it holds is free (R340). -/
def endTh (st : Nat) (c : ThCmd) (s : State) : State :=
  let s1 := modThr (dropPins (thOwner c.id) (emptySnap s (thParty st c.id c.core))) st fun t =>
    { t with cmds := t.cmds.filter (fun x => x.id != c.id), waiting := t.waiting.filter fun r => r.forThr != some c.id }
  modEng s1 c.core fun e => { e with thOut := e.thOut.filter (· != c.id) }
def stopTh (st : Nat) (c : ThCmd) (f : AFault) (s : State) : State :=
  let (t, s1) := raise s { engRec s c.core uThresher 8 0 c.word [c.word.rqi] f [] 0 (.thr st c.id) with rq := c.word.rqi }
  setTh st { c with stop := some t } s1
/-- Granules go to the pushing identity (R342). -/
def meterTh (c : ThCmd) (rd wr : Nat) (s : State) : State :=
  meter (meter s c.part [c.word.rqi] mRD (64 * rd)) c.part [c.word.rqi] mWR (64 * wr)

/-! ### k.append (R344) -/

/-- The stream of the row list. -/
def listFld (c : ThCmd) : SFld := sfld (c.srs.getD 5 0)
def listEntry (s : State) (c : ThCmd) (q : Party) (r : Nat) (write : Bool) : ThRes (List (Space × Nat × Nat) × Nat) :=
  thPlace s c.core q { listFld c with swzc := 0 } ((listFld c).base + 4 * (r : Int)) 4 write
/-- Writes the status byte of a row. -/
def rowStatus (st : Nat) (c : ThCmd) (r v : Nat) (s : State) : State :=
  let q := thParty st c.id c.core
  match listEntry s c q r true with
  | (_, .error _) => s
  | (s1, .ok (ps, l)) => writePieces s1 q c.part l (slicePs1 ps) [BitVec.ofNat 8 v]
where
  /-- The fourth byte of an entry. -/
  slicePs1 (ps : List (Space × Nat × Nat)) : List (Space × Nat × Nat) :=
    match ps with
    | (sp, a, _) :: _ => [(sp, a + 3, 1)]
    | [] => []
/-- Reads a list of rows of head rows: bytes with their poison. -/
def readRows (s : State) (part : Nat) (q : Party) (place : State → Nat → ThRes (List (Space × Nat × Nat) × Nat)) : List Nat → ThRes (List (List Byte × List Bool))
  | [] => (s, .ok [])
  | h :: hs =>
    match readPlace s part q (place s h) with
    | (_, .error e) => (s, .error e)
    | (s1, .ok x) =>
      match readRows s1 part q place hs with
      | (_, .error e) => (s, .error e)
      | (s2, .ok l) => (s2, .ok (x :: l))
/-- Checks the pages of a list of rows before anything is written. -/
def checkRows (s : State) (place : State → Nat → ThRes (List (Space × Nat × Nat) × Nat)) : List Nat → ThRes Unit
  | [] => (s, .ok ())
  | h :: hs =>
    match place s h with
    | (_, .error e) => (s, .error e)
    | (s1, .ok _) => checkRows s1 place hs
/-- What an append checks of its sources and its row list (R172, R344). -/
def appendFault (srs : List SReg) : Option FT :=
  let f := sfld (srs.getD 5 0)
  if !streamOk (sfld (srs.getD 3 0)) || !streamOk (sfld (srs.getD 4 0)) || 1 < f.space || f.base % 64 != 0 then some .streamInvalid else none
/-- An append that has not completed names the slot in a row to come (R338). -/
def appendNames (s : State) (st : Nat) (c : ThCmd) (slot : Nat) : Bool :=
  match c.i with
  | .kAppend _ _ _ _ n => (List.range (n.toNat - c.row)).any fun i =>
      match readPlace s c.part (thParty st c.id c.core) (listEntry s c (thParty st c.id c.core) (c.row + i) false) with
      | (_, .ok (eb, _)) => fld (ofBytes eb) 0 12 == slot
      | (_, .error _) => false
  | _ => false
/-- An append that arrived earlier has a row to come for the slot: positions are taken in order of arrival (R344). -/
def earlierNames (s : State) (st : Nat) (c : ThCmd) (slot : Nat) : Bool :=
  (thrAt s st).cmds.any fun d => decide (d.id < c.id) && d.part == c.part && appendNames s st d slot
/-- The source rows of row r of an append: a row at or past E1 of a SPACE 2 stream with BND reads zeros (R170). -/
def sourceRows (s : State) (c : ThCmd) (q : Party) (f : SFld) (r size : Nat) (hs : List Nat) : ThRes (List (List Byte × List Bool)) :=
  if zeroStep f r then (s, .ok (hs.map fun _ => (List.replicate size 0, [])))
  else readRows s c.part q (fun s h => thPlace s c.core q f (rowAt f 0 r h) size false) hs
/-- How a row of an append ends: it waits for an exclusive pin or an earlier append, meets a fault, or is done. -/
inductive RowRes | wait | fault (f : AFault) | done (s : State)
def appendRow (st : Nat) (c : ThCmd) (rg r : Nat) (s : State) : RowRes :=
  let a := arenaOf c.srs
  let q := thParty st c.id c.core
  let H := headsOf a
  let ksrc := sfld (c.srs.getD 3 0)
  let vsrc := sfld (c.srs.getD 4 0)
  let size := 64 * rg
  match appendFault c.srs with
  | some ty => .fault ⟨ty, 0, 0⟩
  | none =>
  match readPlace s c.part q (listEntry s c q r true) with
  | (_, .error f) => .fault f
  | (s1, .ok (eb, _)) =>
    let e := ofBytes eb
    let sl := fld e 0 12
    let status := fun (v : Nat) (s : State) => rowStatus st c r v s
    if fld e 12 4 ≠ 0 ∨ slotsOf a ≤ sl then .done (status 2 s1)
    else if exclHeld (thrAt s st) c.part sl || exclWaits (thrAt s st) c.part sl c.id || earlierNames s st c sl then .wait
    else match readPlace s1 c.part q (arenaPlace s1 st c.core q a.side (sideAt a sl) 64 true) with
    | (_, .error f) => .fault f
    | (s2, .ok (hb, _)) =>
      let h := hdrOf hb
      if h.len = a.key.e1 then .done (status 1 s2)
      else
        let hs := List.range H
        match sourceRows s2 c q ksrc r size hs with
        | (_, .error f) => .fault f
        | (s3, .ok ks) =>
          match sourceRows s3 c q vsrc r size hs with
          | (_, .error f) => .fault f
          | (s4, .ok vs) =>
            if (ks ++ vs).any fun x => x.2.any id then .done (status 3 s4)
            else
              let p := h.len
              let kp := fun (s : State) (h : Nat) => arenaPlace s st c.core q a.key (rowAt a.key sl p h) size true
              let vp := fun (s : State) (h : Nat) => arenaPlace s st c.core q a.val (rowAt a.val sl p h) size true
              match checkRows s4 kp hs with
              | (_, .error f) => .fault f
              | (s5, .ok _) =>
                match checkRows s5 vp hs with
                | (_, .error f) => .fault f
                | (s6, .ok _) =>
                  match arenaPlace s6 st c.core q a.side (multAt a sl p) 1 true with
                  | (_, .error f) => .fault f
                  | (s7, .ok _) =>
                    let w1 := (hs.zip ks).foldl (fun s x => writePlace s c.part q (kp s x.1) x.2.1 false) s7
                    let w2 := (hs.zip vs).foldl (fun s x => writePlace s c.part q (vp s x.1) x.2.1 false) w1
                    let m := if fld e 16 8 = 0 then 1 else fld e 16 8
                    let w3 := writePlace w2 c.part q (arenaPlace w2 st c.core q a.side (multAt a sl p) 1 true) [BitVec.ofNat 8 m] false
                    let w4 := writePlace w3 c.part q (arenaPlace w3 st c.core q a.side (sideAt a sl) 16 true) (hdrBytes hb { h with len := p + 1 }) false
                    let read := (if zeroStep ksrc r then 0 else H * rg) + (if zeroStep vsrc r then 0 else H * rg)
                    .done (meterTh c (2 + read) (3 + 2 * H * rg) (status 0 w4))
/-- The rows of an append from its next row on. -/
def runAppend (st rg : Nat) : Nat → ThCmd → State → State
  | 0, c, s => endTh st c s
  | n + 1, c, s =>
    match appendRow st c rg c.row s with
    | .wait => setTh st c s
    | .fault f => stopTh st c f s
    | .done s1 => runAppend st rg n { c with row := c.row + 1 } (setTh st { c with row := c.row + 1 } s1)

/-! ### t.merge (R346) -/

/-- A position of a slot: the fp16 elements of its head rows, its multiplicity, and the poison of its granules. -/
structure Tok where
  key : List Nat
  val : List Nat
  m : Nat
  kbad : List Bool
  vbad : List Bool
  deriving DecidableEq, Repr
def halves (bs : List Byte) : List Nat := (List.range (bs.length / 2)).map fun i => elemN 16 (ofBytes (bs.drop (2 * i) |>.take 2)) 0
def halfBytes (xs : List Nat) : List Byte := xs.flatMap (bytesOf 2)
/-- fp16 to fp32, exact but for a NaN's layout (R73). -/
def h32 (l : Loc) (x : Nat) : Nat := convert .fp32 .fp16 false l x
/-- A sum of products, each product exact and each addition rounded. -/
def dot32 (l : Loc) (xs ys : List Nat) : Nat := (xs.zip ys).foldl (fun a p => fAdd .fp32 l a (fMul .fp32 l (h32 l p.1) (h32 l p.2))) 0
def sqrt32 (l : Loc) (x : Nat) : Nat :=
  if fIsNan .fp32 x then x
  else if fIsZero .fp32 x then x
  else if fNeg .fp32 x then mkNan .fp32 2 l
  else if fIsInf .fp32 x then x
  else fRne .fp32 false (sqrtQ (fQ .fp32 x))
def cosOf (l : Loc) (x y : List Nat) : Nat :=
  let d := dot32 l x y
  let na := dot32 l x x
  let nb := dot32 l y y
  if fIsZero .fp32 na || fIsZero .fp32 nb || fIsNan .fp32 d || fIsNan .fp32 na || fIsNan .fp32 nb then 0
  else fDiv .fp32 l d (sqrt32 l (fMul .fp32 l na nb))
/-- cos >= c / 16384. -/
def cosGe (x c : Nat) : Bool :=
  let t := fRne .fp32 false ⟨(c : Int), 16384⟩
  !fIsNan .fp32 x && decide (fOrd .fp32 t ≤ fOrd .fp32 x)
def int32 (n : Nat) : Nat := fRne .fp32 false (qInt (n : Int))
def avgEl (l : Loc) (x mx y my : Nat) : Nat :=
  convert .fp16 .fp32 false l (fDiv .fp32 l (fAdd .fp32 l (fMul .fp32 l (int32 mx) (h32 l x)) (fMul .fp32 l (int32 my) (h32 l y))) (int32 (mx + my)))
def avgRow (l : Loc) (x y : List Nat) (mx my : Nat) : List Nat := (x.zip y).map fun p => avgEl l p.1 mx p.2 my
def tokBad (t : Tok) : Bool := t.kbad.any id || t.vbad.any id
/-- The surviving tokens in order, and how many merges were made. -/
def mergeToks (l : Loc) (c : Nat) : Tok → List Tok → List Tok × Nat
  | cur, [] => ([cur], 0)
  | cur, q :: qs =>
    if cur.m + q.m ≤ 255 && !tokBad cur && !tokBad q && cosGe (cosOf l cur.key q.key) c then
      let (r, n) := mergeToks l c { cur with key := avgRow l cur.key q.key cur.m q.m, val := avgRow l cur.val q.val cur.m q.m, m := cur.m + q.m } qs
      (r, n + 1)
    else
      let (r, n) := mergeToks l c q qs
      (cur :: r, n)
/-- Reads position p of a slot. -/
def readTok (s : State) (st : Nat) (c : ThCmd) (rg sl p : Nat) : ThRes Tok :=
  let a := arenaOf c.srs
  let q := thParty st c.id c.core
  let hs := List.range (headsOf a)
  match readRows s c.part q (fun s h => arenaPlace s st c.core q a.key (rowAt a.key sl p h) (64 * rg) true) hs with
  | (_, .error f) => (s, .error f)
  | (s1, .ok ks) =>
    match readRows s1 c.part q (fun s h => arenaPlace s st c.core q a.val (rowAt a.val sl p h) (64 * rg) true) hs with
    | (_, .error f) => (s, .error f)
    | (s2, .ok vs) =>
      match readPlace s2 c.part q (arenaPlace s2 st c.core q a.side (multAt a sl p) 1 true) with
      | (_, .error f) => (s, .error f)
      | (s3, .ok (mb, _)) => (s3, .ok ⟨ks.flatMap fun x => halves x.1, vs.flatMap fun x => halves x.1, ofBytes mb, ks.flatMap (·.2), vs.flatMap (·.2)⟩)
def readToks (st : Nat) (c : ThCmd) (rg sl : Nat) : List Nat → State → ThRes (List Tok)
  | [], s => (s, .ok [])
  | p :: ps, s =>
    match readTok s st c rg sl p with
    | (_, .error f) => (s, .error f)
    | (s1, .ok t) =>
      match readToks st c rg sl ps s1 with
      | (_, .error f) => (s, .error f)
      | (s2, .ok l) => (s2, .ok (t :: l))
/-- Writes the head rows of a position, granule by granule, with their poison. -/
def writeHeads (st : Nat) (c : ThCmd) (f : SFld) (rg sl p : Nat) (bytes : List Byte) (bad : List Bool) (s : State) : State :=
  let q := thParty st c.id c.core
  (List.range (headsOf (arenaOf c.srs))).foldl (fun s h => (List.range rg).foldl (fun s g =>
    let o := 64 * (h * rg + g)
    writePlace s c.part q (arenaPlace s st c.core q f (rowAt f sl p h + 64 * (g : Int)) 64 true) ((bytes.drop o).take 64) (bad.getD o false)) s) s
/-- Writes a byte of a slot's multiplicities. -/
def writeMult (st : Nat) (c : ThCmd) (sl p m : Nat) (s : State) : State :=
  let a := arenaOf c.srs
  let q := thParty st c.id c.core
  writePlace s c.part q (arenaPlace s st c.core q a.side (multAt a sl p) 1 true) [BitVec.ofNat 8 m] false
def writeHdr (st : Nat) (c : ThCmd) (sl : Nat) (old : List Byte) (h : Hdr) (s : State) : State :=
  let a := arenaOf c.srs
  let q := thParty st c.id c.core
  writePlace s c.part q (arenaPlace s st c.core q a.side (sideAt a sl) 16 true) (hdrBytes old h) false
/-- Granules of the multiplicity bytes of positions lo to hi - 1. -/
def multGrans (lo hi : Nat) : Nat := if hi ≤ lo then 0 else (hi - 1) / 64 - lo / 64 + 1
def runMerge (st rg cc sl : Nat) (c : ThCmd) (s : State) : State :=
  let a := arenaOf c.srs
  let q := thParty st c.id c.core
  match readPlace s c.part q (arenaPlace s st c.core q a.side (sideAt a sl) 64 true) with
  | (_, .error f) => stopTh st c f s
  | (s1, .ok (hb, _)) =>
    let h := hdrOf hb
    if h.len ≤ h.cold + 1 then endTh st c (meterTh c 1 0 s1)
    else
      let n := h.len - h.cold
      match readToks st c rg sl ((List.range n).map (h.cold + ·)) s1 with
      | (_, .error f) => stopTh st c f s
      | (_, .ok []) => endTh st c s1
      | (s2, .ok (t :: ts)) =>
        let (out, k) := mergeToks (engLoc c.core uThresher 0) cc t ts
        let s3 := ((List.range out.length).zip out).foldl (fun s x =>
          let p := h.cold + x.1
          writeMult st c sl p x.2.m (writeHeads st c a.val rg sl p (halfBytes x.2.val) x.2.vbad (writeHeads st c a.key rg sl p (halfBytes x.2.key) x.2.kbad s))) s2
        let s4 := (List.range (n - out.length)).foldl (fun s i => writeMult st c sl (h.cold + out.length + i) 0 s) s3
        let s5 := writeHdr st c sl hb { h with len := h.cold + out.length, merged := (h.merged + k) % 2 ^ 32 } s4
        let rows := headsOf a * rg
        let mg := multGrans h.cold h.len
        endTh st c (meterTh c (2 * n * rows + 1 + mg) (2 * out.length * rows + 1 + mg) s5)

/-! ### t.requant (R347) -/

/-- The scale of a block of fp32 values: the exponent of its largest finite nonzero magnitude. -/
def blockScale (xs : List Nat) : Nat :=
  match ((xs.filter fun x => !fIsNan .fp32 x && !fIsInf .fp32 x && !fIsZero .fp32 x).map fun x => qLog2 (fQ .fp32 x).n.natAbs (fQ .fp32 x).d) with
  | [] => 127
  | e :: es => (clampI 0 254 (127 + es.foldl (fun a b => if a < b then b else a) e)).toNat
/-- A head row re-encoded: codes, scales, zeros. -/
def requantRow (l : Loc) (six : Bool) (rg : Nat) (bs : List Byte) (bad : List Bool) : List Byte :=
  let D := 32 * rg
  let xs := (List.range D).map fun i => (h32 l ((halves bs).getD i 0), bad.getD (2 * i) false)
  let sc := (List.range (D / 32)).map fun j => blockScale ((((xs.drop (32 * j)).take 32).filter fun x => !x.2).map (·.1))
  let codes := ((List.range D).zip xs).map fun x =>
    BitVec.ofNat 8 (if x.2.2 then tapNan six else scaledEnc six x.2.1 (sc.getD (x.1 / 32) 127) 0x3F800000)
  codes ++ sc.map (BitVec.ofNat 8) ++ List.replicate (64 * rg - D - D / 32) 0
/-- Re-encodes a position's rows of one register. -/
def requantPos (st : Nat) (c : ThCmd) (f : SFld) (six : Bool) (rg sl p : Nat) (rows : List (List Byte × List Bool)) (s : State) : State :=
  let q := thParty st c.id c.core
  ((List.range rows.length).zip rows).foldl (fun s x =>
    writePlace s c.part q (arenaPlace s st c.core q f (rowAt f sl p x.1) (64 * rg) true)
      (requantRow (engLoc c.core uThresher 0) six rg x.2.1 x.2.2) false) s
/-- The rows of both registers of a list of positions. -/
def readBoth (st : Nat) (c : ThCmd) (rg sl : Nat) : List Nat → State → ThRes (List (Nat × List (List Byte × List Bool) × List (List Byte × List Bool)))
  | [], s => (s, .ok [])
  | p :: ps, s =>
    let a := arenaOf c.srs
    let q := thParty st c.id c.core
    let hs := List.range (headsOf a)
    match readRows s c.part q (fun s h => arenaPlace s st c.core q a.key (rowAt a.key sl p h) (64 * rg) true) hs with
    | (_, .error f) => (s, .error f)
    | (s1, .ok ks) =>
      match readRows s1 c.part q (fun s h => arenaPlace s st c.core q a.val (rowAt a.val sl p h) (64 * rg) true) hs with
      | (_, .error f) => (s, .error f)
      | (s2, .ok vs) =>
        match readBoth st c rg sl ps s2 with
        | (_, .error f) => (s, .error f)
        | (s3, .ok l) => (s3, .ok ((p, ks, vs) :: l))
def runRequant (st rg : Nat) (six : Bool) (keep sl : Nat) (c : ThCmd) (s : State) : State :=
  let a := arenaOf c.srs
  let q := thParty st c.id c.core
  match readPlace s c.part q (arenaPlace s st c.core q a.side (sideAt a sl) 64 true) with
  | (_, .error f) => stopTh st c f s
  | (s1, .ok (hb, _)) =>
    let h := hdrOf hb
    let code := if six then 12 else 11
    let c' := if h.len - 64 * keep < h.cold then h.cold else h.len - 64 * keep
    if h.cfmt ≠ 0 ∧ h.cfmt ≠ code then stopTh st c ⟨.arenaFormat, 0, 0⟩ s
    else
      let n := c' - h.cold
      match readBoth st c rg sl ((List.range n).map (h.cold + ·)) s1 with
      | (_, .error f) => stopTh st c f s
      | (s2, .ok l) =>
        let s3 := l.foldl (fun s x => requantPos st c a.val six rg sl x.1 x.2.2 (requantPos st c a.key six rg sl x.1 x.2.1 s)) s2
        let s4 := writeHdr st c sl hb { h with cold := c', cfmt := code } s3
        let rows := 2 * n * headsOf a * rg
        endTh st c (meterTh c (rows + 1) (rows + 1) s4)

/-! ### Steps of a thresher -/

/-- The first waiting pin request that can be granted is granted (R338). -/
def pinGrantable (s : State) (st : Nat) (r : PinReq) : Bool :=
  let t := thrAt s st
  pinFree t r && !(r.excl && t.cmds.any fun c => decide (c.id < r.ord) && c.part == r.part && appendNames s st c r.slot)
def execThresherPinGrant (stack : Nat) (s : State) : Host.Outcome State Fault Refusal := onDev s fun s =>
  match (thrAt s stack).waiting.find? (pinGrantable s stack) with
  | some r => modThr s stack fun t =>
      let t1 := grantPin t r
      { t1 with cmds := t1.cmds.map fun c => if r.forThr = some c.id then { c with pinned := true } else c }
  | none => s
/-- One of the sixteen commands at work moves on (R341). -/
def runTh (st : Nat) (c : ThCmd) (s : State) : State :=
  match c.i with
  | .kAppend rg1 _ _ _ n => runAppend st (rg1.toNat + 1) (n.toNat - c.row) c s
  | .kPinTake _ _ => if c.pinned then endTh st c s else s
  | .kPinRelease _ sl =>
    if readersOf (thrAt s st) c.part sl.toNat = 0 then stopTh st c ⟨.pinUnderflow, 0, 0⟩ s
    else endTh st c (modThr s st fun t => releaseRead t c.part sl.toNat (instOwner c.launch c.core))
  | .tMerge rg1 _ cc sl => if c.pinned then runMerge st (rg1.toNat + 1) cc.toNat sl.toNat c s else s
  | .tRequant rg1 _ f keep sl => if c.pinned then runRequant st (rg1.toNat + 1) f keep.toNat sl.toNat c s else s
  | _ => endTh st c s
def execThresherCommandComplete (stack idx : Nat) (s : State) : Host.Outcome State Fault Refusal := onDev s fun s =>
  match ((thrAt s stack).cmds.take 16)[idx]? with
  | some c => if c.stop.isSome then s else runTh stack c s
  | none => s

/-! ### Engine words of `th` -/

/-- The registers that a word copies at its issue. -/
def thRegs (s : State) (k : Nat) (g m l : Nat) : List SReg := [getSR s k g, getSR s k (g + 1), getSR s k (g + 2), getSR s k m, getSR s k (m + 1), getSR s k l]
/-- What a word of a slot checks at issue (R334, R343). -/
def slotFault (srs : List SReg) (slot : Option Nat) : Option FT :=
  let a := arenaOf srs
  if !arenaOk a then some .arenaInvalid
  else match slot with
  | some n => if slotsOf a ≤ n then some .arenaInvalid else none
  | none => none
/-- The home of a slot: the stack of its side area, or the fault of its address (R336). -/
def slotHome (s : State) (k : Nat) (srs : List SReg) (slot : Nat) : Except AFault Nat :=
  let a := arenaOf srs
  match engPlace s k .none (thParty 0 0 k) .device a.side false .addrUnmapped .spadRange (sideAt a slot) 64 false with
  | (_, .error f) => .error f
  | (_, .ok p) => match homeOf p with
    | none => .error ⟨.arenaSplit, 0, (sideAt a slot).toNat⟩
    | some st => .ok st
/-- The home of an append: that of the first slot of its list whose side area lies on a stack. A row whose slot has none meets its fault when
it runs; an append without any goes to thresher 0 (R336, R343; log entry 97). -/
def appendHome (s : State) (k n : Nat) (w : QWord) (i : Instr) (srs : List SReg) : Nat :=
  let q := thParty 0 s.dev.nextOp k
  let c : ThCmd := { id := s.dev.nextOp, core := k, launch := 0, part := partAt s k, word := w, i := i, srs := srs }
  let s1 := acquire (observeAll q s w.obs) q 4
  ((List.range n).findSome? fun r =>
    match readPlace s1 c.part q (listEntry s1 c q r false) with
    | (_, .error _) => none
    | (_, .ok (eb, _)) =>
      let e := ofBytes eb
      if fld e 12 4 ≠ 0 ∨ slotsOf (arenaOf srs) ≤ fld e 0 12 then none
      else match slotHome s1 k srs (fld e 0 12) with
      | .ok st => some st
      | .error _ => none).getD 0
/-- The command of the head word arrives at thresher `st`. `pin` is the kind of pin it asks for, and the slot. -/
def sendTh (k q st : Nat) (w : QWord) (i : Instr) (srs : List SReg) (pin : Option (Bool × Nat)) (s : State) : State :=
  let id := s.dev.nextOp
  let c : ThCmd := { id := id, core := k, launch := (launchNo s k).getD 0, part := partAt s k, word := w, i := i, srs := srs }
  let s1 := issueHead k q none (modDev s fun d => { d with nextOp := id + 1 })
  let s2 := modThr (modEng s1 k fun e => { e with thOut := e.thOut ++ [id] }) st fun t => { t with cmds := t.cmds ++ [c] }
  let s3 := acquire (observeAll (thParty st id k) s2 w.obs) (thParty st id k) 4
  match pin with
  | some (excl, slot) => askPin s3 st c.part slot (if excl then thOwner id else instOwner c.launch k) excl (some id)
  | none => s3
/-- Sends the head word to its home: parked, stopped at a fault, or issued (R336, R341). -/
def issueTh (k q : Nat) (i : Instr) (srs : List SReg) (bad : Option FT) (home : State → QWord → Except AFault Nat) (pin : Option (Bool × Nat)) (s : State) :
    State :=
  match headOf s k q with
  | none => s
  | some w =>
    let part := partAt s k
    let ids := realIds [w.rqi]
    if allStopped s part ids then parkHead k q (allCancelled s part ids) id s
    else match bad with
    | some ty => stopHead k q uThresher 0 w [w.rqi] ⟨ty, 0, 0⟩ s
    | none =>
      match home s w with
      | .error f => stopHead k q uThresher 0 w [w.rqi] f s
      | .ok st => sendTh k q st w i srs pin s
/-- A word of one slot. -/
def slotWord (k q : Nat) (i : Instr) (g slot : Nat) (pin : Option Bool) (s : State) : State :=
  let srs := thRegs s k g 0 0
  issueTh k q i srs (slotFault srs (some slot)) (fun s _ => slotHome s k srs slot) (pin.map fun x => (x, slot)) s
def execKAppend (rg1 : BitVec 4) (g m l : Fin 32) (n : BitVec 16) (s : State) : Host.Outcome State Fault Refusal := onQ s fun k q s =>
  let srs := thRegs s k g.val m.val l.val
  issueTh k q (.kAppend rg1 g m l n) srs (slotFault srs none) (fun s w => .ok (appendHome s k n.toNat w (.kAppend rg1 g m l n) srs)) none s
def execKPinTake (g : Fin 32) (sl : BitVec 16) (s : State) : Host.Outcome State Fault Refusal := onQ s fun k q s =>
  slotWord k q (.kPinTake g sl) g.val sl.toNat (some false) s
def execKPinRelease (g : Fin 32) (sl : BitVec 16) (s : State) : Host.Outcome State Fault Refusal := onQ s fun k q s =>
  slotWord k q (.kPinRelease g sl) g.val sl.toNat none s
def execTMerge (rg1 : BitVec 4) (g : Fin 32) (c : BitVec 15) (sl : BitVec 16) (s : State) : Host.Outcome State Fault Refusal := onQ s fun k q s =>
  slotWord k q (.tMerge rg1 g c sl) g.val sl.toNat (some true) s
def execTRequant (rg1 : BitVec 4) (g : Fin 32) (f : Bool) (keep : BitVec 13) (sl : BitVec 16) (s : State) : Host.Outcome State Fault Refusal :=
  onQ s fun k q s => slotWord k q (.tRequant rg1 g f keep sl) g.val sl.toNat (some true) s
/-- `t.status` (R348): parked like every word of `th` whose identity is halted (R267, R341). -/
def execTStatus (add uli : Bool) (core : BitVec 6) (n : BitVec 8) (v : BitVec 16) (s : State) : Host.Outcome State Fault Refusal := onQ s fun k q s =>
  match headOf s k q with
  | none => s
  | some w =>
    let o := coreAt s k
    let ids := realIds [w.rqi]
    if allStopped s (partAt s k) ids then parkHead k q (allCancelled s (partAt s k) ids) id s
    else if ((eqAt o q).parked.any fun p => decide (p.seq < w.seq)) || !o.eng.thOut.isEmpty then s
    else if !runsPart s (partAt s k) core.toNat then stopHead k q uThresher 0 w [w.rqi] ⟨.spadWindow, 0, 0⟩ s
    else if coreShut (coreAt s core.toNat) then s
    else
      let own := thOfCore k
      let s1 := releaseParties s own (if wroteSys s own then 5 else 4)
      issueHead k q none (engSignal k core.toNat n.toNat add uli 26 v.toNat (cmdObs s1 own) s1)

/-! ### kslot (R349) -/

/-- The layout of `kslot` from the header and the pins of its slot. -/
def kslotWord (t : Thr) (part slot : Nat) (h : Hdr) : Nat :=
  let sat := fun (x : Nat) => if 2 ^ 19 - 1 < x then 2 ^ 19 - 1 else x
  packFields [(19, sat h.len), (19, sat h.cold), (8, h.cfmt), (1, b2n (t.waiting.any fun r => r.part == part && r.slot == slot && r.excl)),
    (1, b2n (exclHeld t part slot)), (16, readersOf t part slot)]
/-- `kslot` observes the writes whose bytes of the header it reads (R190). The slot number of a header is not in the syllable (log entry 25). -/
def execKslot (d x : SOp) (s : State) : Host.Outcome State Fault Refusal := onCl s fun a s =>
  needQ a (popsS [x]) (pushS d) (fun s =>
    let (u, t1) := takeS a x s
    let ea := u.toNat
    if ea % 64 ≠ 0 then trapMem a ⟨.misaligned, 0, ea⟩ s
    else withPlace a ea 64 false s t1 fun s1 p =>
      match homeOf p, p with
      | some st, .home ((sp, ad, _) :: _) _ =>
        if !tagRoom s1 a 1 || ownOut s1 (partyOf a) then block a .other s
        else
          let h := hdrOf (curBytes s1 (partyOf a) sp ad 16)
          let part := partAt s1 a.k
          let w := kslotWord (thrAt s1 st) part (Config.slotOf part ad % 4096) h
          let s2 := observeAll (partyOf a) s1 (rangeObs s1 (partyOf a) sp ad 16)
          retire a (putS a d (BitVec.ofNat 64 w) (meterIds a [rqiOf s1 a] mRD 8 s2))
      | _, _ => trapMem a ⟨.addrUnmapped, 0, ea⟩ s) s

end Sys2Proof.Machine
end

