-- ==== Sys2Proof/Machine/Sync.lean ====
section
/-! DEFINITION. Signals, waits on signal words, barriers and user-level interrupts: their syllables (14). -/

namespace Sys2Proof.Machine

/-! ### sig (R325) -/

/-- The target that `sig` names: its core, and its device with PEER. None when a reserved bit of the descriptor is set. -/
def sigTarget (a : At) (peer loc : Bool) (u : Word) : Option (Nat × Nat) :=
  let n := u.toNat
  if loc then some (a.k, 0)
  else if peer then (if fld n 6 2 = 0 ∧ n / 2 ^ 16 = 0 then some (fld n 0 6, fld n 8 8) else none)
  else if n < 64 then some (n, 0) else none
/-- `sig`: the release, then the write, add or or at the target's unit; it stalls while the unit's port is shut (R313). -/
def execSig (o : SigOp) (peer loc : Bool) (n : BitVec 8) (x y : SOp) (s : State) : Host.Outcome State Fault Refusal := onCl s fun a s =>
  needQ a (popsS [x, y]) [] (fun s =>
    let (u, t1) := takeS a x s
    let (v, t2) := takeS a y t1
    match sigTarget a peer loc u with
    | none => trapTy a .illegalOperand s
    | some (core, dv) =>
      if peer then
        if !tagRoom s a 1 || !relReady s (partyOf a) 5 then block a .other s
        else retire a (sendSignal a dv core n.toNat (decide (o = .add)) v (release t2 (partyOf a) 5))
      else if !loc && !runsPart s (partAt s a.k) core then trapTy a .spadWindow s
      else if !loc && coreShut (coreAt s core) then block a .other s
      else
        let t3 := release t2 (partyOf a) 4
        retire a (sigSend t3 ⟨core, n.toNat, o, v, none, [obsOf t3 (partyOf a)]⟩)) s

/-! ### waits (R326) -/

/-- The value of a signal word when it meets the condition, and the writes it is made of. -/
def sgTest (k n : Nat) (c : SCond) (b : Word) (s : State) : Option Fire :=
  let v := getSg s k n
  if scondOk c v b then some ⟨v, false, sget [] (coreAt s k).sgObs n⟩ else none
/-- `waits`: its comparand is popped when it fires (log entry 23). -/
def execWaits (c : SCond) (d : SOp) (n : BitVec 8) (y : SOp) (s : State) : Host.Outcome State Fault Refusal := onCl s fun a s =>
  needQ a (popsS [y]) (pushS d) (fun s =>
    let b := (takeS a y s).1
    waitStep a (.sg n.toNat c b) (sgTest a.k n.toNat c b)
      (fun f s => retire a (putS a d f.v (acquire (takeS a y s).2 (partyOf a) 5))) s) s
def execWaitsPoll (d : SOp) (n : BitVec 8) (s : State) : Host.Outcome State Fault Refusal := onCl s fun a s =>
  needQ a [] (pushS d) (fun s =>
    retire a (putS a d (getSg s a.k n.toNat) (observeAll (partyOf a) s (sget [] (coreAt s a.k).sgObs n.toNat)))) s

/-! ### Barriers (R317, R319, R327) -/

/-- A barrier that fired acquires at `.sy`, and its ticket clears. -/
def coDone (a : At) (_f : Fire) (s : State) : State := retire a (acquire (modCtx s a fun t => { t with tickCo := none }) (partyOf a) 5)
def dvDone (a : At) (_f : Fire) (s : State) : State := retire a (acquire (modCtx s a fun t => { t with tickDv := none }) (partyOf a) 5)
/-- The wait of an arrival goes on, or queues for a slot before it arrives (R315). -/
def coTest (k ticket : Nat) (s : State) : Option Fire := if ticket < (coreAt s k).barGen then some ⟨0, false, (coreAt s k).barDone⟩ else none
def dvTest (b ticket : Nat) (s : State) : Option Fire := if ticket < (barAt s b).gen then some ⟨0, false, (barAt s b).doneObs⟩ else none
/-- A wait that queues before its arrival. -/
def barQueue (a : At) (on : WaitOn) (s : State) : State := block a .other (queueWait a on s)
/-- The arrival of a cluster at its core's barrier: the ticket, and the core after it. -/
def coArrive (o : Core) (c : Cluster) (b : Obs) : Nat × Core :=
  if o.barArr.contains (cnum c) then
    (o.barGen + 1, { o with barNext := (if o.barNext.contains (cnum c) then o.barNext else cnum c :: o.barNext), barNextObs := addObs o.barNextObs b })
  else (o.barGen, { o with barArr := cnum c :: o.barArr, barObs := addObs o.barObs b })
/-- A wait that queued for a slot keeps its place when its context has arrived. -/
def queuedOnly (w : Option Wait) : Option Wait := w.filter fun w => !w.slot && w.fired.isNone
/-- The arrival of a context at the barrier of its core, which takes its ticket (R317). -/
def arriveCo (a : At) (s : State) : State :=
  let s1 := release s (partyOf a) 2
  let b := obsOf s1 (partyOf a)
  let t := (coArrive (coreAt s1 a.k) a.c b).1
  modCtx (modCore s1 a.k fun o => barCoTest a.k 3 (coArrive o a.c b).2) a fun x => { x with tickCo := some t, wait := queuedOnly x.wait }
/-- The wait of an arrival. -/
def waitCo (a : At) (s : State) : State :=
  match (ctxOf s a).tickCo with
  | some t => waitStep a (.barCo t) (coTest a.k t) (coDone a) s
  | none => s
/-- `bar.co` (R317): with its ticket set it makes no new arrival. -/
def execBarCo (s : State) : Host.Outcome State Fault Refusal := onCl s fun a s =>
  if (ctxOf s a).tickCo.isSome then waitCo a s
  else if !slotFree s a (.barCo 0) then barQueue a (.barCo 0) s
  else waitCo a (arriveCo a s)
/-- The ticket that a context holds of barrier b. -/
def ticketDv (s : State) (a : At) (b : Nat) : Option Nat := ((ctxOf s a).tickDv.filter (·.1 == b)).map (·.2)
/-- The arrival takes its ticket, and the firing test runs. -/
def arriveDv (a : At) (b t : Nat) (v : Barrier) (s : State) : State :=
  barFire b 3 (modCtx (modBar s b fun _ => v) a fun x => { x with tickDv := some (b, t), wait := queuedOnly x.wait })
/-- An arrival at device barrier b (R319, R327): with the ticket of b set it makes no new one. `ready` is what must hold before it, `rel` its
release. -/
def barDv (a : At) (b : Nat) (ready : State → Bool) (rel : State → State) (s : State) : State :=
  match ticketDv s a b with
  | some t => barCheck (waitStep a (.barDv b t) (dvTest b t) (dvDone a) s) b
  | none =>
    if (barAt s b).owner ≠ partAt s a.k ∨ !(barAt s b).mask.getLsbD a.k then trapTy a .illegalOperand s
    else if !ready s then block a .other s
    else match barArrive (barAt s b) a.k (obsOf (rel s) (partyOf a)) with
    | none => block a .other s
    | some (t, v) =>
      if !slotFree s a (.barDv b 0) then barQueue a (.barDv b 0) s
      else barCheck (waitStep a (.barDv b t) (dvTest b t) (dvDone a) (arriveDv a b t v (rel s))) b
def execBarDv (b : BitVec 6) (s : State) : Host.Outcome State Fault Refusal := onCl s fun a s =>
  barDv a b.toNat (fun _ => true) (fun s => release s (partyOf a) 4) s
/-- A `c.sig` of K's user context whose packet has not been acknowledged, or stands at a record (R254; log 47). -/
def csigOut (k : Nat) (o : Out) : Bool :=
  match o.why with
  | .csig k' _ _ fw => k' == k && !fw
  | _ => false
/-- Engine words of K's user context that have neither completed nor been discarded (R327). -/
def engBusy (s : State) (k : Nat) : Bool :=
  let o := coreAt s k
  ((List.range 9).any fun q => ((eqAt o q).words ++ (eqAt o q).parked).any fun w => !w.fwPushed) ||
  (o.eng.mops.any fun m => !m.word.fwPushed) || (o.eng.cmds.any fun c => !c.word.fwPushed) ||
  (s.out.any (csigOut k)) || s.thr.any fun e => e.2.cmds.any fun c => c.core == k && !c.word.fwPushed
/-- The release of `bard`: its own, and those of the commands; at `.sy` when one of them wrote to a peer or to the host in this launch. -/
def bardLvl (s : State) (k : Nat) : Nat :=
  if (coreAt s k).eng.everSy || wroteSys s (fun p => ofCore k p || thOfCore k p) then 5 else 4
def bardRel (a : At) (s : State) : State :=
  release (requireOf s (partyOf a) fun p => ofCore a.k p || thOfCore a.k p) (partyOf a) (bardLvl s a.k)
def execBard (b : BitVec 6) (s : State) : Host.Outcome State Fault Refusal := onCl s fun a s =>
  barDv a b.toNat (fun s => !engBusy s a.k && relReady s (partyOf a) (bardLvl s a.k)) (bardRel a) s

/-- The arrival that a `bar.dv` or `bard` can make now. -/
def tryArriveDv (a : At) (b : Nat) (ready : State → Bool) (rel : State → State) (s : State) : State :=
  if (ticketDv s a b).isSome || decide ((barAt s b).owner ≠ partAt s a.k) || !(barAt s b).mask.getLsbD a.k || !ready s || !slotFree s a (.barDv b 0) then s
  else match barArrive (barAt s b) a.k (obsOf (rel s) (partyOf a)) with
    | some (t, v) => arriveDv a b t v (rel s)
    | none => s
/-- A member of a lockstep run that stands at a barrier arrives there, whether or not the others can issue (R95, R317, R319; DEDUCED, log
103). -/
def runArrives (a : At) (i : Instr) (s : State) : State :=
  match i with
  | .barCo => if (ctxOf s a).tickCo.isNone && slotFree s a (.barCo 0) then arriveCo a s else s
  | .barDv b => tryArriveDv a b.toNat (fun _ => true) (fun s => release s (partyOf a) 4) s
  | .bard b => tryArriveDv a b.toNat (fun s => !engBusy s a.k && relReady s (partyOf a) (bardLvl s a.k)) (bardRel a) s
  | _ => s

/-! ### barset (R328) -/

/-- The layout of `barset`. -/
def barWord (status b : Nat) (v : Barrier) : Nat :=
  packFields [(6, b), (2, 0), (8, status), (16, 0), (7, v.expect), (1, 0), (7, v.arrived), (1, 0), (16, v.gen)]
/-- The other fields are 0 when the partition does not hold the barrier. -/
def barNotOwner : Nat := packFields [(8, 0), (8, 2)]
/-- Every core of a mask runs an instance of the partition. -/
def maskRuns (s : State) (part : Nat) (m : Nat) : Bool := (List.range 64).all fun c => !bitN m c || runsPart s part c
/-- BAD_MASK or BAD_EXPECT of a mask and an expect value. -/
def barBad (s : State) (part m e : Nat) : Option Nat :=
  if m = 0 ∨ !maskRuns s part m then some 3
  else if 127 < e ∨ popcN 64 m < e then some 4
  else none
/-- `barset.alloc`: the lowest free barrier. -/
def barAlloc (s : State) (part m e : Nat) : Nat × State :=
  match barBad s part m e with
  | some st => (packFields [(8, 0), (8, st)], s)
  | none =>
    match (List.range 64).find? fun b => (barAt s b).owner == 31 with
    | none => (packFields [(8, 0), (8, 1)], s)
    | some b =>
      let v : Barrier := { owner := part, mask := BitVec.ofNat 64 m, expect := if e = 0 then popcN 64 m else e }
      (barWord 0 b v, modBar s b fun _ => v)
/-- `barset.set`: the arrivals stay, and the firing test runs. -/
def barSet (s : State) (part b m e : Nat) : Nat × State :=
  if (barAt s b).owner ≠ part then (barNotOwner, s)
  else match barBad s part m e with
  | some st => (barWord st b (barAt s b), s)
  | none =>
    let s1 := barTest (modBar s b fun v => { v with mask := BitVec.ofNat 64 m, expect := if e = 0 then popcN 64 m else e }) b
    (barWord 0 b (barAt s1 b), s1)
def barFreeOp (s : State) (part b : Nat) : Nat × State :=
  let v := barAt s b
  if v.owner ≠ part then (barNotOwner, s)
  else if v.arrived ≠ 0 ∨ v.next ≠ 0 then (barWord 5 b v, s)
  else let s1 := barFree s b; (barWord 0 b (barAt s1 b), s1)
def barQuery (s : State) (part b : Nat) : Nat × State :=
  if (barAt s b).owner ≠ part then (barNotOwner, s) else (barWord 0 b (barAt s b), s)
def execBarsetAlloc (d x y : SOp) (s : State) : Host.Outcome State Fault Refusal := onCl s fun a s =>
  needQ a (popsS [x, y]) (pushS d) (fun s =>
    let (u, t1) := takeS a x s
    let (v, t2) := takeS a y t1
    let (w, t3) := barAlloc t2 (partAt s a.k) u.toNat v.toNat
    retire a (putS a d (BitVec.ofNat 64 w) t3)) s
def execBarsetSet (d x y : SOp) (n : BitVec 6) (s : State) : Host.Outcome State Fault Refusal := onCl s fun a s =>
  needQ a (popsS [x, y]) (pushS d) (fun s =>
    let (u, t1) := takeS a x s
    let (v, t2) := takeS a y t1
    let (w, t3) := barSet t2 (partAt s a.k) n.toNat u.toNat v.toNat
    retire a (putS a d (BitVec.ofNat 64 w) t3)) s
def execBarsetFree (d : SOp) (n : BitVec 6) (s : State) : Host.Outcome State Fault Refusal := onCl s fun a s =>
  needQ a [] (pushS d) (fun s =>
    let (w, t) := barFreeOp s (partAt s a.k) n.toNat
    retire a (putS a d (BitVec.ofNat 64 w) t)) s
def execBarsetQuery (d : SOp) (n : BitVec 6) (s : State) : Host.Outcome State Fault Refusal := onCl s fun a s =>
  needQ a [] (pushS d) (fun s =>
    let (w, t) := barQuery s (partAt s a.k) n.toNat
    retire a (putS a d (BitVec.ofNat 64 w) t)) s

/-! ### ulien, uliret (R329, R330) -/

def execUlienOn (x : SOp) (s : State) : Host.Outcome State Fault Refusal := onCl s fun a s =>
  needQ a (popsS [x]) [] (fun s =>
    let (u, t1) := takeS a x s
    if 32767 < u.toNat then trapTy a .pcRange s
    else retire a (modKs t1 a.k fun ks => { ks with uliVec := u.toNat, uliEn := true })) s
def execUlienOff (s : State) : Host.Outcome State Fault Refusal := onCl s fun a s =>
  retire a (modKs s a.k fun ks => { ks with uliEn := false })
/-- Arms a watch, which fires at once when the current value meets it. One that is armed keeps its slot, and stays a holder of an open event. -/
def armWatch (k w n : Nat) (c : SCond) (b : Word) (s : State) : State :=
  let s1 := modKs s k fun ks => { ks with watches := sput ks.watches w ⟨n, c, b, true, ((slook ks.watches w).map (·.told)).getD false⟩ }
  if scondOk c (getSg s k n) b then modKs s1 k fun ks => fireWatch (sget [] (coreAt s k).sgObs n) ks w else s1
def execUlienWatch (w : BitVec 10) (n : BitVec 8) (y : SOp) (c : SCond) (s : State) : Host.Outcome State Fault Refusal := onCl s fun a s =>
  if 23 < w.toNat then trapTy a .illegalOperand s
  else needQ a (popsS [y]) [] (fun s =>
    let (b, t1) := takeS a y s
    if (slook (coreAt s a.k).ks.watches w.toNat).isNone && !slotFree s a (.sg n.toNat c b) then barQueue a (.sg n.toNat c b) s
    else retire a (armWatch a.k w.toNat n.toNat c b (modCtx t1 a fun t => { t with wait := none }))) s
def execUlienUnwatch (w : BitVec 10) (s : State) : Host.Outcome State Fault Refusal := onCl s fun a s =>
  if 23 < w.toNat then trapTy a .illegalOperand s
  else retire a (modKs s a.k fun ks => { ks with watches := serase ks.watches w.toNat })
/-- `uliret`; outside a handler of the user context it traps. It is a branch that disarms nothing. The interrupted code has its barrier tickets
again (R319; DEDUCED, log 100). -/
def execUliret (s : State) : Host.Outcome State Fault Refusal := onCl s fun a s =>
  let ks := (coreAt s a.k).ks
  if a.x ≠ .user ∨ !ks.uliActive then trapTy a .illegalOperand s
  else branchTo a ks.uliRet false (modCtx (modKs s a.k fun ks => { ks with uliActive := false }) a fun t =>
    { t with tickCo := t.cutCo, tickDv := t.cutDv, cutCo := none, cutDv := none })

end Sys2Proof.Machine
end

