-- ==== Sys2Proof/Machine/Request.lean ====
section
/-! DEFINITION. The request table: opening, riders, halting, cancelling, meters and marks, the final record (11). -/

namespace Sys2Proof.Machine

/-! ### Opening and riders (R273 to R276) -/

/-- Live entries of the device, and of a partition (R259). -/
def liveCount (s : State) (ok : Rq → Bool) : Nat := (s.rq.filter fun e => decide (e.2.st ≠ .free) && ok e.2).length
/-- The status of `rqopen`, and the table after it. -/
def openRq (s : State) (part id record : Nat) : Nat × State :=
  if id = 0 ∨ 65535 < id then (6, s)
  else if (rqAt s id).st ≠ .free then (5, s)
  else if 16384 ≤ liveCount s (fun _ => true) then (3, s)
  else if (partRec s part).quota ≤ liveCount s (fun r => r.part == part) then (4, s)
  else (0, modRq s id fun _ => { st := .open, part := part, record := record })
def execRqopen (d x y : SOp) (s : State) : Host.Outcome State Fault Refusal := onCl s fun a s =>
  needQ a (popsS [x, y]) (pushS d) (fun s =>
    let (u, t1) := takeS a x s
    let (v, t2) := takeS a y t1
    let finish := fun (s : State) =>
      let (st, s1) := openRq s (partAt s a.k) u.toNat v.toNat
      retire a (putS a d (BitVec.ofNat 64 st) s1)
    if v = 0 then finish t2
    else if v.toNat % 128 ≠ 0 then takeTrap a { clRec s a .misaligned with addr := v.toNat } s
    else match resolve t2 a.k (tlOf a) (partyOf a) (partAt t2 a.k) (issuerOf a) v.toNat 128 true with
    | (_, .error f) => takeTrap a { clRec s a f.ty with cause := f.cause, addr := f.addr } s
    | (s1, .ok _) => finish s1) s
/-- `rqset` takes an open identity; the pager and the firmware context may set 0 too (R260, R274). -/
def execRqset (x : SOp) (s : State) : Host.Outcome State Fault Refusal := onCl s fun a s =>
  needQ a (popsS [x]) [] (fun s =>
    let (u, t1) := takeS a x s
    if 65535 < u.toNat then trapTy a .illegalOperand s
    else if !(a.x ≠ .user ∧ u = 0) ∧ !rqOpenIn s (partAt s a.k) u.toNat then trapTy a .requestNotOpen s
    else setRqi (retire a t1) a u.toNat) s
def execRqrow (x y : SOp) (n1 : BitVec 7) (s : State) : Host.Outcome State Fault Refusal := onCl s fun a s =>
  needQ a (popsS [x, y]) [] (fun s =>
    let (u, t1) := takeS a x s
    let (v, t2) := takeS a y t1
    let n := n1.toNat + 1
    if 127 < u.toNat ∨ 65535 < v.toNat ∨ 128 < u.toNat + n then trapTy a .illegalOperand s
    else if !rqOpenIn s (partAt s a.k) v.toNat then trapTy a .requestNotOpen s
    else retire a (modKs t2 a.k fun ks => { ks with idMap := (List.range n).foldl (fun m i => sput m (u.toNat + i) v.toNat) ks.idMap })) s
/-- The identities that `rqsets` reads. -/
def setFields (u : Word) : List Nat := ((List.range 4).map fun i => fld u.toNat (16 * i) 16).filter (· != 0)
def execRqsets (k : Bool) (x : SOp) (s : State) : Host.Outcome State Fault Refusal := onCl s fun a s =>
  needQ a (popsS [x]) [] (fun s =>
    let (u, t1) := takeS a x s
    let ids := setFields u
    if ids.isEmpty ∨ ids.eraseDups ≠ ids then trapTy a .illegalOperand s
    else if !ids.all (rqOpenIn s (partAt s a.k)) then trapTy a .requestNotOpen s
    else retire a (modKs t1 a.k fun ks => { ks with idSet := ids, setk := k })) s

/-! ### Records that become void (R291) -/

/-- A record that nobody's answer reaches any more, and that is not posted if it was not: the clusters that stand at it go on. -/
def voidTok (t : Nat) (s : State) : State :=
  { s with rings := s.rings.map fun e => (e.1, { e.2 with
             pend := e.2.pend.filter fun r => r.token != t
             held := e.2.held.filter fun r => r.token != t || e.2.pend.any fun p => p.token == t })
           cores := s.cores.map fun e => (e.1, { mapClus e.2 (fun _ u => if u.stop = some t then { u with stop := none } else u) with
             ks := { e.2.ks with pagerQ := e.2.ks.pagerQ.filter fun r => r.token != t } }) }
def voidOpt (t : Option Nat) (s : State) : State :=
  match t with
  | some n => voidTok n s
  | none => s

/-! ### Cores of a partition and their clusters -/

/-- The cores that run an instance of a partition. -/
def partCores (s : State) (part : Nat) : List Nat := (coreKeys s).filter fun k => runsPart s part k
def alive (u : Clu) : Bool := decide (u.run = .on)
/-- Clusters of the partition under an identity: those with a stream, and all four of a placed instance of its launch. -/
def clusUnder (s : State) (part id : Nat) : List (Nat × Cluster) :=
  (partCores s part).flatMap fun k => (clusters.filter fun c =>
    let u := cluAt s k c
    (alive u && u.rqi == id) || (decide (u.run = .off) && (match launchAt s k with
      | some l => l.pkt.rq == id && !l.saved.any (·.core == k)
      | none => false))).map fun c => (k, c)
/-- The packets of a cluster that stand at a record leave it. -/
def dropStopped (k : Nat) (c : Cluster) (s : State) : State :=
  (s.out.filter fun o => o.stop.isSome && (match o.why with
    | .access k' c' .user _ _ _ _ _ _ => k' == k && c' == c
    | .pkt k' .user _ _ _ => k' == k && c == .K
    | _ => false)).foldl (fun s o => voidOpt o.stop (dropOut o s)) s
/-- Another party of the core stands at the cluster's record: a member of its run (R96), or a queue beside K (R297). -/
def sharedStop (s : State) (k : Nat) (c : Cluster) : Bool :=
  let o := coreAt s k
  let t := (clOf o c).stop
  t.isSome && ((clusters.any fun d => d != c && (clOf o d).stop == t) || (List.range 9).any fun q => (eqAt o q).stop == t)
/-- Kills a cluster (R269): its wait and its watches go, its own record is void, its stream ends, and its stores are released at `.sy`. A service
that it asked for serves nobody from then on, and the firmware context has its `rqi` no more (R262). -/
def killClu (k : Nat) (c : Cluster) (s : State) : State :=
  let u := cluAt s k c
  let s1 := dropStopped k c (if sharedStop s k c then s else voidOpt u.stop s)
  let s2 := modClu s1 k c fun u => { u with stop := none, safeStop := false, idling := false, fwStall := false
                                            ctx := { u.ctx with wait := none, tickCo := none, tickDv := none, cutCo := none, cutDv := none } }
  let s3 := if c = .K then modKs s2 k fun ks => { ks with watches := [], uliPend := 0, fwRqi := (match ks.pagerRun with | .request _ _ => 0 | _ => ks.fwRqi) } else s2
  let s4 := match launchNo s3 k with
    | some l => modLaunch s3 l fun l => { l with killed := true }
    | none => s3
  release (endStream k c .killed s4) (.cl k c .user) 5

/-! ### Work under a cancelled request (R221, R245, R268, R269) -/

/-- The identities of a word in a queue. -/
def wordIds (o : Core) (q : Nat) (w : QWord) : List Nat :=
  if q < 4 then servedIds o w (shadowOf o q w)
  else if q < 8 then realIds (if w.idSet.isEmpty then [w.rqi] else w.idSet)
  else realIds [w.rqi]
/-- A word goes for good, with the pins that its copy command asked for. -/
def discardWord (k q : Nat) (w : QWord) (s : State) : State := if 4 ≤ q ∧ q < 8 then dropPins (copyOwner k w.seq) s else s
/-- Parked words of a queue whose identities are all being cancelled. -/
def cancelParked (part k : Nat) (s : State) (q : Nat) : State :=
  let o := coreAt s k
  let gone := (eqAt o q).parked.filter fun w => allCancelled s part (wordIds o q w)
  gone.foldl (fun s w => discardWord k q w s) (modEQ s k q fun e => { e with parked := e.parked.filter fun w => !gone.contains w })
/-- A word that its queue stands at, with all its identities being cancelled. -/
def cancelHead (part k : Nat) (s : State) (q : Nat) : State :=
  let o := coreAt s k
  match (eqAt o q).stop, stopWord (eqAt o q) with
  | some t, some w =>
    if allCancelled s part (wordIds o q w) then discardWord k q w (dropWord k q w.seq (voidTok t (modEQ s k q fun e => { e with stop := none })))
    else s
  | _, _ => s
/-- The engines of a core lose the stopped and parked work of the request. -/
def cancelEngines (part : Nat) (s : State) (k : Nat) : State :=
  let s1 := (List.range 9).foldl (cancelHead part k) ((List.range 9).foldl (cancelParked part k) s)
  let s2 := ((coreAt s1 k).eng.mops.filter fun m => m.stop.isSome && allCancelled s1 part (servedIds (coreAt s1 k) m.word m.sh)).foldl
    (fun s m => endOp k m (voidOpt m.stop s)) s1
  ((coreAt s2 k).eng.cmds.filter fun c => (c.stop.isSome || c.parked) && allCancelled s2 part (realIds c.ids)).foldl
    (fun s c => endCmd k c (voidOpt c.stop s)) s2
/-- Thresher commands that stand at a record or wait for a pin. -/
def cancelThr (part : Nat) (s : State) : State :=
  s.thr.foldl (fun s e => (e.2.cmds.filter fun c => c.part == part && allCancelled s part (realIds [c.word.rqi]) &&
      (c.stop.isSome || (e.2.waiting.any fun r => r.forThr == some c.id))).foldl (fun s c => endTh e.1 c (voidOpt c.stop s)) s) s
/-- Packets held at the sender, also those of a saved instance, and packets parked here as their target. -/
def cancelHeld (part : Nat) (s : State) : State :=
  (s.out.filter fun o => (o.retry || o.stop.isSome) && o.p.part.toNat == part && allCancelled s part (outIds o)).foldl
    (fun s o => voidOpt o.stop (discardOut o s)) s
def cancelPark (part : Nat) (s : State) : State :=
  (s.park.filter fun p => p.part.toNat == part && allCancelled s part (packetIds p)).foldl
    (fun s p => answerAck p 2 { s with park := s.park.filter (· ≠ p) }) s
/-- The records that name the request are void (R291). -/
def voidRecs (part id : Nat) (s : State) : State :=
  ((s.rings.filter fun e => ringPart e.1 == part).flatMap fun e => (e.2.pend ++ e.2.held.drop 16).filter fun r => r.rq == id && !ftNoAnswer r.ty).foldl
    (fun s r => voidTok r.token s) s
/-- The packet is of a core's work. -/
def outOf (k : Nat) (o : Out) : Bool :=
  match o.why with
  | .access k' _ _ _ _ _ _ _ _ | .pkt k' _ _ _ _ | .copyRead k' _ | .copyWrite k' _ | .csig k' _ _ _ => k' == k
  | .answer => false
/-- Acts on the core and the packets of a saved instance where they are saved; a packet that is to go out again waits for the resume (R300,
R301). -/
def inSaved (l : Nat) (e : Saved) (f : State → State) (s : State) : State :=
  let cur := coreAt s e.core
  let s1 := f { modCore s e.core fun _ => e.o with out := e.outs }
  let done := coreAt s1 e.core
  let outs := (s1.out.filter (outOf e.core)).map fun o => { o with sent := false, got := false }
  let s2 := { s1 with out := s.out ++ s1.out.filter fun o => !outOf e.core o, links := s.links }
  modCore (modLaunch s2 l fun l => { l with saved := l.saved.map fun x => if x.core = e.core then { x with o := done, outs := outs } else x }) e.core fun _ => cur
/-- Acts on every saved core of a partition. -/
def allSaved (part : Nat) (f : Nat → State → State) (s : State) : State :=
  (s.launches.filter fun l => l.part == part).foldl (fun s l => l.saved.foldl (fun s e => inSaved l.id e (f e.core) s) s) s
/-- K waits in a `fwcall` for the pager, whose service completes first (R267). -/
def inService (s : State) (k : Nat) (c : Cluster) : Bool :=
  c == .K && (cluAt s k .K).fwStall && (match (coreAt s k).ks.pagerRun with
    | .request _ _ => true
    | _ => false)
/-- The clusters under a cancelled request are killed; one that is inside a service follows when that is over (R267, R269). -/
def killUnder (part id : Nat) (s : State) : State :=
  ((clusUnder s part id).filter fun e => !inService s e.1 e.2).foldl (fun s e => killClu e.1 e.2 s) s
/-- What a cancel does at once, also to the engine work of instances that are saved (R269, R291). -/
def cancelWork (part id : Nat) (s : State) : State :=
  let s1 := killUnder part id s
  let s2 := (partCores s1 part).foldl (cancelEngines part) s1
  voidRecs part id (cancelPark part (cancelHeld part (cancelThr part (allSaved part (fun k s => cancelHeld part (cancelEngines part s k)) s2))))
/-- `rqcancel` of a live entry of the partition (R260, R269, R272). -/
def cancelRq (s : State) (part id : Nat) : State :=
  if rqLive s part id && decide ((rqAt s id).st ≠ .cancelling) then
    cancelWork part id (modRq (traceIt s id 8 0 0 0 0) id fun r => { r with st := .cancelling })
  else s

/-! ### Halting and resuming (R267, R268) -/

/-- Waits of the request's clusters are withdrawn. -/
def haltWork (part id : Nat) (s : State) : State :=
  (clusUnder s part id).foldl (fun s e => withdraw s ⟨e.1, e.2, .user⟩) s
/-- Inserts a word by the order of its push. -/
def insWord (w : QWord) : List QWord → List QWord
  | [] => [w]
  | x :: xs => if w.seq < x.seq then w :: x :: xs else x :: insWord w xs
/-- Parked words that some identity lets go on return to the head of their queue. -/
def unparkQ (part k : Nat) (s : State) (q : Nat) : State :=
  let o := coreAt s k
  let back := (eqAt o q).parked.filter fun w => !allStopped s part (wordIds o q w)
  modEQ s k q fun e => { e with parked := e.parked.filter (fun w => !back.contains w), words := back.foldl (fun l w => insWord w l) e.words }
def unparkCore (part : Nat) (s : State) (k : Nat) : State :=
  let s1 := (List.range 9).foldl (unparkQ part k) s
  modEng s1 k fun e => { e with cmds := e.cmds.map fun c => if c.parked && !allStopped s1 part (realIds c.ids) then { c with parked := false } else c }
/-- The park store lets go of packets in the order of their arrival, up to one that the port of its core keeps waiting (R268, R298, R313). -/
def performParked : Nat → State → State
  | 0, s => s
  | n + 1, s =>
    match s.park.find? fun p => !allStopped s p.part.toNat (packetIds p) with
    | none => s
    | some p => if portShut s p then s else performParked n (performPkt p { s with park := s.park.erase p })
/-- What waits at ports goes on where it can: the park store's packets, then the packets of peers in the order of their arrival. -/
def unpark (s : State) : State :=
  let s1 := performParked s.park.length s
  s1.linkWait.foldl (fun s p => arrive p.op.toNat p s) { s1 with linkWait := [] }
def resumeWork (part : Nat) (s : State) : State :=
  unpark (allSaved part (fun k s => unparkCore part s k) ((partCores s part).foldl (unparkCore part) s))

/-- A request instruction: its status, the entry's next state when it changes, and its effects (R260, R261). -/
structure RqDo where
  status : Nat
  next : Option RqSt := none
  kind : Nat := 0
  work : Nat → Nat → State → State := fun _ _ s => s
def doHalt : RqSt → RqDo
  | .free => { status := 1 }
  | .open => { status := 0, next := some .halted, kind := 6, work := haltWork }
  | .halted => { status := 0 }
  | .draining | .cancelling => { status := 2 }
def doResume : RqSt → RqDo
  | .free => { status := 1 }
  | .open => { status := 0 }
  | .halted => { status := 0, next := some .open, kind := 7, work := fun part _ s => resumeWork part s }
  | .draining | .cancelling => { status := 2 }
def doCancel : RqSt → RqDo
  | .free => { status := 1 }
  | .open | .halted | .draining => { status := 0, next := some .cancelling, kind := 8, work := cancelWork }
  | .cancelling => { status := 0 }
def doDrain : RqSt → RqDo
  | .free => { status := 1 }
  | .open => { status := 0, next := some .draining, kind := 8 }
  | .draining => { status := 0 }
  | .halted | .cancelling => { status := 2 }
/-- The state of an identity as a partition sees it (R259). -/
def rqStateIn (s : State) (part id : Nat) : RqSt := if rqLive s part id then (rqAt s id).st else .free
/-- The instruction writes its status and retires; then the entry's new state has its effects. -/
def rqChange (op : RqSt → RqDo) (d x : SOp) (a : At) (s : State) : State :=
  needQ a (popsS [x]) (pushS d) (fun s =>
    let (u, t1) := takeS a x s
    let part := partAt s a.k
    let id := u.toNat
    let r := op (rqStateIn s part id)
    let status := if id = 0 ∨ 65535 < id then 6 else r.status
    let s1 := retire a (putS a d (BitVec.ofNat 64 status) t1)
    if id = 0 ∨ 65535 < id then s1
    else match r.next with
    | some st => r.work part id (modRq (traceIt s1 id r.kind a.k (cnum a.c) (pcOf s a % 2 ^ 15) 0) id fun e => { e with st := st })
    | none => s1) s
def execRqhalt (d x : SOp) (s : State) : Host.Outcome State Fault Refusal := onCl s fun a s => rqChange doHalt d x a s
def execRqresume (d x : SOp) (s : State) : Host.Outcome State Fault Refusal := onCl s fun a s => rqChange doResume d x a s
def execRqcancel (d x : SOp) (s : State) : Host.Outcome State Fault Refusal := onCl s fun a s => rqChange doCancel d x a s
def execRqcancelDrain (d x : SOp) (s : State) : Host.Outcome State Fault Refusal := onCl s fun a s => rqChange doDrain d x a s

/-! ### rqmeter, rqmark, rqstat (R278 to R280) -/

def execRqmeter (d x : SOp) (sel : BitVec 3) (s : State) : Host.Outcome State Fault Refusal := onCl s fun a s =>
  needQ a (popsS [x]) (pushS d) (fun s =>
    let (u, t1) := takeS a x s
    let v := if u.toNat ≤ 65535 ∧ rqLive s (partAt s a.k) u.toNat then sget 0 (rqAt s u.toNat).meters sel.toNat else 2 ^ 64 - 1
    retire a (putS a d (BitVec.ofNat 64 v) t1)) s
def execRqmark (d x : SOp) (s : State) : Host.Outcome State Fault Refusal := onCl s fun a s =>
  needQ a (popsS [x]) (pushS d) (fun s =>
    let (u, t1) := takeS a x s
    let (n, s1) := if rqLive t1 (partAt s a.k) (rqiOf t1 a) then traceEvent t1 (rqiOf t1 a) 4 a.k (cnum a.c) (pcOf t1 a % 2 ^ 15) u.toNat else (0, t1)
    retire a (putS a d (BitVec.ofNat 64 n) s1)) s
/-- Some engine work of a core that serves the identity is parked. -/
def parkedIn (o : Core) (id : Nat) : Bool :=
  ((List.range 9).any fun q => (eqAt o q).parked.any fun w => (wordIds o q w).contains id) || (o.eng.cmds.any fun c => c.parked && c.ids.contains id)
/-- Some work of the request is parked on this device, also in an instance that is saved (R280). -/
def hasParked (s : State) (part id : Nat) : Bool :=
  ((partCores s part).any fun k => parkedIn (coreAt s k) id) ||
  (s.launches.any fun l => l.part == part && l.saved.any fun e => parkedIn e.o id || e.outs.any fun o => o.retry && (outIds o).contains id) ||
  (s.out.any fun o => o.retry && o.p.part.toNat == part && (outIds o).contains id) ||
  (s.park.any fun p => p.part.toNat == part && (packetIds p).contains id)
/-- Clusters of the partition with a stream under the identity. -/
def clusCount (s : State) (part id : Nat) : Nat :=
  ((partCores s part).map fun k => (clusters.filter fun c => alive (cluAt s k c) && (cluAt s k c).rqi == id).length).foldl (· + ·) 0
def stCode : RqSt → Nat
  | .free => 0 | .open => 1 | .halted => 2 | .draining => 3 | .cancelling => 4
def rqstatWord (s : State) (part id : Nat) : Nat :=
  if id ≤ 65535 ∧ rqLive s part id then
    packFields [(3, stCode (rqAt s id).st), (4, 0), (1, b2n (hasParked s part id)), (9, clusCount s part id), (15, 0), (32, (rqAt s id).seq.toNat)]
  else 0
def execRqstat (d x : SOp) (s : State) : Host.Outcome State Fault Refusal := onCl s fun a s =>
  needQ a (popsS [x]) (pushS d) (fun s =>
    let (u, t1) := takeS a x s
    retire a (putS a d (BitVec.ofNat 64 (rqstatWord s (partAt s a.k) u.toNat)) t1)) s

/-! ### The final record (R269 to R271) -/

/-- An engine of a core holds work that carries the identity. -/
def engCarries (o : Core) (id : Nat) : Bool :=
  ((List.range 9).any fun q => ((eqAt o q).words ++ (eqAt o q).parked).any fun w => (wordIds o q w).contains id) ||
  (o.eng.mops.any fun m => (servedIds o m.word m.sh).contains id) || (o.eng.cmds.any fun c => c.ids.contains id)
/-- A saved instance with a cluster or a word under the identity (R300). -/
def savedCarries (l : Launch) (id : Nat) : Bool :=
  l.saved.any fun e => (clusters.any fun c => alive (clOf e.o c) && (clOf e.o c).rqi == id) || engCarries e.o id ||
    e.outs.any fun o => decide (o.why ≠ .answer) && (outIds o).contains id
/-- A launch under a draining request is work of it until it has completed (DEDUCED, log 77). -/
def launchCarries (s : State) (part id : Nat) : Bool :=
  decide ((rqAt s id).st = .draining) && s.launches.any fun l => l.part == part && l.pkt.rq == id
/-- Some work carries the identity (R269). -/
def carried (s : State) (part id : Nat) : Bool :=
  !(clusUnder s part id).isEmpty || ((partCores s part).any fun k => engCarries (coreAt s k) id) ||
  (s.thr.any fun e => e.2.cmds.any fun c => c.part == part && c.word.rqi == id) ||
  (s.out.any fun o => decide (o.why ≠ .answer) && o.p.part.toNat == part && (outIds o).contains id) ||
  (s.park.any fun p => p.part.toNat == part && (packetIds p).contains id) ||
  (s.shOps.any fun o => o.part == part && o.ids.contains id) || launchCarries s part id ||
  (s.launches.any fun l => l.part == part && savedCarries l id)
/-- END of R271. -/
def endCode (st : RqSt) : Nat := if st = .draining then 3 else 4
def meterVals (r : Rq) : List Nat := (List.range 8).map fun m => sget 0 r.meters m
/-- Bytes 0 to 119 of the final record. -/
def finalBytes (id : Nat) (r : Rq) : List Byte :=
  bytesOf 120 (packFields ((meterVals r).map (fun m => (64, m)) ++ [(16, id), (4, r.part), (4, endCode r.st), (8, 0), (32, (r.seq - 1).toNat)]))
/-- The record that tells of a lost final record, on exception queue 0 (R271, R288). -/
def lostRec (id : Nat) (r : Rq) : FRec :=
  { ty := .recordLost, unit := 4, rq := id, addr := r.record, aux0 := packFields [(32, (r.seq - 1).toNat), (4, endCode r.st), (4, r.part)]
    meters := meterVals r, ring := ringNo r.part 0 }
/-- Writes the record, DONE last, or posts RECORD_LOST. -/
def writeFinal (id : Nat) (r : Rq) (s : State) : State :=
  if r.record = 0 then s
  else match devWrite s r.part r.record (finalBytes id r) with
  | (_, .error _) => postNew s (lostRec id r)
  | (s1, .ok _) =>
    match devWrite s1 r.part (r.record + 120) (bytesOf 8 1) with
    | (_, .error _) => postNew s1 (lostRec id r)
    | (s2, .ok _) => s2
/-- PARTSTAT: the partition and 0 done, 1 busy, 2 refused. -/
def partStat (part st : Nat) (s : State) : State := modDev s fun d => { d with partstat := BitVec.ofNat 8 (part + 16 * st) }
/-- A power state that a core takes while it runs no instance; in L2 its registers are lost: the firmware context's are free values from then
on, and no syllable is ready there, while those of the clusters are not read before a launch sets them (R390; log entry 93). -/
def sleepCore (p : Pwr) (o : Core) : Core :=
  if p = .l2 ∧ o.pwr ≠ .l2 then
    { k := { imem := o.k.imem, run := o.k.run }, a := { imem := o.a.imem, run := o.a.run }, x0 := { imem := o.x0.imem, run := o.x0.run }
      x1 := { imem := o.x1.imem, run := o.x1.run }
      ks := { pagerMem := o.ks.pagerMem, fwshare := o.ks.fwshare, slotCtr := o.ks.slotCtr, fw := lostCtx o.ks.slept, slept := o.ks.slept + 1 }
      eng := { pushSeq := o.eng.pushSeq, nextId := o.eng.nextId }
      kdm := o.kdm, spad := o.spad, spadEpoch := o.spadEpoch, sg := o.sg, sgObs := o.sgObs, frozen := o.frozen, freezeMore := o.freezeMore
      dbgQuiet := o.dbgQuiet, dbgPorous := o.dbgPorous, pwr := .l2, pwrlimit := o.pwrlimit, lastPart := o.lastPart
      tlbK := o.tlbK, tlbA := o.tlbA, tlbM := o.tlbM, tlbC := o.tlbC, walks := o.walks }
  else { o with pwr := p, waking := false }
/-- The last steps of a destruction: barriers and sheaf regions, scratchpads, the key; the partition is gone, and its cores count as last used
by a partition with no number, so that a later one of the same number does not find its memories (R23, R155). -/
def erasePart (part : Nat) (s : State) : State :=
  let s1 := (List.range 64).foldl (fun s b => if (barAt s b).owner = part then barFree s b else s) s
  let p := partRec s part
  let s2 := ((List.range 64).filter fun k => p.cmask.getLsbD k).foldl (fun s k =>
    { modCore (dropSpad k (landSpad k s)) k fun o => sleepCore .l2 { o with spad := [], spadEpoch := 0, lastPart := if o.lastPart = some part then some 16 else o.lastPart }
      with poison := s.poison.filter fun e => e.1 % 512 != spaceKey (.spad k) }) s1
  let s3 := { s2 with parts := serase s2.parts part, rings := s2.rings.filter (fun e => ringPart e.1 != part), images := s2.images.filter (fun e => e.2.part != part)
                      park := s2.park.filter (fun x => x.part.toNat != part)
                      shMsgs := s2.shMsgs.filter (fun m => m.part != part), shTags := s2.shTags.filter fun e => e.part != part }
  modDev s3 fun d => { d with linkKeys := d.linkKeys.filter (fun e => e.1 != part), vfs := d.vfs.filter fun e => e.2 != part }
/-- A dying partition whose launches and requests are gone is erased, and PARTSTAT reads done. -/
def finishPart (part : Nat) (s : State) : State :=
  if (partRec s part).dying && (s.launches.all fun l => l.part != part) && liveCount s (fun r => r.part == part) == 0 then
    partStat part 0 (erasePart part s)
  else s
/-- A draining or cancelled request that no work carries ends: its record is written and its identity is free. -/
def execRequestFinalRecord (id : Nat) (s : State) : Host.Outcome State Fault Refusal := onDev s fun s =>
  let r := rqAt s id
  let s := if r.st = .cancelling then killUnder r.part id s else s
  if (r.st = .draining ∨ r.st = .cancelling) ∧ !carried s r.part id then
    let s1 := traceIt s id 9 0 0 0 0
    let s2 := writeFinal id (rqAt s1 id) s1
    finishPart r.part { s2 with rq := serase s2.rq id }
  else s

end Sys2Proof.Machine
end

