-- ==== Sys2Proof/Machine/Sheaf.lean ====
section
/-! DEFINITION. Sheaf cells: regions, the messages of their copies, operations and their syllables (18). -/

namespace Sys2Proof.Machine

/-! ### Regions and addresses (R354, R355, R357) -/

def regionAt (s : State) (part r : Nat) : Option Region := slook (partRec s part).regions r
/-- The majority of a region. -/
def majority (r : Region) : Nat := (r.sites.length + 1) / 2
/-- The stacks of a region that are not marked in SHEAFDOWN. -/
def liveStacks (s : State) (r : Region) : List Nat := r.sites.filter fun st => !s.dev.sheafdown.getLsbD st
/-- The checks of an address at issue: its region and cell, or the fault. -/
def sheafAddr (s : State) (part : Nat) (u : Nat) : Except FT (Nat × Nat) :=
  if u / 2 ^ 36 ≠ 0 then .error .addrUnmapped
  else match regionAt s part (fld u 32 4) with
  | none => .error .addrUnmapped
  | some r =>
    if u % 16 ≠ 0 then .error .misaligned
    else if r.cells ≤ fld u 0 32 / 16 then .error .addrUnmapped
    else if (liveStacks s r).length < majority r then .error .sheafLost
    else .ok (fld u 32 4, fld u 0 32 / 16)

/-! ### Copies (R355, R356) -/

/-- The place of a copy of a cell in device memory. -/
def copyAt (r : Region) (stack cell : Nat) : Nat :=
  match (r.sites.zip r.bases).find? fun p => p.1 == stack with
  | some p => p.2 + 32 * cell
  | none => 0
/-- A field of a copy: 0 VALUE, 1 TAG, 2 PVALUE, 3 PTAG. -/
def copyGet (s : State) (a f : Nat) : Nat := ofBytes (curBytes s .host .dram (a + 8 * f) 8)
def copySet (part a f v : Nat) (s : State) : State := stamp (storeDevice s .dram (a + 8 * f) (bytesOf 8 v)) part .dram (a + 8 * f) 8
/-- A copy handles a message: its answer, and the state after it. -/
def copyDo (part a : Nat) (m : ShMsgK) (s : State) : Option ShAnsK × State :=
  let tag := copyGet s a 1
  let ptag := copyGet s a 3
  match m with
  | .read => (some (.read (copyGet s a 0) tag ptag), s)
  | .propose v t tb cas =>
    let ok := decide (tag < t) && (if cas then decide (tag ≤ tb) && ptag == 0 else decide (ptag < t))
    (some (.prop ok), if ok then copySet part a 3 t (copySet part a 2 v s) else s)
  | .commit v t =>
    let ch := decide (tag < t)
    let s1 := if ch then copySet part a 1 t (copySet part a 0 v s) else s
    let s2 := if ptag ≤ t then copySet part a 3 0 s1 else s1
    (some (.holds t (decide (t ≤ copyGet s2 a 1)) ch), s2)
  | .abort t => (none, if ptag = t then copySet part a 3 0 s else s)
/-- Takes the message at an index away and hands it to its copy. -/
def deliverMsg (idx : Nat) (m : ShMsg) (s : State) : State :=
  let s0 := { s with shMsgs := s.shMsgs.eraseIdx idx }
  match regionAt s m.part m.region with
  | none => s0
  | some r =>
    let (ans, s1) := copyDo m.part (copyAt r m.stack m.cell) m.m s0
    match ans with
    | some a => { s1 with shAns := s1.shAns ++ [⟨m.op, m.stack, m.cell, a⟩] }
    | none => s1
/-- A message of one kind arrives at its copy. -/
def msgStep (ok : ShMsgK → Bool) (idx : Nat) (s : State) : State :=
  match s.shMsgs[idx]? with
  | some m => if ok m.m then deliverMsg idx m s else s
  | none => s
def execSheafReadMsg (idx : Nat) (s : State) : Host.Outcome State Fault Refusal := onDev s fun s =>
  msgStep (fun m => match m with | .read => true | _ => false) idx s
def execSheafProposeMsg (idx : Nat) (s : State) : Host.Outcome State Fault Refusal := onDev s fun s =>
  msgStep (fun m => match m with | .propose _ _ _ _ => true | _ => false) idx s
def execSheafCommitMsg (idx : Nat) (s : State) : Host.Outcome State Fault Refusal := onDev s fun s =>
  msgStep (fun m => match m with | .commit _ _ => true | _ => false) idx s
def execSheafAbortMsg (idx : Nat) (s : State) : Host.Outcome State Fault Refusal := onDev s fun s =>
  msgStep (fun m => match m with | .abort _ => true | _ => false) idx s

/-! ### Operations (R357 to R364) -/

def shOp (s : State) (id : Nat) : Option ShOp := s.shOps.find? fun o => o.id == id
def setSh (o : ShOp) (s : State) : State := { s with shOps := s.shOps.map fun x => if x.id == o.id then o else x }
/-- Sends a message of an operation to stacks that are not marked. -/
def shSend (o : ShOp) (sites : List Nat) (m : ShMsgK) (s : State) : State :=
  { s with shMsgs := s.shMsgs ++ ((sites.filter fun st => !s.dev.sheafdown.getLsbD st).map fun st => ⟨o.id, st, o.part, o.region, o.cell, m⟩) }
/-- What a proposal follows is kept with its tag, as long as a reader may need it. -/
def tagObs (o : ShOp) (t : Nat) (s : State) : State :=
  if relevant s o.obs then { s with shTags := ⟨o.part, o.region, o.cell, t, o.obs⟩ :: s.shTags.filter fun e => relevant s e.obs } else s
/-- The reader of a committed value observes its store (R190, R360). -/
def seesTag (o : ShOp) (s : State) : State :=
  match s.shTags.find? fun e => e.part == o.part && e.region == o.region && e.cell == o.cell && e.tag == o.tag with
  | some e =>
    if o.kind = .mld ∨ o.kind = .mcas then
      [CtxK.user, .fw, .pager].foldl (fun s x =>
        if (ctxOf s ⟨o.core, o.c, x⟩).sheafBusy = some o.id then observe (.cl o.core o.c x) s e.obs else s) s
    else s
  | none => s
/-- The cluster that issued the operation gets its result, which it takes when its syllable issues on (R359, R361). -/
def shResult (o : ShOp) (v : Nat) (ok : Bool) (s : State) : State :=
  let give := fun (t : Ctx) => if t.sheafBusy = some o.id then { t with sheafBusy := none, sheafRes := some (v, ok) } else t
  let s1 := meter (setSh { o with phase := 4 } (seesTag o s)) o.part o.ids mRD (16 * o.rd)
  mapCtxs s1 fun a t => if a.k = o.core ∧ a.c = o.c then give t else t
/-- The greatest committed tag among the reads, with its value. -/
def newestRead (l : List (Nat × Nat × Nat × Nat)) : Nat × Nat :=
  l.foldl (fun b r => if b.2 ≤ r.2.2.1 then (r.2.1, r.2.2.1) else b) (0, 0)
/-- The greatest COUNTER among the TAG and PTAG of the reads. -/
def maxCounter (l : List (Nat × Nat × Nat × Nat)) : Nat :=
  l.foldl (fun b r => let x := if r.2.2.1 < r.2.2.2 then r.2.2.2 / 2 ^ 16 else r.2.2.1 / 2 ^ 16; if b < x then x else b) 0
/-- The operation waits for an answer of the stack. -/
def awaits (s : State) (op stack : Nat) : Bool :=
  (s.shMsgs.any fun m => m.op == op && m.stack == stack && (match m.m with | .abort _ => false | _ => true)) ||
  s.shAns.any fun a => a.op == op && a.stack == stack
/-- Copies that may still answer: not timed out, not in a list, and sent a message that has no answer yet. -/
def stillOut (s : State) (o : ShOp) (done : List Nat) : Nat := (o.sites.filter fun st => !o.gone.contains st && !done.contains st && awaits s o.id st).length
/-- The writer id of the operation's cluster (R355). -/
def writerId (o : ShOp) : Nat := 4 * o.core + cnum o.c
/-- Proposes the operation's value (R363). -/
def startPropose (o : ShOp) (s : State) : State :=
  let c := maxCounter o.reads + 1
  if 2 ^ 48 ≤ c then shResult o 3 false s
  else
    let t := c * 2 ^ 16 + writerId o
    let o1 := { o with phase := 2, prop := t }
    shSend o1 (o.sites.filter fun st => !o.gone.contains st) (.propose o.newv t o.tag (decide (o.kind = .mcas))) (setSh o1 (tagObs o t s))
/-- What follows the value that a majority holds. -/
def haveValue (o : ShOp) (s : State) : State :=
  match o.kind with
  | .mcas => if o.val ≠ o.expv then shResult o 4 false s else startPropose o s
  | _ => shResult o (if o.wantTag then o.tag else o.val) true s
/-- No majority: the result of each instruction. -/
def noMajority (o : ShOp) (s : State) : State := shResult o (match o.kind with | .mld => 0 | .mrepair => o.changed | _ => 2) false s
/-- The next cell of a repair, or its end. -/
def nextCell (o : ShOp) (s : State) : State :=
  if o.left = 0 then shResult o o.changed true s
  else
    let o1 := { o with cell := o.cell + 1, left := o.left - 1, phase := 0, reads := [], holds := [] }
    shSend o1 (o.sites.filter fun st => !o.gone.contains st) .read (setSh o1 s)
/-- A repair moves on once every copy has answered (R364). -/
def repairStep (o : ShOp) (m : Nat) (s : State) : State :=
  if o.phase = 0 then
    if 0 < stillOut s o (o.reads.map (·.1)) then s
    else if o.reads.length < m then nextCell o s
    else
      let (v, t) := newestRead o.reads
      let low := (o.reads.filter fun r => decide (r.2.2.1 < t)).map (·.1)
      if low.isEmpty then nextCell o s
      else
        let o1 := { o with phase := 1, val := v, tag := t, holds := o.reads.map (·.1) |>.filter fun st => !low.contains st }
        shSend o1 low (.commit v t) (setSh o1 s)
  else if o.phase = 1 ∧ stillOut s o o.holds = 0 then nextCell o s
  else s
/-- A copy whose read came late is written back to, or holds the value (R362). -/
def writeBack (o : ShOp) (r : Nat × Nat × Nat × Nat) (s : State) : ShOp × State :=
  if r.2.2.1 < o.tag then (o, shSend o [r.1] (.commit o.val o.tag) s) else ({ o with holds := r.1 :: o.holds }, s)
/-- An operation other than a repair moves on with what it has (R362, R363). -/
def opStep (o : ShOp) (n m : Nat) (s : State) : State :=
  if o.phase = 0 then
    if m ≤ o.reads.length then
      match o.kind with
      | .mst => startPropose o s
      | _ =>
        let (v, t) := newestRead o.reads
        let (o1, s1) := o.reads.foldl (fun p r => writeBack p.1 r p.2) ({ o with phase := 1, val := v, tag := t }, s)
        if m ≤ o1.holds.length then haveValue o1 (setSh o1 s1) else setSh o1 s1
    else if o.reads.length + stillOut s o (o.reads.map (·.1)) < m then noMajority o s
    else s
  else if o.phase = 1 then
    if m ≤ o.holds.length then haveValue o s
    else if o.holds.length + stillOut s o o.holds < m then noMajority o s
    else s
  else if o.phase = 2 then
    let out := stillOut s o (o.oks ++ o.nos)
    if m ≤ o.oks.length then
      let o1 := { o with phase := 3, committed := true, holds := [] }
      shSend o1 (o.sites.filter fun st => !o.gone.contains st) (.commit o.newv o.prop) (setSh o1 s)
    else if n - m < o.nos.length then shResult o 1 false (shSend o o.oks (.abort o.prop) s)
    else if o.oks.length + out < m ∧ o.nos.length + out ≤ n - m then shResult o 2 false (shSend o o.oks (.abort o.prop) s)
    else s
  else if o.phase = 3 then
    if m ≤ o.holds.length then shResult o 0 true s
    else if o.holds.length + stillOut s o o.holds < m then shResult o 2 false s
    else s
  else s
/-- Operations that have returned their result and wait for nothing more are over: every message that has an answer is answered, or timed
out (R367). An abort has none, so it keeps no operation. -/
def shSweep (s : State) : State :=
  { s with shOps := s.shOps.filter fun o => decide (o.phase < 4) || o.sites.any fun st => !o.gone.contains st && awaits s o.id st }
def shGo (o : ShOp) (s : State) : State :=
  match regionAt s o.part o.region with
  | none => s
  | some r => if o.kind = .mrepair then repairStep o (majority r) s else opStep o r.sites.length (majority r) s
/-- An operation moves on; it moves again while nothing it waits for is out, because every stack it would send to is marked. -/
def shLoop (id : Nat) : Nat → State → State
  | 0, s => s
  | f + 1, s =>
    match shOp s id with
    | none => s
    | some o =>
      let s1 := shGo o s
      match shOp s1 id with
      | none => s1
      | some o1 => if 4 ≤ o1.phase ∨ o1.sites.any (awaits s1 id) then s1 else shLoop id f s1
def shMove (id : Nat) (s : State) : State :=
  match shOp s id with
  | none => s
  | some o => shSweep (shLoop id (2 * o.left + 8) s)
/-- An answer enters its operation. Read bytes commit with the result, later ones as they come, and a write when its copy answers (R361). -/
def takeAns (o : ShOp) (stack cell : Nat) (a : ShAnsK) (s : State) : State :=
  match a with
  | .read v t pt =>
    let late := o.kind = .mld ∨ o.kind = .mcas
    if o.phase = 4 then
      (let s1 := meter s o.part o.ids mRD 16
       if late then (writeBack o (stack, v, t, pt) s1).2 else s1)
    else
      let o1 := { o with rd := o.rd + 1, reads := if cell = o.cell then o.reads ++ [(stack, v, t, pt)] else o.reads }
      if late ∧ 0 < o.phase then
        let (o2, s1) := writeBack o1 (stack, v, t, pt) s
        setSh (if o.phase = 1 then o2 else o1) s1
      else setSh o1 s
  | .prop ok =>
    if o.phase = 4 then (if ok && !o.committed then shSend o [stack] (.abort o.prop) s else s)
    else setSh (if ok then { o with oks := o.oks ++ [stack] } else { o with nos := o.nos ++ [stack] }) s
  | .holds t h ch =>
    let s1 := if ch then meter s o.part o.ids mWR 16 else s
    let mine := if o.phase = 3 then t == o.prop else t == o.tag
    setSh { o with changed := o.changed + b2n ch, holds := if h && mine && !o.holds.contains stack then stack :: o.holds else o.holds } s1
def execSheafAnswer (idx : Nat) (s : State) : Host.Outcome State Fault Refusal := onDev s fun s =>
  match s.shAns[idx]? with
  | none => s
  | some a =>
    let s0 := { s with shAns := s.shAns.eraseIdx idx }
    match shOp s0 a.op with
    | none => s0
    | some o => shMove o.id (if o.gone.contains a.stack then s0 else takeAns o a.stack a.cell a.a s0)
/-- A copy has not answered in time: it counts as not answering, and its stack is marked (R357). -/
def execSheafCopyTimeout (op stack : Nat) (s : State) : Host.Outcome State Fault Refusal := onDev s fun s =>
  match shOp s op with
  | none => s
  | some o =>
    if awaits s op stack && !o.gone.contains stack then
      shMove op (setSh { o with gone := stack :: o.gone } (modDev s fun d => { d with sheafdown := d.sheafdown ||| BitVec.ofNat 12 (2 ^ stack) }))
    else s
/-- A PTAG that has stood for its time is cleared (R356). -/
def execPtagExpiry (part region stack cell : Nat) (s : State) : Host.Outcome State Fault Refusal := onDev s fun s =>
  match regionAt s part region with
  | some r => if r.sites.contains stack ∧ cell < r.cells then copySet part (copyAt r stack cell) 3 0 s else s
  | none => s
/-- The host clears marks (R357). -/
def execSheafclr (mask : BitVec 12) (s : State) : Host.Outcome State Fault Refusal := onDev s fun s =>
  modDev s fun d => { d with sheafdown := d.sheafdown &&& ~~~mask }

/-! ### Syllables (R362 to R365) -/

/-- The cluster has an operation that has not returned its result (R359). -/
def shBusy (s : State) (a : At) : Bool := s.shOps.any fun o => o.core == a.k && o.c == a.c && decide (o.phase < 4)
/-- Starts an operation: its reads go to every live copy, and the syllable waits for its result. -/
def startSh (a : At) (kind : ShKind) (wantTag : Bool) (r cell expv newv left : Nat) (s : State) : State :=
  match regionAt s (partAt s a.k) r with
  | none => s
  | some reg =>
    let id := s.dev.nextOp
    let o : ShOp := { id := id, core := a.k, c := a.c, kind := kind, wantTag := wantTag, part := partAt s a.k, region := r, cell := cell
                      sites := reg.sites, ids := memIds s a, expv := expv, newv := newv, left := left, obs := obsOf s (partyOf a) }
    let s1 := modDev { s with shOps := s.shOps ++ [o] } fun d => { d with nextOp := id + 1 }
    shSend o o.sites .read (block a .other (modCtx s1 a fun t => { t with sheafBusy := some id }))
/-- A sheaf syllable: it takes the result that has come back, waits, or starts. -/
def sheafSyl (a : At) (check : Except FT (Nat × Nat)) (addr : Nat) (start : Nat → Nat → State → State) (done : Nat → Bool → State → State) (s : State) : State :=
  match (ctxOf s a).sheafRes with
  | some (v, ok) => retire a (done v ok (modCtx s a fun t => { t with sheafRes := none }))
  | none =>
    if shBusy s a then block a .other s
    else match check with
    | .error ty => trapMem a ⟨ty, 0, addr⟩ s
    | .ok (r, cell) => if tagRoom s a 1 then start r cell s else block a .other s
def execMld (tag : Bool) (d x : SOp) (b : Fin 16) (s : State) : Host.Outcome State Fault Refusal := onCl s fun a s =>
  needQ a (popsS [x]) (pushS d) (fun s =>
    let (u, _) := takeS a x s
    sheafSyl a (sheafAddr s (partAt s a.k) u.toNat) u.toNat (fun r cell s => startSh a .mld tag r cell 0 0 0 s)
      (fun v ok s => setP (putS a d (BitVec.ofNat 64 v) (let s1 := (takeS a x s).2; if ok then acquire s1 (partyOf a) 4 else s1)) a b.val ok) s) s
def execMst (d x y : SOp) (s : State) : Host.Outcome State Fault Refusal := onCl s fun a s =>
  needQ a (popsS [x, y]) (pushS d) (fun s =>
    let (u, t1) := takeS a x s
    let (v, _) := takeS a y t1
    sheafSyl a (sheafAddr s (partAt s a.k) u.toNat) u.toNat
      (fun r cell s => startSh a .mst false r cell 0 v.toNat 0 (release s (partyOf a) 4))
      (fun v _ s => putS a d (BitVec.ofNat 64 v) (takeS a y (takeS a x s).2).2) s) s
def execMcas (d x y z : SOp) (s : State) : Host.Outcome State Fault Refusal := onCl s fun a s =>
  needQ a (popsS [x, y, z]) (pushS d) (fun s =>
    let (u, t1) := takeS a x s
    let (v, t2) := takeS a y t1
    let (w, _) := takeS a z t2
    sheafSyl a (sheafAddr s (partAt s a.k) u.toNat) u.toNat
      (fun r cell s => startSh a .mcas false r cell v.toNat w.toNat 0 (release s (partyOf a) 4))
      (fun v _ s => putS a d (BitVec.ofNat 64 v) (acquire (takeS a z (takeS a y (takeS a x s).2).2).2 (partyOf a) 4)) s) s
/-- The checks of a repair: its count, then its first and its last address. -/
def repairCheck (s : State) (part u n : Nat) : Except FT (Nat × Nat) :=
  if n = 0 ∨ 4096 < n then .error .illegalOperand
  else match sheafAddr s part u with
  | .error e => .error e
  | .ok (r, cell) =>
    match sheafAddr s part (u + 16 * (n - 1)) with
    | .error e => .error e
    | .ok (r', _) => if r' = r then .ok (r, cell) else .error .addrUnmapped
def execMrepair (d x y : SOp) (s : State) : Host.Outcome State Fault Refusal := onCl s fun a s =>
  needQ a (popsS [x, y]) (pushS d) (fun s =>
    let (u, t1) := takeS a x s
    let (n, _) := takeS a y t1
    sheafSyl a (repairCheck s (partAt s a.k) u.toNat n.toNat) u.toNat
      (fun r cell s => startSh a .mrepair false r cell 0 0 (n.toNat - 1) s)
      (fun v _ s => putS a d (BitVec.ofNat 64 v) (takeS a y (takeS a x s).2).2) s) s

/-- The stacks that a descriptor names, in ascending order, and their bases. -/
def descStacks (x : Nat) : List Nat := (List.range 12).filter fun s => bitN x s
def descBases (x : Nat) : List Nat := (List.range 5).map fun i => fld x (128 + 64 * i) 64
/-- BAD_DESC of R365. -/
def descBad (x : Nat) : Bool :=
  let st := descStacks x
  let bs := (descBases x).take st.length
  let cells := fld x 64 32
  fld x 18 46 != 0 || fld x 96 32 != 0 || fld x 448 64 != 0 ||
  (if bitN x 16 then setFld (setFld x 12 4 0) 16 1 0 != 0
   else !(st.length == 3 || st.length == 5) || (st.length == 3 && fld x 320 128 != 0) || cells == 0 || decide (2 ^ 28 < cells) ||
    (st.zip bs).any fun p => p.2 % 65536 != 0 || p.2 / 0x1000000000 != p.1 || decide ((p.1 + 1) * 0x1000000000 < p.2 + 32 * cells))
/-- Zeroes the part of a range of device memory that lies in a page which a save has filled. -/
def zeroPage (a n : Nat) (s : State) (page : Nat) : State :=
  let base := page * 2 ^ 16
  let lo := if a < base then base else a
  let hi := if a + n < base + 2 ^ 16 then a + n else base + 2 ^ 16
  if lo = base ∧ hi = base + 2 ^ 16 then { s with dram := sclear s.dram base (2 ^ 16), pages := serase s.pages (pageKey .dram base) } else homeSetRun s .dram lo (List.replicate (hi - lo) 0)
/-- Zeroes a range of device memory. -/
def zeroDram (a n : Nat) (s : State) : State :=
  let s1 := clearMarks .dram a n s
  let s2 := { s1 with dram := sclear s1.dram a n, pend := s1.pend.flatMap fun w => cut w .dram a n }
  ((s2.pages.filter fun e => e.1 % 512 == 0 && decide (e.1 / 512 * 2 ^ 16 < a + n) && decide (a < e.1 / 512 * 2 ^ 16 + 2 ^ 16)).map fun e => e.1 / 512).foldl
    (zeroPage a n) s2
/-- What is still under way for a region at its unmapping goes with it: aborts, messages to copies that timed out, answers of those copies,
and the tags. -/
def dropRegion (part reg : Nat) (s : State) : State :=
  { s with shTags := s.shTags.filter fun e => !(e.part == part && e.region == reg)
           shMsgs := s.shMsgs.filter fun m => !(m.part == part && m.region == reg) }
/-- The status of `sheafmap`, and the state after it; none while operations on a region to unmap go on. -/
def doSheafmap (s : State) (part x : Nat) : Option (Nat × State) :=
  let reg := fld x 12 4
  let st := descStacks x
  if descBad x then some (1, s)
  else if bitN x 16 then
    if (regionAt s part reg).isNone then some (3, s)
    else if s.shOps.any fun o => o.part == part && o.region == reg then none
    else some (0, modPart (dropRegion part reg s) part fun p => { p with regions := serase p.regions reg })
  else if (regionAt s part reg).isSome then some (2, s)
  else if st.any fun n => s.dev.sheafdown.getLsbD n then some (4, s)
  else
    let bases := (descBases x).take st.length
    let s1 := if bitN x 17 then bases.foldl (fun s b => zeroDram b (32 * fld x 64 32) s) s else s
    some (0, modPart s1 part fun p => { p with regions := sput p.regions reg ⟨st, bases, fld x 64 32⟩ })
def execSheafmap (d x : SOp) (s : State) : Host.Outcome State Fault Refusal := onCl s fun a s =>
  needQ a (popsS [x]) (pushS d) (fun s =>
    let (u, t1) := takeS a x s
    if u.toNat % 64 ≠ 0 then trapTy a .misaligned s
    else if 0xFFC0 < u.toNat then trapTy a .illegalOperand s
    else match doSheafmap t1 (partAt s a.k) (ofBytes (curBytes s (partyOf a) (.kdm a.k) u.toNat 64)) with
    | none => block a .other s
    | some (v, s1) => retire a (putS a d (BitVec.ofNat 64 v) s1)) s

end Sys2Proof.Machine
end

