-- ==== Sys2Proof/Machine/Answer.lean ====
section
/-! DEFINITION. What the answers to a fault record do: resume, skip and abort for every party that a record stops (R289 to R291, with
R45, R159, R226, R241, R258, R321, R343, R358). -/

namespace Sys2Proof.Machine

/-! ### Clusters -/

/-- A cluster leaves the record that it stands at. -/
def freeClu (k : Nat) (c : Cluster) (t : Nat) (s : State) : State :=
  modClu s k c fun u => if u.stop = some t then { u with stop := none } else u
/-- Past the syllable: it issues as if it were predicated off (R289). -/
def pastClu (k : Nat) (c : Cluster) (t : Nat) (s : State) : State :=
  modClu s k c fun u => if u.stop = some t then { u with stop := none, skipOne := true } else u
/-- A context leaves its record: it goes on at its syllable, or past it. -/
def freeAt (a : At) (t : Nat) (s : State) : State :=
  match a.x with
  | .user => freeClu a.k a.c t s
  | _ => modKs s a.k fun ks => { ks with fwReady := true }
def pastAt (a : At) (t : Nat) (s : State) : State :=
  match a.x with
  | .user => pastClu a.k a.c t s
  | _ => advance a (modKs s a.k fun ks => { ks with fwReady := true })
/-- A skip of BARRIER_UNREACHABLE withdraws the arrival, if the barrier has not fired; the waiter goes on past it, with nothing acquired (R321). -/
def skipBarrier (a : At) (t : Nat) (s : State) : State :=
  match (ctxOf s a).tickDv with
  | none => freeAt a t s
  | some (b, n) =>
    let v := barAt s b
    if n < v.gen then pastAt a t (modCtx s a fun x => { x with wait := none, tickDv := none })
    else
      let s1 := modBar s b fun v =>
        let v := { v with told := v.told.filter (· != barKey s a) }
        if n = v.gen then { v with arrived := v.arrived - 1, arrmask := v.arrmask &&& ~~~(bit64 a.k) } else { v with next := v.next &&& ~~~(bit64 a.k) }
      barTest (pastAt a t (modCtx s1 a fun x => { x with wait := none, tickDv := none })) b
/-- A skip of SHEAF_LOST gives the result of no majority, and goes on past the syllable, in a lockstep run with the other members (R289,
R358). -/
def skipSheaf (a : At) (t : Nat) (s : State) : State :=
  let put := fun (d : SOp) (v : Nat) (s : State) => pastAt a t (putS a d (BitVec.ofNat 64 v) s)
  match decodeWith (some (a.c, privileged a)) (wordAt s a (pcOf s a)).toNat with
  | .ok y =>
    (match y.i with
    | .mld _ d _ b => put d 0 (setP s a b.val false)
    | .mst d _ _ => put d 2 s
    | .mcas d _ _ _ => put d 2 s
    | .mrepair d _ _ => put d 0 s
    | _ => pastAt a t s)
  | .error _ => pastAt a t s
/-- A holder of WAIT_DEADLOCK leaves its record; it goes on waiting unless its wait is withdrawn (R316). -/
def tellCtx (told : Bool) (t : Ctx) : Ctx := { t with wait := t.wait.map fun w => { w with told := told } }
def keepHolder (a : At) (s : State) : State := modCtx s a (tellCtx false)
/-- A barrier wait that is withdrawn for good takes its ticket with it; the arrival stands (DEDUCED, log 100). -/
def dropTicket (on : WaitOn) (t : Ctx) : Ctx :=
  match on with
  | .barCo _ => { t with tickCo := none }
  | .barDv _ _ => { t with tickDv := none }
  | _ => t
def dropHolder (a : At) (s : State) : State :=
  match (ctxOf s a).wait with
  | some w =>
    if w.told && w.fired.isNone then
      let s1 := modCtx (withdraw s a) a (dropTicket w.on)
      match a.x with
      | .user => modClu s1 a.k a.c fun u => { u with skipOne := true }
      | _ => advance a s1
    else keepHolder a s
  | none => s
def resumeClu (k : Nat) (c : Cluster) (r : FRec) (s : State) : State :=
  match r.ty with
  | .userTrap => pastClu k c r.token s
  | .waitDeadlock => keepHolder ⟨k, c, .user⟩ s
  | _ => freeClu k c r.token s
def skipClu (k : Nat) (c : Cluster) (r : FRec) (s : State) : State :=
  match r.ty with
  | .waitDeadlock => dropHolder ⟨k, c, .user⟩ s
  | .barrierUnreachable => skipBarrier ⟨k, c, .user⟩ r.token s
  | .sheafLost => skipSheaf ⟨k, c, .user⟩ r.token s
  | _ => if r.prec then pastClu k c r.token s else freeClu k c r.token s
/-- The firmware context at its record. -/
def resumeFw (k : Nat) (r : FRec) (s : State) : State :=
  if r.ty = .waitDeadlock then keepHolder ⟨k, .K, .fw⟩ s
  else
    let s1 := modKs s k fun ks => { ks with fwReady := true }
    if r.ty = .userTrap then advance ⟨k, .K, .fw⟩ s1 else s1
def skipFw (k : Nat) (r : FRec) (s : State) : State :=
  match r.ty with
  | .waitDeadlock => dropHolder ⟨k, .K, .fw⟩ s
  | .barrierUnreachable => skipBarrier ⟨k, .K, .fw⟩ r.token s
  | .sheafLost => skipSheaf ⟨k, .K, .fw⟩ r.token s
  | _ => pastAt ⟨k, .K, .fw⟩ r.token s

/-! ### Engines -/

def freeEQ (k q t : Nat) (s : State) : State := modEQ s k q fun e => if e.stop = some t then { e with stop := none } else e
/-- K's user context leaves a CONTROL_DIVERGENCE with the queue (R297). -/
def resumeQ (k q : Nat) (r : FRec) (s : State) : State := freeClu k .K r.token (freeEQ k q r.token s)
/-- The word that stands at the record is discarded, and nothing else (R45, R226). -/
def skipQ (k q : Nat) (r : FRec) (s : State) : State :=
  if (eqAt (coreAt s k) q).stop ≠ some r.token then s
  else match stopWord (eqAt (coreAt s k) q) with
  | none => resumeQ k q r s
  | some w => dropWord k q w.seq (discardWord k q w (resumeQ k q r s))
/-- Answers to the faults of a matrix operation (R226). -/
def freeMop (k : Nat) (op : MOp) (s : State) : State := setMop k { op with stop := none } s
def resumeMop (k : Nat) (op : MOp) (ty : FT) (s : State) : State :=
  match ty with
  | .matrixReplayLost | .matrixUncorrectable => endOp k op s
  | _ => freeMop k op s
def skipMop (k : Nat) (op : MOp) (ty : FT) (s : State) : State :=
  match ty with
  | .matrixReplayLost | .matrixUncorrectable | .matrixConfig => endOp k op s
  | .matrixPoison => freeMop k { op with skipPoison := true } s
  | _ => endOp k op (if op.kind = .go then meterGo k op s else if op.kind = .drain then meterDrain k op s else s)
/-- Answers to the faults of a copy command (R241); a command that is checked again asks for its pins (R339). -/
def resumeCmd (k : Nat) (c : Cmd) (s : State) : State :=
  if c.phase ≠ 5 then setCmd k { c with stop := none } s
  else
    let ss := getSR s k c.sh.srs
    let sd := getSR s k c.sh.srd
    let c1 := { c with ss := ss, sd := sd, stop := none }
    if cmdStreamsOk c.sh ss sd then setCmd k { c1 with phase := 6 } s
    else stopCmd k c1 ⟨.streamInvalid, 0, 0⟩ none (if streamOk (sideFld ss c.sh.swzs) then 1 else 0) s
def skipCmd (k : Nat) (c : Cmd) (s : State) : State := if c.phase = 5 then endCmd k c s else skipIter k c s
/-- Answers to the faults of a thresher command (R343): it goes on with the registers that it copied at its issue (R173). -/
def thAt (s : State) (st id : Nat) : Option ThCmd := (thrAt s st).cmds.find? fun c => c.id == id
def resumeTh (st : Nat) (c : ThCmd) (ty : FT) (s : State) : State :=
  match ty with
  | .pinUnderflow => endTh st c s
  | _ => setTh st { c with stop := none } s
def skipTh (st : Nat) (c : ThCmd) (s : State) : State :=
  match c.i with
  | .kAppend _ _ _ _ _ => setTh st { c with row := c.row + 1, stop := none } (rowStatus st c c.row 4 s)
  | _ => endTh st c s

/-! ### Rings (R282, R284, R289) -/

/-- RDIDX advances by n slots, and its mirror is written (R284); a ring that becomes empty has DEF 0 (R99). -/
def advanceRing (r n : Nat) (s : State) : State :=
  let s1 := modRing s r fun g =>
    let d := g.rdidx + BitVec.ofNat 32 n
    { g with rdidx := d, head := none, deficit := if d = g.wridx then 0 else g.deficit }
  let g := ringAt s1 r
  if g.rdmirror = 0 then s1
  else match devWrite s1 (ringPart r) g.rdmirror (bytesOf 4 g.rdidx.toNat) with
  | (s2, .ok _) => s2
  | (_, .error _) => modRing s1 r fun g => { g with refused := g.refused + 1 }
/-- The ring reads on after an answer: state 2 goes back to 1. -/
def reopen (r : Nat) (s : State) : State := modRing s r fun g => if g.state = 2 then { g with state := 1, head := none } else g
def skipRing (ring : Nat) (r : FRec) (newrd : BitVec 32) (s : State) : State :=
  if (ringAt s ring).state ≠ 2 then s
  else
    let s1 := reopen ring s
    match r.ty with
    | .ringOverrun => s1
    | .malformedLength => advanceRing ring (newrd - (ringAt s ring).rdidx).toNat s1
    | _ => advanceRing ring (fld r.raw 8 8) s1

/-! ### The end of a launch by abort (R290) -/

/-- The engines of an instance lose what has not been issued, and what stands at a record or parked. -/
def killQueue (k : Nat) (s : State) (q : Nat) : State :=
  let e := eqAt (coreAt s k) q
  let s1 := voidOpt e.stop s
  (e.words ++ e.parked).foldl (fun s w => discardWord k q w s) (modEQ s1 k q fun e => { e with words := [], parked := [], stop := none })
def killEngines (k : Nat) (s : State) : State :=
  let s1 := (List.range 9).foldl (killQueue k) s
  let s2 := ((coreAt s1 k).eng.mops.filter fun m => m.stop.isSome).foldl (fun s m => endOp k m (voidOpt m.stop s)) s1
  let s3 := ((coreAt s2 k).eng.cmds.filter fun c => c.stop.isSome || c.parked).foldl (fun s c => endCmd k c (voidOpt c.stop s)) s2
  (s3.out.filter fun o => outOf k o && (o.retry || o.stop.isSome)).foldl (fun s o => voidOpt o.stop (discardOut o s)) s3
/-- Its commands at the threshers that stand at a record or wait for a pin. -/
def killThr (k : Nat) (s : State) : State :=
  s.thr.foldl (fun s e => (e.2.cmds.filter fun c => c.core == k && (c.stop.isSome || e.2.waiting.any fun r => r.forThr == some c.id)).foldl
    (fun s c => endTh e.1 c (voidOpt c.stop s)) s) s
/-- Kills an instance whole. -/
def killInst (l k : Nat) (s : State) : State :=
  let s1 := (clusters.filter fun c => !ended (cluAt s k c).run).foldl (fun s c => killClu k c s) s
  dropPins (instOwner l k) (killThr k (killEngines k s1))
/-- A saved instance ends: its engine work goes, with its pins, and its core leaves the barriers of its partition (R320). -/
def killSaved (l part : Nat) (e : Saved) (s : State) : State :=
  (List.range 64).foldl (fun s b => if (barAt s b).owner = part then barLeave1 e.core s b else s)
    (dropPins (instOwner l e.core) (inSaved l e (killEngines e.core) s))
/-- Ends a launch: every instance is killed; those that are saved end at once, the others when their issued work has (R91, R290). -/
def killLaunch (l : Nat) (s : State) : State :=
  match launchOf s l with
  | none => s
  | some x =>
    let ks := (coreKeys s).filter fun k => launchNo s k == some l
    let s1 := x.saved.foldl (fun s e => killSaved l x.part e s) (ks.foldl (fun s k => killInst l k s) s)
    modLaunch s1 l fun l =>
      { l with killed := true, preempt := false, saved := [], left := l.left.filter ks.contains, st := if l.st = .saved then .running else l.st }
/-- Abort (R290). -/
def abortRec (r : FRec) (s : State) : State :=
  match r.who with
  | .ring g => modRing s g fun g => { g with state := 0, head := none }
  | _ => if r.rq ≠ 0 then cancelRq s (ringPart r.ring) r.rq else killLaunch r.launch s

/-! ### Answers -/

/-- The members of a stopped run go on (R96). -/
def freeRun (k t : Nat) (s : State) : State := clusters.foldl (fun s c => freeClu k c t s) s
def outAt (s : State) (t : Nat) : Option Out := s.out.find? fun o => o.stop == some t
/-- The pre-emption of a core is withdrawn (R289). -/
def dropPreempt (k : Nat) (s : State) : State :=
  let s1 := modCore s k fun o =>
    { mapClus o (fun _ u => { u with safeStop := false }) with
      preempt := false, dbgQuiet := (o.dbgNext.map (·.1)).getD o.dbgQuiet, dbgPorous := (o.dbgNext.map (·.2)).getD o.dbgPorous, dbgNext := none }
  match launchNo s k with
  | some l => modLaunch s1 l fun l => { l with preempt := false }
  | none => s1
/-- The core of the party of a record. -/
def whoCore (r : FRec) : Option Nat :=
  match r.who with
  | .cl k _ | .fw k | .queue k _ | .mop k _ | .cmd k _ | .run k => some k
  | .xid _ => some r.core
  | _ => none
/-- The instance of a core that its launch has saved (R300). -/
def savedAt (s : State) (launch k : Nat) : Option Saved :=
  match launchOf s launch with
  | some l => l.saved.find? (·.core == k)
  | none => none
/-- Acts on the party of a record where it is: on its core, or in what was saved of its instance, which a restored party then shows
(R301). -/
def atParty (r : FRec) (f : State → State) (s : State) : State :=
  match whoCore r with
  | none => f s
  | some k =>
    match savedAt s r.launch k with
    | none => f s
    | some e => inSaved r.launch e f s
/-- Resume of a record whose party stands where it stopped. -/
def resumeWho (r : FRec) (s : State) : State :=
  match r.who with
  | .cl k c => resumeClu k c r s
  | .fw k => resumeFw k r s
  | .queue k q => resumeQ k q r s
  | .mop k id => (match mopAt (coreAt s k) id with | some op => if op.stop = some r.token then resumeMop k op r.ty s else s | none => s)
  | .cmd k id => (match cmdAt (coreAt s k) id with | some c => if c.stop = some r.token then resumeCmd k c s else s | none => s)
  | .thr st id => (match thAt s st id with | some c => if c.stop = some r.token then resumeTh st c r.ty s else s | none => s)
  | .ring g => reopen g s
  | .xid _ => (match outAt s r.token with | some o => resend o s | none => s)
  | .watch k w => modKs s k fun ks => { ks with watches := ks.watches.map fun e => if e.1 = w then (e.1, { e.2 with told := false }) else e }
  | .run k => freeRun k r.token s
  | .save _ | .nobody => s
def skipWho (r : FRec) (newrd : BitVec 32) (s : State) : State :=
  match r.who with
  | .cl k c => skipClu k c r s
  | .fw k => skipFw k r s
  | .queue k q => skipQ k q r s
  | .mop k id => (match mopAt (coreAt s k) id with | some op => if op.stop = some r.token then skipMop k op r.ty s else s | none => s)
  | .cmd k id => (match cmdAt (coreAt s k) id with | some c => if c.stop = some r.token then skipCmd k c s else s | none => s)
  | .thr st id => (match thAt s st id with | some c => if c.stop = some r.token then skipTh st c s else s | none => s)
  | .ring g => skipRing g r newrd s
  | .xid _ => (match outAt s r.token with | some o => discardOut o s | none => s)
  | .watch k w => if ((slook (coreAt s k).ks.watches w).map (·.told)).getD false then modKs s k fun ks => { ks with watches := serase ks.watches w } else s
  | .run _ => s
  | .save k => dropPreempt k s
  | .nobody => s
/-- The types and cases in which an answer acts as abort (R289, R293). -/
def asAbort (r : FRec) (skip : Bool) : Bool :=
  match r.ty with
  | .pagerFault => true
  | .pcRange => !r.prec
  | .runDeadlock => skip
  | _ => false
def resumeRec (r : FRec) (s : State) : State := if ftNoAnswer r.ty then s else if asAbort r false then abortRec r s else atParty r (resumeWho r) s
def skipRec (r : FRec) (newrd : BitVec 32) (s : State) : State := if ftNoAnswer r.ty then s else if asAbort r true then abortRec r s else atParty r (skipWho r newrd) s
/-- The pending record of a ring that a TOKEN names (R287). -/
def pendingRec (s : State) (ring token : Nat) : Option FRec := (ringAt s ring).pend.find? fun r => r.token == token
def ignoreAnswer (ring : Nat) (s : State) : State := modRing s ring fun g => { g with ignored := g.ignored + 1 }
/-- What a ring still holds for its exception queue is void: posted, and pending no more (R282, R291). -/
def heldVoid (g : Ring) : Bool :=
  (g.held.drop 16).isEmpty && g.held.all fun r => !ftNoAnswer r.ty && g.pend.all fun x => x.token != r.token
/-- A closing ring without launches and records becomes closed; void records that were not written are dropped (R282; DEDUCED, log 105). -/
def settle (s : State) : State :=
  { s with rings := s.rings.map fun e =>
      if e.2.state = 3 ∧ (e.2.pend.all fun r => ftNoAnswer r.ty) ∧ heldVoid e.2 ∧ (s.launches.all fun l => l.ring != e.1)
      then (e.1, { e.2 with state := 0, held := [] }) else e }
def answerRec (ring token : Nat) (ok : FRec → Bool) (go : FRec → State → State) (s : State) : State :=
  match pendingRec s ring token with
  | none => if hostCan s (ringPart ring) then ignoreAnswer ring s else s
  | some r =>
    if !hostCan s (ringPart ring) then s
    else if ok r then settle (go r (modRing s ring fun g => { g with pend := g.pend.filter fun x => x.token != token })) else ignoreAnswer ring s
def execAnswerResume (ring token : Nat) (s : State) : Host.Outcome State Fault Refusal := onDev s fun s =>
  answerRec ring token (fun _ => true) resumeRec s
/-- NEWRD lies in RDIDX + 1 to WRIDX (R287). -/
def newrdOk (s : State) (ring : Nat) (newrd : BitVec 32) : Bool :=
  let g := ringAt s ring
  decide (1 ≤ (newrd - g.rdidx).toNat) && decide ((newrd - g.rdidx).toNat ≤ (g.wridx - g.rdidx).toNat)
def execAnswerSkip (ring token : Nat) (newrd : BitVec 32) (s : State) : Host.Outcome State Fault Refusal := onDev s fun s =>
  answerRec ring token (fun r => decide (r.ty ≠ .malformedLength) || newrdOk s ring newrd) (fun r s => skipRec r newrd s) s
def execAnswerAbort (ring token : Nat) (s : State) : Host.Outcome State Fault Refusal := onDev s fun s =>
  answerRec ring token (fun _ => true) (fun r s => if ftNoAnswer r.ty then s else abortRec r s) s

end Sys2Proof.Machine
end

