-- ==== Sys2Proof/Machine/Pager.lean ====
section
/-! DEFINITION. The resident pager and its syllables: ends of service, cached translations, leaves, records passed on (R292 to R296,
R304 to R308). -/

namespace Sys2Proof.Machine

/-! ### The end of a service (R294, R295, R304) -/

/-- K's user context, which asked for a service. -/
def callerOf (k : Nat) : At := ⟨k, .K, .user⟩
/-- The result of a pager request goes into `x[D]` of the `fwcall`, and the caller goes on behind it (R295). -/
def replyCaller (k : Nat) (d : SOp) (v : Word) (s : State) : State :=
  let u := callerOf k
  if (cluAt s k .K).run ≠ .on then s
  else modClu (retire u (meterStall u (putS u d v s))) k .K fun c => { c with fwStall := false }
/-- The calling launch ends (R290); the caller leaves its `fwcall` killed. -/
def abortCaller (k : Nat) (s : State) : State :=
  match launchNo s k with
  | some l => killLaunch l s
  | none => s
/-- The pager's service ends with a release of its stores at `.dv`; then the answer acts. -/
def endService (a : At) (onTrap : FRec → State → State) (onReq : SOp → State → State) (s : State) : State :=
  let s1 := release (retire a s) (partyOf a) 4
  let s2 := modKs s1 a.k fun ks => { ks with pagerRun := .idle }
  match (coreAt s a.k).ks.pagerRun with
  | .idle => s1
  | .trap r => onTrap r s2
  | .request _ d => onReq d (modKs s2 a.k fun ks => { ks with fwRqi := 0 })
/-- The three forms of `eret` belong to the pager alone (R304). -/
def eretForm (a : At) (onTrap : FRec → State → State) (onReq : SOp → State → State) (s : State) : State :=
  if a.x = .pager then endService a onTrap onReq s else trapTy a .illegalPrivilege s
def execEret (s : State) : Host.Outcome State Fault Refusal := onCl s fun a s =>
  eretForm a resumeRec (fun d => replyCaller a.k d (sget 0 (coreAt s a.k).ks.fr 0)) s
def execEretSkip (s : State) : Host.Outcome State Fault Refusal := onCl s fun a s =>
  eretForm a (fun r => skipRec r 0) (fun d => replyCaller a.k d (BitVec.ofNat 64 (2 ^ 64 - 1))) s
def execEretAbort (s : State) : Host.Outcome State Fault Refusal := onCl s fun a s =>
  eretForm a abortRec (fun _ => abortCaller a.k) s

/-! ### Cached translations (R305, R306) -/

/-- Takes the entries of a test out of the caches of a core, those of the pager among them with PAGER. -/
def dropTl (ok : TlbE → Bool) (pager : Bool) (o : Core) : Core :=
  let f := fun (l : List TlbE) => l.filter fun e => !(ok e && (pager || !e.pg))
  { o with tlbK := f o.tlbK, tlbA := f o.tlbA, tlbM := f o.tlbM, tlbC := f o.tlbC }
/-- What a mode of `tlbinv` removes on a core. -/
def tlbinvHit (mode part va : Nat) (e : TlbE) : Bool := e.part == part && (mode != 0 || covers e part va)
def execTlbinv (x : SOp) (mode : Fin 3) (pager : Bool) (s : State) : Host.Outcome State Fault Refusal := onCl s fun a s =>
  needQ a (popsS [x]) [] (fun s =>
    let (u, t1) := takeS a x s
    let part := partAt s a.k
    let go := dropTl (tlbinvHit mode.val part u.toNat) pager
    let ks := if mode.val = 2 then (coreKeys s).filter fun k => k != a.k && runsPart s part k else []
    retire a (ks.foldl (fun s k => modCore s k go) (modCore t1 a.k go))) s
/-- The cache that a target names. -/
def fillTl : Nat → Tl
  | 0 => .k
  | 1 => .a
  | 2 => .m
  | _ => .c
/-- A leaf that R164 accepts for an address, apart from what it permits: no cause 0, 2 or 3. -/
def leafGood (e va : Nat) : Bool := teV e && teLeaf e && !leafMalformed e && !leafDenied e (isHostVa va)
def execTlbfill (x y : SOp) (target : Fin 4) (s : State) : Host.Outcome State Fault Refusal := onCl s fun a s =>
  needQ a (popsS [x, y]) [] (fun s =>
    let (u, t1) := takeS a x s
    let (v, t2) := takeS a y t1
    if !leafGood v.toNat u.toNat then trapTy a .illegalOperand s
    else retire a (tlInstall t2 a.k (fillTl target.val) (mkTlb (fillTl target.val) (partAt s a.k) u.toNat v.toNat none))) s

/-! ### pgmap (R307) -/

/-- The table that a valid pointer names. -/
def pointerTo (e bytes : Nat) : Option Nat := if teV e && !teLeaf e then nextTable e bytes else none
/-- Swaps n entries from an address on, each at its home. -/
def swapEntries (s : State) (q : Party) (part a e n : Nat) : State :=
  (List.range n).foldl (fun s i => stamp (storeHome s q .dram (a + 8 * i) (bytesOf 8 e)) part .dram (a + 8 * i) 8) s
/-- `pgmap`: its status and what it wrote. The walk starts at ROOT whatever EN is (log entry 32). -/
def pgMap (s : State) (q : Party) (part va e : Nat) : Nat × State :=
  if (!teV e && teSz e == 3) || (teV e && !leafGood e va) then (2, s)
  else
    let root := fld (partRec s part).ptroot.toNat 13 35 * 2 ^ 13
    match pointerTo (readEntry s q (root + 8 * fld va 38 10)) (2 ^ 12) with
    | none => (0x101, s)
    | some t2 =>
      if teSz e = 2 then (0, swapEntries s q part (t2 + 8 * fld va 29 9) e 1)
      else match pointerTo (readEntry s q (t2 + 8 * fld va 29 9)) (2 ^ 16) with
      | none => (0x102, s)
      | some t3 =>
        if teSz e = 1 then (0, swapEntries s q part (t3 + 8 * (fld va 16 13 / 32 * 32)) e 32)
        else (0, swapEntries s q part (t3 + 8 * fld va 16 13) e 1)
def execPgmap (d x y : SOp) (s : State) : Host.Outcome State Fault Refusal := onCl s fun a s =>
  needQ a (popsS [x, y]) (pushS d) (fun s =>
    let (u, t1) := takeS a x s
    let (v, t2) := takeS a y t1
    let (st, t3) := pgMap t2 (partyOf a) (partAt s a.k) u.toNat v.toNat
    retire a (putS a d (BitVec.ofNat 64 st) t3)) s

/-! ### exqpost (R308) -/

/-- 64 bytes read as a record, with what the pending trap keeps: TOKEN, TYPE, SLOT, and whom it stopped. -/
def recOf (x : Nat) (r : FRec) : FRec :=
  { r with aux1 := fld x 448 64, aux0 := fld x 384 64, addr := fld x 320 64, raw := fld x 256 64, rq := fld x 144 16, wh := fld x 113 15
           prec := bitN x 112, core := fld x 106 6, cluster := fld x 104 2, unit := fld x 100 4, queue := fld x 96 4, cause := fld x 88 8
           peer := fld x 80 8 }
/-- `exqpost` posts the pending trap's record and ends the service; in a pager request it is a PAGER_FAULT of cause 2 (R293, R295). -/
def execExqpost (x : SOp) (s : State) : Host.Outcome State Fault Refusal := onCl s fun a s =>
  needQ a (popsS [x]) [] (fun s =>
    let (u, t1) := takeS a x s
    if u.toNat % 64 ≠ 0 then trapTy a .misaligned s
    else if 0xFFC0 < u.toNat then trapTy a .illegalOperand s
    else match (coreAt s a.k).ks.pagerRun with
    | .idle => retire a t1
    | .request _ _ => pagerFail s a.k 0 (pcOf s a) 2
    | .trap r =>
      let x := ofBytes (curBytes t1 (partyOf a) (.kdm a.k) u.toNat 64)
      postRec (modKs (retire a t1) a.k fun ks => { ks with pagerRun := .idle }) (recOf x r)) s

end Sys2Proof.Machine
end

