-- ==== Sys2Proof/Machine/Front.lean ====
section
/-! DEFINITION. The front ends: ring pairs, packets, the choice and the placement of launches, instances and completions (R85 to R91,
R99, R155, R281 to R286). -/

namespace Sys2Proof.Machine

/-! ### Ring pairs (R281, R282) -/

def ringDie (s : State) (r : Nat) : Nat := (ringAt s r).die
/-- A write that the device ignores or refuses is counted (R282). -/
def refuseRing (r : Nat) (s : State) : State := modRing s r fun g => { g with refused := g.refused + 1 }
/-- The checks of an opening. -/
def openOk (g : Ring) : Bool :=
  decide (4 ≤ g.ringlog) && decide (g.ringlog ≤ 16) && decide (4 ≤ g.exqlog) && decide (g.exqlog ≤ 16) &&
  g.ringbase % 64 == 0 && g.exqbase % 64 == 0 && (g.savebase == 0 || decide (40 ≤ g.savestride))
/-- Records of a ring become void, pending ones and those that wait unposted (R282, R291). -/
def voidIn (ring : Nat) (ok : FRec → Bool) (s : State) : State :=
  let g := ringAt s ring
  ((g.pend ++ g.held.drop 16).filter ok).foldl (fun s r => voidTok r.token s) s
/-- The records of the front end for the packets of a ring become void. -/
def voidFront (r : Nat) (s : State) : State := voidIn r (fun x => decide (x.who = .ring r)) s
/-- An opening clears the indices, and voids what the front end still has at a record (R282 says so of a closing; DEDUCED, log 105). -/
def openRing (ring : Nat) (s : State) : State :=
  if !hostCan s (ringPart ring) then s
  else if (ringAt s ring).state = 0 ∧ openOk (ringAt s ring) then
    modRing (voidFront ring s) ring fun g => { g with state := 1, rdidx := 0, wridx := 0, exqrd := 0, exqwr := 0, deficit := 0, head := none }
  else refuseRing ring s
def closeRing (ring : Nat) (s : State) : State :=
  if !hostCan s (ringPart ring) then s
  else if (ringAt s ring).state = 1 ∨ (ringAt s ring).state = 2 then
    settle (modRing (voidFront ring s) ring fun g => { g with state := 3, head := none })
  else refuseRing ring s
def execRingOpen (ring : Nat) (s : State) : Host.Outcome State Fault Refusal := onDev s fun s => openRing ring s
def execRingClose (ring : Nat) (s : State) : Host.Outcome State Fault Refusal := onDev s fun s => closeRing ring s
/-- The doorbell: the front end reads the packets that WRIDX now covers, one step each. -/
def execRingDoorbell (ring : Nat) (wridx : BitVec 32) (s : State) : Host.Outcome State Fault Refusal := onDev s fun s =>
  if hostCan s (ringPart ring) then modRing s ring fun g => { g with wridx := wridx } else s

/-! ### The packet at RDIDX (R283, R284) -/

/-- What stands at RDIDX: nothing to read, a fault, a PAD of a length, a LAUNCH with its header. -/
inductive HeadPkt | idle | bad (r : FRec) | pad (n : Nat) | launch (hdr : Nat)
  deriving DecidableEq, Repr
/-- A record that the front end raises for a ring packet: RQ 0 and the index at which it stopped (R288). -/
def frontRec (s : State) (r : Nat) (ty : FT) (raw : Nat) : FRec :=
  { ty := ty, unit := 4, slot := (ringAt s r).rdidx.toNat, raw := raw, ring := r, who := .ring r }
/-- The front end stops at the record. -/
def stopRing (r : Nat) (x : FRec) (s : State) : State := (raise (modRing s r fun g => { g with state := 2, head := none }) x).2
/-- The address of the slot at RDIDX. -/
def slotVa (g : Ring) : Nat := g.ringbase + 64 * (g.rdidx.toNat % 2 ^ g.ringlog)
/-- Slots between RDIDX and WRIDX. -/
def availOf (g : Ring) : Nat := (g.wridx - g.rdidx).toNat
/-- The checks of R284 on a header that has been read. -/
def hdrKind (s : State) (r hdr : Nat) : HeadPkt :=
  let g := ringAt s r
  let len := fld hdr 8 8
  let n := 2 ^ g.ringlog
  if len = 0 ∨ n < len ∨ n < g.rdidx.toNat % n + len then
    .bad { frontRec s r .malformedLength hdr with aux0 := len, aux1 := g.rdidx.toNat }
  else if 1 < fld hdr 0 8 then .bad (frontRec s r .packetUndefined hdr)
  else if availOf g < len then .idle
  else if fld hdr 0 8 = 0 then .pad len else .launch hdr
/-- Reads the header at RDIDX. A slot that cannot be read is a fault of the front end (log entry 33). -/
def headAt (s : State) (r : Nat) : State × HeadPkt :=
  let g := ringAt s r
  if g.state ≠ 1 ∨ g.head.isSome ∨ g.wridx = g.rdidx then (s, .idle)
  else if 2 ^ g.ringlog < availOf g then (s, .bad (frontRec s r .ringOverrun 0))
  else match devRead s (ringPart r) (slotVa g) 4 with
  | (s1, .error f) => (s1, .bad { frontRec s r f.ty 0 with cause := f.cause, addr := f.addr })
  | (s1, .ok bs) => (s1, hdrKind s r (ofBytes bs))
def execPad (ring : Nat) (s : State) : Host.Outcome State Fault Refusal := onDev s fun s =>
  match headAt s ring with
  | (s1, .pad n) => advanceRing ring n s1
  | (s1, .bad x) => stopRing ring x s1
  | (s1, _) => s1

/-! ### LAUNCH (R85 to R89) -/

/-- The priming list: none when it breaks R89. -/
def primeEntry (bs : List Byte) (i : Nat) : Nat × SReg × Nat :=
  let e := (bs.drop (48 * i)).take 48
  (ofBytes (e.take 8), BitVec.ofNat 256 (ofBytes ((e.drop 8).take 32)), ofBytes (e.drop 40))
def primeList (bs : List Byte) (n : Nat) : Option (List (Nat × SReg)) :=
  let es := (List.range n).map (primeEntry bs)
  if (es.all fun e => decide (e.1 < 32) && e.2.2 == 0) && (es.map (·.1)).eraseDups.length == n then some (es.map fun e => (e.1, e.2.1)) else none
def readPrime (s : State) (part va : Nat) : State × Except AFault (Option (List (Nat × SReg))) :=
  if va = 0 then (s, .ok (some []))
  else match devRead s part va 8 with
  | (s1, .error f) => (s1, .error f)
  | (s1, .ok b0) =>
    let n := ofBytes b0
    if n = 0 ∨ 32 < n then (s1, .ok none)
    else match devRead s1 part (va + 8) (48 * n) with
    | (s2, .error f) => (s2, .error f)
    | (s2, .ok bs) => (s2, .ok (primeList bs n))
/-- Level descriptor k (R86). -/
def levelDesc (v k : Nat) : Nat := fld v (448 + 64 * k) 64
def pktOf (v slot : Nat) (prime : List (Nat × SReg)) : LPkt :=
  { slot := slot, rq := fld v 32 16, cls := fld v 48 2, image := fld v 64 64, argbase := fld v 128 48
    handoff := (List.range 8).map (fun i => fld v (256 + 8 * i) 8), prime := prime, compl := fld v 320 64, compval := fld v 384 64
    kinds := (List.range 6).map (fun k => fld (levelDesc v k) 32 2), counts := (List.range 6).map (fun k => fld (levelDesc v k) 0 32)
    cmask := BitVec.ofNat 64 (fld v 832 64), lattol := fld v 896 32 }
def levels (p : LPkt) : List (Nat × Nat) := p.kinds.zip p.counts
/-- P and D of R87 and R88. -/
def instancesOf (p : LPkt) : Nat := (levels p).foldl (fun n l => if l.1 = 2 then n * l.2 else n) 1
def twoDies (p : LPkt) : Bool := (levels p).any fun l => l.1 == 3 && l.2 == 2
def diesOf (p : LPkt) (die : Nat) : List Nat := if twoDies p then [0, 1] else [die]
/-- The cores that CMASK and the partition allow. -/
def allowed (s : State) (part : Nat) (p : LPkt) (core : Nat) : Bool :=
  (partRec s part).cmask.getLsbD core && (p.cmask == 0 || p.cmask.getLsbD core)
def dieCores (die : Nat) : List Nat := (List.range 32).map (32 * die + ·)
/-- A reserved field of the packet is set. -/
def pktReserved (v : Nat) : Bool :=
  fld v 928 96 != 0 || fld v 176 16 != 0 || fld v 50 14 != 0 || fld v 16 16 != 0 || (List.range 6).any fun k => levelDesc v k / 2 ^ 34 != 0
/-- LAUNCH_MALFORMED of R87, apart from LEN and the priming list. -/
def pktBad (s : State) (r v : Nat) : Bool :=
  let p := pktOf v 0 []
  let part := ringPart r
  pktReserved v || ((levels p).any fun l => (l.1 == 2 || l.1 == 3) && l.2 == 0) ||
  decide (1 < ((levels p).filter fun l => l.1 == 3).length) || ((levels p).any fun l => l.1 == 3 && decide (2 < l.2)) ||
  decide (32 < instancesOf p) ||
  ((diesOf p (ringAt s r).die).any fun d => decide (((dieCores d).filter (allowed s part p)).length < instancesOf p)) ||
  (match slook s.images p.image with
  | some im => im.part != part
  | none => true)
/-- The image that a handle names passes R56. -/
def imageGood (s : State) (handle : Nat) : Bool :=
  match slook s.images handle with
  | some im => imgOk im
  | none => false
/-- Checks a LAUNCH by R87 and R56, in the order of log entry 33, and holds it at the ring head. -/
def checkLaunch (r hdr : Nat) (s : State) : State :=
  let part := ringPart r
  let refuse := fun (ty : FT) (s : State) => stopRing r (frontRec s r ty hdr) s
  if fld hdr 8 8 ≠ 2 then refuse .launchMalformed s
  else match devRead s part (slotVa (ringAt s r)) 128 with
  | (s1, .error f) => stopRing r { frontRec s r f.ty hdr with cause := f.cause, addr := f.addr } s1
  | (s1, .ok bs) =>
    let v := ofBytes bs
    if pktBad s1 r v then refuse .launchMalformed s1
    else match readPrime s1 part (fld v 192 64) with
    | (s2, .error f) => stopRing r { frontRec s r f.ty hdr with cause := f.cause, addr := f.addr } s2
    | (s2, .ok none) => refuse .launchMalformed s2
    | (s2, .ok (some prime)) =>
      let p := pktOf v (ringAt s r).rdidx.toNat prime
      if !rqOpenIn s2 part p.rq then refuse .requestNotOpen s2
      else if !imageGood s2 p.image then refuse .imageMalformed s2
      else modRing s2 r fun g => { g with head := some p }
def execLaunch (ring : Nat) (s : State) : Host.Outcome State Fault Refusal := onDev s fun s =>
  match headAt s ring with
  | (s1, .launch hdr) => checkLaunch ring hdr s1
  | (s1, .bad x) => stopRing ring x s1
  | (s1, _) => s1

/-! ### The choice of the next launch (R88, R99) -/

def coreFree (s : State) (k : Nat) : Bool := (coreAt s k).inst.isNone
/-- The cores that a launch takes, with the die's number and the instance's number on it; none for lack of cores. -/
def takeDie (s : State) (free : Nat → Bool) (part : Nat) (p : LPkt) (die : Nat) : Option (List (Nat × Nat × Nat)) :=
  let l := ((dieCores die).filter fun k => allowed s part p k && free k).take (instancesOf p)
  if l.length < instancesOf p then none else some ((l.zip (List.range l.length)).map fun e => (e.1, die, e.2))
def picks (s : State) (free : Nat → Bool) (part die : Nat) (p : LPkt) : Option (List (Nat × Nat × Nat)) :=
  (diesOf p die).foldl (fun acc d =>
    match acc, takeDie s free part p d with
    | some l, some m => some (l ++ m)
    | _, _ => none) (some [])
/-- A full exception queue, or one that could not be written, places no new launch (R286). -/
def exqFull (g : Ring) : Bool := decide (2 ^ g.exqlog ≤ (g.exqwr - g.exqrd).toNat) || g.unwritable
/-- What waits at the head of a ring: a saved launch, which returned to it, or its LAUNCH (R100). -/
structure Cand where
  ring : Nat
  cls : Nat
  saved : Option Nat
  deriving DecidableEq, Repr
def candOf (s : State) (r : Nat) : Option Cand :=
  match s.launches.find? fun l => l.ring == r && decide (l.st = .saved) with
  | some l => some ⟨r, l.pkt.cls, some l.id⟩
  | none =>
    let g := ringAt s r
    match g.head with
    | some p => if g.state = 1 ∧ !exqFull g then some ⟨r, p.cls, none⟩ else none
    | none => none
def candsOf (s : State) (die : Nat) : List Cand := ((s.rings.map (·.1)).filter fun r => ringDie s r == die).filterMap (candOf s)
/-- Quantum of a ring (R99). -/
def quantumOf (g : Ring) : Nat := if g.quantum = 0 then 1000 else g.quantum
/-- One round of the visits: rings in deficit get their quantum, up to the first that is not. -/
def visitRound : List Cand → State → State × Option Cand
  | [], s => (s, none)
  | c :: cs, s =>
    if (ringAt s c.ring).deficit ≤ 0 then visitRound cs (modRing s c.ring fun g => { g with deficit := g.deficit + quantumOf g })
    else (s, some c)
def visit (l : List Cand) : Nat → State → State × Option Cand
  | 0, s => (s, none)
  | n + 1, s =>
    match visitRound l s with
    | (s1, some c) => (s1, some c)
    | (s1, none) => visit l n s1
/-- The rings of the first class that has a launch, from the one after the ring last served. -/
def visitOrder (s : State) (die : Nat) : List Cand :=
  let l := candsOf s die
  let c := l.foldl (fun m x => if x.cls < m then x.cls else m) 3
  let m := l.filter fun x => x.cls == c
  let from0 := sget 0 s.dev.lastRing die
  (m.filter fun x => decide (from0 ≤ x.ring)) ++ m.filter fun x => decide (x.ring < from0)
/-- The launch can be placed: its cores are free. -/
def canPlace (s : State) (c : Cand) : Bool :=
  match c.saved with
  | some id => (match launchOf s id with
    | some l => l.saved.all fun e => coreFree s e.core
    | none => false)
  | none => (match (ringAt s c.ring).head with
    | some p => (picks s (coreFree s) (ringPart c.ring) (ringDie s c.ring) p).isSome
    | none => false)
/-- The choice of a die's front end; it stops choosing when the launch that is due cannot be placed (R99). -/
def choose (s : State) (die : Nat) : State × Option Cand :=
  let l := visitOrder s die
  if bitN s.dev.stuck die || l.isEmpty then (s, none)
  else match visit l ((l.foldl (fun n c => n + ((ringAt s c.ring).deficit).natAbs) 0) + 2) s with
  | (s1, some c) => if canPlace s1 c then (s1, some c) else (modDev s1 fun d => { d with stuck := d.stuck ||| 2 ^ die }, none)
  | (s1, none) => (s1, none)
def servedRing (die r : Nat) (s : State) : State := modDev s fun d => { d with lastRing := sput d.lastRing die (r + 1) }

/-! ### Placing a launch (R88, R90, R155) -/

/-- What a launch leaves of a core: its memories, what the firmware context holds (log entry 8), the instance that has been placed, halts and
freezes, and the caches (log entry 18). Everything else is at its value at launch (R83, R105, R210, R312). -/
def bareCore (o : Core) : Core :=
  { k := { imem := o.k.imem, run := o.k.run }, a := { imem := o.a.imem, run := o.a.run }, x0 := { imem := o.x0.imem, run := o.x0.run }
    x1 := { imem := o.x1.imem, run := o.x1.run }
    ks := { fw := o.ks.fw, fwRqi := (match o.ks.pagerRun with | .request _ _ => 0 | _ => o.ks.fwRqi), fwReady := o.ks.fwReady, pagerMem := o.ks.pagerMem, fwshare := o.ks.fwshare
            slotCtr := o.ks.slotCtr, owed := o.ks.owed, slept := o.ks.slept }
    eng := { pushSeq := o.eng.pushSeq, nextId := o.eng.nextId }
    kdm := o.kdm, spad := o.spad, spadEpoch := o.spadEpoch, frozen := o.frozen, freezeMore := o.freezeMore
    dbgQuiet := o.dbgQuiet, dbgPorous := o.dbgPorous, dbgNext := o.dbgNext, pwr := o.pwr, waking := o.waking, pwrlimit := o.pwrlimit
    inst := o.inst, lastPart := o.lastPart, preempt := o.preempt, preLate := o.preLate
    tlbK := o.tlbK, tlbA := o.tlbA, tlbM := o.tlbM, tlbC := o.tlbC, walks := o.walks }
/-- The zeroing of R155: the scratchpad and the four instruction memories. -/
def zeroCore (k : Nat) (s : State) : State :=
  let s1 := modCore s k fun o => mapClus { o with spad := [], spadEpoch := 0 } fun _ u => { u with imem := [] }
  { s1 with poison := s1.poison.filter fun e => e.1 % 512 != spaceKey (.spad k) }
/-- Places the bytes of the sections of a type (R55), as writes of the device. -/
def placeBytes (im : Image) (sp : Space) (ty : Nat) (s : State) : State :=
  (typeSects im ty).foldl (fun s t => commitBytes s .dev sp t.load (imgBytes im t.off t.len)) s
def loadText (im : Image) (c : Cluster) (u : Clu) : Clu :=
  match textSect im c with
  | some t => { u with imem := ssetRun 0 u.imem (t.load / 8) (sectWords im t) }
  | none => u
/-- Coordinates of instance i on a die (R88). A level of kind 3 and count 1 has coordinate 0 (DESIGN CHOICE, log 107). -/
def coordsFrom : List (Nat × Nat) → Nat → Nat → Nat → List Nat
  | [], _, _, _ => []
  | (2, n) :: ls, i, q, die => i / q % n :: coordsFrom ls i (q * n) die
  | (3, n) :: ls, i, q, die => (if n = 2 then die else 0) :: coordsFrom ls i q die
  | _ :: ls, i, q, die => 0 :: coordsFrom ls i q die
/-- A core that sleeps wakes for what has been placed on it (R390). -/
def wakeCore (o : Core) : Core := if o.pwr = .l0 then o else { o with waking := true }
/-- An instance takes its core: what was stored to the scratchpad is there, and the zeroing of R155 comes first. The sequence of R90, or the
restore of R301, follows when the core is awake. -/
def claimCore (l : Launch) (k : Nat) (i : Inst) (s : State) : State :=
  let s1 := landSpad k s
  let s2 := if (coreAt s1 k).lastPart.isSome ∧ (coreAt s1 k).lastPart ≠ some l.part then dropSpad k (zeroCore k s1) else s1
  modCore s2 k fun o => wakeCore { mapClus o (fun _ u => { u with run := .off, rqi := l.pkt.rq }) with inst := some i }
/-- The instance that a launch puts on a core. -/
def instOf (l : Launch) (die n : Nat) : Inst :=
  ⟨l.id, die * (if twoDies l.pkt then instancesOf l.pkt else 0) + n, l.part, coordsFrom (levels l.pkt) n 1 die, false⟩
/-- Steps 1 to 4 of R90 on one core. -/
def prepCore (l : Launch) (im : Image) (k : Nat) (s : State) : State :=
  let s1 := modCore s k fun o =>
    let b := mapClus (bareCore o) fun c u => { loadText im c u with rqi := l.pkt.rq }
    { b with a := { b.a with sr := l.pkt.prime.foldl (fun m p => sset 0 m p.1 p.2) [] }
             hc := ssetRun 0 [] 0 (l.pkt.handoff.map fun x => BitVec.ofNat 8 x)
             ks := { b.ks with idDef := l.pkt.rq, idSet := [l.pkt.rq] } }
  placeBytes im (.spad k) 3 (placeBytes im (.kdm k) 2 s1)
/-- Places the launch at the head of a ring on its cores, and RDIDX advances past it (R284). -/
def placeAt (r : Nat) (p : LPkt) (cores : List (Nat × Nat × Nat)) (s : State) : State :=
  let l : Launch := { id := s.dev.nextLaunch, ring := r, part := ringPart r, pkt := p, cores := cores.map (·.1), left := cores.map (·.1) }
  let s1 := { modDev s fun d => { d with nextLaunch := d.nextLaunch + 1, hbmWaking := d.hbmWaking || d.l3 } with launches := s.launches ++ [l] }
  let s2 := advanceRing r 2 (servedRing (ringDie s r) r (cores.foldl (fun s e => claimCore l e.1 (instOf l e.2.1 e.2.2) s) s1))
  traceIt s2 p.rq 1 0 0 0 0
/-- The front end places the launch that is due (R88, R99). A request that is no longer open refuses it at the head (R269). -/
def placeRing (r : Nat) (s : State) : State :=
  match (ringAt s r).head with
  | none => s
  | some p =>
    if !rqOpenIn s (ringPart r) p.rq then stopRing r (frontRec s r .requestNotOpen 0x201) s
    else match picks s (coreFree s) (ringPart r) (ringDie s r) p with
    | some cores => placeAt r p cores s
    | none => s
def execLaunchPlace (ring : Nat) (s : State) : Host.Outcome State Fault Refusal := onDev s fun s =>
  match choose s (ringDie s ring) with
  | (s1, some c) => if c = ⟨ring, c.cls, none⟩ then placeRing ring s1 else s
  | (s1, none) => s1

/-! ### Instances (R90, R91) -/

/-- A cluster starts at its entry index, unless it was killed before it could. -/
def startClu (im : Image) (c : Cluster) (u : Clu) : Clu :=
  if u.run = .off then { u with run := .on, ctx := { u.ctx with pc := imgEntry im c } } else u
def acquireAll (k : Nat) (s : State) : State := clusters.foldl (fun s c => acquire s (.cl k c .user) 5) s
/-- The steps of a stream from a cursor on: their addresses with slot value 0. -/
def firstSteps (f : SFld) : Nat → List Int
  | 0 => []
  | n + 1 => addr64 (stepAddr f 0 f.i1 f.i2) :: firstSteps { f with i1 := (cursorNext f).1, i2 := (cursorNext f).2 } n
/-- Reads steps of a primed register for A; none is held when one of them meets a fault or lies in a peer window (R174; log entry 3). -/
def preRead (k part n : Nat) : List Int → State → Option State
  | [], s => some s
  | ad :: ads, s =>
    if ad < 0 ∨ (2 ^ 48 - 512 : Int) < ad ∨ regionOf ad.toNat = .spad ∨ regionOf ad.toNat = .kdm then none
    else
      let q : Party := .cl k .A .user
      match resolve s k .a q part .a ad.toNat 512 false with
      | (s1, .ok (.home ps _)) =>
        let r := readPieces s1 q ps
        preRead k part n ads (modCore r.2 k fun o => { o with pre := o.pre ++ [⟨n, ad.toNat, r.1, poisonFlags s1 part ps⟩] })
      | _ => none
/-- The page of the first step of a primed register, and the page after it, enter A's cache (R174). -/
def preTranslate (k part : Nat) (va : Nat) (s : State) : State :=
  let q : Party := .cl k .A .user
  if regionOf va ≠ .user ∧ regionOf va ≠ .host then s
  else match translate1 s k .a q part va false with
  | (_, .error _) => s
  | (s1, .ok _) =>
    match (coreAt s1 k).tlbA.find? (hits .a part va) with
    | none => s1
    | some e =>
      if regionOf (e.base + e.size) = regionOf va then
        (match translate1 s1 k .a q part (e.base + e.size) false with
        | (s2, .ok _) => s2
        | (_, .error _) => s1)
      else s1
/-- The reads of the prefetch: the first 4 steps of each primed register whose SPACE is 1 or 2, in the phase in which the instance starts
(R174). -/
def prefetchAll (k part : Nat) (prime : List (Nat × SReg)) (s : State) : State :=
  prime.foldl (fun s e =>
    let f := sfld e.2
    if (f.space = 1 ∨ f.space = 2) ∧ streamOk f then
      let s1 := preTranslate k part (addr64 (stepAddr f 0 f.i1 f.i2)).toNat s
      (preRead k part e.1 (firstSteps f 4) s1).getD s1
    else s) s
/-- Step 5 of R90: the four clusters start together, and each acquires at `.sy` (R198); the gleaner starts with K (R297). -/
def startInst (core : Nat) (l : Launch) (i : Inst) (im : Image) (s : State) : State :=
  let s1 := modCore s core fun o => { mapClus o (startClu im) with inst := some { i with started := true }, gl := loadGlean (mapClus o (startClu im)) }
  traceIt (prefetchAll core l.part l.pkt.prime (acquireAll core (modLaunch s1 l.id fun l => { l with st := .running }))) l.pkt.rq 2 core 0 0 0
/-- The power state of a core that runs no instance (R390). -/
def idlePwr (plat : Nat) : Pwr := if 40 ≤ plat then .l2 else if 2 ≤ plat then .l1 else .l0
/-- The deeper of two power states. -/
def deeper (a b : Pwr) : Pwr := if a = .l2 ∨ b = .l2 then .l2 else if a = .l1 ∨ b = .l1 then .l1 else .l0
/-- What an instance has in its core's engines, in the threshers, on links, at signal units and at copies of cells. -/
def engIdle (o : Core) : Bool :=
  ((List.range 9).all fun q => (eqAt o q).words.isEmpty && (eqAt o q).parked.isEmpty) && o.eng.mops.isEmpty && o.eng.cmds.isEmpty && o.eng.thOut.isEmpty
def sigOf (k : Nat) (m : SigMsg) : Bool :=
  m.core == k || (match m.uli with
  | some u => u / 32 == k
  | none => false)
/-- R91: the streams have ended and the instance's work is done. -/
def instDone (s : State) (k : Nat) : Bool :=
  let o := coreAt s k
  (clusters.all fun c => ended (clOf o c).run) && engIdle o && o.tagsK == 0 && o.tagsA == 0 && o.ovl.isEmpty &&
  !(s.out.any (outOf k)) && !(s.sig.any (sigOf k)) && !(s.shOps.any fun x => x.core == k) && !(s.thr.any fun e => e.2.cmds.any fun c => c.core == k)
/-- The end of an instance discards what its inter-cluster queues hold (R91), its watches and its hold on the run; registers, tiles and signal
words stay until a launch sets them (R309, R331, R390; log entry 68). -/
def leaveCore (o : Core) : Core :=
  { o with inst := none, vq := [], sq := [], q13b := [], qObs := [], late := [], inRun := false, preempt := false, preLate := false, pre := []
           ks := { o.ks with watches := [], uliEn := false, uliActive := false, uliPend := 0, uliObs := [] } }
/-- A core is freed: its instance is gone, it goes to sleep as deep as its partition allows (R390), and the front ends choose again. -/
def freeCore (k : Nat) (s : State) : State :=
  let part := partAt s k
  let s1 := modCore s k fun o => sleepCore (if o.waking then deeper o.pwr (idlePwr (partRec s part).plat) else idlePwr (partRec s part).plat)
    { leaveCore o with lastPart := some part }
  { modDev s1 fun d => { d with stuck := 0 } with snaps := s1.snaps.filter fun e => !instParty k e.1 }
/-- What the instance has not published waits for its launch (R91). -/
def retireParties (launch k : Nat) (s : State) : State := renameParties (leftName launch k) s
/-- A launch whose instances that have not ended are all saved, and have not taken their cores again, waits in its ring (R301). -/
def settleSaved (s : State) (l : Launch) : Launch :=
  if !l.left.isEmpty && l.left.all fun k => (l.saved.any (·.core == k)) && launchNo s k != some l.id then { l with st := .saved, preempt := false } else l
/-- An instance completes: its cores are freed (R91). One of an aborted launch ends without having started (R290). -/
def execInstanceComplete (core : Nat) (s : State) : Host.Outcome State Fault Refusal := onDev s fun s =>
  match (coreAt s core).inst, launchAt s core with
  | some i, some l =>
    if (!i.started && !l.killed) || !instDone s core then s
    else
      let s1 := retireParties l.id core (dropPins (instOwner l.id core) (traceIt s l.pkt.rq 3 core 0 0 0))
      let s2 := freeCore core s1
      modLaunch s2 l.id fun l => settleSaved s2 { l with left := l.left.filter (· != core) }
  | _, _ => s
/-- The write of COMPVAL (R91). -/
def writeCompval (l : Launch) (s : State) : State :=
  match devWrite s l.part l.pkt.compl (bytesOf 8 l.pkt.compval) with
  | (s1, .ok _) => s1
  | (s1, .error _) =>
    postNew s1 { ty := .completionLost, unit := 4, rq := l.pkt.rq, slot := l.pkt.slot, addr := l.pkt.compl, aux0 := l.pkt.compval, ring := l.ring, launch := l.id }
/-- The stores of a launch are released at `.sy`; its parties are no more. -/
def releaseLaunch (l : Launch) (s : State) : State :=
  let s1 := (partiesIn s (pastOf l.id)).foldl (fun s q => release s q 5) s
  { s1 with rels := s1.rels.filter fun e => !pastOf l.id e.1, seen := s1.seen.filter fun e => !pastOf l.id e.1 && !pastOf l.id e.2.1 }
/-- Records of a launch that has ended are void (R291). -/
def voidLaunch (l : Launch) (s : State) : State := voidIn l.ring (fun r => !ftNoAnswer r.ty && r.launch == l.id) s
/-- The launch's time is charged to its ring (R99); the core-µs are a free value (log entry 20). -/
def charge (r : Nat) (s : State) : State :=
  let (n, s1) := takeClk s
  modRing s1 r fun g => { g with deficit := g.deficit - n }
/-- A launch whose instances have all ended completes, or was cancelled (R91, R269). -/
def execLaunchComplete (id : Nat) (s : State) : Host.Outcome State Fault Refusal := onDev s fun s =>
  match launchOf s id with
  | none => s
  | some l =>
    if !l.left.isEmpty then s
    else
      let s1 := releaseLaunch l s
      let s2 := if l.killed then
          postNew s1 { ty := .requestCancelled, unit := 4, rq := l.pkt.rq, slot := l.pkt.slot, ring := l.ring, launch := id }
        else writeCompval l s1
      finishPart l.part (settle { charge l.ring (voidLaunch l s2) with launches := s2.launches.filter (fun x => x.id != id) })

/-! ### Exception queues (R286, R288) -/

/-- The bits of WINNOWCTL's FAULTS name the codes 0x10 + k (R393); the TAG is a free value (log entry 34). -/
def faultTrigger (r : FRec) (s : State) : State :=
  let c := ftCode r.ty
  if 0x10 ≤ c ∧ c < 0x2C ∧ s.dev.win.faults.getLsbD (c - 0x10) then (trigger s (Config.faultTag r.token)).2 else s
/-- Writes the first record held for a ring at EXQWR (R286). -/
def writeRec (ring : Nat) (r : FRec) (s : State) : State :=
  let g := ringAt s ring
  let bs := recBytes { r with eseq := g.exqwr.toNat }
  let at0 := fun (i : Nat) => g.exqbase + 64 * ((g.exqwr.toNat + i) % 2 ^ g.exqlog)
  let fail := fun (s : State) => modRing s ring fun g => { g with unwritable := true, refused := g.refused + 1 }
  let done := fun (s : State) =>
    let s1 := modRing s ring fun g => { g with exqwr := g.exqwr + BitVec.ofNat 32 (recEntries r), held := g.held.tail, unwritable := false }
    let s2 := match (ringAt s1 ring).held[15]? with
      | some x => notePosted (modRing s1 ring fun g => { g with pend := g.pend ++ [x] }) x
      | none => s1
    settle (faultTrigger r s2)
  match devWrite s (ringPart ring) (at0 0) (bs.take 64) with
  | (_, .error _) => fail s
  | (s1, .ok _) =>
    if recEntries r = 1 then done s1
    else match devWrite s1 (ringPart ring) (at0 1) (bs.drop 64) with
    | (_, .error _) => fail s
    | (s2, .ok _) => done s2
/-- The queue has room for the record. -/
def exqRoom (g : Ring) (r : FRec) : Bool := decide ((g.exqwr - g.exqrd).toNat + recEntries r ≤ 2 ^ g.exqlog)
def tryWrite (ring : Nat) (s : State) : State :=
  match (ringAt s ring).held with
  | r :: _ => if exqRoom (ringAt s ring) r then writeRec ring r s else s
  | [] => s
def execExceptionRecordWrite (ring : Nat) (s : State) : Host.Outcome State Fault Refusal := onDev s fun s =>
  if (ringAt s ring).unwritable then s else tryWrite ring s
def execExqWriteRetry (ring : Nat) (s : State) : Host.Outcome State Fault Refusal := onDev s fun s =>
  if (ringAt s ring).unwritable then tryWrite ring s else s
/-- The host writes EXQRD; a write that had failed is tried again. -/
def execExqrdWrite (ring : Nat) (v : BitVec 32) (s : State) : Host.Outcome State Fault Refusal := onDev s fun s =>
  let s1 := modRing s ring fun g => { g with exqrd := v }
  if !hostCan s (ringPart ring) then s
  else if (ringAt s1 ring).unwritable then tryWrite ring s1 else s1

end Sys2Proof.Machine
end

