-- ==== Sys2Proof/Machine/Preempt.lean ====
section
/-! DEFINITION. Pre-emption: the request, safe points, live maps, the save and the resume (R100, R104, R168, R225, R299 to R301). -/

namespace Sys2Proof.Machine

/-! ### The request (R100, R202) -/

/-- What the launch at the head of a ring asks for: its packet, the cores that it may take, and whether a set of free cores is enough. A
pre-empted launch stands at the head of its ring, before the packets, and takes its own cores again (R100, R301). -/
structure Need where
  pkt : LPkt
  may : Nat → Bool
  fits : (Nat → Bool) → Bool
def needOf (s : State) (ring : Nat) : Option Need :=
  match s.launches.find? fun l => l.ring == ring && decide (l.st = .saved) with
  | some l => some ⟨l.pkt, fun k => l.saved.any (·.core == k), fun free => l.saved.all fun e => free e.core⟩
  | none => (ringAt s ring).head.map fun p =>
      ⟨p, allowed s (ringPart ring) p, fun free => (picks s free (ringPart ring) (ringDie s ring) p).isSome⟩
/-- A launch that a head of class c may pre-empt: of a lower class, on a core that the head may take, with a save area (R100, R281). -/
def victim (s : State) (h : Need) (l : Launch) : Bool :=
  decide (h.pkt.cls < l.pkt.cls) && (decide (l.st = .placed) || decide (l.st = .running)) && !l.killed && decide ((ringAt s l.ring).savebase ≠ 0) &&
  l.left.any h.may
/-- Victims, the lowest class first and in it the most recently placed first (log entry 35). -/
def victimBefore (a b : Launch) : Bool := decide (b.pkt.cls < a.pkt.cls) || (a.pkt.cls == b.pkt.cls && decide (b.id < a.id))
def insVictim (l : Launch) : List Launch → List Launch
  | [] => [l]
  | x :: xs => if victimBefore l x then l :: x :: xs else x :: insVictim l xs
def victims (s : State) (h : Need) : List Launch := (s.launches.filter (victim s h)).foldr insVictim []
/-- Those of the victims that have to go until enough allowed cores would be free. -/
def enough (s : State) (h : Need) (freed : List Nat) : List Launch → List Launch
  | [] => []
  | l :: ls => if h.fits fun k => coreFree s k || freed.contains k then [] else l :: enough s h (freed ++ l.left) ls
/-- The request reaches a core: its waits are withdrawn, and an idle K goes on (R202, `idle` of 04). Until the core is saved a withdrawn waitm
issues again at its cluster's next turn, and takes a slot again (DESIGN CHOICE, log 107: the spec says only that the wait is withdrawn). -/
def requestCore (k : Nat) (s : State) : State :=
  let s1 := modCore s k fun o => { o with preempt := true, preLate := false, k := { o.k with idling := false } }
  clusters.foldl (fun s c => withdraw s ⟨k, c, .user⟩) s1
def requestLaunch (s : State) (l : Launch) : State :=
  if l.preempt then s
  else ((l.left.filter fun k => launchNo s k == some l.id).foldl (fun s k => requestCore k s) (modLaunch s l.id fun l => { l with preempt := true }))
/-- The head launch of a ring has waited longer than its LATTOL and lacks cores. -/
def execPreemptionRequest (ring : Nat) (s : State) : Host.Outcome State Fault Refusal := onDev s fun s =>
  match needOf s ring with
  | none => s
  | some h => if h.pkt.lattol = 0 then s else (enough s h [] (victims s h)).foldl requestLaunch s

/-! ### Safe points (R104) -/

/-- Every stream that has not ended stands at a safe point. -/
def allSafe (o : Core) : Bool := clusters.all fun c => ended (clOf o c).run || (clOf o c).safeStop
/-- The clusters that stand at safe points while others have not arrived are let go. -/
def execSafeptReleaseTimeout (core : Nat) (s : State) : Host.Outcome State Fault Refusal := onDev s fun s =>
  if (coreAt s core).preempt ∧ !allSafe (coreAt s core) ∧ !taken s core then modCore s core fun o => mapClus o fun _ u => { u with safeStop := false } else s
/-- The pre-emption has not been taken 2^20 clk after its request. -/
def execPreemptLate (core : Nat) (s : State) : Host.Outcome State Fault Refusal := onDev s fun s =>
  match launchAt s core with
  | some l =>
    if (coreAt s core).preempt ∧ !(coreAt s core).preLate then
      postNew (modCore s core fun o => { o with preLate := true })
        { ty := .preemptLate, unit := 4, core := core, rq := l.pkt.rq, slot := l.pkt.slot, ring := l.ring, launch := l.id }
    else s
  | none => s

/-! ### Live maps (R299) -/

/-- The type 7 section of an image: its directory runs up to the first map (log entry 36). -/
def mapSect (im : Image) : Option Sect := (typeSects im 7).head?
def dirEntry (im : Image) (t : Sect) (i : Nat) : Nat := imgNum im (t.off + 8 * i) 8
/-- The offset of a cluster's map in the section. -/
def findMap (im : Image) (t : Sect) (c : Cluster) (id : Nat) : Nat → Nat → Nat → Option Nat
  | 0, _, _ => none
  | n + 1, i, stop =>
    if t.len < 8 * i + 8 ∨ stop ≤ 8 * i then none
    else
      let e := dirEntry im t i
      if fld e 0 16 = id ∧ fld e 16 2 = cnum c then some (fld e 32 32)
      else findMap im t c id n (i + 1) (if fld e 32 32 < stop then fld e 32 32 else stop)
/-- The items of a map, up to kind 0. -/
def mapItems (im : Image) (t : Sect) (off : Nat) : Nat → List Nat
  | 0 => []
  | n + 1 =>
    let w := imgNum im (t.off + off) 8
    if fld w 60 4 = 0 ∨ t.len < off + 8 then [] else w :: mapItems im t (off + 8) n
/-- The live map of a cluster that stands at a safe point. -/
def liveMap (im : Image) (c : Cluster) (u : Clu) : List Nat :=
  if !u.safeStop then []
  else match mapSect im with
  | none => []
  | some t =>
    match findMap im t c u.safeId (t.len / 8) 0 t.len with
    | some off => mapItems im t off (t.len / 8)
    | none => []
def ofKind (kind : Nat) (l : List Nat) : List Nat := l.filter fun w => fld w 60 4 == kind
/-- The map names register n; bit n of a bitmap. -/
def namesReg (kind n : Nat) (l : List Nat) : Bool := (ofKind kind l).any fun w => decide (fld w 0 10 ≤ n) && decide (n ≤ fld w 10 10)
def namesBit (kind n : Nat) (l : List Nat) : Bool := (ofKind kind l).any fun w => bitN w n
def namesTile (n : Nat) (l : List Nat) : Bool := (ofKind 4 l).any fun w => decide (fld w 0 6 ≤ n) && decide (n ≤ fld w 6 6)
/-- The logical number of a physical vector register (R84). -/
def vLogical (rrb p : Nat) : Nat := if p < 512 then p else 512 + (p - 512 + 128 - rrb % 128) % 128
def keepKeys {α : Type} (m : Sparse α) (ok : Nat → Bool) : Sparse α := m.filter fun e => ok e.1
/-- What comes back of a cluster: the registers, masks and contexts that its map names; the shadow bank comes back whole (R323). -/
def keepClu (l : List Nat) (u : Clu) : Clu :=
  { u with ctx := { u.ctx with x := keepKeys u.ctx.x fun n => decide (64 ≤ n) || namesReg 1 n l }
           xs := { u.xs with v := keepKeys u.xs.v fun p => namesReg 2 (vLogical u.xs.rrb p) l, m := keepKeys u.xs.m fun n => namesBit 3 n l
                             dt := keepKeys u.xs.dt fun n => namesBit 5 (n / 10) l } }
/-- What comes back of a core that stands at safe points: queues, counters and tiles that some map names, with the writes that their entries and
counts are made of. -/
def keepCore (im : Image) (o : Core) : Core :=
  let all := clusters.flatMap fun c => liveMap im c (clOf o c)
  { mapClus o (fun c u => keepClu (liveMap im c u) u) with
    vq := keepKeys o.vq fun q => namesBit 7 q all
    sq := keepKeys o.sq fun q => namesBit 7 q all
    q13b := if namesBit 7 13 all then o.q13b else []
    qObs := keepKeys o.qObs fun key => namesBit 7 (if key = 32 then 13 else key) all
    late := o.late.filter fun e => e.v.isNone || namesBit 7 e.q all
    hcObs := keepKeys o.hcObs fun n => namesBit 8 n all
    hc := keepKeys o.hc fun n => namesBit 8 n all
    eng := { o.eng with tiles := keepKeys o.eng.tiles fun r => namesTile (r / 32) all } }
/-- The scratchpad ranges that the maps name. -/
def keepRanges (im : Image) (o : Core) : List (Nat × Nat) :=
  (ofKind 6 (clusters.flatMap fun c => liveMap im c (clOf o c))).map fun w => (fld w 0 26, fld w 26 26)

/-! ### The save (R300) -/

/-- The copies have landed or stand still, the operations are complete, and no access, signal or sheaf operation is out: the release of a save
waits for an access that its target's park store has turned away (R268). -/
def quiet (s : State) (k : Nat) : Bool :=
  let o := coreAt s k
  (o.eng.mops.all fun m => m.stop.isSome) && (o.eng.cmds.all fun c => c.stop.isSome || c.parked) && o.eng.thOut.isEmpty && o.ovl.isEmpty &&
  !(s.out.any fun x => outOf k x && x.stop.isNone && (!x.retry || isAccess x)) && !(s.sig.any (sigOf k)) && !(s.shOps.any fun x => x.core == k) &&
  (clusters.all fun c => !(clOf o c).ctx.peerWait) && !o.k.fwStall && decide (o.ks.pagerRun = .idle)
/-- A save has failed and has no answer yet: the instance stays as it stands (R300). -/
def saveFailed (s : State) (k : Nat) : Bool := s.rings.any fun e => (e.2.pend ++ e.2.held).any fun r => decide (r.who = .save k)
def saveReady (s : State) (k : Nat) : Bool :=
  let o := coreAt s k
  taken s k && !dbgHalted o && !o.frozen && quiet s k &&
  !saveFailed s k
/-- What a save lays down in a piece of its area is the device's own: undefined bytes (log entry 37). -/
def saveFill (part : Nat) (s : State) (p : Space × Nat × Nat) : State :=
  if p.2.2 = 2 ^ 16 then fillPage part p.1 p.2.1 s
  else
    let n := s.dev.nextEpoch
    stamp (storeDevice (modDev s fun d => { d with nextEpoch := n + 1 }) p.1 p.2.1 ((List.range p.2.2).map fun i => Config.freeByte n (p.2.1 + i))) part p.1 p.2.1 p.2.2
/-- Writes the save area page by page, up to an end. -/
def savePages (s : State) (part va stop : Nat) : Nat → State × Option AFault
  | 0 => (s, none)
  | n + 1 =>
    let next := (va / 2 ^ 16 + 1) * 2 ^ 16
    let m := (if next < stop then next else stop) - va
    if m = 0 then (s, none)
    else match resolve s 64 .none .host part .device va m true with
    | (s1, .error f) => (s1, some f)
    | (s1, .ok (.peer _ _)) => (s1, some ⟨.addrUnmapped, 0, va⟩)
    | (s1, .ok (.home ps _)) => savePages (ps.foldl (saveFill part) s1) part (va + m) stop n
/-- The 40 MiB at SAVEBASE + i * SAVESTRIDE MiB. -/
def saveArea (s : State) (l : Launch) (i : Inst) : State × Option AFault :=
  let g := ringAt s l.ring
  let va := g.savebase + i.index * g.savestride * 2 ^ 20
  savePages s l.part va (va + 40 * 2 ^ 20) 641
/-- Every party of the instance releases at `.sy` (R198). -/
def releaseInst (k : Nat) (s : State) : State := (partiesIn s (instParty k)).foldl (fun s q => release s q 5) s
/-- A saved core: nothing waits for a slot, and nobody stands at a safe point. -/
def savedCore (o : Core) : Core :=
  { mapClus o (fun _ u => { u with safeStop := false, ctx := { u.ctx with wait := none, blocked := .no } }) with
    preempt := false, preLate := false, tagsK := 0, tagsA := 0, walks := [], pre := [] }
/-- The instance leaves its core for its ring, with the pins that its commands hold or ask for (R339, R340). -/
def saveInst (k : Nat) (l : Launch) (im : Image) (s : State) : State :=
  let s1 := releaseInst k s
  let o := coreAt s1 k
  let outs := s1.out.filter (outOf k)
  let e : Saved := if allSafe o then ⟨k, savedCore (keepCore im o), some (keepRanges im o), outs⟩ else ⟨k, savedCore o, none, outs⟩
  let s2 := freeCore k { s1 with out := s1.out.filter fun o => !outOf k o }
  renameParties (leftName l.id k) (charge l.ring (modLaunch s2 l.id fun l => settleSaved s2 { l with saved := l.saved ++ [e] }))
/-- The pre-emption of an instance is taken; a save that faults posts PREEMPT_SAVE_FAILED, and the instance stays (R300). -/
def execPreemptTake (core : Nat) (s : State) : Host.Outcome State Fault Refusal := onDev s fun s =>
  match (coreAt s core).inst, launchAt s core, imageOf s core with
  | some i, some l, some im =>
    if !saveReady s core then s
    else match saveArea s l i with
    | (s1, some f) =>
      (raise s1 { ty := .preemptSaveFailed, cause := f.cause, unit := 7, core := core, slot := l.pkt.slot, addr := f.addr, ring := l.ring, launch := l.id
                  who := .save core }).2
    | (s1, none) => saveInst core l im s1
  | _, _, _ => s

/-! ### The resume (R225, R301) -/

/-- An engine queue after a resume: an empty window, with the resume as the marker of its words, and of the operations that stand still (R297,
R301). -/
def resumeMark (id : Nat) (e : EQ) : EQ := { e with window := [], since := 0, issued := 0, markId := id, markNo := 0, mark := none }
/-- The state of a restored core: what was saved, over what stays with the core. A debugger halt that came during the pre-emption takes
effect (R302). -/
def restoredCore (o : Core) (e : Core) : Core :=
  { e with
    ks := { e.ks with fw := o.ks.fw, fwRqi := o.ks.fwRqi, fwReady := o.ks.fwReady, pagerMem := o.ks.pagerMem, fwshare := o.ks.fwshare
                      slotCtr := o.ks.slotCtr, owed := o.ks.owed, slept := o.ks.slept }
    eng := { e.eng with pushSeq := o.eng.pushSeq, nextId := o.eng.nextId, wrote := []
                        eq := e.eng.eq.map fun x => (x.1, resumeMark o.eng.nextId x.2)
                        mops := e.eng.mops.map fun m => { m with mkId := o.eng.nextId, mkNo := 0 } }
    gl := loadGlean e, frozen := o.frozen, freezeMore := o.freezeMore, pwr := o.pwr, waking := o.waking, preempt := o.preempt, preLate := o.preLate
    dbgQuiet := (e.dbgNext.map (·.1)).getD o.dbgQuiet, dbgPorous := (e.dbgNext.map (·.2)).getD o.dbgPorous, dbgNext := none
    pwrlimit := o.pwrlimit, lastPart := o.lastPart, tlbK := o.tlbK, tlbA := o.tlbA, tlbM := o.tlbM, tlbC := o.tlbC, walks := o.walks }
/-- The scratchpad of a restored instance: named ranges come back, and every other byte is undefined (R299; log entry 13). -/
def restoreSpad (k : Nat) (e : Saved) (s : State) : State :=
  match e.keep with
  | none => s
  | some rs =>
    let n := s.dev.nextEpoch
    let old := modCore s k fun _ => e.o
    let s1 := modCore (modDev s fun d => { d with nextEpoch := n + 1 }) k fun o => { o with spad := [], spadEpoch := n }
    rs.foldl (fun s r => homeSetRun s (.spad k) r.1 ((List.range r.2).map fun i => homeByte old (.spad k) (r.1 + i))) s1
/-- Each loaded plane is loaded again from the copy of the word that last loaded it (R225). -/
def reloadPlane (k : Nat) (s : State) (p : Nat) : State :=
  match (planeAt (coreAt s k) p).src with
  | none => s
  | some op =>
    match loadPlane s k op p (op.lastSb.getD 0) with
    | (s1, .ok _) => s1
    | (_, .error _) => s
/-- Clusters of a request that was cancelled meanwhile are killed (R269). -/
def killCancelled (k : Nat) (s : State) : State :=
  (clusters.filter fun c => alive (cluAt s k c) && rqLive s (partAt s k) (cluAt s k c).rqi && decide ((rqAt s (cluAt s k c).rqi).st = .cancelling)).foldl
    (fun s c => killClu k c s) s
def restoreSaved (l : Nat) (e : Saved) (s : State) : State :=
  let s0 := modLaunch { s with out := s.out ++ e.outs } l fun l => { l with saved := l.saved.filter (·.core != e.core) }
  let s1 := restoreSpad e.core e (modCore s0 e.core fun o => restoredCore o e.o)
  trySend (killCancelled e.core (acquireAll e.core ([0, 1].foldl (reloadPlane e.core) s1)))
/-- The saved instance of a launch comes back, and its parties have their names of the core again (R301). -/
def restoreInst (l core : Nat) (s : State) : State :=
  let s1 := renameParties (backName l core) s
  match (launchOf s1 l).bind fun x => x.saved.find? (·.core == core) with
  | some e => restoreSaved l e s1
  | none => s
/-- A core that is awake starts the instance placed on it, by R90, or goes on with the one that was saved, by R301. -/
def execInstanceStart (core : Nat) (s : State) : Host.Outcome State Fault Refusal := onDev s fun s =>
  match (coreAt s core).inst, launchAt s core, imageOf s core with
  | some i, some l, some im =>
    if i.started || (coreAt s core).waking || s.dev.l3 then s
    else unpark (if l.saved.any (·.core == core) then restoreInst l.id core s else startInst core l i im (prepCore l im core s))
  | _, _, _ => s
/-- A saved launch whose cores are free, and which is due, takes them again; each goes on once it is awake (R301, R390). A ring that held
nothing else keeps its DEF here: it is reset only where RDIDX reaches WRIDX (DESIGN CHOICE, log 107: R99 does not say whether a saved
launch keeps its ring from being empty). -/
def execPreemptResume (id : Nat) (s : State) : Host.Outcome State Fault Refusal := onDev s fun s =>
  match launchOf s id with
  | none => s
  | some l =>
    match choose s (ringDie s l.ring) with
    | (s1, some c) =>
      if c.saved = some id then
        l.saved.foldl (fun s e => match e.o.inst with
          | some i => claimCore l e.core { i with started := false } s
          | none => s)
          (modDev (modLaunch (servedRing (ringDie s l.ring) l.ring s1) id fun l => { l with st := .running }) fun d =>
            { d with hbmWaking := d.hbmWaking || d.l3 })
      else s
    | (s1, none) => s1

end Sys2Proof.Machine
end

