-- ==== Sys2Proof/Machine/Device.lean ====
section
/-! DEFINITION. Steps of the device beside its agents: walks, the pager's entries, acknowledgments, overlays, run deadlocks, signal
words, interrupts, wait slots, barrier registers and freezes (R93, R96, R162 to R166, R175, R293, R298, R312 to R324). -/

namespace Sys2Proof.Machine

/-! ### Walks, acknowledgments and overlays -/

/-- The cache that a walk fills, and the party that reads the entries. -/
def walkTl (k : Nat) (c : Nat) : Tl × Party :=
  if c = 0 then (.k, .cl k .K .user) else if c = 1 then (.kp, .cl k .K .pager) else if c = 2 then (.a, .cl k .A .user)
  else if c = 3 then (.m, cmdParty k uMatrix 0 0) else (.c, cmdParty k uCopy 4 0)
/-- The oldest walk of a core ends: it installs its leaf, or is dropped with its fault (R164 to R166, R181). -/
def execTableWalkDone (core : Nat) (s : State) : Host.Outcome State Fault Refusal := onDev s fun s =>
  match (coreAt s core).walks with
  | [] => s
  | w :: ws =>
    let s1 := modCore s core fun o => { o with walks := ws }
    if regionOf w.va = .user ∨ regionOf w.va = .host then
      (match translate1 s1 core (walkTl core w.cache).1 (walkTl core w.cache).2 w.part w.va false with
      | (s2, .ok _) => s2
      | (_, .error _) => s1)
    else s1
/-- A granule is answered at its home: a store of K or A, or a granule of the copy engine or of operand fetch, gives its tag back (R175).
Loads of K and A answer in their own step (log entry 5). -/
def execMemoryResponse (core : Nat) (who : Requester) (s : State) : Host.Outcome State Fault Refusal := onDev s fun s =>
  match who with
  | .k => modCore s core fun o => { o with tagsK := o.tagsK - 1 }
  | .a => modCore s core fun o => { o with tagsA := o.tagsA - 1 }
  | .copy => modCore s core fun o => { o with tagsC := o.tagsC - 1 }
  | .fetch => modCore s core fun o => { o with tagsF := o.tagsF - 1 }
/-- The overlay loader has written its oldest section (04 `ovl`, R93). -/
def execOverlayLoadDone (core : Nat) (s : State) : Host.Outcome State Fault Refusal := onDev s fun s =>
  match (coreAt s core).ovl with
  | [] => s
  | l :: ls => modCore s core fun o =>
    modCl { (if l.cl = .K then keepCode o l.base l.words.length else o) with ovl := ls } l.cl fun u => { u with imem := ssetRun 0 u.imem l.base l.words }

/-! ### The pager (R167, R293) -/

/-- A trap enters the pager once it serves nothing and the results of K's user context have come (R108): pager syllable 0, the record's dwords in FR0 to FR7, `rqi` 0 (R262). -/
def execPagerTrapEntry (core : Nat) (s : State) : Host.Outcome State Fault Refusal := onDev s fun s =>
  if resultOut s core fun c x => c == .K && x == .user then s
  else modKs s core fun ks =>
    match ks.pagerRun, ks.pagerQ with
    | .idle, r :: rs =>
      { ks with pagerRun := .trap r, pagerQ := rs, fr := dwords (recNum r), pagerRqi := 0
                pager := freshPager 0 ks.pager }
    | _, _ => ks
def execPagerTimeLimit (core : Nat) (s : State) : Host.Outcome State Fault Refusal := onDev s fun s =>
  if (coreAt s core).ks.pagerRun = .idle then s else pagerFail s core 0 0 1

/-! ### RUN_DEADLOCK (R96) -/

/-- Members of a lockstep run: the clusters of LSMASK whose streams have not ended. -/
def members (o : Core) : List Cluster := clusters.filter fun c => o.lsmask.getLsbD (cnum c) && !ended (clOf o c).run
/-- The member waits on a queue whose other end is another member. -/
def waitsOnMember (o : Core) (c : Cluster) : Bool :=
  let others := (members o).filter (· != c)
  match (clOf o c).ctx.blocked with
  | .qEmpty n => others.any fun d => isProd d n
  | .qFull n => others.any fun d => isCons d n
  | _ => false
def isBlocked (o : Core) (c : Cluster) : Bool := decide ((clOf o c).ctx.blocked ≠ .no)
/-- Every member that cannot issue waits so, in a run that has begun or at a rendezvous that all have reached (DEDUCED, log 82). -/
def runDead (s : State) (k : Nat) : Bool :=
  let o := coreAt s k
  (o.inRun || (members o).all fun c => sBit s ⟨k, c, .user⟩) && ((members o).any (isBlocked o)) && ((members o).all fun c => (clOf o c).stop.isNone && (!isBlocked o c || waitsOnMember o c))
/-- The members' syllable indices, 0x8000 added (R96). -/
def memberPcs (o : Core) : Nat :=
  packFields (clusters.map fun c => (16, if (members o).contains c then 0x8000 + (clOf o c).ctx.pc % 2 ^ 15 else 0))
/-- One record for the run, which names its lowest-numbered member; every member stands at it. -/
def postDeadlock (k : Nat) (s : State) : State :=
  let o := coreAt s k
  match members o with
  | [] => s
  | c :: _ =>
    let (t, s1) := raise s { clRec s ⟨k, c, .user⟩ .runDeadlock with aux0 := memberPcs o, who := .run k }
    (members o).foldl (fun s c => modClu s k c fun u => { u with stop := some t }) s1
def execRunDeadlock (core : Nat) (s : State) : Host.Outcome State Fault Refusal := onDev s fun s =>
  if runDead s core then postDeadlock core s else s

/-! ### Signal words (R312, R313, R323) -/

/-- An earlier write to the same word is on its way. -/
def sigBehind (s : State) (idx : Nat) (m : SigMsg) : Bool := (s.sig.take idx).any fun x => x.core == m.core && x.n == m.n
/-- The interrupt raised on K of the core that pushed an engine's signal, with the releases that the signal follows (R190, R323). -/
def raiseUli (u : Nat) (obs : List Obs) (s : State) : State :=
  modKs s (u / 32) fun ks => { setPend ks (u % 32) with uliObs := addAllObs ks.uliObs obs }
def execSignalWordUpdate (idx : Nat) (s : State) : Host.Outcome State Fault Refusal := onDev s fun s =>
  match s.sig[idx]? with
  | none => s
  | some m =>
    if (coreAt s m.core).inst.isNone then { s with sig := s.sig.eraseIdx idx }
    else if coreShut (coreAt s m.core) || sigBehind s idx m then s
    else
      let s1 := sigApply { s with sig := s.sig.eraseIdx idx } m.core m.n m.o m.v m.obs
      match m.uli with
      | some u => raiseUli u m.obs s1
      | none => s1

/-! ### User-level interrupts (R324) -/

/-- K is stalled inside a syllable that an interrupt does not cut short, its wait has fired, or the result of its sheaf operation has come
and the syllable completes. -/
def insideSyl (s : State) (k : Nat) : Bool :=
  let u := cluAt s k .K
  let a : At := ⟨k, .K, .user⟩
  u.fwStall || u.ctx.peerWait || u.ctx.sheafBusy.isSome || u.ctx.sheafRes.isSome || (match u.ctx.wait with | some w => w.fired.isSome | none => false) ||
  (decide (u.ctx.blocked ≠ .no) && (match decodeWith (some (Cluster.K, false)) (wordAt s a u.ctx.pc).toNat with
    | .ok y => (match y.i with
      | .waitk _ | .push _ _ | .htake _ _ => true
      | _ => false)
    | .error _ => false))
/-- An interrupt is enabled and pending, and K stands at a syllable boundary outside a run, at no safe point, and in no pre-emption that is being
taken; a syllable that an answer skipped is passed over
first (R289). -/
def uliDue (s : State) (k : Nat) : Bool :=
  let o := coreAt s k
  o.ks.uliEn && !o.ks.uliActive && decide (o.ks.uliPend ≠ 0) && !kInRun o && alive o.k && o.k.stop.isNone && !o.k.skipOne && !o.k.safeStop &&
  !taken s k && !insideSyl s k
/-- TAKING A USER-LEVEL INTERRUPT: the wait is withdrawn, ULIRET takes the PC, `x56` of the shadow bank takes ULIPEND, and K goes to the
handler with an acquire at `.sy` of what raised the interrupt (R190). The barrier tickets of the code that is cut short wait for `uliret` (R319;
DEDUCED, log 100). -/
def enterUli (k : Nat) (s : State) : State :=
  let a : At := ⟨k, .K, .user⟩
  let s1 := withdraw s a
  let ks := (coreAt s1 k).ks
  let s2 := modKs s1 k fun ks => { ks with uliRet := pcOf s1 a, uliActive := true, uliPend := 0, uliObs := [] }
  let s3 := modClu s2 k .K fun u =>
    { u with idling := false, ctx := { u.ctx with x := sset 0 u.ctx.x 120 (BitVec.ofNat 64 ks.uliPend), pc := ks.uliVec, blocked := .no
                                                  tickCo := none, tickDv := none, cutCo := u.ctx.tickCo, cutDv := u.ctx.tickDv } }
  acquire (observeAll (partyOf a) s3 ks.uliObs) (partyOf a) 5
def execUliEntry (core : Nat) (s : State) : Host.Outcome State Fault Refusal := onDev s fun s =>
  if uliDue s core then enterUli core s else s

/-! ### Wait slots (R202, R315, R316) -/

/-- The address that a queued `waitm` waits at; 0 for the others. -/
def waitVa (s : State) (a : At) : Nat :=
  match decodeWith (some (a.c, privileged a)) (wordAt s a (pcOf s a)).toNat with
  | .ok y => (match y.i with
    | .waitm _ _ _ _ _ x _ => (takeS a x s).1.toNat
    | _ => 0)
  | .error _ => 0
/-- A context of the cluster that queues for a slot, none being free for it. -/
def queuedAt (s : State) (core : Nat) (cl : Cluster) : Option At :=
  (ctxAts core).find? fun a => a.c == cl && (match (ctxOf s a).wait with
    | some w => !w.slot && w.fired.isNone && !slotFree s a w.on
    | none => false)
/-- A waiter has queued 65 536 clk. -/
def execWaitExhausted (core : Nat) (cl : Cluster) (s : State) : Host.Outcome State Fault Refusal := onDev s fun s =>
  match queuedAt s core cl with
  | none => s
  | some a =>
    let r := { clRec s a .waitExhausted with addr := waitVa s a }
    takeTrap a r (modCtx s a fun t => { t with wait := none })
/-- The holders of the slots of a unit: a core's signal unit below 64, a base die's memory slots from 64 on. -/
def holdersOf (s : State) (unit : Nat) : List At :=
  (if unit < 64 then ctxAts unit else allAts s).filter fun a => match (ctxOf s a).wait with
    | some w => holdsSlot w && (match w.on with
      | .mem n ad _ _ _ => decide (64 ≤ unit) && homeDie n ad == unit - 64
      | _ => decide (unit < 64))
    | none => false
def watchesOf (s : State) (unit : Nat) : List Nat :=
  if unit < 64 then ((coreAt s unit).ks.watches.filter fun e => e.2.slot).map (·.1) else []
def slotCount (unit : Nat) : Nat := if unit < 64 then 32 else 512
/-- An event of the unit is open while a record of it is pending or still to be posted. -/
def eventOpen (s : State) (unit : Nat) : Bool :=
  s.rings.any fun e => (e.2.pend ++ e.2.held.drop 16).any fun r => decide (r.ty = .waitDeadlock) && r.event == some unit
/-- Reports one holder. A holder of the pager's own is a fault of the pager (R293). -/
def tellHolder (ev unit : Nat) (s : State) (a : At) : State :=
  match a.x with
  | .pager => pagerFail s a.k (ftCode .waitDeadlock) (pcOf s a) 0
  | _ =>
    let s1 := modCtx s a (tellCtx true)
    (raise s1 { clRec s a .waitDeadlock with prec := false, aux0 := ev, aux1 := slotCount unit, event := some unit }).2
def tellWatch (ev k : Nat) (s : State) (w : Nat) : State :=
  let s1 := modKs s k fun ks => { ks with watches := ks.watches.map fun e => if e.1 = w then (e.1, { e.2 with told := true }) else e }
  (raise s1 { clRec s ⟨k, .K, .user⟩ .waitDeadlock with prec := false, wh := 0, raw := 0, cause := w, aux0 := ev, aux1 := slotCount k, who := .watch k w, event := some k }).2
/-- Every slot of a unit has been held 2^24 clk without firing. -/
def execWaitDeadlock (unit : Nat) (s : State) : Host.Outcome State Fault Refusal := onDev s fun s =>
  let hs := holdersOf s unit
  let ws := watchesOf s unit
  if hs.length + ws.length < slotCount unit || eventOpen s unit then s
  else
    let ev := s.dev.nextEvent
    let s1 := modDev s fun d => { d with nextEvent := ev + 1 }
    ws.foldl (tellWatch ev unit) (hs.foldl (tellHolder ev unit) s1)

/-! ### Barrier registers (R321) -/

/-- The host writes MASK, or EXPECT in [6:0], of a barrier that the partition holds; one whose MASK becomes 0 is freed (R320). -/
def execBarrierRegWrite (part b : Nat) (isExpect : Bool) (v : BitVec 64) (s : State) : Host.Outcome State Fault Refusal := onDev s fun s =>
  if !hostCan s part ∨ (barAt s b).owner ≠ part ∨ 63 < b then s
  else if !isExpect && v == 0 then barFree s b
  else barTest (modBar s b fun x => if isExpect then { x with expect := v.toNat % 128 } else { x with mask := v }) b

/-! ### Freezes (R97, R298) -/

/-- A correctable error freezes the core; one during a freeze starts another when the first ends. -/
def execCorrectableErrorFreeze (core : Nat) (s : State) : Host.Outcome State Fault Refusal := onDev s fun s =>
  modCore s core fun o => if o.frozen then { o with freezeMore := true } else { o with frozen := true, cefreeze := o.cefreeze + 1 }
/-- The freeze ends; the packets that waited at the core's port are performed. -/
def execFreezeEnd (core : Nat) (s : State) : Host.Outcome State Fault Refusal := onDev s fun s =>
  if (coreAt s core).frozen ∧ (coreAt s core).freezeMore then
    modCore s core fun o => { o with freezeMore := false, cefreeze := o.cefreeze + 1 }
  else unpark (modCore s core fun o => { o with frozen := false })

end Sys2Proof.Machine
end

