-- ==== Sys2Proof/Machine/HostSide.lean ====
section
/-! DEFINITION. Host, partitions, power, attestation and snapshots, with the syllables `winnow` and `leaveq` (22, R302). -/

namespace Sys2Proof.Machine

/-! ### winnow and leaveq (R395, R396) -/

def execWinnow (d x : SOp) (s : State) : Host.Outcome State Fault Refusal := onCl s fun a s =>
  needQ a (popsS [x]) (pushS d) (fun s =>
    let (u, t1) := takeS a x s
    let (ev, t2) := if (partRec s (partAt s a.k)).policy.getLsbD 1 then trigger t1 (u.toNat % 2 ^ 32) else (0, t1)
    retire a (putS a d (BitVec.ofNat 64 ev) t2)) s
/-- TOGGLE of the earliest-pushed `m.go` that waits at a head (R396). -/
def leaveWant (s : State) (k : Nat) : Nat :=
  match bestOf (fun a b => decide (a.2.1.seq < b.2.1.seq)) (((List.range 4).filterMap (arbHead s k)).filter fun h => decide (mKind h.2.1 = .go)) with
  | some h => h.2.2
  | none => 0
def leaveWord (s : State) (k : Nat) : Nat :=
  packFields [(12, leaveWant s k), (12, leaveHeld (coreAt s k)), (12, supply s k), (12, (coreAt s k).pwrlimit.toNat), (4, s.dev.scale - 1)]
def execLeaveq (d : SOp) (s : State) : Host.Outcome State Fault Refusal := onCl s fun a s =>
  needQ a [] (pushS d) (fun s => retire a (putS a d (BitVec.ofNat 64 (leaveWord s a.k)) s)) s

/-! ### Debugger halts and the debug policy (R302, R389) -/

/-- QUIET and POROUS of a core, each a register bit that a closed policy bit governs; a halt that meets a pre-emption waits for the
resume, and one that comes while results of the core are on their way waits for those (R108; DEDUCED, log 101). The packets that waited at the port of a core that is no longer quiet-halted are performed. -/
def execDebugHaltWrite (part core : Nat) (quiet porous : Bool) (s : State) : Host.Outcome State Fault Refusal := onDev s fun s =>
  let p := partRec s part
  if !hostCan s part || !p.cmask.getLsbD core || !(p.policy.getLsbD 3 || p.policy.getLsbD 4) then s
  else
    let o := coreAt s core
    let q := if p.policy.getLsbD 3 then quiet else o.dbgQuiet
    let r := if p.policy.getLsbD 4 then porous else o.dbgPorous
    if (q || r) && (o.preempt || (!dbgHalted o && resultOut s core fun _ x => x != .pager)) then modCore s core fun o => { o with dbgNext := some (q, r) }
    else
      let s1 := modCore s core fun o => { o with dbgQuiet := q, dbgPorous := r, dbgNext := none }
      unpark (if q || r then haltCore core s1 else s1)
/-- The bytes that a policy's signature covers: its bits and its nonce. -/
def policyText (bits : BitVec 5) (nonce : Nat) : Nat := packFields [(8, bits.toNat), (64, nonce)]
/-- A policy that verifies under the tenant key which the partition's session carried, and names the nonce, replaces the old one whole. -/
def execDebugPolicyUpload (part : Nat) (bits : BitVec 5) (nonce sig : Nat) (s : State) : Host.Outcome State Fault Refusal := onDev s fun s =>
  let p := partRec s part
  if hostCan s part && nonce == p.nonce && (p.tenant.map fun key => Config.sigOk key (policyText bits nonce) sig).getD false then modPart s part fun p => { p with policy := bits } else s

/-! ### Trace ring and registers (R386, R387) -/

def execTraceRingConfig (part : Nat) (isLog : Bool) (v : BitVec 64) (s : State) : Host.Outcome State Fault Refusal := onDev s fun s =>
  if !hostCan s part then s
  else modPart s part fun p =>
    if isLog then { p with trlog := v.toNat % 32, trwr := 0, trrd := 0 } else { p with trbase := v.toNat / 4096 * 4096, trwr := 0, trrd := 0 }
/-- A field of a ring descriptor, which only a closed ring takes (R282). -/
def ringField (r : Nat) (f : Ring → Ring) (s : State) : State :=
  if !hostCan s (ringPart r) then s else if (ringAt s r).state = 0 then modRing s r f else refuseRing r s
/-- WINNOWCTL's stored fields, then RELEASE, then FIRE (R393). -/
def winnowCtl (v : Nat) (s : State) : State :=
  let s1 := modDev s fun d => { d with win := { d.win with fwd := bitN v 61, faults := BitVec.ofNat 28 (fld v 32 28) } }
  let s2 := if bitN v 62 then modDev s1 fun d => { d with win := { d.win with bank := none } } else s1
  if bitN v 63 then (trigger s2 0).2 else s2
def execRegisterWrite (r : HReg) (v : BitVec 64) (s : State) : Host.Outcome State Fault Refusal := onDev s fun s =>
  let n := v.toNat
  match r with
  | .ringSaveBase r => ringField r (fun g => { g with savebase := n }) s
  | .ringSaveStride r => ringField r (fun g => { g with savestride := n % 2 ^ 32 }) s
  | .ringQuantum r => ringField r (fun g => { g with quantum := n % 2 ^ 32 }) s
  | .ringRdMirror r => ringField r (fun g => { g with rdmirror := n }) s
  | .ringExqBase r => ringField r (fun g => { g with exqbase := n }) s
  | .ringBase r => ringField r (fun g => { g with ringbase := n }) s
  | .ringDie r => ringField r (fun g => { g with die := n % 2 }) s
  | .ringExqLog r => ringField r (fun g => { g with exqlog := n % 32 }) s
  | .ringLog r => ringField r (fun g => { g with ringlog := n % 32 }) s
  | .ringState r =>
    if !hostCan s (ringPart r) then s else if n % 16 = 1 then openRing r s else if n % 16 = 3 then closeRing r s else refuseRing r s
  | .ringPart r => ringField r (fun g => { g with dpart := n % 16 }) s
  | .ringLocal r => ringField r (fun g => { g with dlocal := n % 64 }) s
  | .ringAnswer r => if hostCan s (ringPart r) then ignoreAnswer r s else s
  | .ringReadOnly r => if hostCan s (ringPart r) then refuseRing r s else s
  | .route d => if d < 256 then modDev s fun x => { x with route := sset 0 x.route d (BitVec.ofNat 8 n &&& 0x8F) } else s
  | .pwrlimit k => if k < 64 then modCore s k fun o => { o with pwrlimit := BitVec.ofNat 12 n } else s
  | .trrd part => if hostCan s part then modPart s part fun p => { p with trrd := n } else s
  | .winnowctl => winnowCtl (n % 2 ^ 62) s
  | .readOnly => s
def execMydevset (v : BitVec 8) (s : State) : Host.Outcome State Fault Refusal := onDev s fun s =>
  if s.parts.any fun e => e.2.live then s else modDev s fun d => { d with mydev := v }
def execWinnowFire (v : BitVec 64) (s : State) : Host.Outcome State Fault Refusal := onDev s fun s => winnowCtl (v.toNat ||| 2 ^ 63) s
def execWinnowRelease (v : BitVec 64) (s : State) : Host.Outcome State Fault Refusal := onDev s fun s => winnowCtl (v.toNat ||| 2 ^ 62) s
/-! ### Partitions (R383, R384) -/

/-- The creation block at an address of host memory. -/
def readBlock (s : State) (addr : Nat) : Nat := ofBytes (curBytes s .host .host addr 64)
def blkCmd (b : Nat) : Nat := fld b 0 4
def blkPart (b : Nat) : Nat := fld b 4 4
/-- The refusals of a creation. -/
def createBad (s : State) (b : Nat) : Bool :=
  let part := blkPart b
  (partRec s part).live || fld b 8 72 != 0 || fld b 80 16 == 0 ||
  s.parts.any fun e => e.2.live && e.1 != part &&
    (e.2.cmask &&& BitVec.ofNat 64 (fld b 128 64) != 0 || e.2.vfmask &&& BitVec.ofNat 64 (fld b 448 64) != 0)
def newPart (b key : Nat) : Part :=
  { live := true, cmask := BitVec.ofNat 64 (fld b 128 64), vfmask := BitVec.ofNat 64 (fld b 448 64), devset := BitVec.ofNat 256 (fld b 192 256)
    plat := fld b 96 32, quota := fld b 80 16, key := key, nonce := Config.nonceOf key, block := b }
def execPartitionCreate (addr : BitVec 64) (s : State) : Host.Outcome State Fault Refusal := onDev s fun s =>
  let b := readBlock s addr.toNat
  if blkCmd b ≠ 1 then s
  else if createBad s b then partStat (blkPart b) 2 s
  else
    let key := s.dev.nextKey
    partStat (blkPart b) 0 (modPart (modDev s fun d => { d with nextKey := key + 1 }) (blkPart b) fun _ => newPart b key)
/-- Destroys a partition: its launches are aborted and its requests are cancelled; the rest follows when they have ended. A destruction
that is under way goes on. -/
def execPartitionDestroy (addr : BitVec 64) (s : State) : Host.Outcome State Fault Refusal := onDev s fun s =>
  let b := readBlock s addr.toNat
  let part := blkPart b
  if blkCmd b ≠ 2 then s
  else if !(partRec s part).live then partStat part 2 s
  else
    let s1 := partStat part 1 (modPart s part fun p => { p with dying := true })
    let s2 := ((s1.launches.filter fun l => l.part == part).map (·.id)).foldl (fun s id => killLaunch id s) s1
    finishPart part (((s2.rq.filter fun e => decide (e.2.st ≠ .free) && e.2.part == part).map (·.1)).foldl (fun s id => cancelRq s part id) s2)
def execPartitionSetPlat (addr : BitVec 64) (s : State) : Host.Outcome State Fault Refusal := onDev s fun s =>
  let b := readBlock s addr.toNat
  let part := blkPart b
  if blkCmd b ≠ 3 then s
  else if !(partRec s part).live then partStat part 2 s
  else partStat part 0 (modPart s part fun p => { p with plat := fld b 96 32 })
/-- TDISP puts a virtual function into the RUN state and binds it to a partition that allows it. -/
def execTdispRequest (vf part : Nat) (s : State) : Host.Outcome State Fault Refusal := onDev s fun s =>
  if vf < 64 ∧ (partRec s part).live ∧ (partRec s part).vfmask.getLsbD vf then modDev s fun d => { d with vfs := sput d.vfs vf part } else s
/-- A host write at its home. -/
def hostWrite (s : State) (w : HSpace × Nat × List Byte) : State :=
  match w.1 with
  | .host => storeDevice s .host w.2.1 w.2.2
  | .near => if w.2.1 + w.2.2.length ≤ nearBytes then storeDevice s .near w.2.1 w.2.2 else s
  | .dram => if w.2.1 + w.2.2.length ≤ dramBytes then storeDevice s .dram w.2.1 w.2.2 else s
/-- A host write into device memory, the near store or its own memory (R199). In L3 an access to HBM wakes it and waits, and the writes into
the device behind it wait in their order (R199, R390). -/
def execHostMemoryWrite (sp : HSpace) (addr : Nat) (bytes : List Byte) (s : State) : Host.Outcome State Fault Refusal := onDev s fun s =>
  if sp = .host ∨ (s.hostWait.isEmpty ∧ !(sp == .dram && s.dev.l3)) then hostWrite s (sp, addr, bytes)
  else { modDev s fun d => { d with hbmWaking := d.hbmWaking || d.l3 } with hostWait := s.hostWait ++ [(sp, addr, bytes)] }

/-! ### SPDM and firmware (R385, R388) -/

/-- Function 0 is PF0, function v + 1 is virtual function v; a virtual function answers once it is bound. -/
def fnUp (s : State) (fn : Nat) : Bool := fn == 0 || (slook s.dev.vfs (fn - 1)).isSome
def fnPart (s : State) (fn : Nat) : Option Nat := if fn = 0 then none else slook s.dev.vfs (fn - 1)
def spdmAt (s : State) (fn : Nat) : Spdm := sget {} s.dev.spdm fn
/-- Answers a request: in its turn as SPDM orders them, else with an error (log entry 38). -/
def spdmDo (fn : Nat) (ok : Spdm → Bool) (f : Spdm → Spdm) (r : State → SpdmResp) (more : Spdm → State → State) (s : State) : State :=
  if !fnUp s fn then s
  else
    let x := spdmAt s fn
    if ok x then
      let s1 := modDev s fun d => { d with spdm := sput d.spdm fn (f x), spdmOut := d.spdmOut ++ [(fn, r s)] }
      more x s1
    else modDev s fun d => { d with spdmOut := d.spdmOut ++ [(fn, .error)] }
def noMore (_ : Spdm) (s : State) : State := s
/-- The pager image of a partition: the pager memory of its lowest core. -/
def pagerText (s : State) (part : Nat) : Nat :=
  match (List.range 64).find? fun k => (partRec s part).cmask.getLsbD k with
  | some k => (coreAt s k).ks.pagerMem.foldl (fun n e => n + 2 ^ (64 * e.1) * e.2.toNat) 0
  | none => 0
/-- The measurement blocks, index 1 first (R388); PF0 has the two firmware images. -/
def measureBlocks (s : State) (fn : Nat) : List (BitVec 384) :=
  ([s.dev.fwBoot, s.dev.fwRun] ++ (match fnPart s fn with
    | some p => [pagerText s p, (partRec s p).block, (partRec s p).policy.toNat]
    | none => [])).map Config.sha384
/-- The end of a session with a peer erases the link keys that depend on it (R385). -/
def sessionClose (x : Spdm) (s : State) : State :=
  match x.peer with
  | some d => if x.session then modDev s fun v => { v with linkKeys := v.linkKeys.filter fun e => e.2 != d } else s
  | none => s
/-- GET_VERSION starts the exchange anew, and ends a session that was open (log entry 38). -/
def execSpdmGetVersion (fn : Nat) (s : State) : Host.Outcome State Fault Refusal := onDev s fun s =>
  spdmDo fn (fun _ => true) (fun _ => { ver := true }) (fun _ => .version) sessionClose s
def execSpdmGetCapabilities (fn : Nat) (s : State) : Host.Outcome State Fault Refusal := onDev s fun s =>
  spdmDo fn (·.ver) (fun x => { x with caps := true }) (fun _ => .capabilities) noMore s
def execSpdmNegotiateAlgorithms (fn : Nat) (s : State) : Host.Outcome State Fault Refusal := onDev s fun s =>
  spdmDo fn (·.caps) (fun x => { x with algs := true }) (fun _ => .algorithms) noMore s
def execSpdmGetDigests (fn : Nat) (s : State) : Host.Outcome State Fault Refusal := onDev s fun s =>
  spdmDo fn (·.algs) id (fun _ => .digests) noMore s
def execSpdmGetCertificate (fn : Nat) (s : State) : Host.Outcome State Fault Refusal := onDev s fun s =>
  spdmDo fn (·.algs) id (fun _ => .certificate) noMore s
def execSpdmChallenge (fn : Nat) (nonce : Nat) (s : State) : Host.Outcome State Fault Refusal := onDev s fun s =>
  spdmDo fn (·.algs) id (fun s => .challengeAuth nonce (measureBlocks s fn)) noMore s
def execSpdmGetMeasurements (fn : Nat) (nonce : Nat) (s : State) : Host.Outcome State Fault Refusal := onDev s fun s =>
  spdmDo fn (·.algs) id (fun s => .measurements nonce (measureBlocks s fn)) noMore s
/-- The exchange carries the tenant's key, or is with a peer device; a session that was open ends. -/
def execSpdmKeyExchange (fn : Nat) (peer : Option (BitVec 8)) (key : Nat) (s : State) : Host.Outcome State Fault Refusal := onDev s fun s =>
  spdmDo fn (·.algs) (fun x => { x with keyex := true, session := false, peer := peer.map (·.toNat), key := key }) (fun _ => .keyExchange) sessionClose s
/-- The partitions that name a device. -/
def partsNaming (s : State) (d : Nat) : List Nat := (s.parts.filter fun e => e.2.live && e.2.devset.getLsbD d).map (·.1)
/-- A session with a peer device exchanges the link keys of the partitions that name it and whose namesakes there name this device: bit P of
`names` says so of the peer's partition P (R385, R398). One of a bound function carries the tenant's key (R389). -/
def sessionOpen (fn : Nat) (names : BitVec 16) (x : Spdm) (s : State) : State :=
  match x.peer, fnPart s fn with
  | some d, _ => modDev s fun v =>
      { v with linkKeys := v.linkKeys ++ (((partsNaming s d).filter names.getLsbD).map fun p => (p, d)).filter fun e => !v.linkKeys.contains e }
  | none, some p => modPart s p fun q => { q with tenant := some x.key }
  | none, none => s
def execSpdmFinish (fn : FinishMsg) (s : State) : Host.Outcome State Fault Refusal := onDev s fun s =>
  spdmDo fn.fn (·.keyex) (fun x => { x with keyex := false, session := true }) (fun _ => .finish) (sessionOpen fn.fn fn.names) s
def execSpdmEndSession (fn : Nat) (s : State) : Host.Outcome State Fault Refusal := onDev s fun s =>
  spdmDo fn (·.session) (fun x => { x with session := false, peer := none, key := 0 }) (fun _ => .endSession) sessionClose s
/-- A firmware image runs only when its signature verifies under the maker's key, number 0. -/
def execFirmwareImageLoad (runtime : Bool) (image sig : Nat) (s : State) : Host.Outcome State Fault Refusal := onDev s fun s =>
  if Config.sigOk 0 image sig then modDev s fun d => if runtime then { d with fwRun := image } else { d with fwBoot := image } else s

/-! ### Power (R390, R391) -/

/-- SCALE at the end of a window of 1 ms. -/
def nextScale (lim mw scale : Nat) : Nat := if lim < mw then (if scale ≤ 1 then 1 else scale - 1) else if mw * 100 < 95 * lim ∧ scale < 16 then scale + 1 else scale
def execPowerWindowEnd (mw : Nat) (s : State) : Host.Outcome State Fault Refusal := onDev s fun s =>
  let lim := Config.sustained s.dev.modForm
  modDev s fun d => { d with lastPower := mw, scale := nextScale lim mw d.scale }
/-- Power above the peak limit, or above the sustained limit for 10 ms in a row (R391). -/
def execPowerPeakExceeded (s : State) : Host.Outcome State Fault Refusal := onDev s fun s =>
  modDev s fun d => { d with scale := if d.scale / 2 = 0 then 1 else d.scale / 2 }
/-- The governor grants the leave units of the `m.go` that the arbiter has chosen, which issues (R219). -/
def execLeaveGrant (core : Nat) (s : State) : Host.Outcome State Fault Refusal := onDev s fun s =>
  match arbiter s core with
  | none => s
  | some q =>
    match headOf s core q with
    | some w => if mKind w = .go ∧ !(coreAt s core).frozen ∧ !dbgHalted (coreAt s core) then goHead core q s else s
    | none => s
/-- A core, or the HBM, has woken; the host writes that waited for the HBM are performed in their order, and so are the packets of peers. -/
def execWakeLatencyExpiry (core : Option Nat) (s : State) : Host.Outcome State Fault Refusal := onDev s fun s =>
  match core with
  | some k => if (coreAt s k).waking then modCore s k fun o => { o with waking := false, pwr := .l0 } else s
  | none => if s.dev.hbmWaking then unpark (s.hostWait.foldl hostWrite (modDev { s with hostWait := [] } fun d => { d with hbmWaking := false, l3 := false })) else s
/-- A core is as deep as L2, and runs no instance. -/
def deepCore (s : State) (k : Nat) : Bool := (coreAt s k).inst.isNone && decide ((coreAt s k).pwr = .l2)
def execDeviceEnterL3 (s : State) : Host.Outcome State Fault Refusal := onDev s fun s =>
  if ((List.range 64).all (deepCore s)) && (s.parts.all fun e => !e.2.live || decide (400 ≤ e.2.plat)) && s.out.isEmpty && s.hostWait.isEmpty && s.linkWait.isEmpty && s.shMsgs.isEmpty &&
      (s.thr.all fun e => e.2.cmds.isEmpty) then
    modDev s fun d => { d with l3 := true }
  else s
/-- Device reset (R9): every field at its reset value. The form and the firmware images are the device's own, host memory keeps its bytes,
those that a save left there among them, and what the outside does next stays as it stands. -/
def execDeviceReset (s : State) : Host.Outcome State Fault Refusal := onDev s fun s =>
  { State.reset with
    hostmem := s.hostmem, pages := s.pages.filter (fun e => e.1 % 512 == spaceKey .host), agenda := s.agenda
    dev := { State.reset.dev with modForm := s.dev.modForm, fwBoot := s.dev.fwBoot, fwRun := s.dev.fwRun, nextEpoch := s.dev.nextEpoch } }

end Sys2Proof.Machine
end

