-- ==== Sys2Proof/Machine/Scalar.lean ====
section
/-! DEFINITION. Scalar instructions (05): integer arithmetic, bit fields, constants, comparisons, floating point, conversions and
predicates. -/

namespace Sys2Proof.Machine

/-! ### Shapes -/

/-- Two sources, one result. -/
def bin (a : At) (d x y : SOp) (f : Word → Word → Word) (s : State) : State :=
  needQ a (popsS [x, y]) (pushS d) (fun s =>
    let (u, s1) := takeS a x s
    let (v, s2) := takeS a y s1
    retire a (putS a d (f u v) s2)) s
/-- One source, one result. -/
def una (a : At) (d x : SOp) (f : Word → Word) (s : State) : State :=
  needQ a (popsS [x]) (pushS d) (fun s =>
    let (u, s1) := takeS a x s
    retire a (putS a d (f u) s1)) s
/-- Three sources, one result. -/
def ter (a : At) (d x y z : SOp) (f : Word → Word → Word → Word) (s : State) : State :=
  needQ a (popsS [x, y, z]) (pushS d) (fun s =>
    let (u, s1) := takeS a x s
    let (v, s2) := takeS a y s1
    let (t, s3) := takeS a z s2
    retire a (putS a d (f u v t) s3)) s
/-- Two sources, a predicate. -/
def cmpS (a : At) (d : Fin 16) (x y : SOp) (f : Word → Word → Bool) (s : State) : State :=
  needQ a (popsS [x, y]) [] (fun s =>
    let (u, s1) := takeS a x s
    let (v, s2) := takeS a y s1
    retire a (setP s2 a d.val (f u v))) s
/-- One source against a constant, a predicate. -/
def cmpI (a : At) (d : Fin 16) (x : SOp) (f : Word → Bool) (s : State) : State :=
  needQ a (popsS [x]) [] (fun s =>
    let (u, s1) := takeS a x s
    retire a (setP s1 a d.val (f u))) s

/-! ### Functions of R112 to R114 -/

def fnAdd (u v : Word) : Word := u + v
def fnSub (u v : Word) : Word := u - v
def fnAnd (u v : Word) : Word := u &&& v
def fnOr (u v : Word) : Word := u ||| v
def fnXor (u v : Word) : Word := u ^^^ v
def fnAndn (u v : Word) : Word := u &&& ~~~v
def fnShl (u v : Word) : Word := u <<< (v.toNat % 64)
def fnShr (u v : Word) : Word := u >>> (v.toNat % 64)
def fnSra (u v : Word) : Word := u.sshiftRight (v.toNat % 64)
def fnRot (u v : Word) : Word := u.rotateLeft (v.toNat % 64)
def fnMin (u v : Word) : Word := if v.slt u then v else u
def fnMax (u v : Word) : Word := if u.slt v then v else u
def fnMinu (u v : Word) : Word := if v.ult u then v else u
def fnMaxu (u v : Word) : Word := if u.ult v then v else u
def fnMul (u v : Word) : Word := u * v
def fnMulh (u v : Word) : Word := BitVec.ofInt 64 (u.toInt * v.toInt / 2 ^ 64)
def fnMulhu (u v : Word) : Word := BitVec.ofNat 64 (u.toNat * v.toNat / 2 ^ 64)
/-- Division truncates; a divisor of 0 gives all ones, and -2^63 by -1 gives -2^63 (R113). -/
def fnDiv (u v : Word) : Word := if v = 0 then BitVec.allOnes 64 else BitVec.ofInt 64 (u.toInt.tdiv v.toInt)
def fnDivu (u v : Word) : Word := if v = 0 then BitVec.allOnes 64 else BitVec.ofNat 64 (u.toNat / v.toNat)
def fnRem (u v : Word) : Word := if v = 0 then u else BitVec.ofInt 64 (u.toInt.tmod v.toInt)
def fnRemu (u v : Word) : Word := if v = 0 then u else BitVec.ofNat 64 (u.toNat % v.toNat)
def fnClz (u : Word) : Word := BitVec.ofNat 64 (clzN 64 u.toNat)
def fnPopc (u : Word) : Word := BitVec.ofNat 64 (popcN 64 u.toNat)
def fnCtz (u : Word) : Word := BitVec.ofNat 64 (ctzN 64 u.toNat)
/-- The field that `bfx` reads. -/
def bfield (u : Word) (pos len : Nat) : Nat := fld u.toNat pos len
/-- `bfi`: the low bits of the source in place of a field of the destination. -/
def bfInsert (old u : Word) (pos len : Nat) : Word := BitVec.ofNat 64 (setFld old.toNat pos len u.toNat)
/-- `lih`: one of four 16-bit chunks (R115). -/
def chunkSet (old : Word) (chunk : Nat) (imm : BitVec 16) : Word := BitVec.ofNat 64 (setFld old.toNat (16 * chunk) 16 imm.toNat)
/-- A floating-point result in a register (R117). -/
def fpReg (t : FTy) (x : Nat) : Word := zext64 (fW t) x
/-- The low w bits of a register (R117). -/
def fpLow (t : FTy) (u : Word) : Nat := u.toNat % 2 ^ fW t
/-- The predicates as a register (R122). -/
def predWord (s : State) (a : At) : Word := BitVec.ofNat 64 ((ctxOf s a).p.toNat / 2 * 2 + 1)

/-! ### Integer instructions -/

def execAdd (d x y : SOp) (s : State) : Host.Outcome State Fault Refusal := onCl s fun a s => bin a d x y fnAdd s
def execSub (d x y : SOp) (s : State) : Host.Outcome State Fault Refusal := onCl s fun a s => bin a d x y fnSub s
def execAnd (d x y : SOp) (s : State) : Host.Outcome State Fault Refusal := onCl s fun a s => bin a d x y fnAnd s
def execOr (d x y : SOp) (s : State) : Host.Outcome State Fault Refusal := onCl s fun a s => bin a d x y fnOr s
def execXor (d x y : SOp) (s : State) : Host.Outcome State Fault Refusal := onCl s fun a s => bin a d x y fnXor s
def execAndn (d x y : SOp) (s : State) : Host.Outcome State Fault Refusal := onCl s fun a s => bin a d x y fnAndn s
def execShl (d x y : SOp) (s : State) : Host.Outcome State Fault Refusal := onCl s fun a s => bin a d x y fnShl s
def execShr (d x y : SOp) (s : State) : Host.Outcome State Fault Refusal := onCl s fun a s => bin a d x y fnShr s
def execSra (d x y : SOp) (s : State) : Host.Outcome State Fault Refusal := onCl s fun a s => bin a d x y fnSra s
def execRot (d x y : SOp) (s : State) : Host.Outcome State Fault Refusal := onCl s fun a s => bin a d x y fnRot s
def execMin (d x y : SOp) (s : State) : Host.Outcome State Fault Refusal := onCl s fun a s => bin a d x y fnMin s
def execMax (d x y : SOp) (s : State) : Host.Outcome State Fault Refusal := onCl s fun a s => bin a d x y fnMax s
def execMinu (d x y : SOp) (s : State) : Host.Outcome State Fault Refusal := onCl s fun a s => bin a d x y fnMinu s
def execMaxu (d x y : SOp) (s : State) : Host.Outcome State Fault Refusal := onCl s fun a s => bin a d x y fnMaxu s
def execAddImm (d x : SOp) (imm : BitVec 16) (s : State) : Host.Outcome State Fault Refusal := onCl s fun a s =>
  una a d x (fnAdd · (immS imm)) s
def execSubImm (d x : SOp) (imm : BitVec 16) (s : State) : Host.Outcome State Fault Refusal := onCl s fun a s =>
  una a d x (fnSub · (immS imm)) s
def execAndImm (d x : SOp) (imm : BitVec 16) (s : State) : Host.Outcome State Fault Refusal := onCl s fun a s =>
  una a d x (fnAnd · (immZ imm)) s
def execOrImm (d x : SOp) (imm : BitVec 16) (s : State) : Host.Outcome State Fault Refusal := onCl s fun a s =>
  una a d x (fnOr · (immZ imm)) s
def execXorImm (d x : SOp) (imm : BitVec 16) (s : State) : Host.Outcome State Fault Refusal := onCl s fun a s =>
  una a d x (fnXor · (immZ imm)) s
def execAndnImm (d x : SOp) (imm : BitVec 16) (s : State) : Host.Outcome State Fault Refusal := onCl s fun a s =>
  una a d x (fnAndn · (immZ imm)) s
def execShlImm (d x : SOp) (imm : BitVec 16) (s : State) : Host.Outcome State Fault Refusal := onCl s fun a s =>
  una a d x (fnShl · (immZ imm)) s
def execShrImm (d x : SOp) (imm : BitVec 16) (s : State) : Host.Outcome State Fault Refusal := onCl s fun a s =>
  una a d x (fnShr · (immZ imm)) s
def execSraImm (d x : SOp) (imm : BitVec 16) (s : State) : Host.Outcome State Fault Refusal := onCl s fun a s =>
  una a d x (fnSra · (immZ imm)) s
def execRotImm (d x : SOp) (imm : BitVec 16) (s : State) : Host.Outcome State Fault Refusal := onCl s fun a s =>
  una a d x (fnRot · (immZ imm)) s
def execMinImm (d x : SOp) (imm : BitVec 16) (s : State) : Host.Outcome State Fault Refusal := onCl s fun a s =>
  una a d x (fnMin · (immS imm)) s
def execMaxImm (d x : SOp) (imm : BitVec 16) (s : State) : Host.Outcome State Fault Refusal := onCl s fun a s =>
  una a d x (fnMax · (immS imm)) s
def execMinuImm (d x : SOp) (imm : BitVec 16) (s : State) : Host.Outcome State Fault Refusal := onCl s fun a s =>
  una a d x (fnMinu · (immZ imm)) s
def execMaxuImm (d x : SOp) (imm : BitVec 16) (s : State) : Host.Outcome State Fault Refusal := onCl s fun a s =>
  una a d x (fnMaxu · (immZ imm)) s
def execMul (d x y : SOp) (s : State) : Host.Outcome State Fault Refusal := onCl s fun a s => bin a d x y fnMul s
def execMulh (d x y : SOp) (s : State) : Host.Outcome State Fault Refusal := onCl s fun a s => bin a d x y fnMulh s
def execMulhu (d x y : SOp) (s : State) : Host.Outcome State Fault Refusal := onCl s fun a s => bin a d x y fnMulhu s
def execDiv (d x y : SOp) (s : State) : Host.Outcome State Fault Refusal := onCl s fun a s => bin a d x y fnDiv s
def execDivu (d x y : SOp) (s : State) : Host.Outcome State Fault Refusal := onCl s fun a s => bin a d x y fnDivu s
def execRem (d x y : SOp) (s : State) : Host.Outcome State Fault Refusal := onCl s fun a s => bin a d x y fnRem s
def execRemu (d x y : SOp) (s : State) : Host.Outcome State Fault Refusal := onCl s fun a s => bin a d x y fnRemu s
def execClz (d x : SOp) (s : State) : Host.Outcome State Fault Refusal := onCl s fun a s => una a d x fnClz s
def execPopc (d x : SOp) (s : State) : Host.Outcome State Fault Refusal := onCl s fun a s => una a d x fnPopc s
def execCtz (d x : SOp) (s : State) : Host.Outcome State Fault Refusal := onCl s fun a s => una a d x fnCtz s

/-- `bfx`: pos + len above 64 traps (R114). -/
def execBfxS (d x : SOp) (pos len1 : BitVec 6) (s : State) : Host.Outcome State Fault Refusal := onCl s fun a s =>
  if 64 < pos.toNat + (len1.toNat + 1) then trapTy a .illegalOperand s
  else una a d x (fun u => sext64 (len1.toNat + 1) (bfield u pos.toNat (len1.toNat + 1))) s
def execBfxU (d x : SOp) (pos len1 : BitVec 6) (s : State) : Host.Outcome State Fault Refusal := onCl s fun a s =>
  if 64 < pos.toNat + (len1.toNat + 1) then trapTy a .illegalOperand s
  else una a d x (fun u => BitVec.ofNat 64 (bfield u pos.toNat (len1.toNat + 1))) s
/-- `bfi` reads its destination (R114). -/
def execBfi (d : Fin 64) (x : SOp) (pos len1 : BitVec 6) (s : State) : Host.Outcome State Fault Refusal := onCl s fun a s =>
  if 64 < pos.toNat + (len1.toNat + 1) then trapTy a .illegalOperand s
  else una a (.x d) x (fun u => bfInsert (getX s a d.val) u pos.toNat (len1.toNat + 1)) s
/-- `li` (R115). -/
def execLi (d : SOp) (imm : BitVec 26) (s : State) : Host.Outcome State Fault Refusal := onCl s fun a s =>
  needQ a [] (pushS d) (fun s => retire a (putS a d (imm.signExtend 64) s)) s
/-- `lih` (R115). -/
def execLih (d : Fin 64) (chunk : Fin 4) (imm : BitVec 16) (s : State) : Host.Outcome State Fault Refusal := onCl s fun a s =>
  retire a (setX s a d.val (chunkSet (getX s a d.val) chunk.val imm))

def execCmpEq (d : Fin 16) (x y : SOp) (s : State) : Host.Outcome State Fault Refusal := onCl s fun a s => cmpS a d x y condEq s
def execCmpNe (d : Fin 16) (x y : SOp) (s : State) : Host.Outcome State Fault Refusal := onCl s fun a s => cmpS a d x y condNe s
def execCmpLt (d : Fin 16) (x y : SOp) (s : State) : Host.Outcome State Fault Refusal := onCl s fun a s => cmpS a d x y condLt s
def execCmpGe (d : Fin 16) (x y : SOp) (s : State) : Host.Outcome State Fault Refusal := onCl s fun a s => cmpS a d x y condGe s
def execCmpLtu (d : Fin 16) (x y : SOp) (s : State) : Host.Outcome State Fault Refusal := onCl s fun a s => cmpS a d x y condLtu s
def execCmpGeu (d : Fin 16) (x y : SOp) (s : State) : Host.Outcome State Fault Refusal := onCl s fun a s => cmpS a d x y condGeu s
def execCmpEqImm (d : Fin 16) (x : SOp) (imm : BitVec 16) (s : State) : Host.Outcome State Fault Refusal := onCl s fun a s =>
  cmpI a d x (condEq · (immS imm)) s
def execCmpNeImm (d : Fin 16) (x : SOp) (imm : BitVec 16) (s : State) : Host.Outcome State Fault Refusal := onCl s fun a s =>
  cmpI a d x (condNe · (immS imm)) s
def execCmpLtImm (d : Fin 16) (x : SOp) (imm : BitVec 16) (s : State) : Host.Outcome State Fault Refusal := onCl s fun a s =>
  cmpI a d x (condLt · (immS imm)) s
def execCmpGeImm (d : Fin 16) (x : SOp) (imm : BitVec 16) (s : State) : Host.Outcome State Fault Refusal := onCl s fun a s =>
  cmpI a d x (condGe · (immS imm)) s
def execCmpLtuImm (d : Fin 16) (x : SOp) (imm : BitVec 16) (s : State) : Host.Outcome State Fault Refusal := onCl s fun a s =>
  cmpI a d x (condLtu · (immZ imm)) s
def execCmpGeuImm (d : Fin 16) (x : SOp) (imm : BitVec 16) (s : State) : Host.Outcome State Fault Refusal := onCl s fun a s =>
  cmpI a d x (condGeu · (immZ imm)) s
/-- `sel` pops both sources whatever the predicate (R31). -/
def execSel (d x y : SOp) (c : Fin 16) (neg : Bool) (s : State) : Host.Outcome State Fault Refusal := onCl s fun a s =>
  bin a d x y (fun u v => if getP s a c.val != neg then u else v) s

/-! ### Floating point (R117 to R120) -/

def execFadd (t : FTy) (d x y : SOp) (s : State) : Host.Outcome State Fault Refusal := onCl s fun a s =>
  bin a d x y (fun u v => fpReg t (fAdd t (locOf s a) (fpLow t u) (fpLow t v))) s
def execFsub (t : FTy) (d x y : SOp) (s : State) : Host.Outcome State Fault Refusal := onCl s fun a s =>
  bin a d x y (fun u v => fpReg t (fSub t (locOf s a) (fpLow t u) (fpLow t v))) s
def execFmul (t : FTy) (d x y : SOp) (s : State) : Host.Outcome State Fault Refusal := onCl s fun a s =>
  bin a d x y (fun u v => fpReg t (fMul t (locOf s a) (fpLow t u) (fpLow t v))) s
def execFmin (t : FTy) (d x y : SOp) (s : State) : Host.Outcome State Fault Refusal := onCl s fun a s =>
  bin a d x y (fun u v => fpReg t (fMin t (fpLow t u) (fpLow t v))) s
def execFmax (t : FTy) (d x y : SOp) (s : State) : Host.Outcome State Fault Refusal := onCl s fun a s =>
  bin a d x y (fun u v => fpReg t (fMax t (fpLow t u) (fpLow t v))) s
def execFma (t : FTy) (d x y z : SOp) (s : State) : Host.Outcome State Fault Refusal := onCl s fun a s =>
  ter a d x y z (fun u v c => fpReg t (fFma t (locOf s a) (fpLow t u) (fpLow t v) (fpLow t c))) s
def execFcmp (t : FTy) (c : FCond) (d : Fin 16) (x y : SOp) (s : State) : Host.Outcome State Fault Refusal := onCl s fun a s =>
  cmpS a d x y (fun u v => fcond t c (fpLow t u) (fpLow t v)) s
def execFcvt (dt st : Ety) (rz : Bool) (d x : SOp) (s : State) : Host.Outcome State Fault Refusal := onCl s fun a s =>
  una a d x (fun u => regOfElem dt (convert dt st rz (locOf s a) (u.toNat % 2 ^ etyW st))) s

/-! ### Predicates (R121, R122) -/

def execPand (d p q : Fin 16) (s : State) : Host.Outcome State Fault Refusal := onCl s fun a s =>
  let x := getP s a p.val
  let y := getP s a q.val
  retire a (setP s a d.val (x && y))
def execPor (d p q : Fin 16) (s : State) : Host.Outcome State Fault Refusal := onCl s fun a s =>
  let x := getP s a p.val
  let y := getP s a q.val
  retire a (setP s a d.val (x || y))
def execPxor (d p q : Fin 16) (s : State) : Host.Outcome State Fault Refusal := onCl s fun a s =>
  let x := getP s a p.val
  let y := getP s a q.val
  retire a (setP s a d.val (x != y))
def execPandn (d p q : Fin 16) (s : State) : Host.Outcome State Fault Refusal := onCl s fun a s =>
  let x := getP s a p.val
  let y := getP s a q.val
  retire a (setP s a d.val (x && !y))
def execPnot (d p : Fin 16) (s : State) : Host.Outcome State Fault Refusal := onCl s fun a s => retire a (setP s a d.val (!getP s a p.val))
def execPmov (d p : Fin 16) (s : State) : Host.Outcome State Fault Refusal := onCl s fun a s => retire a (setP s a d.val (getP s a p.val))
def execPtox (d : SOp) (s : State) : Host.Outcome State Fault Refusal := onCl s fun a s =>
  needQ a [] (pushS d) (fun s => retire a (putS a d (predWord s a) s)) s
def execXtop (x : SOp) (s : State) : Host.Outcome State Fault Refusal := onCl s fun a s =>
  needQ a (popsS [x]) [] (fun s =>
    let (u, s1) := takeS a x s
    retire a (modCtx s1 a fun t => { t with p := u.setWidth 16 &&& 0xFFFE })) s

end Sys2Proof.Machine
end

