-- ==== Sys2Proof/Machine/Vector.lean ====
section
/-! DEFINITION. Vector instructions (06): element arithmetic, bits and shifts, broadcasts, comparisons, selections, conversions,
reductions and scans, permutes, lane access, elementary functions, lookup tables, masks and event scans. -/

namespace Sys2Proof.Machine

/-! ### Shapes -/

/-- One source register, one destination, element by element under the mask (R124, R125). -/
def vmap1 (a : At) (w : Nat) (m : VMask) (d x : VOp) (f : Nat → Nat) (s : State) : State :=
  needQ a (portV 1 x) (portV 1 d) (fun s =>
    let (u, s1) := takeV a 1 x s
    retire a (putV a 1 d (mergeV w (4096 / w) (maskOf a m s) (oldV a 1 d s) fun i => f (elemN w u i)) s1)) s
def vmap2 (a : At) (w : Nat) (m : VMask) (d x y : VOp) (f : Nat → Nat → Nat) (s : State) : State :=
  needQ a (portV 1 x ++ portV 1 y) (portV 1 d) (fun s =>
    let (u, s1) := takeV a 1 x s
    let (v, s2) := takeV a 1 y s1
    retire a (putV a 1 d (mergeV w (4096 / w) (maskOf a m s) (oldV a 1 d s) fun i => f (elemN w u i) (elemN w v i)) s2)) s
def vmap3 (a : At) (w : Nat) (m : VMask) (d x y z : VOp) (f : Nat → Nat → Nat → Nat) (s : State) : State :=
  needQ a (portV 1 x ++ portV 1 y ++ portV 1 z) (portV 1 d) (fun s =>
    let (u, s1) := takeV a 1 x s
    let (v, s2) := takeV a 1 y s1
    let (t, s3) := takeV a 1 z s2
    retire a (putV a 1 d (mergeV w (4096 / w) (maskOf a m s) (oldV a 1 d s) fun i => f (elemN w u i) (elemN w v i) (elemN w t i)) s3)) s
/-- A source of `gx` registers and a destination of `gd`; `f` makes the whole destination from the source and the old destination. -/
def vgrp1 (a : At) (gx gd : Nat) (d x : VOp) (f : Nat → Nat → Nat) (s : State) : State :=
  if !groupOk gx x || !groupOk gd d then trapTy a .illegalOperand s
  else needQ a (portV gx x) (portV gd d) (fun s =>
    let (u, s1) := takeV a gx x s
    retire a (putV a gd d (f u (oldV a gd d s)) s1)) s
/-- Two sources, of one register and of `gy`, and one destination register. -/
def vgrp2 (a : At) (gy : Nat) (d x y : VOp) (f : Nat → Nat → Nat → Nat) (s : State) : State :=
  if !groupOk gy y then trapTy a .illegalOperand s
  else needQ a (portV 1 x ++ portV gy y) (portV 1 d) (fun s =>
    let (u, s1) := takeV a 1 x s
    let (v, s2) := takeV a gy y s1
    retire a (putV a 1 d (f u v (oldV a 1 d s)) s2)) s

/-! ### Elements (R130 to R132) -/

def elAdd (t : Ety) (sat : Bool) (l : Loc) (u v : Nat) : Nat :=
  match etyF t with
  | some f => fAdd f l u v
  | none => intRes t sat (elemInt t u + elemInt t v)
def elSub (t : Ety) (sat : Bool) (l : Loc) (u v : Nat) : Nat :=
  match etyF t with
  | some f => fSub f l u v
  | none => intRes t sat (elemInt t u - elemInt t v)
def elMul (t : Ety) (sat : Bool) (l : Loc) (u v : Nat) : Nat :=
  match etyF t with
  | some f => fMul f l u v
  | none => intRes t sat (elemInt t u * elemInt t v)
def elMin (t : Ety) (u v : Nat) : Nat :=
  match etyF t with
  | some f => fMin f u v
  | none => if elemInt t v < elemInt t u then v else u
def elMax (t : Ety) (u v : Nat) : Nat :=
  match etyF t with
  | some f => fMax f u v
  | none => if elemInt t u < elemInt t v then v else u
def elAbs (t : Ety) (sat : Bool) (u : Nat) : Nat :=
  match etyF t with
  | some f => fAbs f u
  | none => intRes t sat (elemInt t u).natAbs
def elNeg (t : Ety) (sat : Bool) (u : Nat) : Nat :=
  match etyF t with
  | some f => fNegate f u
  | none => intRes t sat (-(elemInt t u))
def elAndn (w u v : Nat) : Nat := u &&& (2 ^ w - 1 - v)
def elShl (w u v : Nat) : Nat := u * 2 ^ (v % w) % 2 ^ w
def elShr (w u v : Nat) : Nat := u / 2 ^ (v % w)
def elSra (w u v : Nat) : Nat := wrapN w (sint w u / 2 ^ (v % w))
def elMulh (t : Ety) (u v : Nat) : Nat := wrapN (etyW t) (elemInt t u * elemInt t v / 2 ^ etyW t)
/-- A register as an element: the low w bits; bits [7:6] of a tf6 code are cleared (R64, R133, R142). -/
def elReg (t : Ety) (u : Word) : Nat := if t = .tf6 then u.toNat % 64 else u.toNat % 2 ^ etyW t

/-! ### Element arithmetic -/

def execVadd (t : Ety) (sat : Bool) (m : VMask) (d x y : VOp) (s : State) : Host.Outcome State Fault Refusal := onCl s fun a s =>
  vmap2 a (etyW t) m d x y (elAdd t sat (locOf s a)) s
def execVsub (t : Ety) (sat : Bool) (m : VMask) (d x y : VOp) (s : State) : Host.Outcome State Fault Refusal := onCl s fun a s =>
  vmap2 a (etyW t) m d x y (elSub t sat (locOf s a)) s
def execVmul (t : Ety) (sat : Bool) (m : VMask) (d x y : VOp) (s : State) : Host.Outcome State Fault Refusal := onCl s fun a s =>
  vmap2 a (etyW t) m d x y (elMul t sat (locOf s a)) s
def execVfma (t : FTy) (m : VMask) (d x y z : VOp) (s : State) : Host.Outcome State Fault Refusal := onCl s fun a s =>
  vmap3 a (fW t) m d x y z (fFma t (locOf s a)) s
def execVmin (t : Ety) (m : VMask) (d x y : VOp) (s : State) : Host.Outcome State Fault Refusal := onCl s fun a s =>
  vmap2 a (etyW t) m d x y (elMin t) s
def execVmax (t : Ety) (m : VMask) (d x y : VOp) (s : State) : Host.Outcome State Fault Refusal := onCl s fun a s =>
  vmap2 a (etyW t) m d x y (elMax t) s
def execVabs (t : Ety) (sat : Bool) (m : VMask) (d x : VOp) (s : State) : Host.Outcome State Fault Refusal := onCl s fun a s =>
  vmap1 a (etyW t) m d x (elAbs t sat) s
def execVneg (t : Ety) (sat : Bool) (m : VMask) (d x : VOp) (s : State) : Host.Outcome State Fault Refusal := onCl s fun a s =>
  vmap1 a (etyW t) m d x (elNeg t sat) s
/-! Immediate forms (R131): unmasked, never saturating. -/

def execVaddImm (t : Ety) (d x : VOp) (imm : BitVec 16) (s : State) : Host.Outcome State Fault Refusal := onCl s fun a s =>
  vmap1 a (etyW t) none d x (fun u => elAdd t false (locOf s a) u (immElem t (locOf s a) imm.toNat)) s
def execVsubImm (t : Ety) (d x : VOp) (imm : BitVec 16) (s : State) : Host.Outcome State Fault Refusal := onCl s fun a s =>
  vmap1 a (etyW t) none d x (fun u => elSub t false (locOf s a) u (immElem t (locOf s a) imm.toNat)) s
def execVmulImm (t : Ety) (d x : VOp) (imm : BitVec 16) (s : State) : Host.Outcome State Fault Refusal := onCl s fun a s =>
  vmap1 a (etyW t) none d x (fun u => elMul t false (locOf s a) u (immElem t (locOf s a) imm.toNat)) s
def execVminImm (t : Ety) (d x : VOp) (imm : BitVec 16) (s : State) : Host.Outcome State Fault Refusal := onCl s fun a s =>
  vmap1 a (etyW t) none d x (fun u => elMin t u (immElem t (locOf s a) imm.toNat)) s
def execVmaxImm (t : Ety) (d x : VOp) (imm : BitVec 16) (s : State) : Host.Outcome State Fault Refusal := onCl s fun a s =>
  vmap1 a (etyW t) none d x (fun u => elMax t u (immElem t (locOf s a) imm.toNat)) s
/-! Bits, shifts and high products (R132). -/

def execVand (t : Ety) (m : VMask) (d x y : VOp) (s : State) : Host.Outcome State Fault Refusal := onCl s fun a s => vmap2 a (etyW t) m d x y (· &&& ·) s
def execVor (t : Ety) (m : VMask) (d x y : VOp) (s : State) : Host.Outcome State Fault Refusal := onCl s fun a s => vmap2 a (etyW t) m d x y (· ||| ·) s
def execVxor (t : Ety) (m : VMask) (d x y : VOp) (s : State) : Host.Outcome State Fault Refusal := onCl s fun a s => vmap2 a (etyW t) m d x y (· ^^^ ·) s
def execVandn (t : Ety) (m : VMask) (d x y : VOp) (s : State) : Host.Outcome State Fault Refusal := onCl s fun a s => vmap2 a (etyW t) m d x y (elAndn (etyW t)) s
def execVshl (t : Ety) (m : VMask) (d x y : VOp) (s : State) : Host.Outcome State Fault Refusal := onCl s fun a s => vmap2 a (etyW t) m d x y (elShl (etyW t)) s
def execVshr (t : Ety) (m : VMask) (d x y : VOp) (s : State) : Host.Outcome State Fault Refusal := onCl s fun a s => vmap2 a (etyW t) m d x y (elShr (etyW t)) s
def execVsra (t : Ety) (m : VMask) (d x y : VOp) (s : State) : Host.Outcome State Fault Refusal := onCl s fun a s => vmap2 a (etyW t) m d x y (elSra (etyW t)) s
def execVmulh (t : Ety) (m : VMask) (d x y : VOp) (s : State) : Host.Outcome State Fault Refusal := onCl s fun a s => vmap2 a (etyW t) m d x y (elMulh t) s

/-! ### Broadcast, compare, select, move (R133 to R135) -/

def execVbcast (t : Ety) (m : VMask) (d : VOp) (x : SOp) (s : State) : Host.Outcome State Fault Refusal := onCl s fun a s =>
  needQ a (popsS [x]) (portV 1 d) (fun s =>
    let (u, s1) := takeS a x s
    retire a (putV a 1 d (mergeV (etyW t) (etyE t) (maskOf a m s) (oldV a 1 d s) fun _ => elReg t u) s1)) s
def execVbcastImm (t : Ety) (d : VOp) (imm : BitVec 16) (s : State) : Host.Outcome State Fault Refusal := onCl s fun a s =>
  needQ a [] (portV 1 d) (fun s =>
    retire a (putV a 1 d (buildN (etyW t) (etyE t) fun _ => immElem t (locOf s a) imm.toNat) s)) s
def execVcmp (t : Ety) (c : VCond) (m : VMask) (d : Fin 16) (x y : VOp) (s : State) : Host.Outcome State Fault Refusal := onCl s fun a s =>
  needQ a (portV 1 x ++ portV 1 y) [] (fun s =>
    let (u, s1) := takeV a 1 x s
    let (v, s2) := takeV a 1 y s1
    retire a (setM s2 a d.val (maskFrom (etyE t) (maskOf a m s) fun i => vcond t c (elemN (etyW t) u i) (elemN (etyW t) v i)))) s
def execVsel (t : Ety) (ms : Fin 16) (d x y : VOp) (s : State) : Host.Outcome State Fault Refusal := onCl s fun a s =>
  needQ a (portV 1 x ++ portV 1 y) (portV 1 d) (fun s =>
    let (u, s1) := takeV a 1 x s
    let (v, s2) := takeV a 1 y s1
    retire a (putV a 1 d (mergeV (etyW t) (etyE t) (maskOf a (some ms) s) v fun i => elemN (etyW t) u i) s2)) s
def execVmov (d x : VOp) (s : State) : Host.Outcome State Fault Refusal := onCl s fun a s => vgrp1 a 1 1 d x (fun u _ => u) s

/-! ### Conversions (R136 to R138) -/

def execVcvt (dt st : Ety) (rz : Bool) (m : VMask) (d x : VOp) (s : State) : Host.Outcome State Fault Refusal := onCl s fun a s =>
  vmap1 a (etyW dt) m d x (convert dt st rz (locOf s a)) s
def execVwiden (dt st : Ety) (rz : Bool) (m : VMask) (d x : VOp) (s : State) : Host.Outcome State Fault Refusal := onCl s fun a s =>
  vgrp1 a 1 (etyW dt / etyW st) d x (fun u old =>
    mergeV (etyW dt) (etyE st) (maskOf a m s) old fun i => convert dt st rz (locOf s a) (elemN (etyW st) u i)) s
def execVnarrow (dt st : Ety) (rz : Bool) (m : VMask) (d x : VOp) (s : State) : Host.Outcome State Fault Refusal := onCl s fun a s =>
  vgrp1 a (etyW st / etyW dt) 1 d x (fun u old =>
    mergeV (etyW dt) (etyE dt) (maskOf a m s) old fun i => convert dt st rz (locOf s a) (elemN (etyW st) u i)) s
/-- The float type that OTHER names in an encode (R138). -/
def otherF (o : BitVec 2) : FTy := if o = 0 then .fp32 else if o = 1 then .fp16 else .bf16
/-- The block scale of element `i` (R138). -/
def blkScale (blk : BitVec 2) (sc i : Nat) : Nat := if blk = 3 then 127 else elemN 8 sc (i / 2 ^ (4 + blk.toNat))
/-- One decoded element, rounded into the destination (R138). -/
def vcvtsDec (f : FTy) (six : Bool) (l : Loc) (x b t : Nat) : Nat := convert (ftyE f) .fp32 false l (scaledDec six l x b t)
/-- One encoded element from its float (R138). -/
def vcvtsEnc (six : Bool) (f : FTy) (l : Loc) (x b t : Nat) : Nat := scaledEnc six (convert .fp32 (ftyE f) false l x) b t
/-- The tensor scale: 1.0 for `x0` (R138). -/
def tensorScale (c : SOp) (u : Word) : Nat := if c = .x 0 then 0x3F800000 else u.toNat % 2 ^ 32
def execVcvts (dt : Ety) (other blk : BitVec 2) (d x y : VOp) (c : SOp) (s : State) : Host.Outcome State Fault Refusal := onCl s fun a s =>
  let l := locOf s a
  let gx := match etyF dt with
    | some _ => 1
    | none => if other = 0 then 4 else 2
  let gd := match etyF dt with
    | some f => fW f / 8
    | none => 1
  let py := if blk = 3 then [] else portV 1 y
  if !groupOk gx x || !groupOk gd d then trapTy a .illegalOperand s
  else needQ a (portV gx x ++ py ++ popsS [c]) (portV gd d) (fun s =>
    let (u, s1) := takeV a gx x s
    let (v, s2) := if blk = 3 then (0, s1) else takeV a 1 y s1
    let (k, s3) := takeS a c s2
    let t := tensorScale c k
    retire a (putV a gd d (match etyF dt with
      | some f => buildN (fW f) 512 fun i => vcvtsDec f (decide (other = 1)) l (elemN 8 u i) (blkScale blk v i) t
      | none => buildN 8 512 fun i => vcvtsEnc (decide (dt = .tf6)) (otherF other) l (elemN (fW (otherF other)) u i) (blkScale blk v i) t) s3)) s

/-! ### Reductions and scans (R78, R79, R139) -/

/-- The identity of an operation. -/
def redId (t : Ety) (o : RedOp) : Nat :=
  match etyF t with
  | some f =>
    match o with
    | .add => fSgn f
    | .min => fInf f
    | .max => fSgn f + fInf f
    | _ => 0
  | none =>
    match o with
    | .add | .or | .xor => 0
    | .min => intEnc t (intHi t)
    | .max => intEnc t (intLo t)
    | .and => 2 ^ etyW t - 1
/-- One step of a reduction. -/
def redStep (t : Ety) (l : Loc) (o : RedOp) (u v : Nat) : Nat :=
  match o with
  | .add => elAdd t false l u v
  | .min => elMin t u v
  | .max => elMax t u v
  | .and => u &&& v
  | .or => u ||| v
  | .xor => u ^^^ v
/-- Neighbours combined in pairs. -/
def pairUp (f : Nat → Nat → Nat) : List Nat → List Nat
  | u :: v :: l => f u v :: pairUp f l
  | l => l
/-- The pairwise tree: at most `fuel` levels. -/
def redTree (f : Nat → Nat → Nat) : Nat → List Nat → List Nat
  | 0, l => l
  | k + 1, l => redTree f k (pairUp f l)
/-- The scan: at step d every element from d on takes in the one d before it. -/
def scanFrom (f : Nat → Nat → Nat) (d : Nat) (l : List Nat) : List Nat :=
  l.take d ++ List.zipWith f l (l.drop d)
def scanAll (f : Nat → Nat → Nat) : Nat → Nat → List Nat → List Nat
  | 0, _, l => l
  | k + 1, d, l => scanAll f k (2 * d) (scanFrom f d l)
/-- The inputs, inactive ones as the identity. -/
def redIn (t : Ety) (o : RedOp) (mask u : Nat) : List Nat :=
  (List.range (etyE t)).map fun i => if bitN mask i then elemN (etyW t) u i else redId t o
def packList (w : Nat) (l : List Nat) : Nat := l.foldr (fun x acc => x % 2 ^ w + 2 ^ w * acc) 0
def execVred (t : Ety) (o : RedOp) (m : VMask) (d x : VOp) (s : State) : Host.Outcome State Fault Refusal := onCl s fun a s =>
  vgrp1 a 1 1 d x (fun u _ => (redTree (redStep t (locOf s a) o) (Nat.log2 (etyE t)) (redIn t o (maskOf a m s) u)).headD 0 % 2 ^ etyW t) s
def execVscan (t : Ety) (o : RedOp) (m : VMask) (d x : VOp) (s : State) : Host.Outcome State Fault Refusal := onCl s fun a s =>
  vgrp1 a 1 1 d x (fun u _ =>
    packList (etyW t) (scanAll (redStep t (locOf s a) o) (Nat.log2 (etyE t)) 1 (redIn t o (maskOf a m s) u))) s

/-! ### Permutes and lane access (R140 to R143) -/

def execVperm (t : Ety) (m : VMask) (d x y : VOp) (s : State) : Host.Outcome State Fault Refusal := onCl s fun a s =>
  vgrp2 a (idxRegs t) d x y (fun u v old => mergeV (etyW t) (etyE t) (maskOf a m s) old fun i =>
    let j := elemN 16 v i
    if j < etyE t then elemN (etyW t) u j else 0) s
/-- The patterns of R140 on element `i`. -/
def shufEl (w e : Nat) (p : Pat) (u v i : Nat) : Nat :=
  let h := e / 2
  match p with
  | .ziplo => elemN w (if i % 2 = 0 then u else v) (i / 2)
  | .ziphi => elemN w (if i % 2 = 0 then u else v) (h + i / 2)
  | .even => if i < h then elemN w u (2 * i) else elemN w v (2 * (i - h))
  | .odd => if i < h then elemN w u (2 * i + 1) else elemN w v (2 * (i - h) + 1)
  | .rev => elemN w u (e - 1 - i)
def execVshuf (t : Ety) (p : Pat) (m : VMask) (d x y : VOp) (s : State) : Host.Outcome State Fault Refusal := onCl s fun a s =>
  vgrp2 a 1 d x y (fun u v old => mergeV (etyW t) (etyE t) (maskOf a m s) old fun i => shufEl (etyW t) (etyE t) p u v i) s
/-- The identity element of `vxl`, from its register or its immediate (R141). -/
def xlId (t : Ety) (i : XSrc) (u : Word) : Nat :=
  match i with
  | .reg _ => elReg t u
  | .imm n =>
    match etyF t with
    | some f => fRne f false (qInt n.toInt)
    | none =>
      if etyTap t then (if t = .tf6 then n.toNat % 64 else n.toNat % 256)
      else (if etySigned t then intEnc t n.toInt else n.toNat % 2 ^ etyW t)
/-- The lane read: the largest active lane at or below `j`, searched downward. -/
def xlLane (mask : Nat) : Nat → Option Nat
  | 0 => if bitN mask 0 then some 0 else none
  | j + 1 => if bitN mask (j + 1) then some (j + 1) else xlLane mask j
def takeX (a : At) (i : XSrc) (s : State) : Word × State :=
  match i with
  | .reg r => takeS a r s
  | .imm n => (n.zeroExtend 64, s)
def execVxl (t : Ety) (m : VMask) (d x y : VOp) (i : XSrc) (s : State) : Host.Outcome State Fault Refusal := onCl s fun a s =>
  let g := idxRegs t
  if !groupOk g y then trapTy a .illegalOperand s
  else needQ a (portV 1 x ++ portV g y ++ popsX i) (portV 1 d) (fun s =>
    let (u, s1) := takeV a 1 x s
    let (v, s2) := takeV a g y s1
    let (k, s3) := takeX a i s2
    let mask := maskOf a m s
    retire a (putV a 1 d (buildN (etyW t) (etyE t) fun e =>
      let j := elemN 16 v e
      if j < etyE t then (match xlLane mask j with | some k => elemN (etyW t) u k | none => xlId t i k) else xlId t i k) s3)) s
/-- `vins` reads its destination and pops A, then the index (R142). -/
def execVins (t : Ety) (d : Fin 640) (x : SOp) (i : XSrc) (s : State) : Host.Outcome State Fault Refusal := onCl s fun a s =>
  needQ a (popsS [x] ++ popsX i) [] (fun s =>
    let (u, s1) := takeS a x s
    let (n, s2) := takeX a i s1
    let old := (getV s a d.val).toNat
    retire a (if n.toNat < etyE t then setV s2 a d.val (BitVec.ofNat 4096 (setFld old (etyW t * n.toNat) (etyW t) (elReg t u))) else s2)) s
def execVext (t : Ety) (d : SOp) (x : VOp) (i : XSrc) (s : State) : Host.Outcome State Fault Refusal := onCl s fun a s =>
  needQ a (portV 1 x ++ popsX i) (pushS d) (fun s =>
    let (u, s1) := takeV a 1 x s
    let (n, s2) := takeX a i s1
    retire a (putS a d (if n.toNat < etyE t then regOfElem t (elemN (etyW t) u n.toNat) else 0) s2)) s
/-- The active lanes below E, in ascending order. -/
def activeLanes (e mask : Nat) : List Nat := (List.range e).filter fun i => bitN mask i
def execVcompress (t : Ety) (m : VMask) (d x : VOp) (s : State) : Host.Outcome State Fault Refusal := onCl s fun a s =>
  vgrp1 a 1 1 d x (fun u _ => packList (etyW t) ((activeLanes (etyE t) (maskOf a m s)).map fun i => elemN (etyW t) u i)) s
/-- `vexpand`: the active lanes take the elements in turn. -/
def expandFrom (w u mask : Nat) : Nat → Nat → Nat → Nat
  | 0, _, _ => 0
  | n + 1, i, r => if bitN mask i then elemN w u r + 2 ^ w * expandFrom w u mask n (i + 1) (r + 1) else 2 ^ w * expandFrom w u mask n (i + 1) r
def execVexpand (t : Ety) (m : VMask) (d x : VOp) (s : State) : Host.Outcome State Fault Refusal := onCl s fun a s =>
  vgrp1 a 1 1 d x (fun u _ => expandFrom (etyW t) u (maskOf a m s) (etyE t) 0 0) s

/-! ### Functions and tables (R144, R145) -/

def execVexp (t : FTy) (m : VMask) (d x : VOp) (s : State) : Host.Outcome State Fault Refusal := onCl s fun a s => vmap1 a (fW t) m d x (fExp t) s
def execVln (t : FTy) (m : VMask) (d x : VOp) (s : State) : Host.Outcome State Fault Refusal := onCl s fun a s => vmap1 a (fW t) m d x (fLn t (locOf s a)) s
def execVrcp (t : FTy) (m : VMask) (d x : VOp) (s : State) : Host.Outcome State Fault Refusal := onCl s fun a s => vmap1 a (fW t) m d x (fRcp t) s
def execVrsq (t : FTy) (m : VMask) (d x : VOp) (s : State) : Host.Outcome State Fault Refusal := onCl s fun a s => vmap1 a (fW t) m d x (fRsq t (locOf s a)) s
def execVsig (t : FTy) (m : VMask) (d x : VOp) (s : State) : Host.Outcome State Fault Refusal := onCl s fun a s => vmap1 a (fW t) m d x (fSig t) s
/-- `vlut` indexes by the low 8 bits of the element's code (R145; log entry 55 for tf6). -/
def execVlut (t : Ety) (m : VMask) (d x y : VOp) (s : State) : Host.Outcome State Fault Refusal := onCl s fun a s =>
  vgrp2 a (lutRegs t) d x y (fun u v old => mergeV (etyW t) (etyE t) (maskOf a m s) old fun i =>
    elemN (etyW t) v (codeOf t (elemN (etyW t) u i) % 256)) s

/-! ### Masks and event scans (R146 to R148) -/

def execMand (d p q : Fin 16) (s : State) : Host.Outcome State Fault Refusal := onCl s fun a s =>
  let x := getM s a p.val
  let y := getM s a q.val
  retire a (setM s a d.val (x &&& y))
def execMor (d p q : Fin 16) (s : State) : Host.Outcome State Fault Refusal := onCl s fun a s =>
  let x := getM s a p.val
  let y := getM s a q.val
  retire a (setM s a d.val (x ||| y))
def execMxor (d p q : Fin 16) (s : State) : Host.Outcome State Fault Refusal := onCl s fun a s =>
  let x := getM s a p.val
  let y := getM s a q.val
  retire a (setM s a d.val (x ^^^ y))
def execMandn (d p q : Fin 16) (s : State) : Host.Outcome State Fault Refusal := onCl s fun a s =>
  let x := getM s a p.val
  let y := getM s a q.val
  retire a (setM s a d.val (x &&& ~~~y))
def execMnot (d p : Fin 16) (s : State) : Host.Outcome State Fault Refusal := onCl s fun a s => retire a (setM s a d.val (~~~(getM s a p.val)))
def execMmov (d p : Fin 16) (s : State) : Host.Outcome State Fault Refusal := onCl s fun a s => retire a (setM s a d.val (getM s a p.val))
def execMpopc (d : SOp) (p : Fin 16) (s : State) : Host.Outcome State Fault Refusal := onCl s fun a s =>
  needQ a [] (pushS d) (fun s => retire a (putS a d (BitVec.ofNat 64 (popcN 1024 (getM s a p.val).toNat)) s)) s
def execVnanscan (t : Ety) (m : VMask) (d : SOp) (x : VOp) (s : State) : Host.Outcome State Fault Refusal := onCl s fun a s =>
  needQ a (portV 1 x) (pushS d) (fun s =>
    let (u, s1) := takeV a 1 x s
    retire a (putS a d (nanSummary t u (maskOf a m s)) s1)) s

end Sys2Proof.Machine
end

