-- ==== Sys2Proof/Machine/Dispatch.lean ====
section
/-! DEFINITION. One arm per instruction: the call of its meaning. -/

namespace Sys2Proof.Machine

def exec (i : Instr) (s : State) : Host.Outcome State Fault Refusal :=
  match i with
  | .br off => Sys2Proof.Machine.execBr off s
  | .brp off => Sys2Proof.Machine.execBrp off s
  | .brx a => Sys2Proof.Machine.execBrx a s
  | .call d off => Sys2Proof.Machine.execCall d off s
  | .ret a => Sys2Proof.Machine.execRet a s
  | .loop l a off => Sys2Proof.Machine.execLoop l a off s
  | .rloop l st a off => Sys2Proof.Machine.execRloop l st a off s
  | .ovl n mask => Sys2Proof.Machine.execOvl n mask s
  | .sysrd d r => Sys2Proof.Machine.execSysrd d r s
  | .syswr a r => Sys2Proof.Machine.execSyswr a r s
  | .fwVersion d a => Sys2Proof.Machine.execFwVersion d a s
  | .fwForm d a => Sys2Proof.Machine.execFwForm d a s
  | .fwPower d a => Sys2Proof.Machine.execFwPower d a s
  | .fwGovernor d a => Sys2Proof.Machine.execFwGovernor d a s
  | .fwPlat d a => Sys2Proof.Machine.execFwPlat d a s
  | .fwDebugPolicy d a => Sys2Proof.Machine.execFwDebugPolicy d a s
  | .fwPagerRequest d a => Sys2Proof.Machine.execFwPagerRequest d a s
  | .fwUnknown d a svc => Sys2Proof.Machine.execFwUnknown d a svc s
  | .trap a code => Sys2Proof.Machine.execTrap a code s
  | .add d a b => Sys2Proof.Machine.execAdd d a b s
  | .sub d a b => Sys2Proof.Machine.execSub d a b s
  | .and d a b => Sys2Proof.Machine.execAnd d a b s
  | .or d a b => Sys2Proof.Machine.execOr d a b s
  | .xor d a b => Sys2Proof.Machine.execXor d a b s
  | .andn d a b => Sys2Proof.Machine.execAndn d a b s
  | .shl d a b => Sys2Proof.Machine.execShl d a b s
  | .shr d a b => Sys2Proof.Machine.execShr d a b s
  | .sra d a b => Sys2Proof.Machine.execSra d a b s
  | .rot d a b => Sys2Proof.Machine.execRot d a b s
  | .min d a b => Sys2Proof.Machine.execMin d a b s
  | .max d a b => Sys2Proof.Machine.execMax d a b s
  | .minu d a b => Sys2Proof.Machine.execMinu d a b s
  | .maxu d a b => Sys2Proof.Machine.execMaxu d a b s
  | .addImm d a imm => Sys2Proof.Machine.execAddImm d a imm s
  | .subImm d a imm => Sys2Proof.Machine.execSubImm d a imm s
  | .andImm d a imm => Sys2Proof.Machine.execAndImm d a imm s
  | .orImm d a imm => Sys2Proof.Machine.execOrImm d a imm s
  | .xorImm d a imm => Sys2Proof.Machine.execXorImm d a imm s
  | .andnImm d a imm => Sys2Proof.Machine.execAndnImm d a imm s
  | .shlImm d a imm => Sys2Proof.Machine.execShlImm d a imm s
  | .shrImm d a imm => Sys2Proof.Machine.execShrImm d a imm s
  | .sraImm d a imm => Sys2Proof.Machine.execSraImm d a imm s
  | .rotImm d a imm => Sys2Proof.Machine.execRotImm d a imm s
  | .minImm d a imm => Sys2Proof.Machine.execMinImm d a imm s
  | .maxImm d a imm => Sys2Proof.Machine.execMaxImm d a imm s
  | .minuImm d a imm => Sys2Proof.Machine.execMinuImm d a imm s
  | .maxuImm d a imm => Sys2Proof.Machine.execMaxuImm d a imm s
  | .mul d a b => Sys2Proof.Machine.execMul d a b s
  | .mulh d a b => Sys2Proof.Machine.execMulh d a b s
  | .mulhu d a b => Sys2Proof.Machine.execMulhu d a b s
  | .div d a b => Sys2Proof.Machine.execDiv d a b s
  | .divu d a b => Sys2Proof.Machine.execDivu d a b s
  | .rem d a b => Sys2Proof.Machine.execRem d a b s
  | .remu d a b => Sys2Proof.Machine.execRemu d a b s
  | .clz d a => Sys2Proof.Machine.execClz d a s
  | .popc d a => Sys2Proof.Machine.execPopc d a s
  | .ctz d a => Sys2Proof.Machine.execCtz d a s
  | .bfxS d a pos len1 => Sys2Proof.Machine.execBfxS d a pos len1 s
  | .bfxU d a pos len1 => Sys2Proof.Machine.execBfxU d a pos len1 s
  | .bfi d a pos len1 => Sys2Proof.Machine.execBfi d a pos len1 s
  | .li d imm => Sys2Proof.Machine.execLi d imm s
  | .lih d chunk imm => Sys2Proof.Machine.execLih d chunk imm s
  | .cmpEq d a b => Sys2Proof.Machine.execCmpEq d a b s
  | .cmpNe d a b => Sys2Proof.Machine.execCmpNe d a b s
  | .cmpLt d a b => Sys2Proof.Machine.execCmpLt d a b s
  | .cmpGe d a b => Sys2Proof.Machine.execCmpGe d a b s
  | .cmpLtu d a b => Sys2Proof.Machine.execCmpLtu d a b s
  | .cmpGeu d a b => Sys2Proof.Machine.execCmpGeu d a b s
  | .cmpEqImm d a imm => Sys2Proof.Machine.execCmpEqImm d a imm s
  | .cmpNeImm d a imm => Sys2Proof.Machine.execCmpNeImm d a imm s
  | .cmpLtImm d a imm => Sys2Proof.Machine.execCmpLtImm d a imm s
  | .cmpGeImm d a imm => Sys2Proof.Machine.execCmpGeImm d a imm s
  | .cmpLtuImm d a imm => Sys2Proof.Machine.execCmpLtuImm d a imm s
  | .cmpGeuImm d a imm => Sys2Proof.Machine.execCmpGeuImm d a imm s
  | .sel d a b c neg => Sys2Proof.Machine.execSel d a b c neg s
  | .fadd t d a b => Sys2Proof.Machine.execFadd t d a b s
  | .fsub t d a b => Sys2Proof.Machine.execFsub t d a b s
  | .fmul t d a b => Sys2Proof.Machine.execFmul t d a b s
  | .fma t d a b c => Sys2Proof.Machine.execFma t d a b c s
  | .fmin t d a b => Sys2Proof.Machine.execFmin t d a b s
  | .fmax t d a b => Sys2Proof.Machine.execFmax t d a b s
  | .fcmp t c d a b => Sys2Proof.Machine.execFcmp t c d a b s
  | .fcvt dt st rz d a => Sys2Proof.Machine.execFcvt dt st rz d a s
  | .pand d a b => Sys2Proof.Machine.execPand d a b s
  | .por d a b => Sys2Proof.Machine.execPor d a b s
  | .pxor d a b => Sys2Proof.Machine.execPxor d a b s
  | .pandn d a b => Sys2Proof.Machine.execPandn d a b s
  | .pnot d a => Sys2Proof.Machine.execPnot d a s
  | .pmov d a => Sys2Proof.Machine.execPmov d a s
  | .ptox d => Sys2Proof.Machine.execPtox d s
  | .xtop a => Sys2Proof.Machine.execXtop a s
  | .ld t d a b off => Sys2Proof.Machine.execLd t d a b off s
  | .st t d a b off => Sys2Proof.Machine.execSt t d a b off s
  | .ldq t q a b off => Sys2Proof.Machine.execLdq t q a b off s
  | .stq t q a b off => Sys2Proof.Machine.execStq t q a b off s
  | .lds t q n a off => Sys2Proof.Machine.execLds t q n a off s
  | .sts t q n a off => Sys2Proof.Machine.execSts t q n a off s
  | .gth t q n a off => Sys2Proof.Machine.execGth t q n a off s
  | .sct t q n a off => Sys2Proof.Machine.execSct t q n a off s
  | .pref a b off => Sys2Proof.Machine.execPref a b off s
  | .srset n a k => Sys2Proof.Machine.execSrset n a k s
  | .srget d n k => Sys2Proof.Machine.execSrget d n k s
  | .qstat d q => Sys2Proof.Machine.execQstat d q s
  | .hpost n v => Sys2Proof.Machine.execHpost n v s
  | .htake n v => Sys2Proof.Machine.execHtake n v s
  | .push e a => Sys2Proof.Machine.execPush e a s
  | .phase s1 rel acq => Sys2Proof.Machine.execPhase s1 rel acq s
  | .amoAdd t s1 o d a b => Sys2Proof.Machine.execAmoAdd t s1 o d a b s
  | .amoMin t s1 o d a b => Sys2Proof.Machine.execAmoMin t s1 o d a b s
  | .amoMax t s1 o d a b => Sys2Proof.Machine.execAmoMax t s1 o d a b s
  | .amoAnd t s1 o d a b => Sys2Proof.Machine.execAmoAnd t s1 o d a b s
  | .amoOr t s1 o d a b => Sys2Proof.Machine.execAmoOr t s1 o d a b s
  | .amoXor t s1 o d a b => Sys2Proof.Machine.execAmoXor t s1 o d a b s
  | .amoSwap t s1 o d a b => Sys2Proof.Machine.execAmoSwap t s1 o d a b s
  | .cas t s1 o d a b c => Sys2Proof.Machine.execCas t s1 o d a b c s
  | .waitm t c acq s1 d a b => Sys2Proof.Machine.execWaitm t c acq s1 d a b s
  | .mstat d sel => Sys2Proof.Machine.execMstat d sel s
  | .waitk mask => Sys2Proof.Machine.execWaitk mask s
  | .tokq d => Sys2Proof.Machine.execTokq d s
  | .pkt a b => Sys2Proof.Machine.execPkt a b s
  | .kslot d a => Sys2Proof.Machine.execKslot d a s
  | .rqopen d a b => Sys2Proof.Machine.execRqopen d a b s
  | .rqset a => Sys2Proof.Machine.execRqset a s
  | .rqrow a b n1 => Sys2Proof.Machine.execRqrow a b n1 s
  | .rqsets k a => Sys2Proof.Machine.execRqsets k a s
  | .rqhalt d a => Sys2Proof.Machine.execRqhalt d a s
  | .rqresume d a => Sys2Proof.Machine.execRqresume d a s
  | .rqcancel d a => Sys2Proof.Machine.execRqcancel d a s
  | .rqcancelDrain d a => Sys2Proof.Machine.execRqcancelDrain d a s
  | .rqmeter d a sel => Sys2Proof.Machine.execRqmeter d a sel s
  | .rqmark d a => Sys2Proof.Machine.execRqmark d a s
  | .rqstat d a => Sys2Proof.Machine.execRqstat d a s
  | .tlbinv a mode pager => Sys2Proof.Machine.execTlbinv a mode pager s
  | .tlbfill a b target => Sys2Proof.Machine.execTlbfill a b target s
  | .pgmap d a b => Sys2Proof.Machine.execPgmap d a b s
  | .exqpost a => Sys2Proof.Machine.execExqpost a s
  | .winnow d a => Sys2Proof.Machine.execWinnow d a s
  | .leaveq d => Sys2Proof.Machine.execLeaveq d s
  | .sig o peer loc n a b => Sys2Proof.Machine.execSig o peer loc n a b s
  | .waits c d n b => Sys2Proof.Machine.execWaits c d n b s
  | .waitsPoll d n => Sys2Proof.Machine.execWaitsPoll d n s
  | .barDv b => Sys2Proof.Machine.execBarDv b s
  | .bard b => Sys2Proof.Machine.execBard b s
  | .barsetAlloc d a b => Sys2Proof.Machine.execBarsetAlloc d a b s
  | .barsetSet d a b n => Sys2Proof.Machine.execBarsetSet d a b n s
  | .barsetFree d n => Sys2Proof.Machine.execBarsetFree d n s
  | .barsetQuery d n => Sys2Proof.Machine.execBarsetQuery d n s
  | .ulienOn a => Sys2Proof.Machine.execUlienOn a s
  | .ulienWatch w n b c => Sys2Proof.Machine.execUlienWatch w n b c s
  | .ulienUnwatch w => Sys2Proof.Machine.execUlienUnwatch w s
  | .vadd t sat m d a b => Sys2Proof.Machine.execVadd t sat m d a b s
  | .vsub t sat m d a b => Sys2Proof.Machine.execVsub t sat m d a b s
  | .vmul t sat m d a b => Sys2Proof.Machine.execVmul t sat m d a b s
  | .vfma t m d a b c => Sys2Proof.Machine.execVfma t m d a b c s
  | .vmin t m d a b => Sys2Proof.Machine.execVmin t m d a b s
  | .vmax t m d a b => Sys2Proof.Machine.execVmax t m d a b s
  | .vabs t sat m d a => Sys2Proof.Machine.execVabs t sat m d a s
  | .vneg t sat m d a => Sys2Proof.Machine.execVneg t sat m d a s
  | .vaddImm t d a imm => Sys2Proof.Machine.execVaddImm t d a imm s
  | .vsubImm t d a imm => Sys2Proof.Machine.execVsubImm t d a imm s
  | .vmulImm t d a imm => Sys2Proof.Machine.execVmulImm t d a imm s
  | .vminImm t d a imm => Sys2Proof.Machine.execVminImm t d a imm s
  | .vmaxImm t d a imm => Sys2Proof.Machine.execVmaxImm t d a imm s
  | .vand t m d a b => Sys2Proof.Machine.execVand t m d a b s
  | .vor t m d a b => Sys2Proof.Machine.execVor t m d a b s
  | .vxor t m d a b => Sys2Proof.Machine.execVxor t m d a b s
  | .vandn t m d a b => Sys2Proof.Machine.execVandn t m d a b s
  | .vshl t m d a b => Sys2Proof.Machine.execVshl t m d a b s
  | .vshr t m d a b => Sys2Proof.Machine.execVshr t m d a b s
  | .vsra t m d a b => Sys2Proof.Machine.execVsra t m d a b s
  | .vmulh t m d a b => Sys2Proof.Machine.execVmulh t m d a b s
  | .vbcast t m d a => Sys2Proof.Machine.execVbcast t m d a s
  | .vbcastImm t d imm => Sys2Proof.Machine.execVbcastImm t d imm s
  | .vcmp t c m d a b => Sys2Proof.Machine.execVcmp t c m d a b s
  | .vsel t ms d a b => Sys2Proof.Machine.execVsel t ms d a b s
  | .vmov d a => Sys2Proof.Machine.execVmov d a s
  | .vcvt dt st rz m d a => Sys2Proof.Machine.execVcvt dt st rz m d a s
  | .vwiden dt st rz m d a => Sys2Proof.Machine.execVwiden dt st rz m d a s
  | .vnarrow dt st rz m d a => Sys2Proof.Machine.execVnarrow dt st rz m d a s
  | .vcvts dt other blk d a b t => Sys2Proof.Machine.execVcvts dt other blk d a b t s
  | .vred t o m d a => Sys2Proof.Machine.execVred t o m d a s
  | .vscan t o m d a => Sys2Proof.Machine.execVscan t o m d a s
  | .vperm t m d a b => Sys2Proof.Machine.execVperm t m d a b s
  | .vshuf t p m d a b => Sys2Proof.Machine.execVshuf t p m d a b s
  | .vxl t m d a b x => Sys2Proof.Machine.execVxl t m d a b x s
  | .vins t d a i1 => Sys2Proof.Machine.execVins t d a i1 s
  | .vext t d a i1 => Sys2Proof.Machine.execVext t d a i1 s
  | .vcompress t m d a => Sys2Proof.Machine.execVcompress t m d a s
  | .vexpand t m d a => Sys2Proof.Machine.execVexpand t m d a s
  | .vexp t m d a => Sys2Proof.Machine.execVexp t m d a s
  | .vln t m d a => Sys2Proof.Machine.execVln t m d a s
  | .vrcp t m d a => Sys2Proof.Machine.execVrcp t m d a s
  | .vrsq t m d a => Sys2Proof.Machine.execVrsq t m d a s
  | .vsig t m d a => Sys2Proof.Machine.execVsig t m d a s
  | .vlut t m d a b => Sys2Proof.Machine.execVlut t m d a b s
  | .mand d a b => Sys2Proof.Machine.execMand d a b s
  | .mor d a b => Sys2Proof.Machine.execMor d a b s
  | .mxor d a b => Sys2Proof.Machine.execMxor d a b s
  | .mandn d a b => Sys2Proof.Machine.execMandn d a b s
  | .mnot d a => Sys2Proof.Machine.execMnot d a s
  | .mmov d a => Sys2Proof.Machine.execMmov d a s
  | .mpopc d a => Sys2Proof.Machine.execMpopc d a s
  | .vnanscan t m d a => Sys2Proof.Machine.execVnanscan t m d a s
  | .dtload c a first count1 => Sys2Proof.Machine.execDtload c a first count1 s
  | .dtsave d c first count1 => Sys2Proof.Machine.execDtsave d c first count1 s
  | .dtattrSet c a => Sys2Proof.Machine.execDtattrSet c a s
  | .dtattrGet d c => Sys2Proof.Machine.execDtattrGet d c s
  | .dtattrHnd a => Sys2Proof.Machine.execDtattrHnd a s
  | .dtx c ovm o d a b => Sys2Proof.Machine.execDtx c ovm o d a b s
  | .dtmap c ovm o d a => Sys2Proof.Machine.execDtmap c ovm o d a s
  | .dtcmp c d a b => Sys2Proof.Machine.execDtcmp c d a b s
  | .dtvalI32 c d a => Sys2Proof.Machine.execDtvalI32 c d a s
  | .dtvalFp32 c d a => Sys2Proof.Machine.execDtvalFp32 c d a s
  | .mld tag d a b => Sys2Proof.Machine.execMld tag d a b s
  | .mst d a b => Sys2Proof.Machine.execMst d a b s
  | .mcas d a b c => Sys2Proof.Machine.execMcas d a b c s
  | .mrepair d a b => Sys2Proof.Machine.execMrepair d a b s
  | .sheafmap d a => Sys2Proof.Machine.execSheafmap d a s
  | .mShape gang af bf kb1 => Sys2Proof.Machine.execMShape gang af bf kb1 s
  | .mRows r1 => Sys2Proof.Machine.execMRows r1 s
  | .mTile t => Sys2Proof.Machine.execMTile t s
  | .mStr isB sr => Sys2Proof.Machine.execMStr isB sr s
  | .mScale half v => Sys2Proof.Machine.execMScale half v s
  | .mLvl l sa sb st count => Sys2Proof.Machine.execMLvl l sa sb st count s
  | .mPlane p s1 => Sys2Proof.Machine.execMPlane p s1 s
  | .mGo toggle acc rim bstr pl => Sys2Proof.Machine.execMGo toggle acc rim bstr pl s
  | .mDrain tile f sr zero n => Sys2Proof.Machine.execMDrain tile f sr zero n s
  | .mSig add uli core n v => Sys2Proof.Machine.execMSig add uli core n v s
  | .mWait w => Sys2Proof.Machine.execMWait w s
  | .cSrc sr sl => Sys2Proof.Machine.execCSrc sr sl s
  | .cDst sr sl => Sys2Proof.Machine.execCDst sr sl s
  | .cLvl l dst s1 s2 count => Sys2Proof.Machine.execCLvl l dst s1 s2 count s
  | .cSwz dst c w p => Sys2Proof.Machine.execCSwz dst c w p s
  | .cBound bms bmd => Sys2Proof.Machine.execCBound bms bmd s
  | .cTok hold => Sys2Proof.Machine.execCTok hold s
  | .cGo run1 zf iset => Sys2Proof.Machine.execCGo run1 zf iset s
  | .cSig add uli peer core n rep => Sys2Proof.Machine.execCSig add uli peer core n rep s
  | .cWait w => Sys2Proof.Machine.execCWait w s
  | .kAppend rg1 g m l n => Sys2Proof.Machine.execKAppend rg1 g m l n s
  | .kPinTake g s1 => Sys2Proof.Machine.execKPinTake g s1 s
  | .kPinRelease g s1 => Sys2Proof.Machine.execKPinRelease g s1 s
  | .tMerge rg1 g c s1 => Sys2Proof.Machine.execTMerge rg1 g c s1 s
  | .tRequant rg1 g f keep s1 => Sys2Proof.Machine.execTRequant rg1 g f keep s1 s
  | .tStatus add uli core n v => Sys2Proof.Machine.execTStatus add uli core n v s
  | .nop => Sys2Proof.Machine.execNop s
  | .exit => Sys2Proof.Machine.execExit s
  | .sync => Sys2Proof.Machine.execSync s
  | .safept => Sys2Proof.Machine.execSafept s
  | .idle => Sys2Proof.Machine.execIdle s
  | .eret => Sys2Proof.Machine.execEret s
  | .eretSkip => Sys2Proof.Machine.execEretSkip s
  | .eretAbort => Sys2Proof.Machine.execEretAbort s
  | .barCo => Sys2Proof.Machine.execBarCo s
  | .ulienOff => Sys2Proof.Machine.execUlienOff s
  | .uliret => Sys2Proof.Machine.execUliret s
  | .dtattrRet => Sys2Proof.Machine.execDtattrRet s
  | .mMark => Sys2Proof.Machine.execMMark s
  | .ringDoorbell ring wridx => Sys2Proof.Machine.execRingDoorbell ring wridx s
  | .launch ring => Sys2Proof.Machine.execLaunch ring s
  | .pad ring => Sys2Proof.Machine.execPad ring s
  | .launchPlace ring => Sys2Proof.Machine.execLaunchPlace ring s
  | .instanceStart core => Sys2Proof.Machine.execInstanceStart core s
  | .instanceComplete core => Sys2Proof.Machine.execInstanceComplete core s
  | .launchComplete id => Sys2Proof.Machine.execLaunchComplete id s
  | .ringOpen ring => Sys2Proof.Machine.execRingOpen ring s
  | .ringClose ring => Sys2Proof.Machine.execRingClose ring s
  | .answerResume ring token => Sys2Proof.Machine.execAnswerResume ring token s
  | .answerSkip ring token newrd => Sys2Proof.Machine.execAnswerSkip ring token newrd s
  | .answerAbort ring token => Sys2Proof.Machine.execAnswerAbort ring token s
  | .exqrdWrite ring v => Sys2Proof.Machine.execExqrdWrite ring v s
  | .exceptionRecordWrite ring => Sys2Proof.Machine.execExceptionRecordWrite ring s
  | .exqWriteRetry ring => Sys2Proof.Machine.execExqWriteRetry ring s
  | .preemptionRequest ring => Sys2Proof.Machine.execPreemptionRequest ring s
  | .preemptTake core => Sys2Proof.Machine.execPreemptTake core s
  | .safeptReleaseTimeout core => Sys2Proof.Machine.execSafeptReleaseTimeout core s
  | .preemptLate core => Sys2Proof.Machine.execPreemptLate core s
  | .preemptResume id => Sys2Proof.Machine.execPreemptResume id s
  | .runDeadlock core => Sys2Proof.Machine.execRunDeadlock core s
  | .tableWalkDone core => Sys2Proof.Machine.execTableWalkDone core s
  | .pagerTrapEntry core => Sys2Proof.Machine.execPagerTrapEntry core s
  | .pagerTimeLimit core => Sys2Proof.Machine.execPagerTimeLimit core s
  | .memoryResponse core who => Sys2Proof.Machine.execMemoryResponse core who s
  | .peerAccessAnswer p => Sys2Proof.Machine.execPeerAccessAnswer p s
  | .linkTimeout xid => Sys2Proof.Machine.execLinkTimeout xid s
  | .matrixPlaneLoadDone core entry => Sys2Proof.Machine.execMatrixPlaneLoadDone core entry s
  | .matrixOperationCommit core entry mismatch => Sys2Proof.Machine.execMatrixOperationCommit core entry mismatch s
  | .matrixDrainDone core entry mismatch => Sys2Proof.Machine.execMatrixDrainDone core entry mismatch s
  | .copyIterationCommit core entry => Sys2Proof.Machine.execCopyIterationCommit core entry s
  | .thresherPinGrant stack => Sys2Proof.Machine.execThresherPinGrant stack s
  | .thresherCommandComplete stack idx => Sys2Proof.Machine.execThresherCommandComplete stack idx s
  | .signalWordUpdate idx => Sys2Proof.Machine.execSignalWordUpdate idx s
  | .uliEntry core => Sys2Proof.Machine.execUliEntry core s
  | .waitExhausted core cl => Sys2Proof.Machine.execWaitExhausted core cl s
  | .waitDeadlock unit => Sys2Proof.Machine.execWaitDeadlock unit s
  | .barrierRegWrite part b isExpect v => Sys2Proof.Machine.execBarrierRegWrite part b isExpect v s
  | .requestFinalRecord id => Sys2Proof.Machine.execRequestFinalRecord id s
  | .peerWrite p => Sys2Proof.Machine.execPeerWrite p s
  | .peerReadRequest p => Sys2Proof.Machine.execPeerReadRequest p s
  | .peerReadResponse p => Sys2Proof.Machine.execPeerReadResponse p s
  | .peerSignalWrite p => Sys2Proof.Machine.execPeerSignalWrite p s
  | .peerSignalAdd p => Sys2Proof.Machine.execPeerSignalAdd p s
  | .peerAcknowledgment p => Sys2Proof.Machine.execPeerAcknowledgment p s
  | .peerFaultReturn p => Sys2Proof.Machine.execPeerFaultReturn p s
  | .peerAtomicRequest p => Sys2Proof.Machine.execPeerAtomicRequest p s
  | .peerAtomicResponse p => Sys2Proof.Machine.execPeerAtomicResponse p s
  | .parkStoreRetry xid => Sys2Proof.Machine.execParkStoreRetry xid s
  | .linkTriggerFlit part tag => Sys2Proof.Machine.execLinkTriggerFlit part tag s
  | .sheafReadMsg idx => Sys2Proof.Machine.execSheafReadMsg idx s
  | .sheafProposeMsg idx => Sys2Proof.Machine.execSheafProposeMsg idx s
  | .sheafCommitMsg idx => Sys2Proof.Machine.execSheafCommitMsg idx s
  | .sheafAbortMsg idx => Sys2Proof.Machine.execSheafAbortMsg idx s
  | .sheafAnswer idx => Sys2Proof.Machine.execSheafAnswer idx s
  | .sheafCopyTimeout op stack => Sys2Proof.Machine.execSheafCopyTimeout op stack s
  | .ptagExpiry part region stack cell => Sys2Proof.Machine.execPtagExpiry part region stack cell s
  | .correctableErrorFreeze core => Sys2Proof.Machine.execCorrectableErrorFreeze core s
  | .freezeEnd core => Sys2Proof.Machine.execFreezeEnd core s
  | .debugHaltWrite part core quiet porous => Sys2Proof.Machine.execDebugHaltWrite part core quiet porous s
  | .debugPolicyUpload part bits nonce sig => Sys2Proof.Machine.execDebugPolicyUpload part bits nonce sig s
  | .traceRingConfig part isLog v => Sys2Proof.Machine.execTraceRingConfig part isLog v s
  | .partitionCreate addr => Sys2Proof.Machine.execPartitionCreate addr s
  | .partitionDestroy addr => Sys2Proof.Machine.execPartitionDestroy addr s
  | .partitionSetPlat addr => Sys2Proof.Machine.execPartitionSetPlat addr s
  | .mydevset v => Sys2Proof.Machine.execMydevset v s
  | .sheafclr mask => Sys2Proof.Machine.execSheafclr mask s
  | .winnowFire v => Sys2Proof.Machine.execWinnowFire v s
  | .winnowRelease v => Sys2Proof.Machine.execWinnowRelease v s
  | .registerWrite r v => Sys2Proof.Machine.execRegisterWrite r v s
  | .spdmGetVersion fn => Sys2Proof.Machine.execSpdmGetVersion fn s
  | .spdmGetCapabilities fn => Sys2Proof.Machine.execSpdmGetCapabilities fn s
  | .spdmNegotiateAlgorithms fn => Sys2Proof.Machine.execSpdmNegotiateAlgorithms fn s
  | .spdmGetDigests fn => Sys2Proof.Machine.execSpdmGetDigests fn s
  | .spdmGetCertificate fn => Sys2Proof.Machine.execSpdmGetCertificate fn s
  | .spdmChallenge fn nonce => Sys2Proof.Machine.execSpdmChallenge fn nonce s
  | .spdmGetMeasurements fn nonce => Sys2Proof.Machine.execSpdmGetMeasurements fn nonce s
  | .spdmKeyExchange fn peer key => Sys2Proof.Machine.execSpdmKeyExchange fn peer key s
  | .spdmFinish fn => Sys2Proof.Machine.execSpdmFinish fn s
  | .spdmEndSession fn => Sys2Proof.Machine.execSpdmEndSession fn s
  | .hostMemoryWrite sp addr bytes => Sys2Proof.Machine.execHostMemoryWrite sp addr bytes s
  | .powerWindowEnd mw => Sys2Proof.Machine.execPowerWindowEnd mw s
  | .powerPeakExceeded => Sys2Proof.Machine.execPowerPeakExceeded s
  | .leaveGrant core => Sys2Proof.Machine.execLeaveGrant core s
  | .wakeLatencyExpiry core => Sys2Proof.Machine.execWakeLatencyExpiry core s
  | .deviceEnterL3 => Sys2Proof.Machine.execDeviceEnterL3 s
  | .deviceReset => Sys2Proof.Machine.execDeviceReset s
  | .overlayLoadDone core => Sys2Proof.Machine.execOverlayLoadDone core s
  | .linkCreditReturn link n answers => Sys2Proof.Machine.execLinkCreditReturn link n answers s
  | .linkFlitDrop link => Sys2Proof.Machine.execLinkFlitDrop link s
  | .firmwareImageLoad runtime image sig => Sys2Proof.Machine.execFirmwareImageLoad runtime image sig s
  | .tdispRequest vf part => Sys2Proof.Machine.execTdispRequest vf part s

end Sys2Proof.Machine
end

