-- ==== Sys2Proof/Machine/Gleaner.lean ====
section
/-! DEFINITION. The gleaner: what K receives from outside, its input log, and its run over K's user context (R297). -/

namespace Sys2Proof.Machine

/-- The syllable's predicate lets it execute (R24). -/
def guardOn (s : State) (a : At) (y : Syl) : Bool := getP s a y.p.val != y.n

/-! ### What K receives (R297) -/

/-- Where a syllable puts what K receives from outside: loaded data, a system register, the state of a unit or of a table. None for a syllable whose
results follow from K's own state and the entries it pops. -/
def received : Instr → Option (SOp × List Nat)
  | .ld _ d _ _ _ | .amoAdd _ _ _ d _ _ | .amoMin _ _ _ d _ _ | .amoMax _ _ _ d _ _ | .amoAnd _ _ _ d _ _ | .amoOr _ _ _ d _ _
  | .amoXor _ _ _ d _ _ | .amoSwap _ _ _ d _ _ | .cas _ _ _ d _ _ _ | .waitm _ _ _ _ d _ _ | .sysrd d _ | .waits _ d _ _ | .waitsPoll d _
  | .mst d _ _ | .mcas d _ _ _ | .mrepair d _ _ | .sheafmap d _ | .qstat d _ | .mstat d _ | .tokq d | .kslot d _ | .leaveq d
  | .winnow d _ | .rqopen d _ _ | .rqhalt d _ | .rqresume d _ | .rqcancel d _ | .rqcancelDrain d _ | .rqmeter d _ _ | .rqmark d _ | .rqstat d _
  | .barsetAlloc d _ _ | .barsetSet d _ _ _ | .barsetFree d _ | .barsetQuery d _ | .fwVersion d _ | .fwForm d _ | .fwPower d _
  | .fwGovernor d _ | .fwPlat d _ | .fwDebugPolicy d _ | .fwPagerRequest d _ | .fwUnknown d _ _ => some (d, [])
  | .mld _ d _ b => some (d, [b.val])
  | _ => none
/-- K's syllable has been performed: it does not wait, has raised no record, and its result does not come from a service later. -/
def performed (o : Core) : Bool := decide (o.k.ctx.blocked = .no) && o.k.stop.isNone && !o.k.fwStall
/-- The entries that a syllable took from the front of a queue. -/
def popped (o t : Core) (q : Nat) : List Word := (sget [] o.sq q).take ((sget [] o.sq q).length - (sget [] t.sq q).length)
/-- What K's syllable received, as a record of the log. -/
def receivedBy (a : At) (i : Option Instr) (s t : State) : GRec :=
  let r := (i.bind received).getD (.q 0, [])
  { n := (coreAt s a.k).gl.now.n, p14 := popped (coreAt s a.k) (coreAt t a.k) 14, p15 := popped (coreAt s a.k) (coreAt t a.k) 15
    xs := (match r.1 with
      | .x d => if d = 0 then [] else [(xKey s a d.val, getX t a d.val)]
      | .q _ => [])
    ps := (r.2.filter (· != 0)).map fun n => (n, getP t a n) }
def valuesOf (r : GRec) : Nat := (if r.fed.isSome then 1 else 0) + r.p14.length + r.p15.length + r.xs.length + r.ps.length
/-- A record enters the log, which keeps 4096 values, and so at most 4096 records; one without values does not. -/
def logRec (r : GRec) (g : Glean) : Glean :=
  if valuesOf r = 0 then g
  else { g with now := { g.now with pos := g.now.pos + 1, vals := g.now.vals + valuesOf r }, log := (g.log ++ [r]).drop (g.log.length - 4095) }

/-! ### What reaches K between two syllables -/

def changed {α : Type} [DecidableEq α] (b a g : α) : α := if b = a then g else a
/-- A copy takes over what changed from `b` to `a`. -/
def feedCopy (b a g : GCopy) : GCopy :=
  { x := ((a.x ++ b.x).map (·.1)).foldl (fun m k => if sget 0 b.x k = sget 0 a.x k then m else sset 0 m k (sget 0 a.x k)) g.x
    p := (g.p &&& ~~~(b.p ^^^ a.p)) ||| (a.p &&& (b.p ^^^ a.p)), sp := changed b.sp a.sp g.sp, pc := changed b.pc a.pc g.pc, lv := changed b.lv a.lv g.lv
    order := changed b.order a.order g.order, rotN := changed b.rotN a.rotN g.rotN, rotStarted := changed b.rotStarted a.rotStarted g.rotStarted
    rqi := changed b.rqi a.rqi g.rqi, idMap := changed b.idMap a.idMap g.idMap, idDef := changed b.idDef a.idDef g.idDef
    idSet := changed b.idSet a.idSet g.idSet, setk := changed b.setk a.setk g.setk, uli := changed b.uli a.uli g.uli
    uliRet := changed b.uliRet a.uliRet g.uliRet }
/-- The gleaner is fed what reached K since K's last syllable. -/
def gleanFed (o : Core) : Glean :=
  let g := o.gl
  if g.seen = kCopy o then g
  else
    let g1 := logRec { n := g.now.n, fed := some (g.seen, kCopy o) } g
    { g1 with seen := kCopy o, now := { g1.now with copy := feedCopy g.seen (kCopy o) g.now.copy } }
/-- The records at the front that are fed before syllable `n`, into a copy. -/
def takeFed (n : Nat) : List GRec → GCopy → GCopy × List GRec
  | [], c => (c, [])
  | r :: l, c =>
    match r.fed with
    | some (b, a) => if r.n ≤ n then takeFed n l (feedCopy b a c) else (c, r :: l)
    | none => (c, r :: l)

/-! ### The gleaner executes a syllable -/

/-- K's instruction memory as it stood before syllable `n`. -/
def codeAt (o : Core) (n : Nat) : Sparse Word :=
  (o.gl.code.filter fun e => decide (n < e.n)).foldr (fun e m => ssetRun 0 m e.base e.old) o.k.imem
/-- The core as the gleaner sees it before syllable `n`: its own copy in the place of K's registers, the instruction memory of that time, and the
entries that the syllable pops. -/
def gleanSees (n : Nat) (c : GCopy) (r : GRec) (o : Core) : Core :=
  let b := setCopy c o
  { b with
    k := { b.k with ctx := { b.k.ctx with blocked := .no, wait := none, peerWait := false, sheafBusy := none, sheafRes := none }
                    stop := none, fwStall := false, idling := false, imem := codeAt o n }
    inRun := false, runClk := false, popN := [], qObs := [], late := [], sq := sset [] (sset [] [] 14 r.p14) 15 r.p15 }
/-- What the syllable received enters the copy. -/
def fillCopy (r : GRec) (c : GCopy) : GCopy :=
  { c with x := r.xs.foldl (fun m e => sset 0 m e.1 e.2) c.x
           p := r.ps.foldl (fun p e => (p &&& ~~~(BitVec.ofNat 16 (2 ^ e.1))) ||| BitVec.ofNat 16 (if e.2 then 2 ^ e.1 else 0)) c.p }
/-- Executes syllable `n` from a copy: the word it pushes, with its queue, and the copy after it. Only K itself meets the checks of outside state; a syllable
that K performed is performed here too. -/
def gleanExec (s : State) (k n : Nat) (c : GCopy) (r : GRec) : Option (Nat × BitVec 48) × GCopy :=
  let a : At := ⟨k, .K, .user⟩
  let t := { modCore s k (gleanSees n c r) with cur := .cl k .K .user }
  let on := kCopy (coreAt (retire a t) k)
  match sylAt t a with
  | .error _ => (none, on)
  | .ok y =>
    if !guardOn t a y then (none, on)
    else match y.i with
    | .push e x => (some (e.val, (takeS a x t).1.setWidth 48), on)
    | .rqset x => (none, { on with rqi := (takeS a x t).1.toNat })
    | .rqrow x z n1 =>
      let u := takeS a x t
      (none, { on with idMap := (List.range (n1.toNat + 1)).foldl (fun m i => sput m (u.1.toNat + i) (takeS a z u.2).1.toNat) on.idMap })
    | .rqsets b x => (none, { on with idSet := setFields (takeS a x t).1, setk := b })
    | i =>
      if (received i).isSome then (none, fillCopy r on)
      else match exec i t with
      | .next t1 => (none, if performed (coreAt t1 k) then kCopy (coreAt t1 k) else on)
      | _ => (none, on)
/-- Executes syllables from a copy with the records of the log from there on: the words pushed, each with the number of its syllable and its queue,
and the copy after them. -/
def gleanRun (s : State) (k : Nat) : Nat → Nat → GCopy → List GRec → List (Nat × Nat × BitVec 48) × GCopy
  | 0, n, c, l => ([], (takeFed n l c).1)
  | f + 1, n, c, l =>
    let (c1, l1) := takeFed n l c
    let (r, l2) := match l1 with
      | r :: l2 => if r.n = n then (r, l2) else ({ n := n }, l1)
      | [] => ({ n := n }, [])
    let (w, c2) := gleanExec s k n c1 r
    let (ws, c3) := gleanRun s k f (n + 1) c2 l2
    (match w with
      | some (q, v) => (n, q, v) :: ws
      | none => ws, c3)

/-! ### Beside K, and from a checkpoint -/

/-- The gleaner's own word for a push in which its copy differs from K's. -/
def ownWord (e : Nat) (w : Option (Nat × BitVec 48)) (q : EQ) : EQ :=
  { q with words := q.words.modify (q.words.length - 1) fun x => { x with g := (w.filter fun v => v.1 == e).map (·.2) } }
/-- The gleaner executes what K has performed from `s` to `t`, none for a syllable that did not execute. While its copy agrees with K's it comes
to what K has come to. -/
def glean (a : At) (i : Option Instr) (s t : State) : State :=
  if a.c = .K ∧ a.x = .user ∧ performed (coreAt t a.k) then
    let o := coreAt s a.k
    let g := gleanFed o
    let r := receivedBy a i s t
    let (w, c) := if g.now.copy = kCopy o then (none, kCopy (coreAt t a.k)) else gleanExec s a.k g.now.n g.now.copy r
    let g1 := logRec r g
    let t1 := modCore t a.k fun o => { o with gl := { g1 with now := { g1.now with copy := c, n := g1.now.n + 1 }, seen := kCopy o } }
    match i with
    | some (.push e _) => if g.now.copy = kCopy o then t1 else modEQ t1 a.k e.val (ownWord e.val w)
    | _ => t1
  else t
/-- The checkpoint of a queue: its governing marker's; for `th` the word at its head (R297). -/
def markOf (o : Core) (q : Nat) (w : QWord) : GPoint := if q = 8 then w.point else (eqAt o q).mark.getD o.gl.first
/-- The words to compare, each with its position after the governing marker: those issued since the marker, then the head. -/
def sinceMark (e : EQ) (q : Nat) (w : QWord) : List (Nat × QWord) :=
  if q = 8 then [(0, w)]
  else
    let ws := (e.window.drop (e.window.length - (e.issued - e.markNo))).map (·.word) ++ [w]
    (List.range ws.length).zip ws |>.map fun x => (x.1 + 1, x.2)
/-- The gleaner runs again from the checkpoint of a queue: the words to compare, each with its own word for it, and its copy after the run. None when
the marker has left the window, when more than 4096 values have entered the log since the checkpoint, or when the word was pushed
before it (DEDUCED, log 14). -/
def recheck (s : State) (k q : Nat) (w : QWord) : Option (List (Nat × QWord × Option (BitVec 48)) × GCopy) :=
  let o := coreAt s k
  let e := eqAt o q
  let p := markOf o q w
  let g := gleanFed o
  if (q ≠ 8 && !inWindow e e.markNo) || decide (4096 < g.now.vals - p.vals) || decide (p.n < g.first.n) || decide (w.point.n < p.n) then none
  else
    let r := gleanRun s k (g.now.n - p.n) p.n p.copy (g.log.drop (g.log.length - (g.now.pos - p.pos)))
    let own := fun (x : QWord) => (r.1.find? fun v => v.1 == x.point.n && v.2.1 == q).map (·.2.2)
    some (((sinceMark e q w).filter fun x => !x.2.fwPushed && decide (p.n ≤ x.2.point.n)).map fun x => (x.1, x.2, own x.2), r.2)
/-- The first word that still differs. -/
def firstBad (l : List (Nat × QWord × Option (BitVec 48))) : Option (Nat × QWord × Option (BitVec 48)) := l.find? fun x => x.2.2 != some x.2.1.w

end Sys2Proof.Machine
end

