-- ==== Sys2Proof/Machine/Issue.lean ====
section
/-! DEFINITION. Issue: when a context issues its next syllable, K's slots, lockstep runs, and the heads of the engine queues
(R23 to R25, R36 to R38, R44, R45, R92 to R98, R267, R292, R293, R297, R302). -/

namespace Sys2Proof.Machine

/-! ### When a context issues (R92) -/

/-- The core issues nothing: frozen, halted by a debugger, or about to be when its results have come, or not yet awake (R97, R108, R302,
R390). -/
def coreHeld (s : State) (k : Nat) : Bool := (coreAt s k).frozen || dbgHalted (coreAt s k) || (coreAt s k).waking || s.dev.l3 ||
  ((coreAt s k).dbgNext.isSome && !(coreAt s k).preempt)
/-- An access of the context through a peer window stands at its record (R159). -/
def accessStopped (s : State) (a : At) : Bool :=
  s.out.any fun o => o.stop.isSome && (match o.why with
    | .access k c x _ _ _ _ _ _ => k == a.k && c == a.c && x == a.x
    | _ => false)
/-- An overlay copy writes the range of K's instruction memory in which an index lies. -/
def ovlAt (o : Core) (pc : Nat) : Bool := o.ovl.any fun l => l.cl == .K && decide (l.base ≤ pc) && decide (pc < l.base + l.words.length)
/-- An overlay copy under way holds the cluster back: K until every copy for it has ended, another cluster inside the range that is
being written (R93, 04 `ovl`). -/
def ovlHolds (o : Core) (c : Cluster) : Bool :=
  o.ovl.any fun l => l.cl == c && (c == .K || (decide (l.base ≤ (clOf o c).ctx.pc) && decide ((clOf o c).ctx.pc < l.base + l.words.length)))
/-- K's user context stands still: in a `fwcall`, in `idle` until a pre-emption is pending, and while the pager runs (R293). -/
def kHolds (o : Core) : Bool :=
  o.k.fwStall || (o.k.idling && !o.preempt) || decide (o.ks.pagerRun ≠ .idle) || !o.ks.pagerQ.isEmpty
/-- Nothing but the syllable itself keeps a user context from issuing. -/
def userFree (s : State) (a : At) : Bool :=
  let o := coreAt s a.k
  let u := clOf o a.c
  decide (u.run = .on) && u.stop.isNone && !u.safeStop && !u.ctx.peerWait && u.ctx.sheafBusy.isNone && !coreHeld s a.k && !accessStopped s a &&
  !rqStopped s (partAt s a.k) u.rqi && !ovlHolds o a.c && !(a.c == .K && kHolds o) && !setHolds s a && !taken s a.k
/-- The same for the firmware context, which fetches from K's instruction memory (R83), and for the pager while it serves (R98, R292). -/
def fwFree (s : State) (k : Nat) : Bool :=
  let ks := (coreAt s k).ks
  ks.fwReady && !ks.fw.peerWait && ks.fw.sheafBusy.isNone && !ovlAt (coreAt s k) ks.fw.pc && !coreHeld s k && !accessStopped s ⟨k, .K, .fw⟩
def pagerFree (s : State) (k : Nat) : Bool :=
  let ks := (coreAt s k).ks
  decide (ks.pagerRun ≠ .idle) && !ks.pager.peerWait && ks.pager.sheafBusy.isNone && !coreHeld s k && !accessStopped s ⟨k, .K, .pager⟩

/-! ### One syllable (R24, R36, R37) -/

/-- The types of the decode traps. -/
def dtrapFT : DTrap → FT
  | .opcode => .illegalOpcode | .cluster => .illegalCluster | .privilege => .illegalPrivilege | .modifier => .illegalModifier
  | .operand => .illegalOperand
/-- Goes on from a next state. -/
def thenDo (f : State → State) : Host.Outcome State Fault Refusal → Host.Outcome State Fault Refusal
  | .next t => .next (f t)
  | r => r
/-- Decodes and executes the syllable at the program counter: a decode trap comes whether or not its predicate is true, and a predicated-off
syllable takes its slot and nothing else. -/
def issueSyl (a : At) (s : State) : Host.Outcome State Fault Refusal :=
  match sylAt s a with
  | .error d => .next (trapTy a (dtrapFT d) s)
  | .ok y => if guardOn s a y then thenDo (glean a (some y.i) s) (exec y.i { s with cur := .cl a.k a.c a.x }) else .next (glean a none s (retire a s))
/-- A user context: a syllable that an answer skipped counts as predicated off (R289). An idle K goes on. -/
def issueUser (a : At) (s : State) : Host.Outcome State Fault Refusal :=
  if (cluAt s a.k a.c).skipOne then .next (advance a (modClu s a.k a.c fun u => { u with skipOne := false, idling := false }))
  else if (cluAt s a.k a.c).idling then issueSyl a (modClu s a.k a.c fun u => { u with idling := false })
  else issueSyl a s

/-! ### Lockstep runs (R94 to R97) -/

/-- The cluster stands at a sync syllable. -/
def atSync (s : State) (k : Nat) (c : Cluster) : Bool := sBit s ⟨k, c, .user⟩
def isMember (o : Core) (c : Cluster) : Bool := (members o).contains c
/-- The run is over: LSMASK takes what was written to it meanwhile. -/
def endRun (k : Nat) (s : State) : State :=
  modCore s k fun o => { o with inRun := false, lsmask := o.lsmaskNext.getD o.lsmask, lsmaskNext := none }
/-- A run ends when it has no member, or a member's next syllable has S clear. -/
def runOver (s : State) (k : Nat) : Bool :=
  (coreAt s k).inRun && ((members (coreAt s k)).isEmpty || !(members (coreAt s k)).all (atSync s k))
def closeRun (k : Nat) (s : State) : State := if runOver s k then endRun k s else s
/-- The state that an outcome goes on in. -/
def goOn (s : State) (r : Host.Outcome State Fault Refusal) : State :=
  match r with
  | .next t => t
  | _ => s
/-- A member's syllable by itself, and what came of it. -/
def memberStep (k : Nat) (s : State) (c : Cluster) : State := goOn s (issueUser ⟨k, c, .user⟩ s)
def memberTraps (k : Nat) (s : State) (c : Cluster) : Bool :=
  let t := memberStep k s c
  (cluAt t k c).stop.isSome && pcOf t ⟨k, c, .user⟩ == pcOf s ⟨k, c, .user⟩
def memberBlocks (k : Nat) (s : State) (c : Cluster) : Bool :=
  let t := memberStep k s c
  decide ((cluAt t k c).ctx.blocked ≠ .no) && !(cluAt t k c).fwStall && !(cluAt t k c).ctx.peerWait
/-- The members take their syllables one after the other within a clk: the state after those that issue, and those that cannot issue
beside the ones before them (two pushes into a queue with one free entry, two posts of one counter), with what each waits for. -/
def tryMembers (k : Nat) : List Cluster → State → State × List (Cluster × Blocked)
  | [], s => (s, [])
  | c :: cs, s =>
    if memberBlocks k s c then
      let r := tryMembers k cs s
      (r.1, (c, (cluAt (memberStep k s c) k c).ctx.blocked) :: r.2)
    else tryMembers k cs (memberStep k s c)
/-- A member that cannot issue goes on waiting; one that could issue by itself waits for room beside the others. -/
def memberWait (k : Nat) (s : State) (e : Cluster × Blocked) : State :=
  if memberBlocks k s e.1 then memberStep k s e.1
  else modClu s k e.1 fun u => { u with ctx := { u.ctx with blocked := e.2 } }
/-- A clk of a run begins: pops see the queues as they are now. -/
def openClk (k : Nat) (s : State) : State :=
  modCore s k fun o => mapClus { o with runClk := true } fun c u => if isMember o c then { u with ctx := { u.ctx with blocked := .no } } else u
/-- It ends: every push takes effect. -/
def closeClk (k : Nat) (s : State) : State :=
  modCore s k fun o =>
    let o1 := { o with runClk := false, defV := [], defS := [], popN := [], hcPost := [], hcTook := [] }
    o.defS.foldl (fun o e => arriveScalar o e.1 e.2.1 e.2.2) (o.defV.foldl (fun o e => enterVector o e.1 e.2) o1)
/-- The run stalls for a clk: RUNSTALL, and ISSUE of every member unless a member stopped under a halt is the cause (R96, R264, R267). The
clk of a freeze count as neither (R97). -/
def runStall (k : Nat) (s : State) : State :=
  let o := coreAt s k
  if !o.inRun || o.frozen then s
  else
    let s1 := modCore s k fun o => { o with runstall := o.runstall + 1 }
    if (members o).any fun c => rqStopped s (partAt s k) (clOf o c).rqi || setHolds s ⟨k, c, .user⟩ then s1
    else (members o).foldl (fun s c => meter s (partAt s k) [(cluAt s k c).rqi] mISSUE 1) s1
/-- A member at a barrier arrives. -/
def memberArrives (k : Nat) (s : State) (c : Cluster) : State :=
  match sylAt s ⟨k, c, .user⟩ with
  | .ok y => if guardOn s ⟨k, c, .user⟩ y && !(cluAt s k c).skipOne then runArrives ⟨k, c, .user⟩ y.i s else s
  | .error _ => s
/-- The syllables of the members issue together, or those that trap do so in the order of R291 and the others do not issue, or none issues;
those that cannot issue go on waiting. A trap is taken at once, in a clk in which another member could not issue too (R96; DEDUCED, log 99). -/
def runSyls (k : Nat) (s : State) : State :=
  let ms := members (coreAt s k)
  let s1 := openClk k s
  let ts := ms.filter (memberTraps k s1)
  if !ts.isEmpty then closeClk k (ts.foldl (memberStep k) s1)
  else
  let s1 := ms.foldl (memberArrives k) s1
  match tryMembers k ms s1 with
  | (s2, []) => closeRun k (modCore (closeClk k s2) k fun o => { o with inRun := true })
  | (_, bs) => runStall k (closeClk k (bs.foldl (memberWait k) s1))
/-- A clk of the lockstep run of a core, or its rendezvous. -/
def runClk (k : Nat) (s : State) : State :=
  let s1 := closeRun k s
  let ms := members (coreAt s1 k)
  if ms.isEmpty || !ms.all (atSync s1 k) then s1
  else if ms.contains .K && uliDue s1 k && !coreHeld s1 k then enterUli k s1
  else if ms.all fun c => userFree s1 ⟨k, c, .user⟩ then runSyls k s1
  else runStall k s1

/-! ### K's slots (R98) -/

/-- K is a member of a running or waiting run. -/
def kRuns (s : State) (k : Nat) : Bool := isMember (coreAt s k) .K && ((coreAt s k).inRun || atSync s k .K)
/-- The slot counter gives the slot to the firmware context. Only its value modulo 16 matters, so it is kept so. -/
def fwShareSlot (ks : KSt) : Bool := decide (ks.slotCtr * ks.fwshare % 16 < ks.fwshare)
/-- The firmware context has a syllable ready: one that does not only wait. -/
def fwHas (s : State) (k : Nat) : Bool :=
  fwFree s k && decide ((ctxOf (goOn s (issueSyl ⟨k, .K, .fw⟩ s)) ⟨k, .K, .fw⟩).blocked = .no)
/-- The slot is the firmware context's, if it has a syllable for it. -/
def fwDue (s : State) (k : Nat) : Bool :=
  let o := coreAt s k
  !kRuns s k && (fwShareSlot o.ks || decide (0 < o.ks.owed) || o.k.fwStall || o.k.idling)
/-- The firmware context takes the slot. -/
def fwTakes (s : State) (k : Nat) : Bool := fwDue s k && fwHas s k
/-- The slot counter goes on; inside a run a slot of the firmware context is owed, outside one an owed slot is taken. While a run still waits
for its rendezvous, nothing is owed (DESIGN CHOICE, log 94). -/
def countSlot (k : Nat) (s : State) : State :=
  if coreHeld s k then s
  else modKs s k fun ks =>
    { ks with slotCtr := (ks.slotCtr + 1) % 16
              owed := if kInRun (coreAt s k) then (if fwHas s k && fwShareSlot ks && ks.owed < 16 then ks.owed + 1 else ks.owed)
                      else if fwTakes s k && !fwShareSlot ks then ks.owed - 1 else ks.owed }

/-! ### The turns of the clusters -/

/-- The turn of a user context: an interrupt that is due is taken first; a sync syllable of a member waits for the turn of the run. -/
def userTurn (a : At) (s : State) : Host.Outcome State Fault Refusal :=
  if a.c = .K ∧ uliDue s a.k ∧ !coreHeld s a.k then .next (enterUli a.k s)
  else if isMember (coreAt s a.k) a.c ∧ atSync s a.k a.c then .next s
  else if userFree s a then issueUser a s
  else .next s
/-- A slot of K: the pager takes those that the firmware context leaves while it serves; else the user context has them. A firmware syllable
that only waits goes on waiting, and leaves its slot. -/
def kTurn (k : Nat) (s : State) : Host.Outcome State Fault Refusal :=
  if fwTakes s k then issueSyl ⟨k, .K, .fw⟩ (countSlot k s)
  else
    let s1 := if fwDue s k && fwFree s k then goOn (countSlot k s) (issueSyl ⟨k, .K, .fw⟩ (countSlot k s)) else countSlot k s
    if pagerFree s1 k then issueSyl ⟨k, .K, .pager⟩ s1 else userTurn ⟨k, .K, .user⟩ s1
/-- A slot of a cluster. The three contexts of K share its slots, whichever of them the turn names; those of a run come with its own turns. The S bit of a syllable of K's firmware
context or of the pager has no effect: LSMASK names user contexts (R94; DEDUCED, log 99). -/
def clTurn (k : Nat) (c : Cluster) (s : State) : Host.Outcome State Fault Refusal :=
  let s1 := closeRun k s
  if c ≠ .K then userTurn ⟨k, c, .user⟩ s1
  else if kInRun (coreAt s1 k) then (if pagerFree s1 k then issueSyl ⟨k, .K, .pager⟩ s1 else userTurn ⟨k, .K, .user⟩ s1)
  else kTurn k s1
/-- A clk of a run takes a slot of K too when K is in it. -/
def runTurn (k : Nat) (s : State) : State := runClk k (if kInRun (coreAt s k) then countSlot k s else s)

/-! ### The heads of the engine queues (R44, R45, R297) -/

/-- The unit of a queue (R288), and the low bits of its locator. -/
def qUnit (q : Nat) : Nat := if q < 4 then uMatrix else if q < 8 then uCopy else uThresher
def qLow (q : Nat) : Nat := if 4 ≤ q ∧ q < 8 then q - 4 else 0
/-- CONTROL_DIVERGENCE is posted, and the queue stands at it: the record's TOKEN, and the state after it (R297). -/
def postDiverge (k q pos : Nat) (w : QWord) (g : BitVec 48) (s : State) : Nat × State :=
  let r := { engRec s k (qUnit q) q (qLow q) w [w.rqi] ⟨.controlDivergence, 0, 0⟩ [] 0 (.queue k q) with aux0 := g.toNat, aux1 := pos }
  let (t, s1) := raise s r
  (t, modEQ s1 k q fun e => { e with stop := some t, stopSeq := ((headOf s k q).map (·.seq)).getD 0 })
/-- A word that still differs: a matrix queue discards its tiles as in step 2 of R224, and K's user context stands at the record too (R297, step
4). -/
def diverge (k q pos : Nat) (w : QWord) (g : BitVec 48) (s : State) : State :=
  let o := coreAt s k
  let mk := (eqAt o q).markId
  let (t, s1) := postDiverge k q pos w g (if q < 4 then discardTiles k q mk (wroteSince o q mk) s else s)
  if (cluAt s1 k .K).run = .on ∧ (cluAt s1 k .K).stop.isNone then modClu s1 k .K fun u => { u with stop := some t } else s1
/-- The definition check, then the word issues as its entry says. -/
def issueEng (k q : Nat) (w : QWord) (s : State) : Host.Outcome State Fault Refusal :=
  match decodeEng q w.w.toNat with
  | none => .next (stopHead k q (qUnit q) (qLow q) w [w.rqi] ⟨.ewordUndefined, 0, 0⟩ s)
  | some i => exec i { s with cur := .eq k q }
/-- The gleaner's word agrees after all, and it goes on from where its re-execution has brought it (R297). -/
def gleanFixed (k q : Nat) (c : GCopy) (s : State) : State :=
  modEQ (modCore s k fun o => { o with gleanfix := o.gleanfix + 1, gl := { o.gl with now := { o.gl.now with copy := c } } }) k q fun e => { e with words := match e.words with
    | w :: ws => { w with g := some w.w } :: ws
    | [] => [] }
/-- The turn of a queue's head. -/
def engTurn (k q : Nat) (s : State) : Host.Outcome State Fault Refusal :=
  match headOf s k q with
  | none => .next s
  | some w =>
    if coreHeld s k || qStopped (coreAt s k) q || (coreAt s k).inst.isNone || saveFailed s k then .next s
    else if gleanOk w then issueEng k q w s
    else match recheck s k q w with
    | none => .next (postDiverge k q ((eqAt (coreAt s k) q).issued - (eqAt (coreAt s k) q).markNo + 1) w (w.g.getD 0) s).2
    | some (l, c) =>
      match firstBad l with
      | some (n, v, g) => .next (diverge k q n v (g.getD 0) s)
      | none => issueEng k q { w with g := some w.w } (gleanFixed k q c s)

/-! ### What comes from outside (log entry 7) -/

def doRegister (handle : Nat) (im : Image) (s : State) : State := { s with images := sput s.images handle im }
def doPagerImage (k : Nat) (ws : List Word) (s : State) : State := modKs s k fun ks => { ks with pagerMem := ssetRun 0 [] 0 (ws.take 4096) }
def doFwStart (k pc : Nat) (s : State) : State := modKs s k fun ks => { ks with fwReady := true, fw := { ks.fw with pc := pc } }
def doUpset (key : Nat) (s : State) : State := { s with poison := sset false s.poison key true }
/-- A word of a queue, K's registers or the gleaner's are not what they should be (R297; log 14). -/
def doWrongWord (k q idx : Nat) (w : BitVec 48) (g : Option (BitVec 48)) (s : State) : State :=
  modEQ s k q fun e => { e with words := e.words.modify idx fun x => { x with w := w, g := g } }
def doUpsetK (k : Nat) (c : GCopy) (s : State) : State :=
  modCore s k fun o => { setCopy c o with gl := { gleanFed o with seen := c } }
def doUpsetGleaner (k : Nat) (c : GCopy) (s : State) : State := modCore s k fun o => { o with gl := { o.gl with now := { o.gl.now with copy := c } } }

end Sys2Proof.Machine
end

