-- ==== Sys2Proof/Machine/Sched.lean ====
section
/-! DEFINITION. Who moves next: the head of the agenda; with an empty agenda a fixed round over everything that can move by
itself (log entry 1). What the outside does, what depends on time, and errors come from the agenda alone. -/

namespace Sys2Proof.Machine

/-- The element of a list that a round comes to. -/
def pick {α : Type} (l : List α) (round : Nat) : Option α := l[round % l.length]?
/-- Runs a step on what the round comes to. -/
def onPick {α : Type} (l : List α) (round : Nat) (f : α → State → Host.Outcome State Fault Refusal) (s : State) : Host.Outcome State Fault Refusal :=
  match pick l round with
  | some x => f x s
  | none => .next s

/-- The turns of a core. -/
def coreTurn (k n round : Nat) (s : State) : Host.Outcome State Fault Refusal :=
  if n = 0 then clTurn k .K s else if n = 1 then clTurn k .A s else if n = 2 then clTurn k .X0 s else if n = 3 then clTurn k .X1 s
  else if n = 4 then .next (runTurn k s)
  else if n < 14 then engTurn k (n - 5) s
  else if n = 14 then execTableWalkDone k s
  else if n = 15 then execMemoryResponse k .k s
  else if n = 16 then execMemoryResponse k .a s
  else if n = 17 then execOverlayLoadDone k s
  else if n = 18 then execPagerTrapEntry k s
  else if n = 19 then onPick (coreAt s k).eng.mops round (fun o => execMatrixPlaneLoadDone k o.id) s
  else if n = 20 then onPick (coreAt s k).eng.mops round (fun o => execMatrixOperationCommit k o.id false) s
  else if n = 21 then onPick (coreAt s k).eng.mops round (fun o => execMatrixDrainDone k o.id false) s
  else if n = 22 then onPick (coreAt s k).eng.cmds round (fun c => execCopyIterationCommit k c.id) s
  else if n = 23 then execRunDeadlock k s
  else if n = 24 then execInstanceStart k s
  else if n = 25 then execInstanceComplete k s
  else if n = 26 then execPreemptTake k s
  else if n = 27 then execFreezeEnd k s
  else if n = 28 then execWakeLatencyExpiry (some k) s
  else if n = 29 then execUliEntry k s
  else if n = 30 then execMemoryResponse k .copy s
  else execMemoryResponse k .fetch s
/-- The turns of a ring pair. -/
def ringTurn (r n : Nat) (s : State) : Host.Outcome State Fault Refusal :=
  if n = 0 then execPad r s
  else if n = 1 then execLaunch r s
  else if n = 2 then execLaunchPlace r s
  else execExceptionRecordWrite r s
/-- Packets to the own id that have been sent (R250). -/
def ownPackets (s : State) : List Packet := (s.out.filter fun o => o.sent && o.p.dst == s.dev.mydev && o.p.src == s.dev.mydev).map (·.p)
/-- A packet to the own id arrives. -/
def ownArrives (p : Packet) (s : State) : Host.Outcome State Fault Refusal :=
  if isAnswerOp p.op then .next (answerPkt [3, 6, 7, 9] (fun _ => true) p s) else .next (arrive p.op.toNat p s)
/-- The other turns of the device. -/
def devTurn (n round : Nat) (s : State) : Host.Outcome State Fault Refusal :=
  if n = 0 then execSignalWordUpdate (round % (s.sig.length + 1)) s
  else if n = 1 then execSheafReadMsg (round % (s.shMsgs.length + 1)) s
  else if n = 2 then execSheafProposeMsg (round % (s.shMsgs.length + 1)) s
  else if n = 3 then execSheafCommitMsg (round % (s.shMsgs.length + 1)) s
  else if n = 4 then execSheafAbortMsg (round % (s.shMsgs.length + 1)) s
  else if n = 5 then execSheafAnswer (round % (s.shAns.length + 1)) s
  else if n < 18 then execThresherPinGrant (n - 6) s
  else if n < 30 then execThresherCommandComplete (n - 18) (round % 16) s
  else if n = 30 then onPick (s.launches.map (·.id)) round execLaunchComplete s
  else if n = 31 then onPick (s.launches.map (·.id)) round execPreemptResume s
  else if n = 32 then onPick (s.rq.map (·.1)) round execRequestFinalRecord s
  else if n = 33 then onPick (ownPackets s) round ownArrives s
  else if n = 34 then onPick ((s.out.filter (·.retry)).map (·.p.xid.toNat)) round execParkStoreRetry s
  else if n = 35 then execWakeLatencyExpiry none s
  else if n = 36 then execDeviceEnterL3 s
  else .next s
/-- 64 cores with 32 turns each, 1024 ring pairs with four, 64 turns of the device. -/
def roundLen : Nat := 64 * 32 + 1024 * 4 + 64
def autoTurn (n round : Nat) (s : State) : Host.Outcome State Fault Refusal :=
  if n < 2048 then coreTurn (n / 32) (n % 32) round s
  else if n < 6144 then ringTurn ((n - 2048) / 4) (n % 4) s
  else devTurn (n - 6144) round s
/-- One turn of the round. -/
def nextAuto (s : State) : Host.Outcome State Fault Refusal :=
  autoTurn (s.rr % roundLen) (s.rr / roundLen) { s with cur := .dev, rr := s.rr + 1 }

/-- One entry of the agenda. -/
def runAct (act : Act) (s : State) : Host.Outcome State Fault Refusal :=
  match act with
  | .cl k c _ => clTurn k c s
  | .run k => .next (runTurn k s)
  | .eq k q => engTurn k q s
  | .ev i => exec i { s with cur := .dev }
  | .register h im => .next (doRegister h im s)
  | .pagerImage k ws => .next (doPagerImage k ws s)
  | .fwStart k pc => .next (doFwStart k pc s)
  | .upset key => .next (doUpset key s)
  | .wrongWord k q idx w g => .next (doWrongWord k q idx w g s)
  | .upsetK k c => .next (doUpsetK k c s)
  | .upsetGleaner k c => .next (doUpsetGleaner k c s)
/-- A step: the agenda's head, or the round's turn. -/
def move (s : State) : Host.Outcome State Fault Refusal :=
  match s.agenda with
  | act :: rest => runAct act { s with agenda := rest }
  | [] => nextAuto s

/-! ### Placing one instruction where the next step runs it (log entry 7) -/

/-- The cluster in which a word is a legal syllable, and whether it needs a privileged context. -/
def clusterOfWord (w : Nat) : Cluster × Bool :=
  let ok := fun (c : Cluster) (p : Bool) => match decodeWith (some (c, p)) w with
    | .ok _ => true
    | .error _ => false
  if ok .K false then (.K, false) else if ok .A false then (.A, false) else if ok .X0 false then (.X0, false) else (.K, true)
/-- The queue in which a word is defined. -/
def queueOf (w : Nat) : Nat := if (decodeEng 0 w).isSome then 0 else if (decodeEng 4 w).isSome then 4 else 8
/-- A launch of partition 0 on core 0, with the image and the request that it names. -/
def placedPkt : LPkt :=
  { slot := 0, rq := 1, cls := 0, image := 0, argbase := 0, handoff := [], prime := [], compl := 0, compval := 0, kinds := [], counts := []
    cmask := 1, lattol := 0 }
/-- Core 0 runs an instance whose four clusters have started: what a load from outside the machine stands for. -/
def placed (s : State) : State :=
  let s1 := { modPart s 0 fun p => { p with live := true, cmask := p.cmask ||| 1 } with
    launches := [{ id := 0, ring := 0, part := 0, pkt := placedPkt, cores := [0], left := [0], st := .running }] }
  modCore s1 0 fun o => { mapClus o fun _ u => { u with run := .on } with inst := some ⟨0, 0, 0, [], true⟩, pwr := .l0 }
/-- A syllable word at the program counter of its cluster, and that cluster's turn next. A word with its sync bit set would wait
for the other clusters of a lockstep run, so LSMASK is 0 for it (R92). -/
def placeSyl (w : Nat) (s : State) : State :=
  let s1 := if w.testBit 63 then modCore (placed s) 0 fun o => { o with lsmask := 0 } else placed s
  match clusterOfWord w with
  | (c, false) =>
    { modClu s1 0 c fun u => { u with imem := sset 0 u.imem u.ctx.pc (BitVec.ofNat 64 w) } with agenda := [.cl 0 c .user] }
  | (_, true) =>
    { modKs s1 0 fun ks => { ks with pagerRun := .request 0 (.x 0), pagerMem := sset 0 ks.pagerMem ks.pager.pc (BitVec.ofNat 64 w) } with
      agenda := [.cl 0 .K .pager] }
/-- An engine word at the head of its queue, and that queue's turn next. -/
def placeEng (w : Nat) (s : State) : State :=
  let q := queueOf w
  let v := BitVec.ofNat 48 w
  { modEQ (placed s) 0 q fun e => { e with words := { w := v, g := some v } :: e.words } with agenda := [.eq 0 q] }

end Sys2Proof.Machine
end

