-- ==== Sys2Proof/Machine/Step.lean ====
section
/-! DEFINITION. One step of the device, and the state whose next step runs a given instruction. -/

namespace Sys2Proof.Machine

/-- One step: the agenda's head, or the round's turn. -/
def step (s : State) : Host.Outcome State Fault Refusal := move s

/-- The state with one instruction placed where the next step runs it: a syllable of 64 bits, or an engine word of 48. -/
def State.withFetchWord (s : State) (nbits w : Nat) : State :=
  if nbits = 64 then placeSyl w s else if nbits = 48 then placeEng w s else s

end Sys2Proof.Machine
end

