-- ==== Sys2Proof/Safety.lean ====
section
/-! DEFINITION. The words that claims use: memories in canonical form, steps without a new fault record, who moves, whether its queues
are ready, and the shapes of what an instruction does. -/

namespace Sys2Proof.Machine

/-- The canonical form of a memory: addresses rise strictly, and no entry equals what its address reads as unlisted (`d`). -/
abbrev Memory.wf (d : Nat → Byte) (m : List Host.Cell) : Bool := swf d m
/-- The memory of a space is in canonical form. -/
def cellsOk (s : State) (sp : Space) : Bool := Memory.wf (byteDefault s sp) (cells s sp)
/-- The memories that stand outside the cores are in canonical form. -/
def State.memOk (s : State) : Bool := cellsOk s .dram && cellsOk s .near && cellsOk s .host
/-- Fault records that wait for an answer or for room, over all ring pairs. -/
def State.records (s : State) : List FRec := s.rings.flatMap fun e => e.2.pend ++ e.2.held
/-- The step goes on, and no record is there that was not there before. -/
def State.cleanStep (s : State) : Bool :=
  match step s with
  | .next t => t.records.all fun r => s.records.contains r
  | _ => false

/-- A memory that the device has: it has 64 cores (R10). -/
def Space.real : Space → Bool
  | .spad k | .kdm k => decide (k < 64)
  | _ => true

/-! ### Who moves, and whether its queues are ready -/

/-- The context is the one that moves. -/
def Moves (s : State) (a : At) : Prop := s.cur = .cl a.k a.c a.x
/-- Each queue holds what the syllable pops of it, and has room for what the syllable pushes (R31, R92, R127). -/
def QueuesOk (s : State) (a : At) (pops pushes : List Nat) : Prop :=
  (∀ q ∈ pops, pops.count q ≤ qHeld (coreAt s a.k) a.c q) ∧ ∀ q ∈ pushes, pushes.count q ≤ qFree (coreAt s a.k) q
/-- The head word of queue `q` of core `k` is the one that moves. -/
def Heads (s : State) (k q : Nat) : Prop := s.cur = .eq k q
/-- No fault record was raised: each takes a new TOKEN (R288). -/
def NoRecord (s t : State) : Prop := t.dev.nextToken = s.dev.nextToken

/-! ### Records in an exception queue -/

/-- The address of an entry of the exception queue, counted from EXQWR (R286). -/
def exqAddr (g : Ring) (i : Nat) : Nat := g.exqbase + 64 * ((g.exqwr.toNat + i) % 2 ^ g.exqlog)
/-- The queue has room for the record, and its entries can be written where they belong. -/
def RecordFits (s : State) (ring : Nat) (r : FRec) : Prop :=
  let g := ringAt s ring
  let bs := recBytes { r with eseq := g.exqwr.toNat }
  (g.exqwr - g.exqrd).toNat + recEntries r ≤ 2 ^ g.exqlog ∧
  ∃ s1 u, devWrite s (ring / 64) (exqAddr g 0) (bs.take 64) = (s1, .ok u) ∧
    (recEntries r = 2 → ∃ s2 v, devWrite s1 (ring / 64) (exqAddr g 1) (bs.drop 64) = (s2, .ok v))
/-- The queue has room for the record, which takes one entry, and the entry lies at address `ad` of a memory that the device has. -/
def RecordGoes (s : State) (ring : Nat) (r : FRec) (sp : Space) (ad : Nat) : Prop :=
  let g := ringAt s ring
  sp.real = true ∧ (g.exqwr - g.exqrd).toNat + 1 ≤ 2 ^ g.exqlog ∧ r.ty ≠ .recordLost ∧
  ∃ s1 l, resolve s 64 .none .host (ring / 64) .device (exqAddr g 0) 64 true = (s1, .ok (.home [(sp, ad, 64)] l))
/-- The record `r` has left the front of the records held, `l` are held behind it, unless the ring is closed by that, and EXQWR has moved past its
entries (R282, R286). -/
def RecordWritten (s t : State) (ring : Nat) (r : FRec) (l : List FRec) : Prop :=
  (ringAt t ring).exqwr = (ringAt s ring).exqwr + BitVec.ofNat 32 (recEntries r) ∧ (ringAt t ring).unwritable = false ∧
  ((ringAt t ring).held = l ∨ (ringAt s ring).state = 3 ∧ (ringAt t ring).state = 0 ∧ (ringAt t ring).held = [])

/-! ### Shapes of syllables -/

/-- Whenever the context moves, the answer is the next state that `go` makes. -/
def Goes (i : Instr) (go : At → State → State) : Prop := ∀ s a, Moves s a → exec i s = .next (go a s)
/-- The same when the queues that the syllable pops and pushes are ready. -/
def GoesQ (i : Instr) (pops pushes : List Nat) (go : At → State → State) : Prop :=
  ∀ s a, Moves s a → QueuesOk s a pops pushes → exec i s = .next (go a s)
/-- A function of one scalar source goes to `d`, and the syllable retires (R31: the source is read or popped before the result is
written). -/
def Gives1 (i : Instr) (d x : SOp) (f : State → At → Word → Word) : Prop :=
  GoesQ i (popsS [x]) (pushS d) fun a s => retire a (putS a d (f s a (takeS a x s).1) (takeS a x s).2)
/-- Two sources, popped in field order. -/
def Gives2 (i : Instr) (d x y : SOp) (f : State → At → Word → Word → Word) : Prop :=
  GoesQ i (popsS [x, y]) (pushS d) fun a s =>
    let r := takeS a x s
    let q := takeS a y r.2
    retire a (putS a d (f s a r.1 q.1) q.2)
/-- Three sources. -/
def Gives3 (i : Instr) (d x y z : SOp) (f : State → At → Word → Word → Word → Word) : Prop :=
  GoesQ i (popsS [x, y, z]) (pushS d) fun a s =>
    let r := takeS a x s
    let q := takeS a y r.2
    let p := takeS a z q.2
    retire a (putS a d (f s a r.1 q.1 p.1) p.2)
/-- A condition on one source goes to predicate `d`. -/
def Sets1 (i : Instr) (d : Fin 16) (x : SOp) (f : Word → Bool) : Prop :=
  GoesQ i (popsS [x]) [] fun a s => retire a (setP (takeS a x s).2 a d.val (f (takeS a x s).1))
/-- A condition on two sources. -/
def Sets2 (i : Instr) (d : Fin 16) (x y : SOp) (f : Word → Word → Bool) : Prop :=
  GoesQ i (popsS [x, y]) [] fun a s =>
    let r := takeS a x s
    let q := takeS a y r.2
    retire a (setP q.2 a d.val (f r.1 q.1))

/-! ### Shapes of vector syllables -/

/-- Elements below E of a result: under the mask the new ones, elsewhere the old ones of the destination (R125). -/
def Elems (w n mask old res : Nat) (f : Nat → Nat) : Prop :=
  ∀ j < n, elemN w res j = if bitN mask j then f j % 2 ^ w else elemN w old j
/-- One source register, element by element. -/
def VGives1 (i : Instr) (w : Nat) (m : VMask) (d x : VOp) (f : State → At → Nat → Nat) : Prop :=
  ∀ s a, Moves s a → QueuesOk s a (portV 1 x) (portV 1 d) →
    let u := takeV a 1 x s
    ∃ r, exec i s = .next (retire a (putV a 1 d r u.2)) ∧
      Elems w (4096 / w) (maskOf a m s) (oldV a 1 d s) r fun j => f s a (elemN w u.1 j)
def VGives2 (i : Instr) (w : Nat) (m : VMask) (d x y : VOp) (f : State → At → Nat → Nat → Nat) : Prop :=
  ∀ s a, Moves s a → QueuesOk s a (portV 1 x ++ portV 1 y) (portV 1 d) →
    let u := takeV a 1 x s
    let v := takeV a 1 y u.2
    ∃ r, exec i s = .next (retire a (putV a 1 d r v.2)) ∧
      Elems w (4096 / w) (maskOf a m s) (oldV a 1 d s) r fun j => f s a (elemN w u.1 j) (elemN w v.1 j)
def VGives3 (i : Instr) (w : Nat) (m : VMask) (d x y z : VOp) (f : State → At → Nat → Nat → Nat → Nat) : Prop :=
  ∀ s a, Moves s a → QueuesOk s a (portV 1 x ++ portV 1 y ++ portV 1 z) (portV 1 d) →
    let u := takeV a 1 x s
    let v := takeV a 1 y u.2
    let p := takeV a 1 z v.2
    ∃ r, exec i s = .next (retire a (putV a 1 d r p.2)) ∧
      Elems w (4096 / w) (maskOf a m s) (oldV a 1 d s) r fun j => f s a (elemN w u.1 j) (elemN w v.1 j) (elemN w p.1 j)
/-- A group of `gx` registers in, a group of `gd` out, `n` elements of width `w`; a base that is no multiple of its group's size
traps (R127). -/
def VGroup (i : Instr) (gx gd w n : Nat) (m : VMask) (d x : VOp) (f : State → At → Nat → Nat → Nat) : Prop :=
  (groupOk gx x = true → groupOk gd d = true → ∀ s a, Moves s a → QueuesOk s a (portV gx x) (portV gd d) →
    let u := takeV a gx x s
    ∃ r, exec i s = .next (retire a (putV a gd d r u.2)) ∧ Elems w n (maskOf a m s) (oldV a gd d s) r (f s a u.1)) ∧
  (groupOk gx x = false ∨ groupOk gd d = false → Goes i fun a s => trapTy a .illegalOperand s)
/-- One register and a group of `gy` in, one register out. -/
def VPair (i : Instr) (gy w n : Nat) (m : VMask) (d x y : VOp) (f : State → At → Nat → Nat → Nat → Nat) : Prop :=
  groupOk gy y = true → ∀ s a, Moves s a → QueuesOk s a (portV 1 x ++ portV gy y) (portV 1 d) →
    let u := takeV a 1 x s
    let v := takeV a gy y u.2
    ∃ r, exec i s = .next (retire a (putV a 1 d r v.2)) ∧ Elems w n (maskOf a m s) (oldV a 1 d s) r (f s a u.1 v.1)
/-- The same with the trap of a base that is no multiple of its group's size (R127). -/
def VGroup2 (i : Instr) (gy w n : Nat) (m : VMask) (d x y : VOp) (f : State → At → Nat → Nat → Nat → Nat) : Prop :=
  VPair i gy w n m d x y f ∧ (groupOk gy y = false → Goes i fun a s => trapTy a .illegalOperand s)
/-- One register in, one out, and no element of the destination merged. -/
def VWhole (i : Instr) (w n : Nat) (d x : VOp) (f : State → At → Nat → Nat → Nat) : Prop :=
  ∀ s a, Moves s a → QueuesOk s a (portV 1 x) (portV 1 d) →
    let u := takeV a 1 x s
    ∃ r, exec i s = .next (retire a (putV a 1 d r u.2)) ∧ ∀ j < n, elemN w r j = f s a u.1 j % 2 ^ w

/-! ### What an instruction leaves alone -/

/-- Outside the core of the context nothing changes but ISSUE of requests, and what the context's party has observed with the entries that
it pops (R190), which grows only. -/
def SameOutside (s t : State) (a : At) : Prop :=
  t = { s with cores := t.cores, rq := t.rq, seen := t.seen } ∧ (∀ j, j ≠ a.k → coreAt t j = coreAt s j) ∧
  (∀ id, rqAt t id = { rqAt s id with meters := (rqAt t id).meters } ∧ ∀ m, m ≠ mISSUE → sget 0 (rqAt t id).meters m = sget 0 (rqAt s id).meters m) ∧
  ∀ q p, seenNo s q p ≤ seenNo t q p ∧ (q ≠ partyOf a → seenNo t q p = seenNo s q p)
/-- An inter-cluster queue of the core keeps its entries, who pushed them, and what a clk of a run has done to it. -/
def SameQueue (o o' : Core) (q : Nat) : Prop :=
  sget [] o'.vq q = sget [] o.vq q ∧ sget [] o'.sq q = sget [] o.sq q ∧ sget [] o'.qObs q = sget [] o.qObs q ∧ sget 0 o'.popN q = sget 0 o.popN q ∧
  o'.defV.filter (·.1 == q) = o.defV.filter (·.1 == q) ∧ o'.defS.filter (·.1 == q) = o.defS.filter (·.1 == q) ∧
  (q = 13 → o'.q13b = o.q13b ∧ sget [] o'.qObs 32 = sget [] o.qObs 32 ∧ sget 0 o'.popN 32 = sget 0 o.popN 32)
/-- In the core nothing changes but the moving context's registers, program counter and levels, the vector registers, masks, `sp` and `rrb`
of its cluster, the inter-cluster queues `qs`, and the firmware's slot count. -/
def SameInside (s t : State) (a : At) (qs : List Nat) : Prop :=
  let o := coreAt s a.k
  let o' := coreAt t a.k
  (∀ q < 32, q ∉ qs → SameQueue o o' q) ∧
  ∃ (x : Sparse Word) (p : BitVec 16) (pc : Nat) (lv : Sparse Level) (l : List Nat) (r : Nat) (b : Blocked) (v : Sparse VReg) (m : Sparse Mask) (sp : BitVec 8) (rrb : Nat) (n : Word),
    let u := clOf o a.c
    let ctx := { ctxOf s a with x := x, p := p, pc := pc, lv := lv, order := l, rotStarted := r, blocked := b }
    let xs := { u.xs with v := v, m := m, sp := sp, rrb := rrb }
    let q := { o with vq := o'.vq, sq := o'.sq, q13b := o'.q13b, qObs := o'.qObs, defV := o'.defV, defS := o'.defS, popN := o'.popN }
    o' = match a.x with
      | .user => modCl q a.c fun u => { u with ctx := ctx, xs := xs }
      | .fw => modCl { q with ks := { o.ks with fw := ctx, fwslots := n } } a.c fun u => { u with xs := xs }
      | .pager => modCl { q with ks := { o.ks with pager := ctx } } a.c fun u => { u with xs := xs }
/-- Every byte of memory reads as before, for every party. -/
def SameMemory (s t : State) : Prop :=
  ∀ sp ad, homeByte t sp ad = homeByte s sp ad ∧ ∀ q, readByte t q sp ad = readByte s q sp ad

/-- The scalar register that a destination names, and the physical vector registers of a group (R84). -/
def dstS : SOp → List Nat
  | .x n => [n.val]
  | .q _ => []
def dstV (s : State) (a : At) (g : Nat) : VOp → List Nat
  | .v n => (List.range g).map fun i => vPhys (cluAt s a.k a.c).xs.rrb (n.val + i)
  | .q _ => []
/-- What a syllable of one core and no memory leaves alone, but for the queues `qs` that it pops or pushes, and the scalar registers `xs`,
the predicates `ps`, the physical vector registers `vs` and the masks `ms` that it names. At the end of a pass of an `rloop`, `p8` to `p15`
change too (R103). -/
def Keeps (s t : State) (a : At) (qs xs ps vs ms : List Nat) : Prop :=
  SameOutside s t a ∧ SameInside s t a qs ∧ SameMemory s t ∧ (∀ n, n ∉ xs → n < 64 → getX t a n = getX s a n) ∧
  (∀ n, n ∉ ps → n < 8 ∨ (∀ l, (sget {} (ctxOf s a).lv l).rot = false) → getP t a n = getP s a n) ∧
  (∀ p, p ∉ vs → sget 0 (cluAt t a.k a.c).xs.v p = sget 0 (cluAt s a.k a.c).xs.v p) ∧ ∀ n, n ∉ ms → getM t a n = getM s a n
/-- The syllable keeps so whenever it goes on without a record. -/
def Framed (i : Instr) (qs xs ps : List Nat) (vs : State → At → List Nat) (ms : List Nat) : Prop :=
  ∀ s t a, Moves s a → exec i s = .next t → NoRecord s t → Keeps s t a qs xs ps (vs s a) ms

end Sys2Proof.Machine
end

