-- ==== Sys2Proof/Certificates/Slice0/Obligations.lean ====
section
/-! DEFINITION. The statements for the provers. -/

open Sys2Proof Sys2Proof.Machine

/-- R112, register forms: every sum wraps, shifts take the low six bits of the second source. R112, immediate forms: IMM16 is sign-extended for `add`,
`sub`, `min` and `max`, zero-extended for the others. -/
def Obligations.IntegerArithmetic : Prop :=
  (∀ d x y,
  Gives2 (.add d x y) d x y (fun _ _ u v => u + v) ∧ Gives2 (.sub d x y) d x y (fun _ _ u v => u - v) ∧
  Gives2 (.and d x y) d x y (fun _ _ u v => u &&& v) ∧ Gives2 (.or d x y) d x y (fun _ _ u v => u ||| v) ∧
  Gives2 (.xor d x y) d x y (fun _ _ u v => u ^^^ v) ∧ Gives2 (.andn d x y) d x y (fun _ _ u v => u &&& ~~~v) ∧
  Gives2 (.shl d x y) d x y (fun _ _ u v => u <<< (v.toNat % 64)) ∧ Gives2 (.shr d x y) d x y (fun _ _ u v => u >>> (v.toNat % 64)) ∧
  Gives2 (.sra d x y) d x y (fun _ _ u v => u.sshiftRight (v.toNat % 64)) ∧ Gives2 (.rot d x y) d x y (fun _ _ u v => u.rotateLeft (v.toNat % 64)) ∧
  Gives2 (.min d x y) d x y (fun _ _ u v => if v.toInt < u.toInt then v else u) ∧
  Gives2 (.max d x y) d x y (fun _ _ u v => if u.toInt < v.toInt then v else u) ∧
  Gives2 (.minu d x y) d x y (fun _ _ u v => if v.toNat < u.toNat then v else u) ∧
  Gives2 (.maxu d x y) d x y (fun _ _ u v => if u.toNat < v.toNat then v else u)) ∧
  (∀ d x (imm : BitVec 16),
  Gives1 (.addImm d x imm) d x (fun _ _ u => u + imm.signExtend 64) ∧ Gives1 (.subImm d x imm) d x (fun _ _ u => u - imm.signExtend 64) ∧
  Gives1 (.andImm d x imm) d x (fun _ _ u => u &&& imm.zeroExtend 64) ∧ Gives1 (.orImm d x imm) d x (fun _ _ u => u ||| imm.zeroExtend 64) ∧
  Gives1 (.xorImm d x imm) d x (fun _ _ u => u ^^^ imm.zeroExtend 64) ∧ Gives1 (.andnImm d x imm) d x (fun _ _ u => u &&& ~~~(imm.zeroExtend 64)) ∧
  Gives1 (.shlImm d x imm) d x (fun _ _ u => u <<< (imm.toNat % 64)) ∧ Gives1 (.shrImm d x imm) d x (fun _ _ u => u >>> (imm.toNat % 64)) ∧
  Gives1 (.sraImm d x imm) d x (fun _ _ u => u.sshiftRight (imm.toNat % 64)) ∧ Gives1 (.rotImm d x imm) d x (fun _ _ u => u.rotateLeft (imm.toNat % 64)) ∧
  Gives1 (.minImm d x imm) d x (fun _ _ u => if imm.toInt < u.toInt then imm.signExtend 64 else u) ∧
  Gives1 (.maxImm d x imm) d x (fun _ _ u => if u.toInt < imm.toInt then imm.signExtend 64 else u) ∧
  Gives1 (.minuImm d x imm) d x (fun _ _ u => if imm.toNat < u.toNat then imm.zeroExtend 64 else u) ∧
  Gives1 (.maxuImm d x imm) d x (fun _ _ u => if u.toNat < imm.toNat then imm.zeroExtend 64 else u))

/-- R113: products and quotients by their exact values, the corners of the table, and what `div` and `rem` give together. `clz`, `popc` and `ctz` by
the bits of their source: 64 for a source of 0. -/
def Obligations.MultiplyDivideCount : Prop :=
  (∀ d x y,
  Gives2 (.mul d x y) d x y (fun _ _ u v => u * v) ∧
  (∃ f : Word → Word → Word, Gives2 (.mulh d x y) d x y (fun _ _ => f) ∧ ∀ u v, (f u v).toInt = u.toInt * v.toInt / 2 ^ 64) ∧
  (∃ f : Word → Word → Word, Gives2 (.mulhu d x y) d x y (fun _ _ => f) ∧ ∀ u v, (f u v).toNat = u.toNat * v.toNat / 2 ^ 64) ∧
  (∃ q r : Word → Word → Word, Gives2 (.div d x y) d x y (fun _ _ => q) ∧ Gives2 (.rem d x y) d x y (fun _ _ => r) ∧
    (∀ u, q u 0 = 0xFFFF_FFFF_FFFF_FFFF ∧ r u 0 = u) ∧
    q 0x8000_0000_0000_0000 (-1) = 0x8000_0000_0000_0000 ∧ r 0x8000_0000_0000_0000 (-1) = 0 ∧
    (∀ u v, v ≠ 0 → ¬(u = 0x8000_0000_0000_0000 ∧ v = -1) → (q u v).toInt = u.toInt.tdiv v.toInt ∧ (r u v).toInt = u.toInt.tmod v.toInt) ∧
    ∀ u v, u = v * q u v + r u v) ∧
  (∃ q r : Word → Word → Word, Gives2 (.divu d x y) d x y (fun _ _ => q) ∧ Gives2 (.remu d x y) d x y (fun _ _ => r) ∧
    (∀ u, q u 0 = 0xFFFF_FFFF_FFFF_FFFF ∧ r u 0 = u) ∧
    ∀ u v, v ≠ 0 → (q u v).toNat = u.toNat / v.toNat ∧ (r u v).toNat = u.toNat % v.toNat)) ∧
  (∀ d x,
  (∃ f : Word → Nat, Gives1 (.clz d x) d x (fun _ _ u => BitVec.ofNat 64 (f u)) ∧
    ∀ u, f u ≤ 64 ∧ (∀ i < f u, u.getLsbD (63 - i) = false) ∧ (f u < 64 → u.getLsbD (63 - f u) = true)) ∧
  (∃ f : Word → Nat, Gives1 (.ctz d x) d x (fun _ _ u => BitVec.ofNat 64 (f u)) ∧
    ∀ u, f u ≤ 64 ∧ (∀ i < f u, u.getLsbD i = false) ∧ (f u < 64 → u.getLsbD (f u) = true)) ∧
  Gives1 (.popc d x) d x (fun _ _ u => BitVec.ofNat 64 ((List.range 64).countP fun i => u.getLsbD i)))

/-- R114: `bfx` and `bfi` bit by bit, and their trap for a field that leaves the register, which comes before any wait for a queue (the model's
reading, log 84). R115: `li` sign-extends IMM26, `lih` replaces one of the four chunks. -/
def Obligations.FieldsAndConstants : Prop :=
  (∀ (d x : SOp) (n : Fin 64) (pos len1 : BitVec 6),
  let len := len1.toNat + 1
  (pos.toNat + len ≤ 64 →
    (∃ f : Word → Word, Gives1 (.bfxU d x pos len1) d x (fun _ _ => f) ∧ ∀ u, ∀ i < 64, (f u).getLsbD i = (decide (i < len) && u.getLsbD (pos.toNat + i))) ∧
    (∃ f : Word → Word, Gives1 (.bfxS d x pos len1) d x (fun _ _ => f) ∧
      ∀ u, ∀ i < 64, (f u).getLsbD i = u.getLsbD (pos.toNat + if i < len then i else len - 1)) ∧
    (∃ f : Word → Word → Word, Gives1 (.bfi n x pos len1) (.x n) x (fun s a => f (getX s a n.val)) ∧
      ∀ old u, ∀ i < 64, (f old u).getLsbD i = if pos.toNat ≤ i ∧ i < pos.toNat + len then u.getLsbD (i - pos.toNat) else old.getLsbD i)) ∧
  (64 < pos.toNat + len → Goes (.bfxU d x pos len1) (fun a s => trapTy a .illegalOperand s) ∧ Goes (.bfxS d x pos len1) (fun a s => trapTy a .illegalOperand s) ∧
    Goes (.bfi n x pos len1) fun a s => trapTy a .illegalOperand s)) ∧
  (∀ (d : SOp) (n : Fin 64) (c : Fin 4) (imm26 : BitVec 26) (imm : BitVec 16),
  GoesQ (.li d imm26) [] (pushS d) (fun a s => retire a (putS a d (imm26.signExtend 64) s)) ∧
  ∃ f : Word → Word, Goes (.lih n c imm) (fun a s => retire a (setX s a n.val (f (getX s a n.val)))) ∧
    ∀ u, ∀ i < 64, (f u).getLsbD i = if 16 * c.val ≤ i ∧ i < 16 * c.val + 16 then imm.getLsbD (i - 16 * c.val) else u.getLsbD i)

/-- R116: conditions of `cmp`, with IMM16 sign-extended for the first four and zero-extended for `ltu` and `geu`; and `sel`, which pops both sources
whatever its predicate. R122: `ptox` gives bit k for `p`k with bit 0 set and zeros above bit 15; `xtop` sets `p1` to `p15` together from the same
layout. -/
def Obligations.CompareSelectTransfer : Prop :=
  (∀ (p : Fin 16) (d x y : SOp) (imm : BitVec 16) (neg : Bool),
  Sets2 (.cmpEq p x y) p x y (fun u v => decide (u = v)) ∧ Sets2 (.cmpNe p x y) p x y (fun u v => decide (u ≠ v)) ∧
  Sets2 (.cmpLt p x y) p x y (fun u v => decide (u.toInt < v.toInt)) ∧ Sets2 (.cmpGe p x y) p x y (fun u v => decide (v.toInt ≤ u.toInt)) ∧
  Sets2 (.cmpLtu p x y) p x y (fun u v => decide (u.toNat < v.toNat)) ∧ Sets2 (.cmpGeu p x y) p x y (fun u v => decide (v.toNat ≤ u.toNat)) ∧
  Sets1 (.cmpEqImm p x imm) p x (fun u => decide (u = imm.signExtend 64)) ∧ Sets1 (.cmpNeImm p x imm) p x (fun u => decide (u ≠ imm.signExtend 64)) ∧
  Sets1 (.cmpLtImm p x imm) p x (fun u => decide (u.toInt < imm.toInt)) ∧ Sets1 (.cmpGeImm p x imm) p x (fun u => decide (imm.toInt ≤ u.toInt)) ∧
  Sets1 (.cmpLtuImm p x imm) p x (fun u => decide (u.toNat < imm.toNat)) ∧ Sets1 (.cmpGeuImm p x imm) p x (fun u => decide (imm.toNat ≤ u.toNat)) ∧
  Gives2 (.sel d x y p neg) d x y (fun s a u v => if getP s a p.val != neg then u else v)) ∧
  (∀ (d x : SOp),
  (∃ f : State → At → Word, GoesQ (.ptox d) [] (pushS d) (fun a s => retire a (putS a d (f s a) s)) ∧
    ∀ s a, ∀ i < 64, (f s a).getLsbD i = (decide (i < 16) && getP s a i)) ∧
  ∃ g : At → Word → State → State, GoesQ (.xtop x) (popsS [x]) [] (fun a s => retire a (g a (takeS a x s).1 (takeS a x s).2)) ∧
    ∀ a u s, ∀ i < 16, getP (g a u s) a i = (decide (i = 0) || u.getLsbD i))

/-- R117, R118, R119, R120, R72: scalar floating point reads the low bits of its type and writes zeros above the result; the first NaN operand comes
back with its quiet bit set; a sum of opposite infinities and a product of zero and infinity give a NaN of class 2; every other result of finite
operands is the exact one rounded once (`fRne`, of which `Rounding` says what it is); `fmin` and `fmax` give the smaller and the larger number with -0
below +0; `fcmp` with a NaN gives 1 for `ne` and `un` alone; `fcvt` follows the table of R120, with R59, R62, R65, R66 and R73: integers saturate, a
NaN to an integer gives 0 and an infinity the range's end, an overflow into fp16 or bf16 the NaN of class 4, and a tapered result is the nearest code.
-/
def Obligations.FloatingPoint : Prop :=
  ∀ (t : FTy) (dt st : Ety) (rz : Bool) (c : FCond) (p : Fin 16) (d x y z : SOp),
  let w := fW t
  let lo := fun (u : Word) => u.toNat % 2 ^ w
  let up := fun (r : Nat) => BitVec.ofNat 64 (r % 2 ^ w)
  Gives2 (.fadd t d x y) d x y (fun s a u v => up (fAdd t (locOf s a) (lo u) (lo v))) ∧
  Gives2 (.fsub t d x y) d x y (fun s a u v => up (fSub t (locOf s a) (lo u) (lo v))) ∧
  Gives2 (.fmul t d x y) d x y (fun s a u v => up (fMul t (locOf s a) (lo u) (lo v))) ∧
  Gives3 (.fma t d x y z) d x y z (fun s a u v e => up (fFma t (locOf s a) (lo u) (lo v) (lo e))) ∧
  Gives2 (.fmin t d x y) d x y (fun _ _ u v => up (fMin t (lo u) (lo v))) ∧ Gives2 (.fmax t d x y) d x y (fun _ _ u v => up (fMax t (lo u) (lo v))) ∧
  Sets2 (.fcmp t c p x y) p x y (fun u v =>
    if fIsNan t (lo u) || fIsNan t (lo v) then decide (c = .ne ∨ c = .un)
    else match c with
      | .eq => decide (fOrd t (lo u) = fOrd t (lo v))
      | .ne => decide (fOrd t (lo u) ≠ fOrd t (lo v))
      | .lt => decide (fOrd t (lo u) < fOrd t (lo v))
      | .le => decide (fOrd t (lo u) ≤ fOrd t (lo v))
      | .un => false) ∧
  Gives1 (.fcvt dt st rz d x) d x (fun s a u => regOfElem dt (convert dt st rz (locOf s a) (u.toNat % 2 ^ etyW st))) ∧
  (∀ l u v e, (fIsNan t u = true → fAdd t l u v = fQuiet t u ∧ fSub t l u v = fQuiet t u ∧ fMul t l u v = fQuiet t u ∧ fFma t l u v e = fQuiet t u ∧
      fMin t u v = fQuiet t u ∧ fMax t u v = fQuiet t u) ∧
    (fIsNan t u = false → fIsNan t v = true → fAdd t l u v = fQuiet t v ∧ fSub t l u v = fQuiet t v ∧ fMul t l u v = fQuiet t v ∧
      fFma t l u v e = fQuiet t v ∧ fMin t u v = fQuiet t v ∧ fMax t u v = fQuiet t v) ∧
    (fIsNan t u = false → fIsNan t v = false → fIsNan t e = true → fFma t l u v e = fQuiet t e)) ∧
  (∀ l u v e, let fin := fun x => fIsNan t x = false ∧ fIsInf t x = false
    (fin u → fin v →
      fAdd t l u v = fRne t (fNeg t u && fNeg t v) (qAdd (fQ t u) (fQ t v)) ∧
      fSub t l u v = fRne t (fNeg t u && !fNeg t v) (qAdd (fQ t u) (qNeg (fQ t v))) ∧
      fMul t l u v = fRne t (fNeg t u != fNeg t v) (qMul (fQ t u) (fQ t v)) ∧
      (fin e → fFma t l u v e = fRne t ((fNeg t u != fNeg t v) && fNeg t e) (qAdd (qMul (fQ t u) (fQ t v)) (fQ t e)))) ∧
    (fIsInf t u = true → fIsInf t v = true → fNeg t u ≠ fNeg t v → fAdd t l u v = mkNan t 2 l) ∧
    (fIsInf t u = true → fIsInf t v = true → fNeg t u = fNeg t v → fSub t l u v = mkNan t 2 l) ∧
    (fIsInf t u = true → fin v → fAdd t l u v = u ∧ fSub t l u v = u) ∧
    (fIsInf t u = true → fIsZero t v = true → fMul t l u v = mkNan t 2 l)) ∧
  (∀ l u, etyInt dt = true → fIsNan t u = true → convert dt (ftyE t) rz l u = 0) ∧
  -- `below`: by value, and -0 below +0 (R118)
  (let below := fun (u v : Nat) => fOrd t u < fOrd t v ∨ (fOrd t u = fOrd t v ∧ fNeg t u = true ∧ fNeg t v = false)
   ∀ u < 2 ^ w, ∀ v < 2 ^ w, fIsNan t u = false → fIsNan t v = false →
    (below u v → fMin t u v = u ∧ fMax t u v = v) ∧ (below v u → fMin t u v = v ∧ fMax t u v = u) ∧
    (¬below u v → ¬below v u → u = v ∧ fMin t u v = u ∧ fMax t u v = u)) ∧
  -- R120 row by row; `whole` is a value rounded by R59, `put` an integer clamped to the destination's range
  (∀ l u six,
    let tapered := st = if six then Ety.tf6 else .tf8
    let whole := fun (q : Q) (r : Int) => if rz then r = q.n.tdiv q.d
      else 2 * (r * q.d - q.n).natAbs ≤ q.d ∧ (2 * (r * q.d - q.n).natAbs = q.d → r % 2 = 0)
    let lo : Int := if etySigned dt then -(2 ^ (etyW dt - 1)) else 0
    let hi : Int := if etySigned dt then 2 ^ (etyW dt - 1) - 1 else 2 ^ etyW dt - 1
    let put := fun (i : Int) => (max lo (min hi i) % 2 ^ etyW dt).toNat
    (etyInt dt = true →
      (etyInt st = true → convert dt st rz l u = put (elemInt st u)) ∧
      (∀ f, etyF st = some f → fIsNan f u = false →
        (fIsInf f u = false → ∃ r, whole (fQ f u) r ∧ convert dt st rz l u = put r) ∧
        (fIsInf f u = true → convert dt st rz l u = put (if fNeg f u then lo else hi))) ∧
      (tapered → if tapIsNan six u then convert dt st rz l u = 0 else ∃ r, whole (tapQ six u) r ∧ convert dt st rz l u = put r)) ∧
    (∀ f, etyF dt = some f →
      let once := fun (neg : Bool) (q : Q) => if fIsInf f (fRne f neg q) = true ∧ f ≠ .fp32 then mkNan f 4 l else fRne f neg q
      (etyInt st = true → convert dt st rz l u = once false (qInt (elemInt st u))) ∧
      (∀ g, etyF st = some g → g ≠ f → convert dt st rz l u =
        if fIsNan g u then mkNan f (nanFields g u).1 (nanFields g u).2
        else if fIsInf g u then fWithSign f (fNeg g u) (fInf f) else once (fNeg g u) (fQ g u)) ∧
      (st = dt → convert dt st rz l u = if fIsNan f u then fQuiet f u else u) ∧
      (tapered → convert dt st rz l u = if tapIsNan six u then mkNan f 1 l else once false (tapQ six u))) ∧
    (∀ d6 : Bool, (dt = if d6 then Ety.tf6 else .tf8) →
      (etyInt st = true → convert dt st rz l u = tapSat d6 (qInt (elemInt st u))) ∧
      (∀ g, etyF st = some g → convert dt st rz l u =
        if fIsNan g u then tapNan d6 else if fIsInf g u then (if fNeg g u then tapNan d6 else 0) + tapTop d6 else tapSat d6 (fQ g u)) ∧
      (tapered → st ≠ dt → convert dt st rz l u = if tapIsNan six u then tapNan d6 else tapSat d6 (tapQ six u)) ∧
      (st = dt → convert dt st rz l u = u % 2 ^ (tapN d6 + 1)))) ∧
  -- R65: the nearest code, a tie to the one whose bit 0 is clear, and never the NaN
  ∀ (six : Bool) (q : Q), 0 < q.d →
    let r := tapSat six q
    let dist := fun (x : Q) => let z := qAdd x (qNeg q); if z.n < 0 then qNeg z else z
    r < 2 ^ (tapN six + 1) ∧ tapIsNan six r = false ∧
    ∀ x < 2 ^ (tapN six + 1), tapIsNan six x = false → qLt (dist (tapQ six x)) (dist (tapQ six r)) = false ∧
      (qLt (dist (tapQ six r)) (dist (tapQ six x)) = false → r % 2 = 1 → x = r)

/-- R61: rounding to the nearest encoding, ties to the one whose last bit is 0: no finite value lies nearer to the exact one than the result; beyond
the largest finite value by half a unit of its last place or more the result is infinite, below that it is finite; it is never a NaN, and an exact
zero keeps the sign that it is given. -/
def Obligations.Rounding : Prop :=
  ∀ (t : FTy) (neg0 : Bool) (q : Q), 0 < q.d →
  let r := fRne t neg0 q
  let dist := fun (x : Q) (y : Q) => let z := qAdd x (qNeg y); if z.n < 0 then qNeg z else z
  let top : Q := qDy (2 ^ (fMb t + 2) - 1) ((fBias t : Int) - (fMb t : Int) - 1)
  r < 2 ^ fW t ∧ fIsNan t r = false ∧ (fIsInf t r = true ↔ qLt (dist q ⟨0, 1⟩) top = false) ∧
  (q.n = 0 → r = fWithSign t neg0 0) ∧ (q.n ≠ 0 → fNeg t r = decide (q.n < 0)) ∧
  (fIsInf t r = false → ∀ x < 2 ^ fW t, fIsNan t x = false → fIsInf t x = false →
    qLt (dist (fQ t x) q) (dist (fQ t r) q) = false ∧
    (qLt (dist (fQ t r) q) (dist (fQ t x) q) = false → r % 2 = 1 → fMag t x = fMag t r))

/-- R121: the six functions of predicates, with `p0` as a source and as a destination. -/
def Obligations.PredicateLogic : Prop :=
  (∀ d p q : Fin 16,
    Goes (.pand d p q) (fun a s => retire a (setP s a d.val (getP s a p.val && getP s a q.val))) ∧
    Goes (.por d p q) (fun a s => retire a (setP s a d.val (getP s a p.val || getP s a q.val))) ∧
    Goes (.pxor d p q) (fun a s => retire a (setP s a d.val (getP s a p.val != getP s a q.val))) ∧
    Goes (.pandn d p q) (fun a s => retire a (setP s a d.val (getP s a p.val && !getP s a q.val))) ∧
    Goes (.pnot d p) (fun a s => retire a (setP s a d.val (!getP s a p.val))) ∧ Goes (.pmov d p) (fun a s => retire a (setP s a d.val (getP s a p.val)))) ∧
  (∀ s a, getP s a 0 = true) ∧ (∀ s a v, setP s a 0 v = s) ∧
  ∀ s a v, ∀ n < 16, n ≠ 0 → getP (setP s a n v) a n = v ∧ ∀ m < 16, m ≠ n → getP (setP s a n v) a m = getP s a m

/-- R28, R31, R32, R149: a register source reads the register and a queue source takes the oldest entry; a register result is read back and touches no
other register; `x0` reads 0 and a write to it is discarded; a pushed entry comes out after those before it. While an entry is reserved in the queue
for the result of an outstanding access, what is pushed waits behind it (R109). R31, R92: a syllable of two scalar sources whose queues are not ready
changes nothing but the mark that says what its context waits for. -/
def Obligations.OperandsAndStalls : Prop :=
  (∀ (s : State) (a : At) (v : Word),
  (∀ n : Fin 64, takeS a (.x n) s = (getX s a n.val, s)) ∧ (∀ n : Fin 64, putS a (.x n) v s = setX s a n.val v) ∧
  getX s a 0 = 0 ∧ setX s a 0 v = s ∧
  (∀ n < 64, n ≠ 0 → getX (setX s a n v) a n = v ∧ ∀ m < 64, m ≠ n → getX (setX s a n v) a m = getX s a m) ∧
  ∀ n : Fin 4, ¬(n = 1 ∧ (a.c = .X1 ∨ ended (coreAt s a.k).x0.run = true)) → (coreAt s a.k).runClk = false →
    (takeS a (.q n) s).1 = (sget [] (coreAt s a.k).sq (12 + n.val)).headD 0 ∧
    sget [] (coreAt (takeS a (.q n) s).2 a.k).sq (12 + n.val) = (sget [] (coreAt s a.k).sq (12 + n.val)).tail ∧
    ((∀ e ∈ (coreAt s a.k).late, e.q ≠ 12 + n.val) →
      sget [] (coreAt (putS a (.q n) v s) a.k).sq (12 + n.val) = sget [] (coreAt s a.k).sq (12 + n.val) ++ [v]) ∧
    ((∃ e ∈ (coreAt s a.k).late, e.q = 12 + n.val) → (coreAt (putS a (.q n) v s) a.k).sq = (coreAt s a.k).sq ∧
      (coreAt (putS a (.q n) v s) a.k).late.map (fun e => (e.q, e.v.map (·.2))) =
        (coreAt s a.k).late.map (fun e => (e.q, e.v.map (·.2))) ++ [(12 + n.val, some v)])) ∧
  (∀ s a d x y, Moves s a → ¬QueuesOk s a (popsS [x, y]) (pushS d) →
  ∀ i ∈ [Instr.add d x y, .sub d x y, .and d x y, .or d x y, .xor d x y, .andn d x y, .shl d x y, .shr d x y, .sra d x y, .rot d x y,
      .min d x y, .max d x y, .minu d x y, .maxu d x y, .mul d x y, .mulh d x y, .mulhu d x y, .div d x y, .divu d x y, .rem d x y, .remu d x y],
    ∃ b, b ≠ .no ∧ exec i s = .next (modCtx s a fun t => { t with blocked := b }))

/-- R93, R102: where a syllable that takes no branch leaves the program counter, `d` syllables on where it falls through (1, or past the body of a
`loop` with count 0). With no armed level ending at it, the next index, and no level changes; a context whose next index does not exist stops at
PC_RANGE. The level armed last, where it ends there, loops back while its count is above 1, and nothing but its count changes; with a count of 1 or
less it falls through disarmed, LOOPC reads 0, and the others stay as they were; the stage predicates of an `rloop` are 0 then (R103). `br`, `brp`,
`brx`, `call` and `ret` (04, R102, R106): the target, PC_RANGE outside the memory, the link register, and which of them disarm the loop levels they
leave: a level whose body the target leaves, and every level armed after it; the others stay armed. -/
def Obligations.NextSyllable : Prop :=
  (∀ (s : State) (a : At) (d l : Nat) (ls : List Nat),
  let t := ctxOf s a
  let s1 := advanceBy a d s
  let v := sget {} t.lv l
  let no := fun (os : List Nat) => ∀ j ∈ os, (sget {} t.lv j).armed = true → (sget {} t.lv j).fin ≠ t.pc
  retire a s = advanceBy a 1 (meterIssue a s) ∧ ctxOf (meterIssue a s) a = t ∧
  (t.pc + d < pcLimit a → no t.order → pcOf s1 a = t.pc + d ∧ (ctxOf s1 a).lv = t.lv ∧ (ctxOf s1 a).order = t.order) ∧
  (pcLimit a ≤ t.pc + d → no t.order → a.x = .user → (cluAt s1 a.k a.c).stop = some s.dev.nextToken) ∧
  (t.order = l :: ls → v.armed = true → v.fin = t.pc → 1 < v.count → v.start < pcLimit a →
    pcOf s1 a = v.start ∧ sget {} (ctxOf s1 a).lv l = { v with count := v.count - 1 } ∧ (∀ j, j ≠ l → sget {} (ctxOf s1 a).lv j = sget {} t.lv j) ∧
    (ctxOf s1 a).order = t.order ∧ (v.rot = false → (ctxOf s1 a).p = t.p ∧ (a.x = .user → (cluAt s1 a.k a.c).xs = (cluAt s a.k a.c).xs)) ∧
    (v.rot = true → a.x = .user → (cluAt s1 a.k a.c).xs = (rotate t (cluAt s a.k a.c).xs).2 ∧ (ctxOf s1 a).p = (rotate t (cluAt s a.k a.c).xs).1.p)) ∧
  (t.order = l :: ls → v.armed = true → v.fin = t.pc → v.count ≤ 1 → no (ls.filter (· != l)) → t.pc + d < pcLimit a →
    pcOf s1 a = t.pc + d ∧ (sget {} (ctxOf s1 a).lv l).armed = false ∧ (sget {} (ctxOf s1 a).lv l).count = 0 ∧
    (∀ j, j ≠ l → sget {} (ctxOf s1 a).lv j = sget {} t.lv j) ∧ (ctxOf s1 a).order = ls.filter (· != l) ∧
    (a.x = .user → (cluAt s1 a.k a.c).xs = { (cluAt s a.k a.c).xs with sp := if v.rot then 0 else (cluAt s a.k a.c).xs.sp }))) ∧
  (∀ (s : State) (a : At) (off : BitVec 26) (d : Fin 64) (x : SOp), Moves s a →
  let t : Int := (pcOf s a : Int) + off.toInt
  (0 ≤ t ∧ t ≤ 32767 →
    exec (.br off) s = .next (branchTo a t.toNat true s) ∧ exec (.brp off) s = .next (branchTo a t.toNat true s) ∧
    exec (.call d off) s = .next (branchTo a t.toNat false (setX s a d.val (BitVec.ofNat 64 (pcOf s a + 1))))) ∧
  (t < 0 ∨ 32767 < t →
    exec (.br off) s = .next (trapTy a .pcRange s) ∧ exec (.brp off) s = .next (trapTy a .pcRange s) ∧ exec (.call d off) s = .next (trapTy a .pcRange s)) ∧
  (QueuesOk s a (popsS [x]) [] →
    let r := takeS a x s
    (r.1.toNat ≤ 32767 → exec (.brx x) s = .next (branchTo a r.1.toNat true r.2) ∧ exec (.ret x) s = .next (branchTo a r.1.toNat false r.2)) ∧
    (32767 < r.1.toNat → exec (.brx x) s = .next (trapTy a .pcRange s) ∧ exec (.ret x) s = .next (trapTy a .pcRange s))) ∧
  ∀ u o, u < pcLimit a → pcOf (branchTo a u o s) a = u ∧ (o = false → (ctxOf (branchTo a u o s) a).lv = (ctxOf s a).lv) ∧
    ∀ pre l post, (ctxOf s a).order = pre ++ l :: post → (ctxOf s a).order.Nodup → o = true →
      let t := ctxOf s a
      let out := fun j => (sget {} t.lv j).armed = true ∧ (u < (sget {} t.lv j).start ∨ (sget {} t.lv j).fin < u)
      ((∃ j ∈ l :: post, out j) → (sget {} (ctxOf (branchTo a u o s) a).lv l).armed = false) ∧
      ((∀ j ∈ l :: post, ¬out j) → sget {} (ctxOf (branchTo a u o s) a).lv l = sget {} t.lv l))

/-- R102: arming a level, the count of `x0` taken from LCOUNT, and the traps in their order. With a count of 0 the syllable falls through past the
body, and its own level is left as it was (the model's choice, log entry 91). R103: `rloop` arms with count n + S - 1 and starts stage 0 of n passes,
and a pass boundary rotates the register base, shifts the stage predicates and copies them into `p8` to `p15`; a level armed by `rloop` elsewhere
traps. -/
def Obligations.LoopLevels : Prop :=
  (∀ (s : State) (a : At) (l : Fin 6) (x : SOp) (off : BitVec 16), Moves s a → QueuesOk s a (popsS [x]) [] →
  ¬(a.x = .user ∧ a.c = .K ∧ (coreAt s a.k).ks.uliActive = true) →
  let t := ctxOf s a
  let e := t.pc + off.toNat
  let n := if x = .x 0 then lnch s a.k (fun p => p.counts.getD l.val 0) else (takeS a x s).1.toNat % 2 ^ 32
  let s1 := if x = .x 0 then s else (takeS a x s).2
  let rot := (List.range 6).any fun j => (sget {} t.lv j).armed && (sget {} t.lv j).rot
  (off = 0 → exec (.loop l x off) s = .next (trapTy a .illegalOperand s)) ∧
  (off ≠ 0 → 32767 < e → exec (.loop l x off) s = .next (trapTy a .pcRange s)) ∧
  (off ≠ 0 → e ≤ 32767 → rot = true → exec (.loop l x off) s = .next (trapTy a .loopState s)) ∧
  (off ≠ 0 → e ≤ 32767 → rot = false → n = 0 → exec (.loop l x off) s = .next (advanceBy a (off.toNat + 1) (meterIssue a s1))) ∧
  (off ≠ 0 → e ≤ 32767 → rot = false → n ≠ 0 → exec (.loop l x off) s = .next (retire a (modCtx s1 a fun t =>
    { t with lv := sset {} t.lv l.val { start := t.pc + 1, fin := t.pc + off.toNat, count := n, armed := true, rot := false },
             order := l.val :: t.order.filter (· != l.val) })))) ∧
  (∀ (s : State) (a : At) (l : Fin 6) (st : Fin 8) (x : SOp) (off : BitVec 16), Moves s a → QueuesOk s a (popsS [x]) [] →
  a.x = .user → a.c ≠ .K →
  let t := ctxOf s a
  let e := t.pc + off.toNat
  let n := if x = .x 0 then lnch s a.k (fun p => p.counts.getD l.val 0) else (takeS a x s).1.toNat % 2 ^ 32
  let s1 := if x = .x 0 then s else (takeS a x s).2
  let other := (List.range 6).any fun j => j != l.val && (sget {} t.lv j).armed && (sget {} t.lv j).rot
  (off = 0 → exec (.rloop l st x off) s = .next (trapTy a .illegalOperand s)) ∧
  (off ≠ 0 → 32767 < e → exec (.rloop l st x off) s = .next (trapTy a .pcRange s)) ∧
  (off ≠ 0 → e ≤ 32767 → other = true → exec (.rloop l st x off) s = .next (trapTy a .loopState s)) ∧
  (off ≠ 0 → e ≤ 32767 → other = false → n = 0 → exec (.rloop l st x off) s = .next (advanceBy a (off.toNat + 1) (meterIssue a s1))) ∧
  (off ≠ 0 → e ≤ 32767 → other = false → n ≠ 0 → ∃ s2, exec (.rloop l st x off) s = .next (retire a s2) ∧
    sget {} (ctxOf s2 a).lv l.val = { start := t.pc + 1, fin := e, count := n + (st.val + 1) - 1, armed := true, rot := true } ∧
    (cluAt s2 a.k a.c).xs.sp = 1 ∧ (∀ j < 8, getP s2 a (8 + j) = decide (j = 0)) ∧ (∀ j < 8, getP s2 a j = getP s1 a j) ∧
    (cluAt s2 a.k a.c).xs.rrb = (cluAt s1 a.k a.c).xs.rrb ∧ (ctxOf s2 a).rotN = n ∧ (ctxOf s2 a).rotStarted = 1 ∧
    (ctxOf s2 a).order = l.val :: t.order.filter (· != l.val)) ∧
  ∀ (t : Ctx) (xs : XSt), (rotate t xs).2.rrb = (xs.rrb + 127) % 128 ∧ (rotate t xs).1.rotStarted = t.rotStarted + 1 ∧
    (rotate t xs).2.sp.getLsbD 0 = decide (t.rotStarted < t.rotN) ∧
    (∀ j < 7, (rotate t xs).2.sp.getLsbD (j + 1) = xs.sp.getLsbD j) ∧
    (∀ j < 8, (rotate t xs).1.p.getLsbD (8 + j) = (rotate t xs).2.sp.getLsbD j ∧ (rotate t xs).1.p.getLsbD j = t.p.getLsbD j))

/-- `nop`, `exit`, `sync`, `safept`, `idle` and `ovl` (04, R91, R97, R104, R324). `sysrd` and `syswr` (04, R40, R101): the value of every register of
R101; a number that no table gives traps ILLEGAL_OPERAND; only LSMASK is writable at user level, and a write to any other register traps
ILLEGAL_PRIVILEGE there. The model's readings: a `syswr` that traps for its register does not wait for the queue of its source (log 84); a level that
is armed no longer reads 0 in both bits of LOOPARM (log 99). -/
def Obligations.StreamsAndSystemRegisters : Prop :=
  (∀ (s : State) (a : At) (n : Fin 16) (mask : BitVec 4), Moves s a →
  let o := coreAt s a.k
  exec .nop s = .next (retire a s) ∧
  (a.x = .user → ∃ t, exec .exit s = .next t ∧ (cluAt t a.k a.c).run = .exited ∧ (coreAt t a.k).lsmask.getLsbD (cnum a.c) = false) ∧
  ((a.x ≠ .user ∨ sBit s a = true ∨ o.lsmask.getLsbD (cnum a.c) = false) → exec .sync s = .next (retire a s)) ∧
  (a.x = .user → sBit s a = false → o.lsmask.getLsbD (cnum a.c) = true → (cluAt s a.k a.c).syncWait = false →
    let s1 := modClu s a.k a.c fun u => { u with syncCnt := u.syncCnt + 1, syncWait := true }
    ((∀ d, o.lsmask.getLsbD (cnum d) = true → ended (cluAt s a.k d).run = false → d ≠ a.c → (cluAt s a.k a.c).syncCnt < (cluAt s a.k d).syncCnt) →
      exec .sync s = .next (retire a (modClu s1 a.k a.c fun u => { u with syncWait := false }))) ∧
    ((∃ d, o.lsmask.getLsbD (cnum d) = true ∧ ended (cluAt s a.k d).run = false ∧ d ≠ a.c ∧ (cluAt s a.k d).syncCnt ≤ (cluAt s a.k a.c).syncCnt) →
      exec .sync s = .next (block a .other s1))) ∧
  (o.preempt = false → exec .safept s = .next (retire a s)) ∧
  (a.x = .user → o.preempt = true → exec .safept s = .next (modClu (retire a s) a.k a.c fun u =>
    { u with safeStop := true, safeId := (wordAt s a (pcOf s a)).toNat % 2 ^ 16 })) ∧
  (a.x = .user → o.ks.uliActive = false → exec .idle s = .next (modClu (retire a s) a.k a.c fun u => { u with idling := true })) ∧
  (a.x = .user → o.ks.uliActive = true → exec .idle s = .next (trapTy a .illegalOperand s)) ∧
  ((n = 0 ∨ mask = 0) → exec (.ovl n mask) s = .next (trapTy a .illegalOperand s)) ∧
  (n ≠ 0 → mask ≠ 0 → (imageOf s a.k = none ∨ ∃ im c, imageOf s a.k = some im ∧ mask.getLsbD (cnum c) = true ∧ ovlSect im c n.val = none) →
    exec (.ovl n mask) s = .next (trapTy a .overlayMissing s)) ∧
  ∀ im, n ≠ 0 → mask ≠ 0 → imageOf s a.k = some im → (∀ c, mask.getLsbD (cnum c) = true → (ovlSect im c n.val).isSome) →
    ∃ l, exec (.ovl n mask) s = .next (retire a (modCore s a.k fun o => { o with ovl := o.ovl ++ l })) ∧
      l.map (·.cl) = [Cluster.K, .A, .X0, .X1].filter fun c => mask.getLsbD (cnum c)) ∧
  (∀ (s : State) (a : At) (d x : SOp) (r : BitVec 10), Moves s a →
  (∀ v, sysRead s a r.toNat = .ok v → QueuesOk s a [] (pushS d) → exec (.sysrd d r) s = .next (retire a (putS a d v s))) ∧
  (∀ e, sysRead s a r.toNat = .error e → exec (.sysrd d r) s = .next (trapTy a e s)) ∧
  (QueuesOk s a (popsS [x]) [] →
    (∀ t, sysWrite (takeS a x s).2 a r.toNat (takeS a x s).1 = .ok t → exec (.syswr x r) s = .next (retire a t)) ∧
    (∀ e, sysWrite (takeS a x s).2 a r.toNat (takeS a x s).1 = .error e → exec (.syswr x r) s = .next (trapTy a e s))) ∧
  (∀ e, sysWrite s a r.toNat 0 = .error e → exec (.syswr x r) s = .next (trapTy a e s)) ∧
  (let o := coreAt s a.k
   let t := ctxOf s a
   let reads := fun (n v : Nat) => sysRead s a n = .ok (BitVec.ofNat 64 v)
   let numbers := [0x000, 0x001, 0x002, 0x003, 0x004, 0x005, 0x006, 0x008, 0x009, 0x00A, 0x00B, 0x00C, 0x00D, 0x010, 0x011, 0x012, 0x013, 0x014, 0x015,
     0x020, 0x021, 0x022, 0x023, 0x030, 0x031, 0x032, 0x033, 0x034, 0x035, 0x038, 0x039, 0x03A, 0x100, 0x101, 0x110, 0x111, 0x112, 0x113, 0x114, 0x115,
     0x116, 0x117, 0x118, 0x119, 0x120, 0x121, 0x122, 0x123, 0x130, 0x140, 0x141]
   reads 0x001 ((match a.c with | .K => 0 | .A => 1 | .X0 => 2 | .X1 => 3) + if a.x = .fw then 4 else 0) ∧
   (∀ l, launchAt s a.k = some l → reads 0x002 l.pkt.image ∧ reads 0x003 l.pkt.argbase ∧ reads 0x005 l.pkt.cls ∧
     (∃ w : Word, sysRead s a 0x006 = .ok w ∧ w.toNat < 4096 ∧ ∀ i < 6, w.toNat / 4 ^ i % 4 = l.pkt.kinds.getD i 0 % 4) ∧
     ∀ i < 6, reads (0x008 + i) (l.pkt.counts.getD i 0)) ∧
   (∀ im, imageOf s a.k = some im → reads 0x004 im.database) ∧ (∀ i, o.inst = some i → ∀ j < 6, reads (0x010 + j) (i.coords.getD j 0)) ∧
   reads 0x021 o.ks.fwshare ∧ (∀ j < 6, reads (0x030 + j) (sget {} t.lv j).count) ∧
   (∃ w : Word, sysRead s a 0x038 = .ok w ∧ ∀ i < 64, w.getLsbD i = (decide (i < 6) && (sget {} t.lv i).armed ||
     decide (8 ≤ i ∧ i < 14) && (sget {} t.lv (i - 8)).armed && (sget {} t.lv (i - 8)).rot)) ∧
   (isX a.c = true → reads 0x039 (cluAt s a.k a.c).xs.rrb ∧ reads 0x03A (cluAt s a.k a.c).xs.sp.toNat) ∧
   (isX a.c = false → reads 0x039 0 ∧ reads 0x03A 0) ∧
   (∀ n, n ∉ numbers → sysRead s a n = .error .illegalOperand ∧ ∀ v, sysWrite s a n v = .error .illegalOperand) ∧
   (a.x = .user → ∀ n ∈ numbers, n ≠ 0x020 → ∀ v, sysWrite s a n v = .error .illegalPrivilege)) ∧
  sysRead s a 0x000 = .ok (BitVec.ofNat 64 (a.k % 64 + 64 * (a.k / 32))) ∧ sysRead s a 0x020 = .ok ((coreAt s a.k).lsmask.zeroExtend 64) ∧
  sysRead s a 0x022 = .ok (coreAt s a.k).runstall ∧ sysRead s a 0x023 = .ok (coreAt s a.k).ks.fwslots ∧
  (a.x = .user → sysRead s a 0x100 = .ok 0 ∧ sysRead s a 0x110 = .error .illegalPrivilege) ∧
  (a.x = .pager → sysRead s a 0x100 = .ok (partRec s (partAt s a.k)).ptroot ∧ sysRead s a 0x110 = .ok (sget 0 (coreAt s a.k).ks.fr 0)) ∧
  (∀ v, ∃ t, sysWrite s a 0x020 v = .ok t ∧
    (kInRun (coreAt s a.k) = false → (coreAt t a.k).lsmask = v.setWidth 4) ∧
    (kInRun (coreAt s a.k) = true → (coreAt t a.k).lsmask = (coreAt s a.k).lsmask)) ∧
  ∀ v : Word, a.x ≠ .user → ∃ t, sysWrite s a 0x021 v = .ok t ∧ (coreAt t a.k).ks.fwshare = min (v.toNat % 16) 8)

/-- R22 to R24, R44, R98: a step runs the decoded instruction. The head of the agenda is a cluster, an engine queue or the device; a cluster that
nothing holds back executes the syllable at its program counter, K in the context that its slot is for, and the gleaner executes what K's user context
has performed (R297); a queue executes the word at its head, the device the step itself; and a word that `withFetchWord` places, with a guard that is
true, is what the next step executes. R24, R36, R37: at the program counter, a word that does not decode traps with its type whatever its predicate; a
syllable whose guard is 0 takes its slot and nothing else; else it is executed, and nothing is added to what it does but, for K's user context, the
state of the gleaner, and the gleaner's own word beside a word just pushed where its copy of K differs from K (R297). -/
def Obligations.StepRunsTheInstruction : Prop :=
  (∀ (s : State) (rest : List Act),
  let s0 := { s with agenda := rest }
  (∀ k c y, s.agenda = .cl k c .user :: rest → c ≠ .K → let s1 := closeRun k s0; let a : At := ⟨k, c, .user⟩
    userFree s1 a = true → (isMember (coreAt s1 k) c = false ∨ atSync s1 k c = false) → (cluAt s1 k c).skipOne = false → (cluAt s1 k c).idling = false → sylAt s1 a = .ok y → getP s1 a y.p.val ≠ y.n →
    step s = exec y.i { s1 with cur := .cl k c .user }) ∧
  (∀ k x y, s.agenda = .cl k .K x :: rest → let s1 := closeRun k s0; kInRun (coreAt s1 k) = false →
    (let a : At := ⟨k, .K, .fw⟩; let s2 := countSlot k s1
     fwTakes s1 k = true → sylAt s2 a = .ok y → getP s2 a y.p.val ≠ y.n → step s = exec y.i { s2 with cur := .cl k .K .fw }) ∧
    (fwDue s1 k = false ∨ fwFree s1 k = false → let s2 := countSlot k s1
     (let a : At := ⟨k, .K, .pager⟩
      pagerFree s2 k = true → sylAt s2 a = .ok y → getP s2 a y.p.val ≠ y.n → step s = exec y.i { s2 with cur := .cl k .K .pager }) ∧
     (let a : At := ⟨k, .K, .user⟩
      pagerFree s2 k = false → uliDue s2 k = false → userFree s2 a = true → (isMember (coreAt s2 k) .K = false ∨ atSync s2 k .K = false) → (cluAt s2 k .K).skipOne = false →
      (cluAt s2 k .K).idling = false → sylAt s2 a = .ok y → getP s2 a y.p.val ≠ y.n → step s = thenDo (glean a (some y.i) s2) (exec y.i { s2 with cur := .cl k .K .user })))) ∧
  (∀ k q w i, s.agenda = .eq k q :: rest → headOf s k q = some w → coreHeld s k = false → qStopped (coreAt s k) q = false → saveFailed s k = false → (coreAt s k).inst ≠ none → gleanOk w = true →
    decodeEng q w.w.toNat = some i → step s = exec i { s0 with cur := .eq k q }) ∧
  (∀ i, s.agenda = .ev i :: rest → step s = exec i { s0 with cur := .dev }) ∧
  (s.agenda = [] → step s = autoTurn (s.rr % roundLen) (s.rr / roundLen) { s with cur := .dev, rr := s.rr + 1 }) ∧
  (∀ w c y, w < 2 ^ 64 → clusterOfWord w = (c, false) → decodeWith (some (c, false)) w = .ok y → y.p = 0 → y.n = false →
    ∃ t, (ctxOf t ⟨0, c, .user⟩).pc = 0 ∧ step (State.reset.withFetchWord 64 w) = thenDo (glean ⟨0, c, .user⟩ (some y.i) t) (exec y.i { t with cur := .cl 0 c .user })) ∧
  (∀ (a : At) (i : Option Instr) (u t : State), a.c ≠ .K ∨ a.x ≠ .user → glean a i u t = t) ∧
  (∀ w y, w < 2 ^ 64 → clusterOfWord w = (.K, true) → decodeWith (some (.K, true)) w = .ok y → y.p = 0 → y.n = false →
    ∃ t, t.cur = .cl 0 .K .pager ∧ (ctxOf t ⟨0, .K, .pager⟩).pc = 0 ∧ step (State.reset.withFetchWord 64 w) = exec y.i t) ∧
  ∀ w i, w < 2 ^ 48 → decodeTableWord 48 w = some i → ∃ t, t.cur = .eq 0 (queueOf w) ∧ step (State.reset.withFetchWord 48 w) = exec i t) ∧
  (∀ (s : State) (a : At),
  (∀ e, sylAt s a = .error e → issueSyl a s = .next (trapTy a (match e with
    | .opcode => .illegalOpcode | .cluster => .illegalCluster | .privilege => .illegalPrivilege | .modifier => .illegalModifier
    | .operand => .illegalOperand) s)) ∧
  (∀ y, sylAt s a = .ok y → getP s a y.p.val = y.n → issueSyl a s = .next (glean a none s (retire a s))) ∧
  (∀ y, sylAt s a = .ok y → getP s a y.p.val ≠ y.n →
    let r := exec y.i { s with cur := .cl a.k a.c a.x }
    (∀ t, r = .next t → issueSyl a s = .next (glean a (some y.i) s t)) ∧ ((∀ t, r ≠ .next t) → issueSyl a s = r)) ∧
  ∀ i t, (a.c ≠ .K ∨ a.x ≠ .user → glean a i s t = t) ∧
    (glean a i s t = t ∨ ∃ gl, let u := modCore t a.k fun o => { o with gl := gl }
      glean a i s t = u ∨ ((gleanFed (coreAt s a.k)).now.copy ≠ kCopy (coreAt s a.k) ∧
        ∃ e h, glean a i s t = modEQ u a.k e fun q => { q with words := q.words.modify (q.words.length - 1) fun x => { x with g := h } })))

/-- R37, R286, R288: a precise trap of a user context leaves its registers, its queues and its program counter as they were, stops the cluster at a
record with a TOKEN of its own, and the record names type, core, cluster, syllable index, request and raw syllable. It is pending at once when fewer
than sixteen records are held, else it waits unposted. The fault is none that the resident pager serves. What posting counts is exempt: the request's
FAULTS meter and record SEQ, and the trace record where tracing is open for the request's partition (R264, R272). R303: `trap` posts USER_TRAP with
AUX0 = code and AUX1 = x[A], without popping A, and stops at the record; `resume` and `skip` of it both go on behind the syllable: the context leaves
the record, and its next turn takes the syllable as predicated off. -/
def Obligations.TakingATrap : Prop :=
  (∀ (s : State) (a : At) (ty : FT), a.x = .user → ty ≠ .pageFault →
  let t := trapTy a ty s
  let r := { clRec s a ty with token := s.dev.nextToken }
  let g := ringAt s r.ring
  let p := partRec s (rqAt s r.rq).part
  r.ty = ty ∧ r.core = a.k ∧ r.cluster = cnum a.c ∧ r.wh = pcOf s a % 2 ^ 15 ∧ r.raw = (wordAt s a (pcOf s a)).toNat ∧ r.prec = true ∧ r.rq = rqiOf s a ∧
  (ringAt t r.ring).held = g.held ++ [r] ∧ (ringAt t r.ring).pend = (if g.held.length < 16 then g.pend ++ [r] else g.pend) ∧
  (cluAt t a.k a.c).stop = some s.dev.nextToken ∧ t.dev.nextToken = s.dev.nextToken + 1 ∧ (∀ id, id ≠ r.rq → rqAt t id = rqAt s id) ∧
  (∀ m, m ≠ mFAULTS → sget 0 (rqAt t r.rq).meters m = sget 0 (rqAt s r.rq).meters m) ∧
  ((p.policy.getLsbD 0 = false ∨ trRingOn p = false) → cluAt t a.k a.c = { cluAt s a.k a.c with stop := some s.dev.nextToken } ∧
    pcOf t a = pcOf s a ∧ (coreAt t a.k).vq = (coreAt s a.k).vq ∧ (coreAt t a.k).sq = (coreAt s a.k).sq ∧
    (coreAt t a.k).eng = (coreAt s a.k).eng ∧ SameMemory s t)) ∧
  (∀ (s : State) (a : At) (x : SOp) (code : BitVec 16),
  (Moves s a → QueuesOk s a (popsS [x]) [] →
    exec (.trap x code) s = .next (takeTrap a { clRec s a .userTrap with aux0 := code.toNat, aux1 := (takeS a x s).1.toNat } s)) ∧
  ∀ (r : FRec) (v : BitVec 32), a.x = .user → r.ty = .userTrap → r.who = .cl a.k a.c → savedAt s r.launch a.k = none →
    (cluAt s a.k a.c).stop = some r.token → r.prec = true →
    resumeRec r s = skipRec r v s ∧ cluAt (resumeRec r s) a.k a.c = { cluAt s a.k a.c with stop := none, skipOne := true } ∧
    issueUser a (resumeRec r s) = .next (advance a (modClu (resumeRec r s) a.k a.c fun u => { u with skipOne := false, idling := false })))

/-- R287, R289, R290: an answer of the host names a pending record by its TOKEN, and takes it from the pending ones before it acts; an answer that
names none is counted and has no effect. `skip` of MALFORMED_LENGTH needs a NEWRD in RDIDX + 1 to WRIDX. A cluster that stands at a precise record
issues its syllable again on `resume`, and on `skip` takes it as predicated off; BARRIER_UNREACHABLE and SHEAF_LOST have skips of their own, USER_TRAP
and WAIT_DEADLOCK answers of their own. A queue that stands at a record goes on with its word on `resume` and without it on `skip`. `abort` cancels
the request of the record, ends the launch of one that carries none, and closes a ring. R289, R290: what the answers do to the party that stands at
the record. -/
def Obligations.HostAnswers : Prop :=
  (∀ (s : State) (ring token : Nat) (v : BitVec 32), hostCan s (ring / 64) = true →
  let none' := exec (.answerResume ring token) s = .next (modRing s ring fun g => { g with ignored := g.ignored + 1 }) ∧
    exec (.answerSkip ring token v) s = .next (modRing s ring fun g => { g with ignored := g.ignored + 1 }) ∧
    exec (.answerAbort ring token) s = .next (modRing s ring fun g => { g with ignored := g.ignored + 1 })
  ((∀ r ∈ (ringAt s ring).pend, r.token ≠ token) → none') ∧
  ∀ r, (ringAt s ring).pend.find? (fun x => x.token == token) = some r →
    let s1 := modRing s ring fun g => { g with pend := g.pend.filter fun x => x.token != token }
    exec (.answerResume ring token) s = .next (settle (resumeRec r s1)) ∧
    (ftNoAnswer r.ty = false → exec (.answerAbort ring token) s = .next (settle (abortRec r s1))) ∧
    (r.ty ≠ .malformedLength → exec (.answerSkip ring token v) s = .next (settle (skipRec r v s1))) ∧
    (r.ty = .malformedLength → (v - (ringAt s ring).rdidx).toNat = 0 ∨ (availOf (ringAt s ring)) < (v - (ringAt s ring).rdidx).toNat →
      exec (.answerSkip ring token v) s = .next (modRing s ring fun g => { g with ignored := g.ignored + 1 }))) ∧
  (∀ (s : State) (r : FRec) (v : BitVec 32) (k : Nat),
  ftNoAnswer r.ty = false → r.ty ∉ [FT.pagerFault, .runDeadlock] → r.prec = true → savedAt s r.launch k = none →
  (∀ c, r.who = .cl k c → (cluAt s k c).stop = some r.token →
    (r.ty ∉ [FT.userTrap, .waitDeadlock] → cluAt (resumeRec r s) k c = { cluAt s k c with stop := none }) ∧
    (r.ty ∉ [FT.barrierUnreachable, .sheafLost, .waitDeadlock] → cluAt (skipRec r v s) k c = { cluAt s k c with stop := none, skipOne := true })) ∧
  (∀ q w, r.who = .queue k q → (eqAt (coreAt s k) q).stop = some r.token → stopWord (eqAt (coreAt s k) q) = some w →
    eqAt (coreAt (resumeRec r s) k) q = { eqAt (coreAt s k) q with stop := none } ∧
    eqAt (coreAt (skipRec r v s) k) q = { eqAt (coreAt s k) q with stop := none, words := (eqAt (coreAt s k) q).words.eraseP fun x => x.seq == w.seq } ∧
    ((cluAt s k .K).stop = some r.token → (cluAt (resumeRec r s) k .K).stop = none ∧ (cluAt (skipRec r v s) k .K).stop = none)) ∧
  (∀ g, r.who = .ring g → abortRec r s = modRing s g fun g => { g with state := 0, head := none }) ∧
  ((∀ g, r.who ≠ .ring g) → (r.rq ≠ 0 → abortRec r s = cancelRq s (r.ring / 64) r.rq) ∧ (r.rq = 0 → abortRec r s = killLaunch r.launch s)) ∧
  ∀ c, (cluAt (killClu k c s) k c).run = .killed)

/-- R286, R288: writing the record that is first held: it goes to its place in the exception queue when there is room, EXQWR moves behind it, it is
held no longer, and its 64 bytes with the SEQ of its entry stand at EXQBASE + 64 * (EXQWR mod 2^EXQLOG); the second entry of a RECORD_LOST follows in
the next place. R286: the host's read index of an exception queue, and a write to the queue that failed is tried again. -/
def Obligations.ExceptionQueues : Prop :=
  (∀ (s : State) (ring : Nat) (r : FRec) (l : List FRec),
  (ringAt s ring).held = r :: l →
  (2 ^ (ringAt s ring).exqlog < ((ringAt s ring).exqwr - (ringAt s ring).exqrd).toNat + recEntries r → (ringAt s ring).unwritable = false →
    exec (.exceptionRecordWrite ring) s = .next s) ∧
  (recEntries r = 2 ↔ r.ty = .recordLost) ∧ (r.meters.length = 8 → (recBytes r).length = 64 * recEntries r) ∧
  ((ringAt s ring).unwritable = false → RecordFits s ring r → ∃ t, exec (.exceptionRecordWrite ring) s = .next t ∧ RecordWritten s t ring r l) ∧
  ((ringAt s ring).unwritable = false → l.length < 16 → ∀ sp ad, RecordGoes s ring r sp ad → ∃ t, exec (.exceptionRecordWrite ring) s = .next t ∧
    RecordWritten s t ring r l ∧ ∀ i < 64, homeByte t sp (ad + i) = (recBytes { r with eseq := (ringAt s ring).exqwr.toNat }).getD i 0)) ∧
  (∀ (s : State) (ring : Nat) (v : BitVec 32),
  (hostCan s (ring / 64) = false → exec (.exqrdWrite ring v) s = .next s) ∧
  (hostCan s (ring / 64) = true → (ringAt s ring).unwritable = false → exec (.exqrdWrite ring v) s = .next (modRing s ring fun g => { g with exqrd := v })) ∧
  (hostCan s (ring / 64) = true → (ringAt s ring).unwritable = true → ∃ t, exec (.exqrdWrite ring v) s = .next t ∧ (ringAt t ring).exqrd = v ∧
    exec (.exqWriteRetry ring) (modRing s ring fun g => { g with exqrd := v }) = .next t) ∧
  ((ringAt s ring).unwritable = false → exec (.exqWriteRetry ring) s = .next s) ∧
  ((ringAt s ring).unwritable = true → (ringAt s ring).held = [] → exec (.exqWriteRetry ring) s = .next s) ∧
  (∀ r l, (ringAt s ring).unwritable = true → (ringAt s ring).held = r :: l →
    (RecordFits s ring r → ∃ t, exec (.exqWriteRetry ring) s = .next t ∧ RecordWritten s t ring r l) ∧
    (l.length < 16 → ∀ sp ad, RecordGoes s ring r sp ad → ∃ t, exec (.exqWriteRetry ring) s = .next t ∧
      RecordWritten s t ring r l ∧ ∀ i < 64, homeByte t sp (ad + i) = (recBytes { r with eseq := (ringAt s ring).exqwr.toNat }).getD i 0)))

/-- R177, R176, R159, R264: `ld`. The address is x[A] + x[B] + the sign-extended offset; a misaligned one traps MISALIGNED with it, a fault of region
or translation traps; else the bytes are read, metered and extended by the type; poisoned integers trap, other poisoned types read as their NaN, 0x80
for tf8 and 0x20 for tf6; through a peer window a read packet leaves and the cluster waits, and a queue that takes the result holds an entry for it
(R109). While a store of the context's own to the device's own id has not been performed, the load waits (the model's choice, log 104). R177: `st`,
with its operands popped in field order A, B and then its data; the low bytes of the source go to the address. A store into the scratchpad of a core
whose port is shut waits (R298, R302), and so does one behind an own store to the device's own id that has not been performed (the model's choice, log
104). The frame of a store: after the pieces of a place are written every byte outside them reads as before, for every party and at its home, and
inside a single piece the writer reads back what it wrote. -/
def Obligations.ScalarLoadsAndStores : Prop :=
  (∀ (s : State) (a : At) (t : Ety) (d x y : SOp) (off : BitVec 16), etyNib t = false → Moves s a →
  QueuesOk s a (popsS [x, y]) (pushS d) →
  let u := takeS a x s
  let v := takeS a y u.2
  let ea := (u.1 + v.1 + off.signExtend 64).toNat
  let n := etyW t / 8
  let r := resolve v.2 a.k (tlOf a) (partyOf a) (partAt v.2 a.k) (issuerOf a) ea n false
  (ea % n ≠ 0 → exec (.ld t d x y off) s = .next (trapMem a ⟨.misaligned, 0, ea⟩ s)) ∧
  (ea % n = 0 → ∀ f, r.2 = .error f → exec (.ld t d x y off) s = .next (trapMem a f s)) ∧
  (ea % n = 0 → ∀ pl, r.2 = .ok pl → ownOut r.1 (partyOf a) = true → exec (.ld t d x y off) s = .next (block a .other s)) ∧
  (ea % n = 0 → ∀ ps l, r.2 = .ok (.home ps l) → tagRoom r.1 a (tagsOf a.k n (.home ps l)) = true → ownOut r.1 (partyOf a) = false →
    let rd := readPieces r.1 (partyOf a) ps
    let put := fun e => Host.Outcome.next (retire a (putS a d (regOfElem t e) (meter rd.2 (partAt rd.2 a.k) (memIds s a) mRD n)))
    (piecesPoison r.1 (partAt r.1 a.k) ps = false → exec (.ld t d x y off) s = put (ofBytes rd.1)) ∧
    (piecesPoison r.1 (partAt r.1 a.k) ps = true →
      (etyInt t = true → exec (.ld t d x y off) s = .next (trapMem a ⟨.poisonConsumed, 0, ea⟩ s)) ∧
      (∀ f, etyF t = some f → exec (.ld t d x y off) s = put (mkNan f 5 (locOf s a))) ∧
      (t = .tf8 → exec (.ld t d x y off) s = put 0x80) ∧ (t = .tf6 → exec (.ld t d x y off) s = put 0x20))) ∧
  (ea % n = 0 → ∀ dv o, r.2 = .ok (.peer dv o) → tagRoom r.1 a (tagsOf a.k n (.peer dv o)) = true → ownOut r.1 (partyOf a) = false →
    let sent := sendAccess a (pktRead dv (o / 64 * 64) 1) (.scalar d t) ea n none r.1
    exec (.ld t d x y off) s = .next (modCtx (retire a sent) a fun c => { c with peerWait := true }) ∧
    (∀ j, d = .x j → (coreAt sent a.k).late = (coreAt r.1 a.k).late) ∧
    ∀ j, d = .q j → (coreAt sent a.k).late = (coreAt r.1 a.k).late ++ [⟨12 + j.val, a.x, none⟩])) ∧
  (∀ (s : State) (a : At) (t : Ety) (d x y : SOp) (off : BitVec 16), etyNib t = false → Moves s a →
  QueuesOk s a (popsS [x, y, d]) [] →
  let u := takeS a x s
  let v := takeS a y u.2
  let z := takeS a d v.2
  let ea := (u.1 + v.1 + off.signExtend 64).toNat
  let n := etyW t / 8
  let r := resolve z.2 a.k (tlOf a) (partyOf a) (partAt z.2 a.k) (issuerOf a) ea n true
  (ea % n ≠ 0 → exec (.st t d x y off) s = .next (trapMem a ⟨.misaligned, 0, ea⟩ s)) ∧
  (ea % n = 0 → ∀ f, r.2 = .error f → exec (.st t d x y off) s = .next (trapMem a f s)) ∧
  (ea % n = 0 → ∀ ps l, r.2 = .ok (.home ps l) → portFree r.1 a.k ps = false → exec (.st t d x y off) s = .next (block a .other s)) ∧
  (ea % n = 0 → ∀ ps l, r.2 = .ok (.home ps l) → tagRoom r.1 a (tagsOf a.k n (.home ps l)) = true → portFree r.1 a.k ps = true → ownOut r.1 (partyOf a) = false →
    let w := writePieces r.1 (partyOf a) (partAt r.1 a.k) l ps (bytesOf n z.1.toNat)
    exec (.st t d x y off) s = .next (retire a (holdTags a (tagsOf a.k n (.home ps l)) (meter w (partAt w a.k) (memIds s a) mWR n)))) ∧
  (ea % n = 0 → ∀ pl, r.2 = .ok pl → ownOut r.1 (partyOf a) = true → exec (.st t d x y off) s = .next (block a .other s)) ∧
  (ea % n = 0 → ∀ dv o, r.2 = .ok (.peer dv o) → tagRoom r.1 a (tagsOf a.k n (.peer dv o)) = true → ownOut r.1 (partyOf a) = false →
    exec (.st t d x y off) s = .next (retire a (fixPeerOwn a dv o (bytesOf n z.1.toNat) (sendAccess a (granWrite dv o (bytesOf n z.1.toNat)) .none ea n none r.1))))) ∧
  (∀ (s : State) (q : Party) (part least : Nat) (ps : List (Space × Nat × Nat)) (bs : List Byte),
  (ps.map fun p => p.2.2).foldl (· + ·) 0 = bs.length →
  (∀ p ∈ ps, Space.real p.1 = true) →
  (∀ sp ad, Space.real sp = true → (∀ p ∈ ps, sp = p.1 → ad < p.2.1 ∨ p.2.1 + p.2.2 ≤ ad) →
    ∀ q', readByte (writePieces s q part least ps bs) q' sp ad = readByte s q' sp ad ∧ homeByte (writePieces s q part least ps bs) sp ad = homeByte s sp ad) ∧
  ∀ sp ad, ps = [(sp, ad, bs.length)] → ∀ i (h : i < bs.length), readByte (writePieces s q part least ps bs) q sp (ad + i) = bs[i])

/-- R157, R158: the regions of the address map at their bounds, and what each raises; every address at or above 2^48 is unmapped (the model's reading,
log 50). R161 to R164: a walk through the three tables, level by level, to its leaf or to the first cause it meets: 0 where V or EN is 0, 2 for an
entry that is malformed where it stands, 3 for a target that its space denies, 1 for a store without W; and what is malformed or denied. A ROOT whose
table would reach beyond device memory is cause 2 (the model's choice, log 108). -/
def Obligations.AddressesAndWalks : Prop :=
  (∀ (s : State) (part d : Nat),
  (∀ va, va < 0x2200000 ↔ regionOf va = .spad) ∧ (∀ va, 0x4000000 ≤ va ∧ va < 0x4010000 ↔ regionOf va = .kdm) ∧
  (∀ va, 0x100000000 ≤ va ∧ va < 0x800000000000 ↔ regionOf va = .user) ∧ (∀ va, 0x900000000000 ≤ va ∧ va < 0xA00000000000 ↔ regionOf va = .host) ∧
  (∀ va, 2 ^ 48 ≤ va → regionOf va = .unmapped) ∧
  regionFault s part .k .spad = some (.addrUnmapped, 0) ∧ regionFault s part .a .kdm = some (.addrUnmapped, 0) ∧
  (∀ i, regionFault s part i .user = none ∧ regionFault s part i .unmapped = some (.addrUnmapped, 0) ∧ regionFault s part i .spadRange = some (.spadRange, 0)) ∧
  (∀ i c, regionFault s part i (.win c) = some (.spadWindow, 0) ↔ runsPart s part c = false) ∧
  (inSet s part d = false → regionFault s part .k (.peer d) = some (.pageFault, 3)) ∧ regionFault s part .matrix (.peer d) = some (.addrUnmapped, 0)) ∧
  (∀ (s : State) (q : Party) (root va : Nat) (write : Bool),
  (root.testBit 0 = false → walk s q root va write = .fault 0) ∧
  (root.testBit 0 = true → 0xC000000000 < root / 2 ^ 13 % 2 ^ 35 * 2 ^ 13 + 2 ^ 13 → walk s q root va write = .fault 2) ∧
  (root.testBit 0 = true → root / 2 ^ 13 % 2 ^ 35 * 2 ^ 13 + 2 ^ 13 ≤ 0xC000000000 →
    let e1 := readEntry s q (root / 2 ^ 13 % 2 ^ 35 * 2 ^ 13 + 8 * (va / 2 ^ 38 % 2 ^ 10))
    (e1.testBit 0 = false → walk s q root va write = .fault 0) ∧
    (e1.testBit 0 = true → e1.testBit 2 = true ∨ nextTable e1 (2 ^ 12) = none → walk s q root va write = .fault 2) ∧
    ∀ t2, e1.testBit 0 = true → e1.testBit 2 = false → nextTable e1 (2 ^ 12) = some t2 →
      let a2 := t2 + 8 * (va / 2 ^ 29 % 2 ^ 9)
      let e2 := readEntry s q a2
      let leaf := fun (e a : Nat) (bad : Bool) =>
        if bad = true ∨ leafMalformed e = true then WalkRes.fault 2 else if leafDenied e (isHostVa va) = true then .fault 3
        else if write = true ∧ e.testBit 3 = false then .fault 1 else .leaf e a
      (e2.testBit 0 = false → walk s q root va write = .fault 0) ∧
      (e2.testBit 0 = true → e2.testBit 2 = true → walk s q root va write = leaf e2 a2 (decide (e2 / 2 ^ 4 % 4 ≠ 2))) ∧
      (e2.testBit 0 = true → e2.testBit 2 = false → nextTable e2 (2 ^ 16) = none → walk s q root va write = .fault 2) ∧
      ∀ t3, e2.testBit 0 = true → e2.testBit 2 = false → nextTable e2 (2 ^ 16) = some t3 →
        let i3 := va / 2 ^ 16 % 2 ^ 13
        let e3 := readEntry s q (t3 + 8 * i3)
        (e3.testBit 0 = false → walk s q root va write = .fault 0) ∧
        (e3.testBit 0 = true → e3.testBit 2 = false → walk s q root va write = .fault 2) ∧
        (e3.testBit 0 = true → e3.testBit 2 = true → walk s q root va write =
          leaf e3 (t3 + 8 * i3) (decide (e3 / 2 ^ 4 % 4 = 2) || (decide (e3 / 2 ^ 4 % 4 = 1) && !uniform s q t3 i3))) ∧
        (uniform s q t3 i3 = true ↔ ∀ i < 32, ∀ b, b ≠ 8 → b ≠ 9 →
          (readEntry s q (t3 + 8 * (i3 / 32 * 32 + i))).testBit b = (readEntry s q (t3 + 8 * (i3 / 32 * 32))).testBit b)) ∧
  ∀ (e n : Nat) (host : Bool),
    let ad := e / 2 ^ 16 % 2 ^ 32 * 2 ^ 16
    let sz := e / 2 ^ 4 % 4
    let tgt := e / 2 ^ 6 % 4
    let bytes := if sz = 0 then 2 ^ 16 else if sz = 1 then 2 ^ 21 else 2 ^ 29
    (e.testBit 2 = true → (leafMalformed e = true ↔ e.testBit 1 = true ∨ e / 2 ^ 10 % 4 ≠ 0 ∨ e / 2 ^ 12 % 16 ≠ 0 ∨ (e / 2 ^ 48 % 2 ^ 16 ≠ 0 ∧ tgt ≠ 2) ∨
      sz = 3 ∨ ad % bytes ≠ 0 ∨ (tgt = 0 ∧ 0xC000000000 < ad + bytes) ∨ (tgt = 1 ∧ (sz = 2 ∨ 0x60000000 < ad + bytes)))) ∧
    (leafDenied e host = true ↔ tgt = 3 ∨ (host = true ∧ tgt ≠ 2) ∨ (host = false ∧ tgt = 2)) ∧
    (e.testBit 2 = false →
      let t := ad + e / 2 ^ 12 % 16 * 2 ^ 12
      nextTable e n = if e.testBit 1 = true ∨ e / 2 ^ 10 % 4 ≠ 0 ∨ e / 2 ^ 48 % 2 ^ 16 ≠ 0 ∨ t % n ≠ 0 ∨ 0xC000000000 < t + n then none else some t))

/-- R178: `ldq` and `stq` move 512 bytes at an address that is a multiple of 64. R169, R170, R172: the fields of a stream register, the check at use,
one condition after the other, and the cursor's advance: the inner index first, at E1 back to 0 with the outer one, which goes back to 0 at E2;
nothing else of the register changes. R170, R172, R179, R180: stream loads and stores of A. A register that fails its check at use traps
STREAM_INVALID, an offset that is no multiple of 64 traps MISALIGNED. `lds` and `sts` go to the step at the cursor and move it on; `gth` and `sct` go
to a row, and with BND a row outside E1 reads zeros and writes nothing; `x0` is no index of theirs (log entry 49, the model's reading). R174: an `lds`
at the step that a launch prefetched takes what was read then (log entry 3, the model's choice: the first prefetched step of the register, which every
step takes away). R157, R170, R171, R176, R178: where a stream access of 512 bytes goes, what an address outside its space raises, and what happens at
its place: the entry read enters its queue, the entry popped is stored, and the cursor moves; an access through a peer window sends packets. An access
behind an own store to the device's own id that has not been performed waits (the model's choice, log 104). -/
def Obligations.StreamsOfA : Prop :=
  (∀ (s : State) (a : At) (t : Ety) (q : Fin 8) (p : Fin 2) (x y : SOp) (off : BitVec 16), Moves s a →
  let u := takeS a x s
  let v := takeS a y u.2
  let ea := (u.1 + v.1 + off.signExtend 64).toNat
  (QueuesOk s a (popsS [x, y]) [q.val] →
    let r := resolve v.2 a.k (tlOf a) (partyOf a) (partAt v.2 a.k) (issuerOf a) ea 512 false
    (ea % 64 ≠ 0 → exec (.ldq t q x y off) s = .next (trapMem a ⟨.misaligned, 0, ea⟩ s)) ∧
    (ea % 64 = 0 → ∀ f, r.2 = .error f → exec (.ldq t q x y off) s = .next (trapMem a f s)) ∧
    (ea % 64 = 0 → ∀ ps l, r.2 = .ok (.home ps l) → tagRoom r.1 a (tagsOf a.k 512 (.home ps l)) = true → (poisonFlags r.1 (partAt r.1 a.k) ps).all (!·) = true →
      ownOut r.1 (partyOf a) = false →
      let rd := readPieces r.1 (partyOf a) ps
      exec (.ldq t q x y off) s = .next (retire a (pushedV a q.val (BitVec.ofNat 4096 (ofBytes rd.1))
        (meter rd.2 (partAt rd.2 a.k) (memIds r.1 a) mRD 512))))) ∧
  (QueuesOk s a (popsS [x, y] ++ [8 + p.val]) [] →
    let e := takeEntry a (8 + p.val) v.2
    let r := resolve e.2 a.k (tlOf a) (partyOf a) (partAt e.2 a.k) (issuerOf a) ea 512 true
    (ea % 64 ≠ 0 → exec (.stq t p x y off) s = .next (trapMem a ⟨.misaligned, 0, ea⟩ s)) ∧
    (ea % 64 = 0 → ∀ f, r.2 = .error f → exec (.stq t p x y off) s = .next (trapMem a f s)) ∧
    (ea % 64 = 0 → ∀ ps l, r.2 = .ok (.home ps l) → tagRoom r.1 a (tagsOf a.k 512 (.home ps l)) = true → portFree r.1 a.k ps = true → ownOut r.1 (partyOf a) = false →
      let w := writePieces r.1 (partyOf a) (partAt r.1 a.k) l ps (bytesOf 512 e.1.toNat)
      exec (.stq t p x y off) s = .next (retire a (holdTags a (tagsOf a.k 512 (.home ps l)) (meter w (partAt w a.k) (memIds r.1 a) mWR 512)))))) ∧
  (∀ (r : SReg) (t : Ety),
  let x := r.toNat
  let f := sfld r
  let ext := fun (n : Nat) => if n = 0 then 262144 else n
  let next := (if f.i1 + 1 < f.e1 then f.i1 + 1 else 0, if f.i1 + 1 < f.e1 then f.i2 else if f.i2 + 1 < f.e2 then f.i2 + 1 else 0)
  f.base = x % 2 ^ 48 ∧ f.space = x / 2 ^ 48 % 4 ∧ f.fmt = x / 2 ^ 50 % 16 ∧ f.bnd = x.testBit 54 ∧ f.swzc = x / 2 ^ 55 % 4 ∧ f.swzp = x / 2 ^ 57 % 32 ∧
  f.swzw = x / 2 ^ 62 % 8 ∧ f.blk = x / 2 ^ 65 % 4 ∧ f.scstr = x / 2 ^ 67 % 2 ^ 12 ∧ f.scoff = (BitVec.ofNat 32 (x / 2 ^ 79)).toInt ∧
  f.s1 = (BitVec.ofNat 24 (x / 2 ^ 111)).toInt ∧ f.s2 = (BitVec.ofNat 24 (x / 2 ^ 135)).toInt ∧ f.sl = (BitVec.ofNat 24 (x / 2 ^ 159)).toInt ∧
  f.e1 = ext (x / 2 ^ 183 % 2 ^ 18) ∧ f.e2 = ext (x / 2 ^ 201 % 2 ^ 18) ∧ f.i1 = x / 2 ^ 219 % 2 ^ 18 ∧ f.i2 = x / 2 ^ 237 % 2 ^ 18 ∧ f.top = x.testBit 255 ∧
  (streamOkT f t = true ↔ f.space ≠ 3 ∧ f.top = false ∧ f.base % 64 = 0 ∧ f.i1 < f.e1 ∧ f.i2 < f.e2 ∧
    (f.swzc ≠ 0 → f.space = 0 ∧ 1 ≤ f.swzw ∧ f.swzc + 3 + f.swzw ≤ f.swzp ∧ f.swzp + f.swzw ≤ 26) ∧ (f.swzc = 0 → f.swzw = 0 ∧ f.swzp = 0) ∧
    f.fmt = etyCode t) ∧
  (f.i1 < f.e1 → f.i2 < f.e2 → cursorNext f = next ∧ sfld (setCursor r (cursorNext f)) = { f with i1 := next.1, i2 := next.2 })) ∧
  (∀ (s : State) (a : At) (t : Ety) (q : Fin 8) (p : Fin 2) (n : Fin 32) (x : SOp) (off : BitVec 16), Moves s a →
  let f := sfld (getSR s a.k n.val)
  let u := takeS a x s
  let e := takeEntry a (8 + p.val) u.2
  let step := fun (s : State) => modCore (setSR s a.k n.val (setCursor (getSR s a.k n.val) (cursorNext (sfld (getSR s a.k n.val))))) a.k
    fun o => { o with pre := o.pre.eraseP fun p => p.sr == n.val }
  let row := addr64 ((f.base : Int) + u.1.toInt * f.s1 * 64 + off.toInt)
  let at' := addr64 ((f.base : Int) + (u.1.toInt * f.sl + f.i1 * f.s1 + f.i2 * f.s2) * 64 + off.toInt)
  let out := f.bnd = true ∧ (u.1.toInt < 0 ∨ (f.e1 : Int) ≤ u.1.toInt)
  (streamOkT f t = false → streamTrap f t off = some .streamInvalid) ∧
  (streamOkT f t = true → off.toNat % 64 ≠ 0 → streamTrap f t off = some .misaligned) ∧
  (QueuesOk s a (popsS [x]) [q.val] →
    (∀ ty, streamTrap f t off = some ty → exec (.lds t q n x off) s = .next (trapMem a ⟨ty, 0, 0⟩ s) ∧
      (x ≠ .x 0 → exec (.gth t q n x off) s = .next (trapMem a ⟨ty, 0, 0⟩ s))) ∧
    (streamOkT f t = true → off.toNat % 64 = 0 →
      let first := (coreAt s a.k).pre.find? fun p => p.sr == n.val
      ((∀ p, first = some p → (p.addr : Int) ≠ at') →
        exec (.lds t q n x off) s = .next (stepPlace a f at' false s u.2 fun s1 pl => vecLoad a t q.val at'.toNat pl (piecesOf pl) s s1 step)) ∧
      (∀ p, first = some p → (p.addr : Int) = at' → p.bad.all (!·) = true →
        exec (.lds t q n x off) s = .next (retire a (step (pushedV a q.val (BitVec.ofNat 4096 (ofBytes p.bytes))
          (meter u.2 (partAt u.2 a.k) (memIds u.2 a) mRD 512))))) ∧
      (x ≠ .x 0 → out → exec (.gth t q n x off) s = .next (retire a (pushedV a q.val 0 u.2))) ∧
      (x ≠ .x 0 → ¬out → exec (.gth t q n x off) s = .next (stepPlace a f row false s u.2 fun s1 pl => vecLoad a t q.val row.toNat pl (piecesOf pl) s s1 id)))) ∧
  (QueuesOk s a (popsS [x] ++ [8 + p.val]) [] →
    (∀ ty, streamTrap f t off = some ty → exec (.sts t p n x off) s = .next (trapMem a ⟨ty, 0, 0⟩ s) ∧
      (x ≠ .x 0 → exec (.sct t p n x off) s = .next (trapMem a ⟨ty, 0, 0⟩ s))) ∧
    (streamOkT f t = true → off.toNat % 64 = 0 →
      exec (.sts t p n x off) s = .next (stepPlace a f at' true s e.2 fun s1 pl => vecStore a e.1 at'.toNat pl (piecesOf pl) s s1 step) ∧
      (x ≠ .x 0 → out → exec (.sct t p n x off) s = .next (retire a e.2)) ∧
      (x ≠ .x 0 → ¬out → exec (.sct t p n x off) s = .next (stepPlace a f row true s e.2 fun s1 pl => vecStore a e.1 row.toNat pl (piecesOf pl) s s1 id)))) ∧
  exec (.gth t q n (.x 0) off) s = .next (trapTy a .illegalOperand s) ∧ exec (.sct t p n (.x 0) off) s = .next (trapTy a .illegalOperand s)) ∧
  (∀ (s s1 : State) (a : At) (f : SFld) (addr : Int) (write : Bool) (go : State → Place → State)
    (t : Ety) (q ea : Nat) (e : VReg) (done : State → State),
  (addr < 0 ∨ 2 ^ 48 - 512 < addr → stepPlace a f addr write s s1 go = trapMem a ⟨.addrUnmapped, 0, (addr % 2 ^ 64).toNat⟩ s) ∧
  (0 ≤ addr → addr ≤ 2 ^ 48 - 512 →
    (f.space = 0 → 0x2200000 < addr.toNat + 512 → stepPlace a f addr write s s1 go = trapMem a ⟨.spadRange, 0, addr.toNat⟩ s) ∧
    (f.space = 0 → addr.toNat + 512 ≤ 0x2200000 → f.swzc = 0 → stepPlace a f addr write s s1 go = go s1 (.home [(.spad a.k, addr.toNat, 512)] 0)) ∧
    (f.space ≠ 0 → regionOf (addr.toNat + 511) = .spad ∨ regionOf (addr.toNat + 511) = .kdm → stepPlace a f addr write s s1 go = trapMem a ⟨.addrUnmapped, 0, addr.toNat⟩ s) ∧
    (f.space ≠ 0 → regionOf (addr.toNat + 511) ≠ .spad → regionOf (addr.toNat + 511) ≠ .kdm →
      let r := resolve s1 a.k (tlOf a) (partyOf a) (partAt s1 a.k) (issuerOf a) addr.toNat 512 write
      (∀ x, r.2 = .error x → stepPlace a f addr write s s1 go = trapMem a x s) ∧ ∀ pl, r.2 = .ok pl → stepPlace a f addr write s s1 go = go r.1 pl)) ∧
  (ownOut s1 (partyOf a) = true → ∀ pl ps, vecLoad a t q ea pl ps s s1 done = block a .other s ∧ vecStore a e ea pl ps s s1 done = block a .other s) ∧
  (∀ ps l, tagRoom s1 a (tagsOf a.k 512 (.home ps l)) = true → ownOut s1 (partyOf a) = false →
    vecLoad a t q ea (.home ps l) ps s s1 done = loadEntry a t q ea ps s1 done ∧
    (portFree s1 a.k ps = true → vecStore a e ea (.home ps l) ps s s1 done = storeEntry a e (.home ps l) ps l s1 done) ∧
    (portFree s1 a.k ps = false → vecStore a e ea (.home ps l) ps s s1 done = block a .other s)) ∧
  (∀ ps, (poisonFlags s1 (partAt s1 a.k) ps).all (!·) = true →
    let rd := readPieces s1 (partyOf a) ps
    loadEntry a t q ea ps s1 done = retire a (done (pushedV a q (BitVec.ofNat 4096 (ofBytes rd.1)) (meter rd.2 (partAt rd.2 a.k) (memIds s1 a) mRD 512)))) ∧
  ∀ dv o, tagRoom s1 a (tagsOf a.k 512 (.peer dv o)) = true → ownOut s1 (partyOf a) = false →
    vecLoad a t q ea (.peer dv o) [] s s1 done = modCtx (retire a (done (sendAccess a (pktRead dv o 8) (.vector q t) ea 512 none s1))) a (fun c => { c with peerWait := true }) ∧
    vecStore a e ea (.peer dv o) [] s s1 done =
      retire a (done (fixPeerOwn a dv o (bytesOf 512 e.toNat) (sendAccess a (pktWrite dv o 0 (bytesOf 512 e.toNat) 0) .none ea 512 none s1))))

/-- R181, R182, R183: `pref` reads no data and never faults, a chunk of a stream register is read back as it was written, but for the reserved bit
255, which reads as zero (R8), and the other three stay, and what `qstat` counts. A register that is written holds no prefetched steps (log entry 3,
the model's choice). R174: the reads of a prefetch hold one step for each address, in order, with what A reads there; a fault leaves none. R152, R153,
R184: `hpost` adds with a release at `.co`, `htake` subtracts with an acquire at `.co`; each waits when the counter would leave 0 to 255, and an
amount of 0 traps. A post leaves its write with the counter, and a take observes the writes that it holds (R190). -/
def Obligations.StreamRegistersAndQueues : Prop :=
  (∀ (s : State) (a : At) (x y d : SOp) (off : BitVec 16) (n : Fin 32) (k : Fin 4) (r : QRef), Moves s a →
  (QueuesOk s a (popsS [x, y]) [] → tagRoom s a 1 = true →
    let u := takeS a x s
    let v := takeS a y u.2
    exec (.pref x y off) s = .next (retire a v.2) ∨
    ∃ w, exec (.pref x y off) s = .next (retire a (modCore v.2 a.k fun o => { o with walks := o.walks ++ [w] })) ∧
      w.va = (u.1 + v.1 + off.signExtend 64).toNat ∧ w.part = partAt s a.k ∧ w.tag = true) ∧
  (QueuesOk s a (popsS [x]) [] → ∃ v : SReg, exec (.srset n x k) s = .next (retire a (modCore (setSR (takeS a x s).2 a.k n.val v) a.k fun o =>
      { o with pre := o.pre.filter fun p => p.sr != n.val })) ∧
    ∀ j < 4, v.toNat / 2 ^ (64 * j) % 2 ^ 64 = if j = k.val then (takeS a x s).1.toNat else (getSR (takeS a x s).2 a.k n.val).toNat / 2 ^ (64 * j) % 2 ^ 64) ∧
  (QueuesOk s a [] (pushS d) →
    exec (.srget d n k) s = .next (retire a (putS a d (BitVec.ofNat 64 ((getSR s a.k n.val).toNat / 2 ^ (64 * k.val) % 2 ^ (if k = 3 then 63 else 64))) s)) ∧
    ∃ v : Word, exec (.qstat d r) s = .next (retire a (putS a d v s)) ∧ match r with
      | .ic q => v.toNat % 256 = qHeld (coreAt s a.k) a.c q.val % 256 ∧ v.toNat / 2 ^ 8 % 256 = qFree (coreAt s a.k) q.val % 256 ∧ v.toNat < 2 ^ 18
      | .eq q => v.toNat % 256 = (eqAt (coreAt s a.k) q.val).words.length % 256 ∧ v.toNat / 2 ^ 16 % 4 = 1 ∧ v.toNat < 2 ^ 18)) ∧
  (∀ (k part n : Nat) (ads : List Int) (s t : State), preRead k part n ads s = some t →
  ∃ l : List PStep, (coreAt t k).pre = (coreAt s k).pre ++ l ∧ l.map (fun p => (p.addr : Int)) = ads ∧ (∀ p ∈ l, p.sr = n) ∧
    ∀ ad, ads = [ad] → ∃ s1 ps lv, resolve s k .a (.cl k .A .user) part .a ad.toNat 512 false = (s1, .ok (.home ps lv)) ∧
      l.map (·.bytes) = [(readPieces s1 (.cl k .A .user) ps).1] ∧ l.map (·.bad) = [poisonFlags s1 part ps]) ∧
  (∀ (s : State) (a : At) (n : Fin 8) (v : BitVec 8), Moves s a → (coreAt s a.k).runClk = false →
  (coreAt s a.k).hcTook = [] → (coreAt s a.k).hcPost = [] →
  let c := (sget 0 (coreAt s a.k).hc n.val).toNat
  (v = 0 → exec (.hpost n v) s = .next (trapTy a .illegalOperand s) ∧ exec (.htake n v) s = .next (trapTy a .illegalOperand s)) ∧
  (v ≠ 0 → 255 < c + v.toNat → exec (.hpost n v) s = .next (block a .other s)) ∧
  (v ≠ 0 → c < v.toNat → exec (.htake n v) s = .next (block a .other s)) ∧
  (v ≠ 0 → c + v.toNat ≤ 255 → ∃ t, exec (.hpost n v) s = .next (retire a t) ∧ (sget 0 (coreAt t a.k).hc n.val).toNat = c + v.toNat ∧
    t.pend = (release s (partyOf a) 2).pend ∧
    sget [] (coreAt t a.k).hcObs n.val = addObs (sget [] (coreAt s a.k).hcObs n.val) (obsOf (release s (partyOf a) 2) (partyOf a))) ∧
  (v ≠ 0 → v.toNat ≤ c → ∃ t, exec (.htake n v) s = .next (retire a t) ∧ (sget 0 (coreAt t a.k).hc n.val).toNat = c - v.toNat ∧
    t.pend = (acquire (observeAll (partyOf a) s (sget [] (coreAt s a.k).hcObs n.val)) (partyOf a) 2).pend))

/-- R42, stated whole: `push` takes bits [47:0]; a register with a nonzero bit above them traps ILLEGAL_OPERAND precisely and pushes nothing; nothing
else about the word is checked before it is the head of its queue, where a word that is not defined there stops the queue. -/
def Obligations.PushEngineWord : Prop :=
  ∀ (s : State) (a : At) (e : Fin 9) (x : SOp), Moves s a → QueuesOk s a (popsS [x]) [] →
  let u := takeS a x s
  (u.1.toNat / 2 ^ 48 ≠ 0 → exec (.push e x) s = .next (trapTy a .illegalOperand s) ∧ (clRec s a .illegalOperand).prec = true ∧
    (a.x = .user → pcOf (trapTy a .illegalOperand s) a = pcOf s a) ∧ ∀ q, eqAt (coreAt (trapTy a .illegalOperand s) a.k) q = eqAt (coreAt s a.k) q) ∧
  (u.1.toNat / 2 ^ 48 = 0 → (eqAt (coreAt s a.k) e.val).words.length < 64 → ∃ t w, exec (.push e x) s = .next (retire a t) ∧
    w.w = u.1.setWidth 48 ∧ (eqAt (coreAt t a.k) e.val).words = (eqAt (coreAt s a.k) e.val).words ++ [w]) ∧
  (u.1.toNat / 2 ^ 48 = 0 → 64 ≤ (eqAt (coreAt s a.k) e.val).words.length → exec (.push e x) s = .next (block a .other s)) ∧
  ∀ q w, decodeEng q w.w.toNat = none → ∃ t n, issueEng a.k q w s = .next t ∧ (eqAt (coreAt t a.k) q).stop = some n ∧
    (eqAt (coreAt t a.k) q).words = (eqAt (coreAt s a.k) q).words

/-- R186, R189, R191: a store that its party has not published is what the party itself reads, and no other party; commands of one thresher see each
other's (log entry 90, the model's reading). R188, R192: a write performed at its home is the current value for every party that has no unpublished
store of its own, at once. -/
def Obligations.WhoSeesAStore : Prop :=
  (∀ (s : State) (q p : Party) (sp : Space) (ad least i : Nat) (bs : List Byte) (h : i < bs.length), ownOf q p = false →
  Space.real sp = true →
  readByte (storePlain s q sp ad bs least) q sp (ad + i) = bs[i] ∧ readByte (storePlain s q sp ad bs least) p sp (ad + i) = readByte s p sp (ad + i) ∧
  homeByte (storePlain s q sp ad bs least) sp (ad + i) = homeByte s sp (ad + i)) ∧
  (∀ (s : State) (q p : Party) (sp : Space) (ad i : Nat) (bs : List Byte) (h : i < bs.length),
  (∀ w ∈ s.pend, ownOf w.who p = true → w.lvl ≠ 0) →
  homeByte (storeHome s q sp ad bs) sp (ad + i) = bs[i] ∧ curByte (storeHome s q sp ad bs) p sp (ad + i) = bs[i])

/-- R189, R194: after a release at `.sy` no store of the party is unpublished or held back from anybody, nor is a store of another party that was
required for it. R190, R191, R194: a release below `.sy` publishes the party's own stores and those of other writers within its scope that are
required for it, and leaves its party, its number and its level with each; a party that observes a write has seen the releases before it. An acquire
empties the snapshot of its party, and a store of another party becomes required for it exactly when one of these releases lies within the scopes of
both, and the party has observed a write after it. It changes no byte and no store but for what is required. R203: `phase` releases, then acquires, at
its scope. -/
def Obligations.ReleaseAndAcquire : Prop :=
  (∀ (s : State) (q : Party), (∀ w ∈ s.pend, w.lvl < 5 ∧ w.least ≤ 5) → ∀ w ∈ (release s q 5).pend, w.who ≠ q ∧ ¬(q ∈ w.req ∧ within 5 w.who q = true)) ∧
  (∀ (s : State) (q : Party) (lvl : Nat),
  snapOf (acquire s q lvl) q = [] ∧ (∀ p, p ≠ q → snapOf (acquire s q lvl) p = snapOf s p) ∧
  (∀ e ∈ s.pend.zip (acquire s q lvl).pend,
    (q ∈ e.2.req ↔ q ∈ e.1.req ∨ (e.1.who ≠ q ∧ ∃ r ∈ e.1.pubs, within lvl r.1 q = true ∧ within r.2.2 r.1 q = true ∧ r.2.1 ≤ seenNo s q r.1)) ∧
    ∀ p, p ≠ q → (p ∈ e.2.req ↔ p ∈ e.1.req)) ∧
  (∀ o : Obs, o.1 ≠ q → relevant s o = true → o.2 ≤ seenNo (observe q s o) q o.1) ∧
  (lvl < 5 → ∀ w ∈ (release s q lvl).pend, w.who = q ∨ (q ∈ w.req ∧ within lvl w.who q = true) → w.least ≤ lvl →
    (q, relNo (release s q lvl) q, lvl) ∈ w.pubs ∧ lvl ≤ w.lvl) ∧
  (acquire s q lvl).pend.map (fun w => (w.who, w.sp, w.addr, w.bytes, w.lvl)) = s.pend.map (fun w => (w.who, w.sp, w.addr, w.bytes, w.lvl)) ∧
  ∀ p sp ad, curByte (acquire s q lvl) p sp ad = curByte s p sp ad) ∧
  (∀ (s : State) (a : At) (sc : Scope) (rel acq : Bool), Moves s a → (rel = true → relReady s (partyOf a) (lvlOf sc) = true) →
  let s1 := if rel = true then release s (partyOf a) (lvlOf sc) else s
  exec (.phase sc rel acq) s = .next (retire a (if acq = true then acquire s1 (partyOf a) (lvlOf sc) else s1)) ∧
  lvlOf .cl = 1 ∧ lvlOf .co = 2 ∧ lvlOf .di = 3 ∧ lvlOf .dv = 4 ∧ lvlOf .sy = 5)

/-- R204, R205, R193: the atomics and `cas` at a home. The old value goes to D, extended by its type; the new one is written there at once; a `cas`
that does not find its comparand writes nothing; releases come before and acquires after; poison traps and writes nothing; in the host window the
operations but add, swap and cas trap ATOMIC_TARGET. One behind an own store to the device's own id that has not been performed waits (the model's
choice, log 104). Through a peer window the request leaves after the release, and the acquire is left to its answer. -/
def Obligations.Atomics : Prop :=
  ∀ (s : State) (a : At) (t : ATy) (sc : Scope) (o : Ord) (d x y c : SOp), Moves s a →
  let w := etyW (atyE t)
  let n := w / 8
  let go := fun (i : Instr) (code : Nat) (c : SOp) (hostOk : Bool) (f : Nat → Nat → Nat → Option Nat) => QueuesOk s a (popsS [x, y, c]) (pushS d) →
    let u := takeS a x s
    let v := takeS a y u.2
    let z := takeS a c v.2
    let ea := u.1.toNat
    let r := resolve z.2 a.k (tlOf a) (partyOf a) (partAt z.2 a.k) (issuerOf a) ea n true
    (ea % n ≠ 0 → exec i s = .next (trapMem a ⟨.misaligned, 0, ea⟩ s)) ∧
    (ea % n = 0 → ∀ e, r.2 = .error e → exec i s = .next (trapMem a e s)) ∧
    (ea % n = 0 → (∃ p, r.2 = .ok p) → regionOf ea = .host → hostOk = false → exec i s = .next (trapMem a ⟨.atomicTarget, 0, ea⟩ s)) ∧
    (ea % n = 0 → (∃ p, r.2 = .ok p) → (regionOf ea = .host → hostOk = true) → ownOut r.1 (partyOf a) = true → exec i s = .next (block a .other s)) ∧
    (ea % n = 0 → ∀ sp ad m l, r.2 = .ok (.home [(sp, ad, m)] l) → (regionOf ea = .host → hostOk = true) → tagRoom r.1 a (tagsOf a.k n (.home [(sp, ad, m)] l)) = true →
      portFree r.1 a.k [(sp, ad, m)] = true → ownOut r.1 (partyOf a) = false → (isRel o = true → relReady s (partyOf a) (lvlOf sc) = true) →
      (piecesPoison r.1 (partAt r.1 a.k) [(sp, ad, m)] = true → exec i s = .next (trapMem a ⟨.poisonConsumed, 0, ea⟩ s)) ∧
      (piecesPoison r.1 (partAt r.1 a.k) [(sp, ad, m)] = false →
        let s1 := if isRel o = true then release r.1 (partyOf a) (lvlOf sc) else r.1
        let old := ofBytes (curBytes s1 (partyOf a) sp ad n)
        let fin := fun (s : State) => Host.Outcome.next (retire a (putS a d (regOfElem (atyE t) old) (if isAcq o = true then acquire s (partyOf a) (lvlOf sc) else s)))
        let s2 := observeAll (partyOf a) s1 (rangeObs s1 (partyOf a) sp ad n)
        match f old (v.1.toNat % 2 ^ (8 * n)) (z.1.toNat % 2 ^ (8 * n)) with
        | some b =>
          let s3 := stamp (storeHome s2 (partyOf a) sp ad (bytesOf n b)) (partAt r.1 a.k) sp ad n
          exec i s = fin (meterIds a (memIds s a) mWR n (meterIds a (memIds s a) mRD n s3))
        | none => exec i s = fin (meterIds a (memIds s a) mRD n s2))) ∧
    (ea % n = 0 → ∀ dv off, r.2 = .ok (.peer dv off) → (regionOf ea = .host → hostOk = true) → tagRoom r.1 a (tagsOf a.k n (.peer dv off)) = true → ownOut r.1 (partyOf a) = false →
      (isRel o = true → relReady s (partyOf a) (lvlOf sc) = true) →
      exec i s = .next (awaitPeer a (retire a (sendAccess a (pktAtomic dv off code (etyCode (atyE t)) (v.1.toNat % 2 ^ (8 * n)) (z.1.toNat % 2 ^ (8 * n)))
        (.scalar d (atyE t)) ea n (if isAcq o = true then some (lvlOf sc) else none) (if isRel o = true then release r.1 (partyOf a) (lvlOf sc) else r.1)))))
  let val := fun (b : Nat) => elemInt (atyE t) b
  go (.amoAdd t sc o d x y) 0 (.x 0) true (fun u v _ => some ((u + v) % 2 ^ w)) ∧
  go (.amoMin t sc o d x y) 1 (.x 0) false (fun u v _ => some (if val u ≤ val v then u else v)) ∧
  go (.amoMax t sc o d x y) 2 (.x 0) false (fun u v _ => some (if val u ≤ val v then v else u)) ∧
  go (.amoAnd t sc o d x y) 3 (.x 0) false (fun u v _ => some (u &&& v)) ∧ go (.amoOr t sc o d x y) 4 (.x 0) false (fun u v _ => some (u ||| v)) ∧
  go (.amoXor t sc o d x y) 5 (.x 0) false (fun u v _ => some (u ^^^ v)) ∧ go (.amoSwap t sc o d x y) 6 (.x 0) true (fun _ v _ => some v) ∧
  go (.cas t sc o d x y c) 7 c true (fun u v z => if u = v then some z else none)

/-- R202, R206, R314: `waitm`, on device memory and on the near store. With a free slot and a value that meets its condition it completes at once, a
poisoned value traps whether or not the condition holds (the model's reading, log 83), and without a match it holds a slot; once it has fired it
completes with the value and the poison that it fired on, and pops its operands then (the model's reading, log 23); a misaligned address traps
MISALIGNED, and one elsewhere WAIT_TARGET; behind an own store to the device's own id that has not been performed it waits (the model's choice, log
104). R202, R206: a wait that holds a slot is tested again when a later write reaches its location, by a write at the home, by one of the device or
the host, or by the publishing of a store: a value that meets the condition fires it, a poisoned one fires it as poisoned whatever the condition (the
model's reading, log 83), and any other leaves it waiting. R202, R315, R316: a waiter that queued too long for a slot traps WAIT_EXHAUSTED and queues
no more; when every slot of a unit has been held too long, each holder is told once, under one event number. -/
def Obligations.MemoryWaits : Prop :=
  (∀ (s : State) (a : At) (t : ATy) (c : MCond) (acq : Bool) (sc : Scope) (d x y : SOp), Moves s a →
  QueuesOk s a (popsS [x, y]) (pushS d) →
  let q := partyOf a
  let n := etyW (atyE t) / 8
  let ea := (takeS a x s).1.toNat
  let b := (takeS a y (takeS a x s).2).1
  let r := resolve s a.k (tlOf a) q (partAt s a.k) (issuerOf a) ea n false
  let pop := fun (s : State) => (takeS a y (takeS a x s).2).2
  let done := fun (v : Nat) (s0 : State) =>
    let s1 := meterIds a (memIds s0 a) mRD n (pop s0)
    Host.Outcome.next (retire a (putS a d (regOfElem (atyE t) v) (if acq = true then acquire s1 q (lvlOf sc) else s1)))
  ((ctxOf s a).wait = none →
    (ea % n ≠ 0 → exec (.waitm t c acq sc d x y) s = .next (trapMem a ⟨.misaligned, 0, ea⟩ s)) ∧
    (ea % n = 0 → (∀ f, r.2 = .error f → exec (.waitm t c acq sc d x y) s = .next (trapMem a f s)) ∧
      (∀ dv o, r.2 = .ok (.peer dv o) → exec (.waitm t c acq sc d x y) s = .next (trapMem a ⟨.waitTarget, 0, ea⟩ s)) ∧
      (∀ sp ad m l, r.2 = .ok (.home [(sp, ad, m)] l) → sp ≠ .dram → sp ≠ .near →
        exec (.waitm t c acq sc d x y) s = .next (trapMem a ⟨.waitTarget, 0, ea⟩ s)) ∧
      ∀ nr ad m l, r.2 = .ok (.home [(nearOr nr, ad, m)] l) → slotFree r.1 a (.mem nr ad t c b) = true → (ctxOf r.1 a).wait = none → ownOut r.1 q = false →
        let v := ofBytes (curBytes r.1 q (nearOr nr) ad n)
        let s0 := observeAll q (modCtx r.1 a fun x => { x with wait := none }) (rangeObs r.1 q (nearOr nr) ad n)
        let bad := anyPoison r.1 (partAt s a.k) (nearOr nr) ad n
        (bad = true → exec (.waitm t c acq sc d x y) s = .next (trapMem a ⟨.poisonConsumed, 0, ea⟩ s0)) ∧
        (bad = false → mcondOk t c v b.toNat = false → exec (.waitm t c acq sc d x y) s =
          .next (block a .other (modCtx r.1 a fun x => { x with wait := some ⟨.mem nr ad t c b, true, none, false⟩ }))) ∧
        (bad = false → mcondOk t c v b.toNat = true → exec (.waitm t c acq sc d x y) s = done (BitVec.ofNat 64 v).toNat s0))) ∧
  ∀ nr ad t' c' b' sl f td, (ctxOf s a).wait = some ⟨.mem nr ad t' c' b', sl, some f, td⟩ → ∃ t0, (ctxOf t0 a).wait = none ∧
    (f.bad = true → exec (.waitm t c acq sc d x y) s = .next (trapMem a ⟨.poisonConsumed, 0, ea⟩ t0)) ∧
    (f.bad = false → exec (.waitm t c acq sc d x y) s = done f.v.toNat t0)) ∧
  (∀ (s : State) (q : Party) (sp : Space) (ad : Nat) (bs : List Byte) (w : PStore) (lvl : Nat) (a : At) (nr : Bool)
    (wad : Nat) (t : ATy) (c : MCond) (b : Word) (td : Bool), a.x = .user ∨ a.c = .K → (ctxOf s a).wait = some ⟨.mem nr wad t c b, true, none, td⟩ →
  ∀ u ∈ [storeHome s q sp ad bs, storeDevice s sp ad bs, publishOne s w lvl],
    let n := etyW (atyE t) / 8
    let v := ofBytes (curBytes u (partyOf a) (nearOr nr) wad n)
    let bad := anyPoison u (partAt u a.k) (nearOr nr) wad n
    (bad = false → mcondOk t c v b.toNat = false → (ctxOf u a).wait = (ctxOf s a).wait) ∧
    (bad = true ∨ mcondOk t c v b.toNat = true → ∃ f : Fire, (ctxOf u a).wait = some ⟨.mem nr wad t c b, true, some f, td⟩ ∧
      f.v = BitVec.ofNat 64 v ∧ f.bad = bad)) ∧
  ((∀ (s : State) (k : Nat) (c : Cluster), queuedAt s k c = none → exec (.waitExhausted k c) s = .next s) ∧
  (∀ (s : State) (k : Nat) (c : Cluster) (a : At), queuedAt s k c = some a →
    a.k = k ∧ a.c = c ∧ exec (.waitExhausted k c) s = .next (takeTrap a { clRec s a .waitExhausted with addr := waitVa s a } (modCtx s a fun t => { t with wait := none }))) ∧
  ∀ (s : State) (unit : Nat),
    let slots := if unit < 64 then 32 else 512
    let hs := holdersOf s unit
    let ws := watchesOf s unit
    (hs.length + ws.length < slots → exec (.waitDeadlock unit) s = .next s) ∧ (eventOpen s unit = true → exec (.waitDeadlock unit) s = .next s) ∧
    (slots ≤ hs.length + ws.length → eventOpen s unit = false → ∃ s1, s1.dev.nextEvent = s.dev.nextEvent + 1 ∧ (∀ j, coreAt s1 j = coreAt s j) ∧
      exec (.waitDeadlock unit) s = .next (ws.foldl (tellWatch s.dev.nextEvent unit) (hs.foldl (tellHolder s.dev.nextEvent unit) s1))))

/-- R312, R313, R325, R326: `sig` sends its write to the target's unit with a release at `.dv`, waits while the unit's port is shut, and sends a
packet to a peer with a release at `.sy`; the unit applies it, and fires the waits that the value left meets; `waits` completes when the word meets
its condition or has done so, and else holds a slot; the poll reads the word, and both observe what it was made of. A comparand is popped when its
wait fires (the model's reading, log 23). R96, R312, R313, R323 (when a run is dead, DEDUCED, log 82; what a write finds when its core is shut, and
that it waits until the instance has started, DEDUCED, logs 63 and 92): a deadlocked run gets one record, at which every member stands; a write to a
signal word is performed at its unit in the order of its word, unless its core is frozen or quietly halted or its instance has not started, and is
dropped where no instance runs; then it raises its interrupt. -/
def Obligations.SignalWords : Prop :=
  (∀ (s : State) (a : At) (o : SigOp) (n : BitVec 8) (c : SCond) (d x y : SOp), Moves s a →
  (QueuesOk s a (popsS [x, y]) [] →
    let u := takeS a x s
    let v := takeS a y u.2
    let t3 := release v.2 (partyOf a) 4
    let w := u.1.toNat
    exec (.sig o false true n x y) s = .next (retire a (sigSend t3 ⟨a.k, n.toNat, o, v.1, none, [obsOf t3 (partyOf a)]⟩)) ∧
    (w < 64 → runsPart s (partAt s a.k) w = true → coreShut (coreAt s w) = false → exec (.sig o false false n x y) s =
      .next (retire a (sigSend t3 ⟨w, n.toNat, o, v.1, none, [obsOf t3 (partyOf a)]⟩))) ∧
    (w < 64 → runsPart s (partAt s a.k) w = true → coreShut (coreAt s w) = true → exec (.sig o false false n x y) s = .next (block a .other s)) ∧
    (w / 2 ^ 6 % 4 ≠ 0 ∨ w / 2 ^ 16 ≠ 0 → exec (.sig o true false n x y) s = .next (trapTy a .illegalOperand s)) ∧
    (w / 2 ^ 6 % 4 = 0 → w / 2 ^ 16 = 0 → tagRoom s a 1 = true → relReady s (partyOf a) 5 = true → exec (.sig o true false n x y) s =
      .next (retire a (sendSignal a (w / 2 ^ 8 % 2 ^ 8) (w % 2 ^ 6) n.toNat (decide (o = .add)) v.1 (release v.2 (partyOf a) 5)))) ∧
    (w / 2 ^ 6 % 4 = 0 → w / 2 ^ 16 = 0 → tagRoom s a 1 = false ∨ relReady s (partyOf a) 5 = false → exec (.sig o true false n x y) s = .next (block a .other s)) ∧
    (u.1.toNat < 64 → runsPart s (partAt s a.k) u.1.toNat = false → exec (.sig o false false n x y) s = .next (trapTy a .spadWindow s)) ∧
    (64 ≤ u.1.toNat → exec (.sig o false false n x y) s = .next (trapTy a .illegalOperand s))) ∧
  (QueuesOk s a [] (pushS d) → exec (.waitsPoll d n) s =
    .next (retire a (putS a d (sget 0 (coreAt s a.k).sg n.toNat) (observeAll (partyOf a) s (sget [] (coreAt s a.k).sgObs n.toNat))))) ∧
  (QueuesOk s a (popsS [y]) (pushS d) → (ctxOf s a).wait = none → slotFree s a (.sg n.toNat c (takeS a y s).1) = true →
    let w := sget 0 (coreAt s a.k).sg n.toNat
    let b := (takeS a y s).1
    let met : Bool := match c with | .eq => decide (w = b) | .ne => decide (w ≠ b) | .geu => decide (b.toNat ≤ w.toNat) | .ltu => decide (w.toNat < b.toNat)
    (met = true → exec (.waits c d n y) s = .next (retire a (putS a d w (acquire (takeS a y
      (observeAll (partyOf a) (modCtx s a fun t => { t with wait := none }) (sget [] (coreAt s a.k).sgObs n.toNat))).2 (partyOf a) 5)))) ∧
    (met = false → exec (.waits c d n y) s = .next (block a .other (modCtx s a fun t => { t with wait := some ⟨.sg n.toNat c b, true, none, false⟩ })))) ∧
  (QueuesOk s a (popsS [y]) (pushS d) → ∀ m c' b sl f td, (ctxOf s a).wait = some ⟨.sg m c' b, sl, some f, td⟩ → exec (.waits c d n y) s =
    .next (retire a (putS a d f.v (acquire (takeS a y (observeAll (partyOf a) (modCtx s a fun t => { t with wait := none }) f.obs)).2 (partyOf a) 5)))) ∧
  ∀ k m v l, let t := sigApply s k m o v l
    let v' := match o with | .write => v | .add => sget 0 (coreAt s k).sg m + v | .or => sget 0 (coreAt s k).sg m ||| v
    sget 0 (coreAt t k).sg m = v' ∧ (∀ j, j ≠ m → sget 0 (coreAt t k).sg j = sget 0 (coreAt s k).sg j) ∧
    ∀ b c' td, a.k = k → (a.x = .user ∨ a.c = .K) → (ctxOf s a).wait = some ⟨.sg m c' b, true, none, td⟩ →
      (scondOk c' v' b = false → (ctxOf t a).wait = (ctxOf s a).wait) ∧
      (scondOk c' v' b = true → ∃ f : Fire, (ctxOf t a).wait = some ⟨.sg m c' b, true, some f, td⟩ ∧ f.v = v' ∧ f.bad = false)) ∧
  (∀ (s : State) (k idx : Nat),
  (runDead s k = false → exec (.runDeadlock k) s = .next s) ∧
  (runDead s k = true → ∃ t, exec (.runDeadlock k) s = .next t ∧ ∀ c ∈ members (coreAt s k), (cluAt t k c).stop = some s.dev.nextToken) ∧
  (s.sig[idx]? = none → exec (.signalWordUpdate idx) s = .next s) ∧
  ∀ m, s.sig[idx]? = some m →
    let o := coreAt s m.core
    let rest := { s with sig := s.sig.eraseIdx idx }
    let shut := o.frozen = true ∨ (o.dbgQuiet = true ∧ o.dbgPorous = false) ∨ (∃ i, o.inst = some i ∧ i.started = false) ∨ ∃ i < idx, ∃ x, s.sig[i]? = some x ∧ x.core = m.core ∧ x.n = m.n
    (o.inst = none → exec (.signalWordUpdate idx) s = .next rest) ∧
    (o.inst ≠ none → shut → exec (.signalWordUpdate idx) s = .next s) ∧
    (o.inst ≠ none → ¬shut → (m.uli = none → exec (.signalWordUpdate idx) s = .next (sigApply rest m.core m.n m.o m.v m.obs)) ∧
      ∀ u, m.uli = some u → ∃ obs, exec (.signalWordUpdate idx) s = .next (modKs (sigApply rest m.core m.n m.o m.v m.obs) (u / 32) fun ks =>
        { ks with uliPend := ks.uliPend ||| 2 ^ (u % 32), uliObs := obs })))

/-- R317, R319, R321, R327: an arrival at a core or device barrier. A first arrival with a free slot makes no other party wait for it again: with its
ticket set the syllable makes no new arrival; a barrier of another partition, or without the core in its mask, traps. R317, R319: the firing tests.
The last arrival at the core barrier advances its generation, fires the waits of the others and goes on with an acquire, its ticket cleared. A full
device barrier advances its generation, the early arrivals of the next one become its arrivals, and the waits of the generation that ends fire. -/
def Obligations.BarrierArrivals : Prop :=
  (∀ (s : State) (a : At) (b : BitVec 6), Moves s a →
  (∀ t, (ctxOf s a).tickCo = some t → (ctxOf s a).wait = some ⟨.barCo t, true, none, false⟩ → exec .barCo s = .next (block a .other s)) ∧
  (∀ t v, (ctxOf s a).tickCo = some t → (ctxOf s a).wait = some ⟨.barCo t, true, some v, false⟩ → ∃ t0, exec .barCo s = .next (retire a t0) ∧
    (ctxOf t0 a).tickCo = none ∧ (ctxOf t0 a).wait = none) ∧
  (a.x = .user → (ctxOf s a).tickCo = none → slotFree s a (.barCo 0) = true → (coreAt s a.k).barArr = [] → (∃ c, c ≠ a.c ∧ ended (cluAt s a.k c).run = false) →
    ended (cluAt s a.k a.c).run = false →
    ∃ t, exec .barCo s = .next t ∧ (ctxOf t a).tickCo = some (coreAt s a.k).barGen ∧ (coreAt t a.k).barArr = [cnum a.c] ∧ (coreAt t a.k).barGen = (coreAt s a.k).barGen ∧
      (ctxOf t a).wait = some ⟨.barCo (coreAt s a.k).barGen, true, none, false⟩) ∧
  ((∀ t, (ctxOf s a).tickDv ≠ some (b.toNat, t)) → ((barAt s b.toNat).owner ≠ partAt s a.k ∨ (barAt s b.toNat).mask.getLsbD a.k = false) →
    exec (.barDv b) s = .next (trapTy a .illegalOperand s) ∧ exec (.bard b) s = .next (trapTy a .illegalOperand s)) ∧
  (∀ (v : Barrier) (c : Nat) (o : Obs), c < 64 → v.arrmask.getLsbD c = false → barArrive v c o =
    some (v.gen, { v with arrmask := v.arrmask ||| BitVec.ofNat 64 (2 ^ c), arrived := v.arrived + 1, obs := addObs v.obs o })) ∧
  (∀ (v : Barrier) (c : Nat) (o : Obs), c < 64 → v.arrmask.getLsbD c = true → v.next.getLsbD c = false →
    barArrive v c o = some (v.gen + 1, { v with next := v.next ||| BitVec.ofNat 64 (2 ^ c), nextObs := addObs v.nextObs o })) ∧
  (∀ (v : Barrier) (c : Nat) (o : Obs), c < 64 → v.arrmask.getLsbD c = true → v.next.getLsbD c = true → barArrive v c o = none) ∧
  ((∀ t, (ctxOf s a).tickDv ≠ some (b.toNat, t)) → (barAt s b.toNat).owner = partAt s a.k → (barAt s b.toNat).mask.getLsbD a.k = true → slotFree s a (.barDv b.toNat 0) = true →
    (∀ t v, barArrive (barAt s b.toNat) a.k (obsOf (release s (partyOf a) 4) (partyOf a)) = some (t, v) → exec (.barDv b) s = .next (barCheck (waitStep a (.barDv b.toNat t) (dvTest b.toNat t) (dvDone a)
      (barFire b.toNat 3 (modCtx (modBar (release s (partyOf a) 4) b.toNat fun _ => v) a fun x => { x with tickDv := some (b.toNat, t), wait := queuedOnly x.wait }))) b.toNat)) ∧
    (engBusy s a.k = false → relReady s (partyOf a) (bardLvl s a.k) = true →
      ∀ t v, barArrive (barAt s b.toNat) a.k (obsOf (bardRel a s) (partyOf a)) = some (t, v) → exec (.bard b) s = .next (barCheck (waitStep a (.barDv b.toNat t) (dvTest b.toNat t) (dvDone a)
      (barFire b.toNat 3 (modCtx (modBar (bardRel a s) b.toNat fun _ => v) a fun x => { x with tickDv := some (b.toNat, t), wait := queuedOnly x.wait }))) b.toNat)))) ∧
  (∀ (s : State) (b : Nat),
  (∀ a, Moves s a → a.x = .user → (ctxOf s a).tickCo = none → (ctxOf s a).wait = none → slotFree s a (.barCo 0) = true →
    let o := coreAt s a.k
    o.barNext = [] → cnum a.c ∉ o.barArr → (∀ c, c ≠ a.c → ended (cluAt s a.k c).run = true ∨ cnum c ∈ o.barArr) →
    ∃ t, exec .barCo s = .next (retire a t) ∧ (coreAt t a.k).barGen = o.barGen + 1 ∧ (coreAt t a.k).barArr = [] ∧ (ctxOf t a).tickCo = none ∧
      (ctxOf t a).wait = none ∧ snapOf t (partyOf a) = [] ∧
      ∀ c tk td, c ≠ a.c → (cluAt s a.k c).ctx.wait = some ⟨.barCo tk, true, none, td⟩ → tk ≤ o.barGen →
        ∃ f, (cluAt t a.k c).ctx.wait = some ⟨.barCo tk, true, some f, td⟩) ∧
  let v := barAt s b
  (v.owner ≠ 31 → 0 < v.expect → v.arrived = v.expect → popcW v.next ≠ v.expect →
    barAt (barFire b 3 s) b = { v with gen := v.gen + 1, arrmask := v.next, arrived := popcW v.next, next := 0, doneObs := v.obs, obs := v.nextObs, nextObs := [] } ∧
    ∀ a t td, a.x = .user ∨ a.c = .K → (ctxOf s a).wait = some ⟨.barDv b t, true, none, td⟩ →
      if t ≤ v.gen then ∃ f, (ctxOf (barFire b 3 s) a).wait = some ⟨.barDv b t, true, some f, td⟩ else (ctxOf (barFire b 3 s) a).wait = (ctxOf s a).wait) ∧
  (v.arrived ≠ v.expect → barFire b 3 s = s))

/-- R328: the four forms of `barset`. R319 to R321, R97, R298, R313: the host's writes to the registers of a barrier that the partition holds, a mask
of 0 among them, which frees it, and freezes: with the last one over, what was parked for the core's port is performed. -/
def Obligations.BarrierTable : Prop :=
  (∀ (s : State) (a : At) (d x y : SOp) (n : BitVec 6), Moves s a →
  let part := partAt s a.k
  let b := n.toNat
  let word := fun (st : Nat) (v : Barrier) (num : Nat) => packFields [(6, num), (2, 0), (8, st), (16, 0), (7, v.expect), (1, 0), (7, v.arrived), (1, 0), (16, v.gen)]
  let put := fun (w : Nat) (s : State) => Host.Outcome.next (retire a (putS a d (BitVec.ofNat 64 w) s))
  (QueuesOk s a [] (pushS d) →
    ((barAt s b).owner ≠ part → exec (.barsetFree d n) s = put (2 * 256) s ∧ exec (.barsetQuery d n) s = put (2 * 256) s) ∧
    ((barAt s b).owner = part →
      exec (.barsetQuery d n) s = put (word 0 (barAt s b) b) s ∧
      ((barAt s b).arrived ≠ 0 ∨ (barAt s b).next ≠ 0 → exec (.barsetFree d n) s = put (word 5 (barAt s b) b) s) ∧
      ((barAt s b).arrived = 0 → (barAt s b).next = 0 → ∃ w t, exec (.barsetFree d n) s = put w t ∧ (barAt t b).owner = 31))) ∧
  (QueuesOk s a (popsS [x, y]) (pushS d) →
    let u := takeS a x s
    let v := takeS a y u.2
    let m := u.1.toNat
    let e := v.1.toNat
    (m = 0 → exec (.barsetAlloc d x y) s = put (3 * 256) v.2) ∧
    (∀ j, m ≠ 0 → maskRuns v.2 part m = true → e ≤ popcN 64 m → e ≤ 127 → (∀ i < j, (barAt v.2 i).owner ≠ 31) → j < 64 → (barAt v.2 j).owner = 31 →
      let nb : Barrier := { owner := part, mask := BitVec.ofNat 64 m, expect := if e = 0 then popcN 64 m else e }
      exec (.barsetAlloc d x y) s = put (word 0 nb j) (modBar v.2 j fun _ => nb)) ∧
    ((barAt v.2 b).owner ≠ part → exec (.barsetSet d x y n) s = put (2 * 256) v.2) ∧
    ((barAt v.2 b).owner = part → m ≠ 0 → maskRuns v.2 part m = true → e ≤ popcN 64 m → e ≤ 127 →
      let t := barTest (modBar v.2 b fun o => { o with mask := BitVec.ofNat 64 m, expect := if e = 0 then popcN 64 m else e }) b
      exec (.barsetSet d x y n) s = put (word 0 (barAt t b) b) t))) ∧
  (∀ (s : State) (part b k : Nat) (v : BitVec 64),
  let mine := hostCan s part = true ∧ (barAt s b).owner = part ∧ b < 64
  (¬mine → exec (.barrierRegWrite part b true v) s = .next s ∧ exec (.barrierRegWrite part b false v) s = .next s) ∧
  (mine → exec (.barrierRegWrite part b true v) s = .next (barTest (modBar s b fun x => { x with expect := v.toNat % 128 }) b) ∧
    (v ≠ 0 → exec (.barrierRegWrite part b false v) s = .next (barTest (modBar s b fun x => { x with mask := v }) b)) ∧
    (v = 0 → exec (.barrierRegWrite part b false v) s = .next (barFree s b))) ∧
  let o := coreAt s k
  (∃ t, exec (.correctableErrorFreeze k) s = .next t ∧ (coreAt t k).frozen = true ∧
    (o.frozen = true → coreAt t k = { o with freezeMore := true }) ∧ (o.frozen = false → coreAt t k = { o with frozen := true, cefreeze := o.cefreeze + 1 })) ∧
  (o.frozen = true → o.freezeMore = true → ∃ t, exec (.freezeEnd k) s = .next t ∧ coreAt t k = { o with freezeMore := false, cefreeze := o.cefreeze + 1 }) ∧
  (o.frozen = false ∨ o.freezeMore = false → ∃ t, exec (.freezeEnd k) s = .next (unpark t) ∧ coreAt t k = { o with frozen := false } ∧ t.park = s.park ∧ (s.park = [] → s.linkWait = [] → unpark t = t)))

/-- R324, R329, R330: user-level interrupts. Entry saves the program counter, moves the causes to the shadow `x56`, acquires, and goes to ULIVEC;
`uliret` goes back; the forms of `ulien`; a loop in a handler traps. The barrier tickets of the code that an entry cuts short wait for `uliret` (the
model's reading, log 100). -/
def Obligations.UserInterrupts : Prop :=
  ∀ (s : State) (k : Nat) (x y : SOp) (w : BitVec 10) (n : BitVec 8) (c : SCond) (l : Fin 6) (off : BitVec 16),
  let a : At := ⟨k, .K, .user⟩
  let ks := (coreAt s k).ks
  (uliDue s k = true → ∃ t, exec (.uliEntry k) s = .next t ∧
    (coreAt t k).ks.uliRet = pcOf s a ∧ (coreAt t k).ks.uliActive = true ∧ (coreAt t k).ks.uliPend = 0 ∧ pcOf t a = ks.uliVec ∧
    getX t a 56 = BitVec.ofNat 64 ks.uliPend ∧ sget 0 (ctxOf t a).x 56 = sget 0 (ctxOf s a).x 56 ∧ snapOf t (partyOf a) = [] ∧ (ctxOf t a).tickCo = none ∧ (ctxOf t a).tickDv = none ∧ (ctxOf t a).cutCo = (ctxOf s a).tickCo ∧ (ctxOf t a).cutDv = (ctxOf s a).tickDv) ∧
  (Moves s a →
    (QueuesOk s a (popsS [x]) [] → (takeS a x s).1.toNat ≤ 32767 → exec (.ulienOn x) s = .next (retire a (modKs (takeS a x s).2 k fun ks => { ks with uliVec := (takeS a x s).1.toNat, uliEn := true }))) ∧
    (QueuesOk s a (popsS [x]) [] → 32767 < (takeS a x s).1.toNat → exec (.ulienOn x) s = .next (trapTy a .pcRange s)) ∧
    exec .ulienOff s = .next (retire a (modKs s k fun ks => { ks with uliEn := false })) ∧
    (w.toNat ≤ 23 → exec (.ulienUnwatch w) s = .next (retire a (modKs s k fun ks => { ks with watches := serase ks.watches w.toNat }))) ∧
    (23 < w.toNat → exec (.ulienUnwatch w) s = .next (trapTy a .illegalOperand s)) ∧
    (QueuesOk s a (popsS [y]) [] → w.toNat ≤ 23 → (slook ks.watches w.toNat).isSome = true ∨ slotFree s a (.sg n.toNat c (takeS a y s).1) = true →
      ∃ t, exec (.ulienWatch w n y c) s = .next (retire a t) ∧
        if scondOk c (getSg s k n.toNat) (takeS a y s).1 = true then (coreAt t k).ks.uliPend.testBit w.toNat = true ∧ slook (coreAt t k).ks.watches w.toNat = none
        else slook (coreAt t k).ks.watches w.toNat = some ⟨n.toNat, c, (takeS a y s).1, true, ((slook ks.watches w.toNat).map (·.told)).getD false⟩ ∧ (coreAt t k).ks.uliPend = ks.uliPend) ∧
    (ks.uliActive = true → exec .uliret s = .next (branchTo a ks.uliRet false (modCtx (modKs s k fun ks => { ks with uliActive := false }) a fun t =>
      { t with tickCo := t.cutCo, tickDv := t.cutDv, cutCo := none, cutDv := none }))) ∧
    (ks.uliActive = false → exec .uliret s = .next (trapTy a .illegalOperand s)) ∧
    (ks.uliActive = true → off ≠ 0 → pcOf s a + off.toNat ≤ 32767 → QueuesOk s a (popsS [x]) [] → exec (.loop l x off) s = .next (trapTy a .loopState s)))

/-- R130, R125, R58, R57: element arithmetic under the mask, by exact sums and products: integers wrap, or clamp in the `.sat` forms; floats round
once. R131, R34, R35: the immediate forms put IMM16 in every element, unmasked and without saturation. R132: bits, shifts by the low bits of the
second element, and the high half of the exact product. -/
def Obligations.VectorElements : Prop :=
  (∀ (t : Ety) (f : FTy) (sat : Bool) (m : VMask) (d x y z : VOp),
  let w := etyW t
  let two := fun (F : FTy → Loc → Nat → Nat → Nat) (I : Int → Int → Int) (s : State) (a : At) (u v : Nat) =>
    match etyF t with
    | some f => F f (locOf s a) u v
    | none => intRes t sat (I (elemInt t u) (elemInt t v))
  VGives2 (.vadd t sat m d x y) w m d x y (two fAdd fun i j => i + j) ∧ VGives2 (.vsub t sat m d x y) w m d x y (two fSub fun i j => i - j) ∧
  VGives2 (.vmul t sat m d x y) w m d x y (two fMul fun i j => i * j) ∧
  VGives3 (.vfma f m d x y z) (fW f) m d x y z (fun s a => fFma f (locOf s a)) ∧
  VGives2 (.vmin t m d x y) w m d x y (fun _ _ u v => match etyF t with | some f => fMin f u v | none => if elemInt t v < elemInt t u then v else u) ∧
  VGives2 (.vmax t m d x y) w m d x y (fun _ _ u v => match etyF t with | some f => fMax f u v | none => if elemInt t u < elemInt t v then v else u) ∧
  VGives1 (.vabs t sat m d x) w m d x (fun _ _ u => match etyF t with | some f => fAbs f u | none => intRes t sat (elemInt t u).natAbs) ∧
  VGives1 (.vneg t sat m d x) w m d x (fun _ _ u => match etyF t with | some f => fNegate f u | none => intRes t sat (-(elemInt t u))) ∧
  ∀ i, etyF t = none → ((intRes t false i : Int) - i) % 2 ^ w = 0 ∧
    (i < intLo t → elemInt t (intRes t true i) = intLo t) ∧ (intHi t < i → elemInt t (intRes t true i) = intHi t) ∧
    (intLo t ≤ i → i ≤ intHi t → elemInt t (intRes t true i) = i)) ∧
  (∀ (t : Ety) (d x : VOp) (imm : BitVec 16),
  let w := etyW t
  let b := fun (s : State) (a : At) => immElem t (locOf s a) imm.toNat
  let two := fun (F : FTy → Loc → Nat → Nat → Nat) (I : Int → Int → Int) (s : State) (a : At) (u : Nat) =>
    match etyF t with
    | some f => F f (locOf s a) u (b s a)
    | none => intRes t false (I (elemInt t u) (elemInt t (b s a)))
  VGives1 (.vaddImm t d x imm) w none d x (two fAdd fun i j => i + j) ∧ VGives1 (.vsubImm t d x imm) w none d x (two fSub fun i j => i - j) ∧
  VGives1 (.vmulImm t d x imm) w none d x (two fMul fun i j => i * j) ∧
  VGives1 (.vminImm t d x imm) w none d x (two (fun f _ => fMin f) fun i j => if j < i then j else i) ∧
  VGives1 (.vmaxImm t d x imm) w none d x (two (fun f _ => fMax f) fun i j => if i < j then j else i) ∧
  ∀ s a j, etyInt t = true → bitN (maskOf a none s) j = decide (j < 1024) ∧
    immElem t (locOf s a) imm.toNat = (if etySigned t then (imm.signExtend 64).toNat else imm.toNat) % 2 ^ w) ∧
  (∀ (t : Ety) (m : VMask) (d x y : VOp),
  let w := etyW t
  VGives2 (.vand t m d x y) w m d x y (fun _ _ u v => u &&& v) ∧ VGives2 (.vor t m d x y) w m d x y (fun _ _ u v => u ||| v) ∧
  VGives2 (.vxor t m d x y) w m d x y (fun _ _ u v => u ^^^ v) ∧
  (∃ f : Nat → Nat → Nat, VGives2 (.vandn t m d x y) w m d x y (fun _ _ => f) ∧
    ∀ u < 2 ^ w, ∀ v < 2 ^ w, ∀ i < w, (f u v).testBit i = (u.testBit i && !v.testBit i)) ∧
  VGives2 (.vshl t m d x y) w m d x y (fun _ _ u v => u * 2 ^ (v % w)) ∧ VGives2 (.vshr t m d x y) w m d x y (fun _ _ u v => u / 2 ^ (v % w)) ∧
  (∃ f : Nat → Nat → Nat, VGives2 (.vsra t m d x y) w m d x y (fun _ _ => f) ∧ ∀ u < 2 ^ w, ∀ v, sint w (f u v) = sint w u / 2 ^ (v % w)) ∧
  (∃ f : Nat → Nat → Nat, VGives2 (.vmulh t m d x y) w m d x y (fun _ _ => f) ∧ ∀ u v, ((f u v : Int) - elemInt t u * elemInt t v / 2 ^ w) % 2 ^ w = 0))

/-- R133, R134: `vbcast` writes every active element; `vcmp` writes all bits of its mask, 0 for an inactive element and above the last one. -/
def Obligations.BroadcastCompare : Prop :=
  ∀ (t : Ety) (c : VCond) (m : VMask) (p : Fin 16) (d x y : VOp) (e : SOp) (imm : BitVec 16) (s : State) (a : At),
  Moves s a →
  let w := etyW t
  (QueuesOk s a (popsS [e]) (portV 1 d) → ∃ r, exec (.vbcast t m d e) s = .next (retire a (putV a 1 d r (takeS a e s).2)) ∧
    Elems w (4096 / w) (maskOf a m s) (oldV a 1 d s) r fun _ => (takeS a e s).1.toNat % (if t = .tf6 then 64 else 2 ^ w)) ∧
  (QueuesOk s a [] (portV 1 d) → ∃ r, exec (.vbcastImm t d imm) s = .next (retire a (putV a 1 d r s)) ∧
    ∀ j < 4096 / w, elemN w r j = immElem t (locOf s a) imm.toNat % 2 ^ w) ∧
  (QueuesOk s a (portV 1 x ++ portV 1 y) [] →
    let u := takeV a 1 x s
    let v := takeV a 1 y u.2
    ∃ r : Mask, exec (.vcmp t c m p x y) s = .next (retire a (setM v.2 a p.val r)) ∧
      ∀ i < 1024, r.getLsbD i = (decide (i < 4096 / w) && bitN (maskOf a m s) i &&
        let l := elemN w u.1 i
        let q := elemN w v.1 i
        if etyFlt t && (isNanE t l || isNanE t q) then decide (c = .ne ∨ c = .un)
        else match c with
          | .eq => decide (ordKey t l = ordKey t q)
          | .ne => decide (ordKey t l ≠ ordKey t q)
          | .lt => decide (ordKey t l < ordKey t q)
          | .le => decide (ordKey t l ≤ ordKey t q)
          | .gt => decide (ordKey t q < ordKey t l)
          | .ge => decide (ordKey t q ≤ ordKey t l)
          | .un => false)) ∧
  (∀ f l, etyF t = some f → ordKey t l = fOrd f l) ∧ (∀ l, etyF t = none → ordKey t l = elemInt t l)

/-- R135: `vsel` takes each element by the bit of its mask, of the first source where it is 1 and of the second where it is 0; `vmov` copies all 4096
bits of a register. -/
def Obligations.SelectAndMove : Prop :=
  ∀ (t : Ety) (ms : Fin 16) (d x y : VOp) (s : State) (a : At), Moves s a →
  (QueuesOk s a (portV 1 x ++ portV 1 y) (portV 1 d) →
    let u := takeV a 1 x s
    let v := takeV a 1 y u.2
    ∃ r, exec (.vsel t ms d x y) s = .next (retire a (putV a 1 d r v.2)) ∧
      ∀ i < 4096 / etyW t, elemN (etyW t) r i = if (getM s a ms.val).getLsbD i then elemN (etyW t) u.1 i else elemN (etyW t) v.1 i) ∧
  (QueuesOk s a (portV 1 x) (portV 1 d) → exec (.vmov d x) s = .next (retire a (putV a 1 d (takeV a 1 x s).1 (takeV a 1 x s).2))) ∧
  (∀ n : Fin 640, takeV a 1 (.v n) s = ((getV s a n.val).toNat, s)) ∧
  ∀ n : Fin 640, ∀ r, putV a 1 (.v n) r s = setV s a n.val (BitVec.ofNat 4096 r) ∧ getV (setV s a n.val (BitVec.ofNat 4096 r)) a n.val = BitVec.ofNat 4096 r

/-- R136, R137, R138: conversions at one width, into a wider group and out of one, and scaled conversions of tapered codes with their block and tensor
scales. R78, R79, R139: `vred` leaves the root of the pairwise tree in element 0 and zeros elsewhere, `vscan` the inclusive scan; inactive elements
enter as the identity. An integer sum is the sum of the active elements. -/
def Obligations.ConversionsAndReductions : Prop :=
  (∀ (dt st : Ety) (rz : Bool) (m : VMask) (d x y : VOp) (other blk : BitVec 2) (c : SOp),
  VGives1 (.vcvt dt st rz m d x) (etyW dt) m d x (fun s a => convert dt st rz (locOf s a)) ∧
  VGroup (.vwiden dt st rz m d x) 1 (etyW dt / etyW st) (etyW dt) (etyE st) m d x
    (fun s a u i => convert dt st rz (locOf s a) (elemN (etyW st) u i)) ∧
  VGroup (.vnarrow dt st rz m d x) (etyW st / etyW dt) 1 (etyW dt) (etyE dt) m d x
    (fun s a u i => convert dt st rz (locOf s a) (elemN (etyW st) u i)) ∧
  (let from' := if other = 0 then FTy.fp32 else if other = 1 then .fp16 else .bf16
   let gx := match etyF dt with | some _ => 1 | none => if other = 0 then 4 else 2
   let gd := match etyF dt with | some f => fW f / 8 | none => 1
   let py := if blk = 3 then [] else portV 1 y
   (groupOk gx x = true → groupOk gd d = true → ∀ s a, Moves s a → QueuesOk s a (portV gx x ++ py ++ popsS [c]) (portV gd d) →
     let u := takeV a gx x s
     let v := if blk = 3 then (0, u.2) else takeV a 1 y u.2
     let k := takeS a c v.2
     let t := if c = .x 0 then 0x3F800000 else k.1.toNat % 2 ^ 32
     let b := fun i => if blk = 3 then 127 else elemN 8 v.1 (i / 2 ^ (4 + blk.toNat))
     ∃ r, exec (.vcvts dt other blk d x y c) s = .next (retire a (putV a gd d r k.2)) ∧ ∀ i < 512, match etyF dt with
       | some f => elemN (fW f) r i = convert (ftyE f) .fp32 false (locOf s a) (scaledDec (decide (other = 1)) (locOf s a) (elemN 8 u.1 i) (b i) t) % 2 ^ fW f
       | none => elemN 8 r i =
         scaledEnc (decide (dt = .tf6)) (convert .fp32 (ftyE from') false (locOf s a) (elemN (fW from') u.1 i)) (b i) t % 2 ^ 8) ∧
   (groupOk gx x = false ∨ groupOk gd d = false → Goes (.vcvts dt other blk d x y c) fun a s => trapTy a .illegalOperand s))) ∧
  (∀ (t : Ety) (o : RedOp) (m : VMask) (d x : VOp),
  let w := etyW t
  let n := etyE t
  let op := fun (s : State) (a : At) (u v : Nat) => match o with
    | .add => (match etyF t with | some f => fAdd f (locOf s a) u v | none => intRes t false (elemInt t u + elemInt t v))
    | .min => elMin t u v
    | .max => elMax t u v
    | .and => u &&& v
    | .or => u ||| v
    | .xor => u ^^^ v
  let ins := fun (s : State) (a : At) (u : Nat) => (List.range n).map fun i => if bitN (maskOf a m s) i then elemN w u i else redId t o
  VWhole (.vred t o m d x) w n d x (fun s a u j => if j = 0 then (redTree (op s a) (Nat.log2 n) (ins s a u)).headD 0 else 0) ∧
  VWhole (.vscan t o m d x) w n d x (fun s a u j => (scanAll (op s a) (Nat.log2 n) 1 (ins s a u)).getD j 0) ∧
  (∀ (f : Nat → Nat → Nat) u v l, pairUp f (u :: v :: l) = f u v :: pairUp f l) ∧
  (∀ (f : Nat → Nat → Nat) e (l : List Nat), ∀ i < l.length, (scanFrom f e l)[i]? = if i < e then l[i]? else some (f (l.getD (i - e) 0) (l.getD i 0))) ∧
  (∀ l : List Nat, etyInt t = true → l.length = n → ((redTree (fun u v => intRes t false (elemInt t u + elemInt t v)) (Nat.log2 n) l).headD 0) % 2 ^ w = l.sum % 2 ^ w) ∧
  (∀ f, etyF t = some f → redId t .add = 2 ^ (fW f - 1) ∧ redId t .min = fInf f ∧ redId t .max = fWithSign f true (fInf f)) ∧
  (etyInt t = true → redId t .add = 0 ∧ redId t .or = 0 ∧ redId t .xor = 0 ∧ redId t .and = 2 ^ w - 1 ∧ elemInt t (redId t .min) = intHi t ∧ elemInt t (redId t .max) = intLo t))

/-- R140, R141: permutes by index and by pattern, and reads across lanes: the largest active lane at or below the index, else the identity. R142,
R143: one element in or out of a register, and packing and unpacking by a mask; an index past the last element writes nothing, or reads 0. `vext` of a
tf6 element takes its six bits (log entry 55, DEDUCED). -/
def Obligations.PermutesAndLanes : Prop :=
  (∀ (t : Ety) (m : VMask) (d x y : VOp) (i : XSrc),
  let w := etyW t
  let n := etyE t
  let h := n / 2
  VGroup2 (.vperm t m d x y) ((n + 255) / 256) w n m d x y (fun _ _ u v j => if elemN 16 v j < n then elemN w u (elemN 16 v j) else 0) ∧
  VPair (.vshuf t .ziplo m d x y) 1 w n m d x y (fun _ _ u v j => elemN w (if j % 2 = 0 then u else v) (j / 2)) ∧
  VPair (.vshuf t .ziphi m d x y) 1 w n m d x y (fun _ _ u v j => elemN w (if j % 2 = 0 then u else v) (h + j / 2)) ∧
  VPair (.vshuf t .even m d x y) 1 w n m d x y (fun _ _ u v j => if j < h then elemN w u (2 * j) else elemN w v (2 * (j - h))) ∧
  VPair (.vshuf t .odd m d x y) 1 w n m d x y (fun _ _ u v j => if j < h then elemN w u (2 * j + 1) else elemN w v (2 * (j - h) + 1)) ∧
  VPair (.vshuf t .rev m d x y) 1 w n m d x y (fun _ _ u _ j => elemN w u (n - 1 - j)) ∧
  (groupOk ((n + 255) / 256) y = false → Goes (.vxl t m d x y i) fun a s => trapTy a .illegalOperand s) ∧
  (groupOk ((n + 255) / 256) y = true → ∀ s a, Moves s a → QueuesOk s a (portV 1 x ++ portV ((n + 255) / 256) y ++ popsX i) (portV 1 d) →
    let u := takeV a 1 x s
    let v := takeV a ((n + 255) / 256) y u.2
    let k := match i with | .reg r => takeS a r v.2 | .imm c => (c.zeroExtend 64, v.2)
    let act := fun j => bitN (maskOf a m s) j
    ∃ r, exec (.vxl t m d x y i) s = .next (retire a (putV a 1 d r k.2)) ∧ ∀ j < n, let e := elemN 16 v.1 j
      ((n ≤ e ∨ ∀ l ≤ e, act l = false) → elemN w r j = xlId t i k.1 % 2 ^ w) ∧
      ∀ l ≤ e, e < n → act l = true → (∀ l', l < l' → l' ≤ e → act l' = false) → elemN w r j = elemN w u.1 l) ∧
  (∀ (q : SOp) u, xlId t (.reg q) u % 2 ^ w = u.toNat % (if t = .tf6 then 64 else 2 ^ w)) ∧
  ∀ c : BitVec 10, etyInt t = true → xlId t (.imm c) 0 = (if etySigned t then (c.signExtend 64).toNat else c.toNat) % 2 ^ w) ∧
  (∀ (t : Ety) (m : VMask) (p : Fin 640) (d x : VOp) (e g : SOp) (i : XSrc),
  let w := etyW t
  let n := etyE t
  let idx := fun (a : At) (s : State) => match i with | .reg r => takeS a r s | .imm c => (c.zeroExtend 64, s)
  (∀ s a, Moves s a → QueuesOk s a (popsS [e] ++ popsX i) [] →
    let u := takeS a e s
    let k := idx a u.2
    (n ≤ k.1.toNat → exec (.vins t p e i) s = .next (retire a k.2)) ∧
    (k.1.toNat < n → ∃ r : VReg, exec (.vins t p e i) s = .next (retire a (setV k.2 a p.val r)) ∧
      ∀ j < n, elemN w r.toNat j = if j = k.1.toNat then u.1.toNat % (if t = .tf6 then 64 else 2 ^ w) else elemN w (getV s a p.val).toNat j)) ∧
  (∀ s a, Moves s a → QueuesOk s a (portV 1 x ++ popsX i) (pushS g) →
    let u := takeV a 1 x s
    let k := idx a u.2
    exec (.vext t g x i) s = .next (retire a (putS a g (if k.1.toNat < n then regOfElem t (elemN w u.1 k.1.toNat) else 0) k.2))) ∧
  VWhole (.vcompress t m d x) w n d x (fun s a u j =>
    match ((List.range n).filter fun l => bitN (maskOf a m s) l)[j]? with | some l => elemN w u l | none => 0) ∧
  VWhole (.vexpand t m d x) w n d x (fun s a u j =>
    if bitN (maskOf a m s) j then elemN w u ((List.range j).countP fun l => bitN (maskOf a m s) l) else 0) ∧
  ∀ v, (etySigned t = true → (regOfElem t v).toInt = sint w v) ∧ (etySigned t = false → (regOfElem t v).toNat = v % (if t = .tf6 then 64 else 2 ^ w)))

/-- R144, R145: elementary functions with their special inputs and exact points, each other result the value of the function, known to within 2^-100
of it and rounded once; and the table lookup by the low eight bits of each element's code, which is six bits of a tf6 byte (log entry 55, DEDUCED).
R148: `vnanscan` names the lowest active NaN, how many there are and the code of the first, which is six bits of a tf6 byte (log entry 55, DEDUCED).
-/
def Obligations.FunctionsAndScans : Prop :=
  (∀ (t : Ety) (f : FTy) (m : VMask) (d x y : VOp),
  let w := etyW t
  let code := fun (x : Nat) => if t = .tf6 then x % 64 else x
  VGives1 (.vexp f m d x) (fW f) m d x (fun _ _ => fExp f) ∧ VGives1 (.vln f m d x) (fW f) m d x (fun s a => fLn f (locOf s a)) ∧
  VGives1 (.vrcp f m d x) (fW f) m d x (fun _ _ => fRcp f) ∧ VGives1 (.vrsq f m d x) (fW f) m d x (fun s a => fRsq f (locOf s a)) ∧
  VGives1 (.vsig f m d x) (fW f) m d x (fun _ _ => fSig f) ∧
  VGroup2 (.vlut t m d x y) ((256 + etyE t - 1) / etyE t) w (etyE t) m d x y (fun _ _ u v j => elemN w v (code (elemN w u j) % 256)) ∧
  (∀ l u, fIsNan f u = true → fExp f u = fQuiet f u ∧ fLn f l u = fQuiet f u ∧ fRcp f u = fQuiet f u ∧ fRsq f l u = fQuiet f u ∧ fSig f u = fQuiet f u) ∧
  (∀ l, let inf := fInf f
    let ninf := fWithSign f true (fInf f)
    fExp f ninf = 0 ∧ fExp f inf = inf ∧ fLn f l 0 = ninf ∧ fLn f l (fWithSign f true 0) = ninf ∧ fLn f l inf = inf ∧
    fRcp f 0 = inf ∧ fRcp f (fWithSign f true 0) = ninf ∧ fRcp f inf = 0 ∧ fRcp f ninf = fWithSign f true 0 ∧
    fRsq f l 0 = inf ∧ fRsq f l (fWithSign f true 0) = ninf ∧ fRsq f l inf = 0 ∧ fSig f ninf = 0 ∧ fSig f inf = fExp f 0) ∧
  (∀ l u, fIsNan f u = false → fIsZero f u = false → fNeg f u = true → fLn f l u = mkNan f 2 l ∧ fRsq f l u = mkNan f 2 l) ∧
  (∀ u, fIsZero f u = true → fExp f u = fRne f false (qInt 1) ∧ fSig f u = fRne f false ⟨1, 2⟩) ∧
  ∀ l u, fIsNan f u = false → fIsInf f u = false →
    let val := fun (q : Q) => (q.n : Real) / (q.d : Real)
    let v := val (fQ f u)
    (∃ q, 0 < q.d ∧ |val q - Real.exp v| ≤ Real.exp v / 2 ^ 100 ∧ fExp f u = fRne f false q) ∧
    (∃ q, 0 < q.d ∧ |val q - 1 / (1 + Real.exp (-v))| ≤ 1 / (1 + Real.exp (-v)) / 2 ^ 100 ∧ fSig f u = fRne f false q) ∧
    (fIsZero f u = false → ∃ q, 0 < q.d ∧ val q * v = 1 ∧ fRcp f u = fRne f false q) ∧
    (fIsZero f u = false → fNeg f u = false →
      (∃ q, 0 < q.d ∧ |val q - Real.log v| ≤ 1 / 2 ^ 100 ∧ (v = 1 → q.n = 0) ∧ fLn f l u = fRne f false q) ∧
      ∃ q, 0 < q.d ∧ |val q - 1 / Real.sqrt v| ≤ 1 / Real.sqrt v / 2 ^ 100 ∧ (∀ k : Int, v = 4 ^ k → val q = 2 ^ (-k)) ∧ fRsq f l u = fRne f false q)) ∧
  (∀ (t : Ety) (m : VMask) (g : SOp) (x : VOp) (s : State) (a : At), Moves s a → QueuesOk s a (portV 1 x) (pushS g) →
  let u := takeV a 1 x s
  let w := etyW t
  let code := fun (x : Nat) => if t = .tf6 then x % 64 else x
  let nan := fun i => bitN (maskOf a m s) i && isNanE t (elemN w u.1 i)
  ∃ r : Word, exec (.vnanscan t m g x) s = .next (retire a (putS a g r u.2)) ∧
    ((∀ i < etyE t, nan i = false) → r = 0) ∧
    (∀ i < etyE t, w ≤ 32 → nan i = true → (∀ j < i, nan j = false) →
      r.toNat = i + 2 ^ 15 + 2 ^ 20 * (List.range (etyE t)).countP nan + 2 ^ 32 * code (elemN w u.1 i)) ∧
    (∀ v < 256, isNanE .tf8 v = decide (v = 0x80)) ∧ (∀ v < 256, isNanE .tf6 v = decide (v % 64 = 0x20)) ∧
    (∀ f v, etyF t = some f → isNanE t v = fIsNan f v))

/-- R146, R147: mask logic on all 1024 bits, and the count of all of them; a mask written by `vcmp` has no bits at E or above. -/
def Obligations.MaskLogic : Prop :=
  ∀ (d p q : Fin 16) (g : SOp),
  Goes (.mand d p q) (fun a s => retire a (setM s a d.val (getM s a p.val &&& getM s a q.val))) ∧
  Goes (.mor d p q) (fun a s => retire a (setM s a d.val (getM s a p.val ||| getM s a q.val))) ∧
  Goes (.mxor d p q) (fun a s => retire a (setM s a d.val (getM s a p.val ^^^ getM s a q.val))) ∧
  Goes (.mandn d p q) (fun a s => retire a (setM s a d.val (getM s a p.val &&& ~~~getM s a q.val))) ∧
  Goes (.mnot d p) (fun a s => retire a (setM s a d.val (~~~getM s a p.val))) ∧ Goes (.mmov d p) (fun a s => retire a (setM s a d.val (getM s a p.val))) ∧
  GoesQ (.mpopc g p) [] (pushS g) (fun a s => retire a (putS a g (BitVec.ofNat 64 ((List.range 1024).countP fun i => (getM s a p.val).getLsbD i)) s)) ∧
  (∀ s a (v : Mask), ∀ n < 16, getM (setM s a n v) a n = v ∧ ∀ k < 16, k ≠ n → getM (setM s a n v) a k = getM s a k) ∧
  ∀ (t : Ety) (c : VCond) (m : VMask) (x y : VOp) (s : State) (a : At), Moves s a → QueuesOk s a (portV 1 x ++ portV 1 y) [] →
    ∃ (s1 : State) (w : Mask), exec (.vcmp t c m d x y) s = .next (retire a (setM s1 a d.val w)) ∧ (∀ i, etyE t ≤ i → w.getLsbD i = false) ∧
      (List.range 1024).countP (fun i => w.getLsbD i) = (List.range (etyE t)).countP (fun i => w.getLsbD i)

/-- R371, R372, R374, R375: a transduction checks the attributes of its context, runs each number digit by digit and writes the digits and the
overflow mask together; an invalid entry traps with its place and pops nothing. With OVM 0 any O completes (log entry 96, DESIGN CHOICE: the spec
forbids a nonzero O there as an encoding only; the statement holds for every O of the constructor). R373, R380: `dtval` sums digit times weight over a
number, into an int that clamps or a float that rounds once; a code outside the valid ones traps, or makes a NaN. R370, R376, R377, R378: contexts are
loaded from and saved to runs of registers, attributes are set and read, and the handler is named and left. -/
def Obligations.AwnLanes : Prop :=
  (∀ (s : State) (a : At) (c : Fin 4) (ovm : Bool) (o : Fin 16) (e : Fin 14) (d x y : VOp), Moves s a →
  let t := (cluAt s a.k a.c).xs
  let p := dtA (dtAttr t c.val)
  let bad := digitTrap a c.val ⟨3, 0, 0, 0⟩ s
  let u := takeV a 1 x s
  let v := takeV a 1 y u.2
  (p.ok = false ↔ p.res ≠ 0 ∨ 2 ^ (2 ^ (if p.dw then 4 else 2)) ≤ p.vcode ∨ p.w < 4) ∧
  (QueuesOk s a (portV 1 x ++ portV 1 y) (portV 1 d) →
    (p.ok = false → exec (.dtx c ovm o d x y) s = .next bad) ∧
    (p.ok = true → (∀ r, dtAll (dtNum t c.val p u.1 v.1) p.n 0 = .error r → exec (.dtx c ovm o d x y) s = .next (digitTrap a c.val r s)) ∧
      ∀ l, dtAll (dtNum t c.val p u.1 v.1) p.n 0 = .ok l → exec (.dtx c ovm o d x y) s = .next (retire a (dtWrite a p ovm o d l v.2)))) ∧
  (QueuesOk s a (portV 1 x) (portV 1 d) →
    (p.ok = false → exec (.dtmap c ovm o d x) s = .next bad) ∧
    (p.ok = true → (∀ r, dtAll (dtNum t c.val p u.1 0) p.n 0 = .error r → exec (.dtmap c ovm o d x) s = .next (digitTrap a c.val r s)) ∧
      ∀ l, dtAll (dtNum t c.val p u.1 0) p.n 0 = .ok l → exec (.dtmap c ovm o d x) s = .next (retire a (dtWrite a p ovm o d l u.2)))) ∧
  (QueuesOk s a (portV 1 x ++ portV 1 y) [] →
    (p.ok = false → exec (.dtcmp c e x y) s = .next bad) ∧
    (p.ok = true → (∀ r, dtAll (dtClass t c.val p u.1 v.1) p.n 0 = .error r → exec (.dtcmp c e x y) s = .next (digitTrap a c.val r s)) ∧
      ∀ l, dtAll (dtClass t c.val p u.1 v.1) p.n 0 = .ok l → exec (.dtcmp c e x y) s = .next (retire a
        (setM (setM (setM v.2 a e.val (dtMask l (· == 0))) a (e.val + 1) (dtMask l (· == 1))) a (e.val + 2) (dtMask l (· == 2)))))) ∧
  (∀ (f : Nat → Except DtTrap Nat) n k, (∃ r, dtAll f n k = .error r) ↔ ∃ j, k ≤ j ∧ j < k + n ∧ ∃ r, f j = .error r) ∧
  (∀ n va vb k i st jp r, let j := if p.dir then p.w - 1 - i else i
    let en := st * 256 + p.digit va k j + 16 * p.digit vb k j
    (dtValid t c.val en = false → dtRun t c.val p false va vb k (n + 1) i st jp r = .error ⟨0, k, j, st⟩) ∧
    (dtValid t c.val en = true → p.nc ≤ dtEntry t c.val en % 16 → dtRun t c.val p false va vb k (n + 1) i st jp r = .error ⟨1, k, j, st⟩)) ∧
  ∀ r, (t.dtEn = true → t.dtActive = false → inLockstep (coreAt s a.k) a.c = false → pcOf (digitTrap a c.val r s) a = t.dtVec ∧
      (cluAt (digitTrap a c.val r s) a.k a.c).xs = { t with digitinfo := digitInfo r c.val (pcOf s a), dtRet := pcOf s a, dtActive := true }) ∧
    (t.dtEn = false ∨ t.dtActive = true ∨ inLockstep (coreAt s a.k) a.c = true →
      let s1 := modXs s a fun q => { q with digitinfo := digitInfo r c.val (pcOf s a) }
      digitTrap a c.val r s = takeTrap a { clRec s1 a .digit with cause := r.cause } s1)) ∧
  (∀ (s : State) (a : At) (c : Fin 4) (d x : VOp), Moves s a →
  let t := (cluAt s a.k a.c).xs
  let p := dtA (dtAttr t c.val)
  let g := if p.n ≤ 128 then 1 else if p.n ≤ 256 then 2 else 4
  let u := takeV a 1 x s
  let sum := fun k => ((List.range p.w).map fun j => if j < 32 then
      (if p.sgn then sint p.bits (p.digit u.1 k j) else (p.digit u.1 k j : Int)) * dtWeight t c.val j else 0).sum
  let bad := fun k j => bitN p.vcode (p.digit u.1 k j) = false
  (p.ok = true → groupOk g d = false → exec (.dtvalI32 c d x) s = .next (trapTy a .illegalOperand s) ∧ exec (.dtvalFp32 c d x) s = .next (trapTy a .illegalOperand s)) ∧
  (QueuesOk s a (portV 1 x) (portV g d) → p.ok = true → groupOk g d = true →
    ((∀ k < p.n, ∀ j < p.w, ¬bad k j) → ∃ r, exec (.dtvalI32 c d x) s = .next (retire a (putV a g d r u.2)) ∧
      ∀ k < 128 * g, elemN 32 r k = if k < p.n then wrapN 32 (max (-(2 ^ 31)) (min (2 ^ 31 - 1) (sum k))) else 0) ∧
    (∀ k < p.n, ∀ j < p.w, bad k j → (∀ i < j, ¬bad k i) → (∀ l < k, ∀ i < p.w, ¬bad l i) →
      exec (.dtvalI32 c d x) s = .next (digitTrap a c.val ⟨4, k, j, p.start⟩ s)) ∧
    ∃ r, exec (.dtvalFp32 c d x) s = .next (retire a (putV a g d r u.2)) ∧ ∀ k < p.n,
      ((∀ j < p.w, ¬bad k j) → elemN 32 r k = fRne .fp32 false (qInt (sum k)) % 2 ^ 32) ∧ ((∃ j < p.w, bad k j) → elemN 32 r k = mkNan .fp32 8 (locOf s a) % 2 ^ 32))) ∧
  (∀ (s : State) (a : At) (c : Fin 4) (x : VOp) (f d : SOp) (first : Fin 10) (count1 : Fin 8), Moves s a →
  let n := count1.val + 1
  let t := (cluAt s a.k a.c).xs
  (10 < first.val + n → exec (.dtload c x first count1) s = .next (trapTy a .illegalModifier s) ∧ exec (.dtsave x c first count1) s = .next (trapTy a .illegalModifier s)) ∧
  (first.val + n ≤ 10 → runOk n x = false → exec (.dtload c x first count1) s = .next (trapTy a .illegalOperand s) ∧ exec (.dtsave x c first count1) s = .next (trapTy a .illegalOperand s)) ∧
  (first.val + n ≤ 10 → runOk n x = true →
    (QueuesOk s a (portV n x) [] → ∃ q, exec (.dtload c x first count1) s = .next (retire a (modXs (takeV a n x s).2 a q)) ∧
      ∀ z, ∀ j < 10, dtPart (q z) c.val j = if first.val ≤ j ∧ j < first.val + n then dtKeep j (elemN 4096 (takeV a n x s).1 (j - first.val)) else dtPart z c.val j) ∧
    (QueuesOk s a [] (portV n x) → ∃ r, exec (.dtsave x c first count1) s = .next (retire a (putV a n x r s)) ∧
      ∀ j < n, elemN 4096 r j = dtPart t c.val (first.val + j))) ∧
  (QueuesOk s a (popsS [f]) [] → let u := takeS a f s
    (∃ q, exec (.dtattrSet c f) s = .next (retire a (modXs u.2 a q)) ∧ ∀ z, dtAttr (q z) c.val = u.1.toNat) ∧
    (65535 < u.1.toNat → exec (.dtattrHnd f) s = .next (trapTy a .illegalOperand s)) ∧
    (u.1.toNat ≤ 65535 → exec (.dtattrHnd f) s = .next (retire a (modXs u.2 a fun z => { z with dtEn := u.1.getLsbD 15, dtVec := u.1.toNat % 2 ^ 15 })))) ∧
  (QueuesOk s a [] (pushS d) → exec (.dtattrGet d c) s = .next (retire a (putS a d (BitVec.ofNat 64 (dtAttr t c.val)) s))) ∧
  (t.dtActive = true → exec .dtattrRet s = .next (branchTo a t.dtRet false (modXs s a fun z => { z with dtActive := false }))) ∧
  (t.dtActive = false → exec .dtattrRet s = .next (trapTy a .illegalOperand s)))

/-- R273 to R276, R277 to R280, R260: the request syllables. `rqopen` with and without the address of a record, and its statuses, the identity of a
cluster and K's riders, the state changes with the status they write, a meter, a mark and the state word. R267, R269, R270, R271: a draining or
cancelled request that no work carries gets its final record, leaves the table, and a dying partition that waited for it is finished; any other is
left alone, but that a cluster whose service has ended since the cancelling is killed now (`s0`). A draining request's launches count as its work
until they have completed (log entry 77, DEDUCED). A record that cannot be written posts RECORD_LOST. -/
def Obligations.Requests : Prop :=
  (∀ (s : State) (a : At) (d x y : SOp) (n1 : BitVec 7) (kk : Bool) (sel : BitVec 3), Moves s a →
  let part := partAt s a.k
  let u := takeS a x s
  let v := takeS a y u.2
  let id := u.1.toNat
  let put := fun (n : Nat) (t : State) => Host.Outcome.next (retire a (putS a d (BitVec.ofNat 64 n) t))
  (QueuesOk s a (popsS [x, y]) (pushS d) →
    (v.1.toNat % 128 ≠ 0 → exec (.rqopen d x y) s = .next (takeTrap a { clRec s a .misaligned with addr := v.1.toNat } s)) ∧
    (v.1 = 0 →
      (id = 0 ∨ 65535 < id → exec (.rqopen d x y) s = put 6 v.2) ∧
      (0 < id → id ≤ 65535 → (rqAt v.2 id).st ≠ .free → exec (.rqopen d x y) s = put 5 v.2) ∧
      (0 < id → id ≤ 65535 → (rqAt v.2 id).st = .free → liveCount v.2 (fun _ => true) < 16384 → liveCount v.2 (fun r => r.part == part) < (partRec v.2 part).quota →
        exec (.rqopen d x y) s = put 0 (modRq v.2 id fun _ => { st := .open, part := part, record := 0, seq := 1, meters := [] })) ∧
      (0 < id → id ≤ 65535 → (rqAt v.2 id).st = .free → liveCount v.2 (fun _ => true) < 16384 → (partRec v.2 part).quota ≤ liveCount v.2 (fun r => r.part == part) →
        exec (.rqopen d x y) s = put 4 v.2) ∧
      (0 < id → id ≤ 65535 → (rqAt v.2 id).st = .free → 16384 ≤ liveCount v.2 (fun _ => true) → exec (.rqopen d x y) s = put 3 v.2)) ∧
    (v.1 ≠ 0 → v.1.toNat % 128 = 0 → let m := resolve v.2 a.k (tlOf a) (partyOf a) (partAt v.2 a.k) (issuerOf a) v.1.toNat 128 true
      (∀ f, m.2 = .error f → exec (.rqopen d x y) s = .next (takeTrap a { clRec s a f.ty with cause := f.cause, addr := f.addr } s)) ∧
      ∀ p, m.2 = .ok p →
        (id = 0 ∨ 65535 < id → exec (.rqopen d x y) s = put 6 m.1) ∧
        (0 < id → id ≤ 65535 → (rqAt m.1 id).st ≠ .free → exec (.rqopen d x y) s = put 5 m.1) ∧
        (0 < id → id ≤ 65535 → (rqAt m.1 id).st = .free → 16384 ≤ liveCount m.1 (fun _ => true) → exec (.rqopen d x y) s = put 3 m.1) ∧
        (0 < id → id ≤ 65535 → (rqAt m.1 id).st = .free → liveCount m.1 (fun _ => true) < 16384 → (partRec m.1 part).quota ≤ liveCount m.1 (fun r => r.part == part) →
          exec (.rqopen d x y) s = put 4 m.1) ∧
        (0 < id → id ≤ 65535 → (rqAt m.1 id).st = .free → liveCount m.1 (fun _ => true) < 16384 → liveCount m.1 (fun r => r.part == part) < (partRec m.1 part).quota →
          exec (.rqopen d x y) s = put 0 (modRq m.1 id fun _ => { st := .open, part := part, record := v.1.toNat, seq := 1, meters := [] })))) ∧
  (QueuesOk s a (popsS [x]) [] →
    (65535 < id → exec (.rqset x) s = .next (trapTy a .illegalOperand s)) ∧
    (id ≤ 65535 → rqOpenIn s part id = false → (a.x ≠ .user → id ≠ 0) → exec (.rqset x) s = .next (trapTy a .requestNotOpen s)) ∧
    (id ≤ 65535 → rqOpenIn s part id = true ∨ (a.x ≠ .user ∧ id = 0) → exec (.rqset x) s = .next (setRqi (retire a u.2) a id)) ∧
    let f := (List.range 4).map fun i => id / 2 ^ (16 * i) % 2 ^ 16
    ((f.filter (· != 0) = [] ∨ ¬(f.filter (· != 0)).Nodup) → exec (.rqsets kk x) s = .next (trapTy a .illegalOperand s)) ∧
    (f.filter (· != 0) ≠ [] → (f.filter (· != 0)).Nodup → (∀ i ∈ f.filter (· != 0), rqOpenIn s part i = true) →
      exec (.rqsets kk x) s = .next (retire a (modKs u.2 a.k fun ks => { ks with idSet := f.filter (· != 0), setk := kk })))) ∧
  (QueuesOk s a (popsS [x, y]) [] →
    let n := n1.toNat + 1
    (127 < id ∨ 65535 < v.1.toNat ∨ 128 < id + n → exec (.rqrow x y n1) s = .next (trapTy a .illegalOperand s)) ∧
    (id ≤ 127 → v.1.toNat ≤ 65535 → id + n ≤ 128 → rqOpenIn s part v.1.toNat = false → exec (.rqrow x y n1) s = .next (trapTy a .requestNotOpen s)) ∧
    (id ≤ 127 → v.1.toNat ≤ 65535 → id + n ≤ 128 → rqOpenIn s part v.1.toNat = true → ∃ f, exec (.rqrow x y n1) s = .next (retire a (modKs v.2 a.k f)) ∧
      ∀ ks, f ks = { ks with idMap := (f ks).idMap } ∧ ∀ j, slook (f ks).idMap j = if id ≤ j ∧ j < id + n then some v.1.toNat else slook ks.idMap j)) ∧
  (QueuesOk s a (popsS [x]) (pushS d) →
    (id = 0 ∨ 65535 < id → exec (.rqhalt d x) s = put 6 u.2 ∧ exec (.rqresume d x) s = put 6 u.2 ∧ exec (.rqcancel d x) s = put 6 u.2 ∧ exec (.rqcancelDrain d x) s = put 6 u.2) ∧
    (0 < id → id ≤ 65535 →
      let st := rqStateIn s part id
      (st = .free → exec (.rqhalt d x) s = put 1 u.2 ∧ exec (.rqresume d x) s = put 1 u.2 ∧ exec (.rqcancel d x) s = put 1 u.2 ∧ exec (.rqcancelDrain d x) s = put 1 u.2) ∧
      (st = .open → exec (.rqresume d x) s = put 0 u.2) ∧
      (st = .halted → exec (.rqhalt d x) s = put 0 u.2 ∧ exec (.rqcancelDrain d x) s = put 2 u.2) ∧
      (st = .draining → exec (.rqhalt d x) s = put 2 u.2 ∧ exec (.rqresume d x) s = put 2 u.2 ∧ exec (.rqcancelDrain d x) s = put 0 u.2) ∧
      (st = .cancelling → exec (.rqhalt d x) s = put 2 u.2 ∧ exec (.rqresume d x) s = put 2 u.2 ∧ exec (.rqcancel d x) s = put 0 u.2 ∧ exec (.rqcancelDrain d x) s = put 2 u.2) ∧
      let changed := fun (kind : Nat) (st' : RqSt) => modRq (traceIt (retire a (putS a d 0 u.2)) id kind a.k (cnum a.c) (pcOf s a % 2 ^ 15) 0) id fun e => { e with st := st' }
      (st = .open → exec (.rqhalt d x) s = .next (haltWork part id (changed 6 .halted)) ∧ (rqAt (haltWork part id (changed 6 .halted)) id).st = .halted) ∧
      (st = .halted → exec (.rqresume d x) s = .next (resumeWork part (changed 7 .open))) ∧
      (st = .open ∨ st = .halted ∨ st = .draining → exec (.rqcancel d x) s = .next (cancelWork part id (changed 8 .cancelling))) ∧
      (st = .open → exec (.rqcancelDrain d x) s = .next (changed 8 .draining)) ∧
      ∀ kind st', st ≠ .free → (rqAt (changed kind st') id).st = st' ∧ (rqAt (changed kind st') id).seq = (rqAt (retire a (putS a d 0 u.2)) id).seq + 1) ∧
    (exec (.rqmeter d x sel) s = put (if 0 < id ∧ id ≤ 65535 ∧ rqLive s part id = true then sget 0 (rqAt s id).meters sel.toNat else 2 ^ 64 - 1) u.2) ∧
    (∃ n t, exec (.rqmark d x) s = put n t ∧
      ((rqLive s part (rqiOf s a) = false → n = 0 ∧ t = u.2) ∧
       (rqLive s part (rqiOf s a) = true → n = (rqAt s (rqiOf s a)).seq.toNat ∧ (rqAt t (rqiOf s a)).seq = (rqAt s (rqiOf s a)).seq + 1))) ∧
    ∃ n, exec (.rqstat d x) s = put n u.2 ∧ ((id = 0 ∨ 65535 < id ∨ rqLive s part id = false) → n = 0) ∧
      (id ≤ 65535 → rqLive s part id = true → n / 2 ^ 32 = (rqAt s id).seq.toNat ∧ n % 8 = stCode (rqAt s id).st ∧ (n.testBit 7 = hasParked s part id) ∧
        n / 2 ^ 8 % 2 ^ 9 = clusCount s part id % 2 ^ 9))) ∧
  (∀ (s : State) (id : Nat),
  let r := rqAt s id
  let s0 := if r.st = .cancelling then killUnder r.part id s else s
  (r.st = .free ∨ r.st = .open ∨ r.st = .halted → exec (.requestFinalRecord id) s = .next s) ∧
  (r.st = .draining ∨ r.st = .cancelling → carried s0 r.part id = true → exec (.requestFinalRecord id) s = .next s0) ∧
  (carried s r.part id = false → killUnder r.part id s = s) ∧
  ((∀ e ∈ clusUnder s r.part id, inService s e.1 e.2 = true) → killUnder r.part id s = s) ∧
  (r.st = .draining → (s.launches.any fun l => l.part == r.part && l.pkt.rq == id) = true → carried s r.part id = true) ∧
  (r.st = .draining ∨ r.st = .cancelling → carried s0 r.part id = false →
    let s1 := traceIt s0 id 9 0 0 0 0
    let s2 := writeFinal id (rqAt s1 id) s1
    exec (.requestFinalRecord id) s = .next (finishPart r.part { s2 with rq := serase s2.rq id }) ∧ (id ≠ 0 → s0 = s → (rqAt s1 id).seq = r.seq + 1) ∧
    (rqAt { s2 with rq := serase s2.rq id } id).st = .free ∧
    ((partRec { s2 with rq := serase s2.rq id } r.part).dying = false → finishPart r.part { s2 with rq := serase s2.rq id } = { s2 with rq := serase s2.rq id })) ∧
  (r.record = 0 → writeFinal id r s = s) ∧
  (∀ e, r.record ≠ 0 → (devWrite s r.part r.record (finalBytes id r)).2 = .error e → writeFinal id r s = postNew s (lostRec id r)) ∧
  (finalBytes id r).length = 120 ∧ ∀ m < 8, sget 0 r.meters m < 2 ^ 64 → ofBytes (((finalBytes id r).drop (8 * m)).take 8) = sget 0 r.meters m)

/-- R357, R359 to R365: a sheaf syllable takes the result that has come back, waits while its cluster has an operation that goes on, traps on a bad
address, and else starts an operation that reads every live copy. `mst` and `mcas` release at `.dv` first. ADDR of the trap is the sheaf address of
the operand (log entry 59, DEDUCED). R365: `sheafmap` with its statuses; an unmap waits for the operations on its region, and the messages and tags of
the region go with it. -/
def Obligations.SheafCells : Prop :=
  (∀ (s : State) (a : At) (tag : Bool) (b : Fin 16) (d x y z : SOp), Moves s a →
  let u := takeS a x s
  let v := takeS a y u.2
  let w := takeS a z v.2
  let put := fun (n : Nat) (t : State) => putS a d (BitVec.ofNat 64 n) t
  let clear := fun (t : State) => modCtx t a fun c => { c with sheafRes := none }
  let started := fun (t : State) (rel : State) (kind : ShKind) (wt : Bool) (r cell expv newv left : Nat) => ∃ reg o, regionAt s (partAt s a.k) r = some reg ∧ t.shOps = s.shOps ++ [o] ∧
    o.kind = kind ∧ o.wantTag = wt ∧ o.region = r ∧ o.cell = cell ∧ o.expv = expv ∧ o.newv = newv ∧ o.left = left ∧ o.core = a.k ∧ o.c = a.c ∧ o.phase = 0 ∧
    o.sites = reg.sites ∧ t.shMsgs = s.shMsgs ++ (liveStacks s reg).map (fun st => ⟨o.id, st, partAt s a.k, r, cell, .read⟩) ∧ (ctxOf t a).sheafBusy = some o.id ∧ t.pend = rel.pend
  let syl := fun (i : Instr) (pops : List Nat) (check : Except FT (Nat × Nat)) (rel : State) (kind : ShKind) (wt : Bool) (expv newv left : Nat) (done : Nat → Bool → State) =>
    QueuesOk s a pops (pushS d) →
      (∀ n ok, (ctxOf s a).sheafRes = some (n, ok) → exec i s = .next (retire a (done n ok))) ∧
      ((ctxOf s a).sheafRes = none → shBusy s a = true → exec i s = .next (block a .other s)) ∧
      ((ctxOf s a).sheafRes = none → shBusy s a = false →
        (∀ ty, check = .error ty → exec i s = .next (trapMem a ⟨ty, 0, u.1.toNat⟩ s)) ∧
        (∀ r cell, check = .ok (r, cell) → tagRoom s a 1 = true → ∃ t, exec i s = .next t ∧ started t rel kind wt r cell expv newv left))
  syl (.mld tag d x b) (popsS [x]) (sheafAddr s (partAt s a.k) u.1.toNat) s .mld tag 0 0 0
    (fun n ok => let t := (takeS a x (clear s)).2; setP (put n (if ok = true then acquire t (partyOf a) 4 else t)) a b.val ok) ∧
  syl (.mst d x y) (popsS [x, y]) (sheafAddr s (partAt s a.k) u.1.toNat) (release s (partyOf a) 4) .mst false 0 v.1.toNat 0
    (fun n _ => put n (takeS a y (takeS a x (clear s)).2).2) ∧
  syl (.mcas d x y z) (popsS [x, y, z]) (sheafAddr s (partAt s a.k) u.1.toNat) (release s (partyOf a) 4) .mcas false v.1.toNat w.1.toNat 0
    (fun n _ => put n (acquire (takeS a z (takeS a y (takeS a x (clear s)).2).2).2 (partyOf a) 4)) ∧
  syl (.mrepair d x y) (popsS [x, y]) (repairCheck s (partAt s a.k) u.1.toNat v.1.toNat) s .mrepair false 0 0 (v.1.toNat - 1)
    (fun n _ => put n (takeS a y (takeS a x (clear s)).2).2) ∧
  (∀ part e, 2 ^ 36 ≤ e → sheafAddr s part e = .error .addrUnmapped) ∧
  (∀ part e, e < 2 ^ 36 → regionAt s part (e / 2 ^ 32) = none → sheafAddr s part e = .error .addrUnmapped) ∧
  ∀ part e r, e < 2 ^ 36 → regionAt s part (e / 2 ^ 32) = some r →
    (e % 16 ≠ 0 → sheafAddr s part e = .error .misaligned) ∧ (e % 16 = 0 → r.cells ≤ e % 2 ^ 32 / 16 → sheafAddr s part e = .error .addrUnmapped) ∧
    (e % 16 = 0 → e % 2 ^ 32 / 16 < r.cells →
      ((liveStacks s r).length < (r.sites.length + 1) / 2 → sheafAddr s part e = .error .sheafLost) ∧
      ((r.sites.length + 1) / 2 ≤ (liveStacks s r).length → sheafAddr s part e = .ok (e / 2 ^ 32, e % 2 ^ 32 / 16)))) ∧
  (∀ (s : State) (a : At) (d x : SOp), Moves s a → QueuesOk s a (popsS [x]) (pushS d) →
  let u := takeS a x s
  let e := u.1.toNat
  let desc := ofBytes (curBytes s (partyOf a) (.kdm a.k) e 64)
  let part := partAt s a.k
  let reg := desc / 2 ^ 12 % 16
  let put := fun (n : Nat) (t : State) => Host.Outcome.next (retire a (putS a d (BitVec.ofNat 64 n) t))
  (e % 64 ≠ 0 → exec (.sheafmap d x) s = .next (trapTy a .misaligned s)) ∧
  (e % 64 = 0 → 0x10000 - 64 < e → exec (.sheafmap d x) s = .next (trapTy a .illegalOperand s)) ∧
  (e % 64 = 0 → e ≤ 0x10000 - 64 →
    (descBad desc = true → exec (.sheafmap d x) s = put 1 u.2) ∧
    (descBad desc = false → desc.testBit 16 = true → regionAt u.2 part reg = none → exec (.sheafmap d x) s = put 3 u.2) ∧
    (descBad desc = false → desc.testBit 16 = true → (regionAt u.2 part reg).isSome = true → (∀ o ∈ s.shOps, ¬(o.part = part ∧ o.region = reg)) →
      exec (.sheafmap d x) s = put 0 (modPart { u.2 with shTags := u.2.shTags.filter (fun e => !(e.part == part && e.region == reg)), shMsgs := u.2.shMsgs.filter fun m => !(m.part == part && m.region == reg) } part fun p => { p with regions := serase p.regions reg })) ∧
    (descBad desc = false → desc.testBit 16 = true → (regionAt u.2 part reg).isSome = true → (∃ o ∈ s.shOps, o.part = part ∧ o.region = reg) →
      exec (.sheafmap d x) s = .next (block a .other s)) ∧
    (descBad desc = false → desc.testBit 16 = false → (regionAt u.2 part reg).isSome = true → exec (.sheafmap d x) s = put 2 u.2) ∧
    (descBad desc = false → desc.testBit 16 = false → regionAt u.2 part reg = none → (∃ n < 12, desc.testBit n = true ∧ s.dev.sheafdown.getLsbD n = true) →
      exec (.sheafmap d x) s = put 4 u.2) ∧
    (descBad desc = false → desc.testBit 16 = false → desc.testBit 17 = false → regionAt u.2 part reg = none → (∀ n < 12, desc.testBit n = true → s.dev.sheafdown.getLsbD n = false) →
      exec (.sheafmap d x) s = put 0 (modPart u.2 part fun p => { p with regions := sput p.regions reg ⟨(List.range 12).filter fun n => desc.testBit n,
        ((List.range 5).map fun i => desc / 2 ^ (128 + 64 * i) % 2 ^ 64).take ((List.range 12).filter fun n => desc.testBit n).length, desc / 2 ^ 64 % 2 ^ 32⟩ }))))

/-- R356: what a copy does with each message, its answer, and the messages on their way. R357, R360 to R364: an answer enters its operation, which
moves on when a majority has answered; a copy that is late counts as not answering and marks its stack, and an answer that it gives later is ignored
(log entry 80, DEDUCED); a stack that is marked meanwhile is sent nothing more (log entry 86, DEDUCED); an operation is over when every message of it
that has an answer is answered or timed out; a proposal that has stood for its time goes; the host clears marks. -/
def Obligations.SheafProtocol : Prop :=
  (∀ (s : State) (part a idx : Nat),
  let tag := copyGet s a 1
  let pt := copyGet s a 3
  copyDo part a .read s = (some (.read (copyGet s a 0) tag pt), s) ∧
  (∀ v t tb, tag < t → pt < t → copyDo part a (.propose v t tb false) s = (some (.prop true), copySet part a 3 t (copySet part a 2 v s))) ∧
  (∀ v t tb, t ≤ tag ∨ t ≤ pt → copyDo part a (.propose v t tb false) s = (some (.prop false), s)) ∧
  (∀ v t tb, tag < t → tag ≤ tb → pt = 0 → copyDo part a (.propose v t tb true) s = (some (.prop true), copySet part a 3 t (copySet part a 2 v s))) ∧
  (∀ v t tb, t ≤ tag ∨ tb < tag ∨ pt ≠ 0 → copyDo part a (.propose v t tb true) s = (some (.prop false), s)) ∧
  (∀ v t, t ≤ tag → t < pt → copyDo part a (.commit v t) s = (some (.holds t true false), s)) ∧
  (∀ v t, tag < t → t < pt → ∃ h, copyDo part a (.commit v t) s = (some (.holds t h true), copySet part a 1 t (copySet part a 0 v s))) ∧
  (∀ v t, tag < t → pt ≤ t → ∃ h, copyDo part a (.commit v t) s = (some (.holds t h true), copySet part a 3 0 (copySet part a 1 t (copySet part a 0 v s)))) ∧
  (∀ t, copyDo part a (.abort t) s = (none, if pt = t then copySet part a 3 0 s else s)) ∧
  (∀ m r, s.shMsgs[idx]? = some m → regionAt s m.part m.region = some r →
    let go := fun (i : Instr) => ∃ t, exec i s = .next t ∧
      let q := copyDo m.part (copyAt r m.stack m.cell) m.m { s with shMsgs := s.shMsgs.eraseIdx idx }
      t = { q.2 with shAns := q.2.shAns ++ (q.1.map fun x => (⟨m.op, m.stack, m.cell, x⟩ : ShAns)).toList }
    (m.m = .read → go (.sheafReadMsg idx)) ∧ (∀ v t tb c, m.m = .propose v t tb c → go (.sheafProposeMsg idx)) ∧
    (∀ v t, m.m = .commit v t → go (.sheafCommitMsg idx)) ∧ ∀ t, m.m = .abort t → go (.sheafAbortMsg idx)) ∧
  (s.shMsgs[idx]? = none → exec (.sheafReadMsg idx) s = .next s ∧ exec (.sheafProposeMsg idx) s = .next s ∧ exec (.sheafCommitMsg idx) s = .next s ∧ exec (.sheafAbortMsg idx) s = .next s)) ∧
  (∀ (s : State) (o : ShOp) (idx op stack part region cell n m : Nat) (mask : BitVec 12),
  (∀ e q, s.shAns[idx]? = some e → shOp { s with shAns := s.shAns.eraseIdx idx } e.op = some q →
    (q.gone.contains e.stack = false → exec (.sheafAnswer idx) s = .next (shMove q.id (takeAns q e.stack e.cell e.a { s with shAns := s.shAns.eraseIdx idx }))) ∧
    (q.gone.contains e.stack = true → exec (.sheafAnswer idx) s = .next (shMove q.id { s with shAns := s.shAns.eraseIdx idx }))) ∧
  (s.shAns[idx]? = none → exec (.sheafAnswer idx) s = .next s) ∧
  (o.phase = 0 → o.kind = .mst → m ≤ o.reads.length → opStep o n m s = startPropose o s) ∧
  (o.phase = 0 → o.kind = .mst ∨ o.kind = .mld ∨ o.kind = .mcas → o.reads.length < m → m ≤ o.reads.length + stillOut s o (o.reads.map (·.1)) → opStep o n m s = s) ∧
  (o.phase = 0 → o.kind = .mld → o.reads.length + stillOut s o (o.reads.map (·.1)) < m → opStep o n m s = shResult o 0 false s) ∧
  (o.phase = 0 → o.kind = .mst ∨ o.kind = .mcas → o.reads.length + stillOut s o (o.reads.map (·.1)) < m → opStep o n m s = shResult o 2 false s) ∧
  (o.phase = 2 → m ≤ o.oks.length → opStep o n m s =
    shSend { o with phase := 3, committed := true, holds := [] } (o.sites.filter fun st => !o.gone.contains st) (.commit o.newv o.prop)
      (setSh { o with phase := 3, committed := true, holds := [] } s)) ∧
  (o.phase = 2 → o.oks.length < m → n - m < o.nos.length → opStep o n m s = shResult o 1 false (shSend o o.oks (.abort o.prop) s)) ∧
  (o.phase = 3 → m ≤ o.holds.length → opStep o n m s = shResult o 0 true s) ∧
  (o.phase = 1 → o.kind = .mld → m ≤ o.holds.length → opStep o n m s = shResult o (if o.wantTag = true then o.tag else o.val) true s) ∧
  (o.phase = 1 → o.kind = .mcas → m ≤ o.holds.length → o.val ≠ o.expv → opStep o n m s = shResult o 4 false s) ∧
  (maxCounter o.reads + 1 < 2 ^ 48 → let t := (maxCounter o.reads + 1) * 2 ^ 16 + (4 * o.core + cnum o.c)
    startPropose o s = shSend { o with phase := 2, prop := t } (o.sites.filter fun st => !o.gone.contains st) (.propose o.newv t o.tag (decide (o.kind = .mcas)))
      (setSh { o with phase := 2, prop := t } (tagObs o t s))) ∧
  (2 ^ 48 ≤ maxCounter o.reads + 1 → startPropose o s = shResult o 3 false s) ∧
  (∀ q, shOp s op = some q → awaits s op stack = true → q.gone.contains stack = false → exec (.sheafCopyTimeout op stack) s =
    .next (shMove op (setSh { q with gone := stack :: q.gone } (modDev s fun d => { d with sheafdown := d.sheafdown ||| BitVec.ofNat 12 (2 ^ stack) })))) ∧
  (shOp s op = none ∨ awaits s op stack = false → exec (.sheafCopyTimeout op stack) s = .next s) ∧
  (∀ r, regionAt s part region = some r → stack ∈ r.sites → cell < r.cells → exec (.ptagExpiry part region stack cell) s = .next (copySet part (copyAt r stack cell) 3 0 s)) ∧
  (regionAt s part region = none → exec (.ptagExpiry part region stack cell) s = .next s) ∧
  (∀ q, q ∈ (shSweep s).shOps ↔ q ∈ s.shOps ∧ (q.phase < 4 ∨ ∃ st ∈ q.sites, st ∉ q.gone ∧ awaits s q.id st = true)) ∧
  (∀ st m, awaits s op st = false → awaits { s with shMsgs := s.shMsgs ++ [⟨op, st, part, region, cell, .abort m⟩] } op st = false) ∧
  exec (.sheafclr mask) s = .next (modDev s fun d => { d with sheafdown := d.sheafdown &&& ~~~mask }))

/-- R334, R336, R338, R341, R343: the words of `th`. A halted identity parks its word, a bad arena stops the queue, and else the word leaves for its
home thresher as a command, with the pin that it asks for. A word whose home address faults stops its queue (log entry 45), the home of a slot is the
stack of its side area (log entry 46), and an append goes to the home of the first slot of its list that has one (log entry 97; all three DEDUCED).
R341, R348: `t.status` is parked when its identity is halted; else it waits for the commands and the parked words before it, releases their writes and
sends its signal; while the core it names is frozen or halted it waits. -/
def Obligations.ThresherQueue : Prop :=
  (∀ (s : State) (k q : Nat) (w : QWord) (rg1 : BitVec 4) (g m l : Fin 32) (n sl : BitVec 16) (c : BitVec 15) (six : Bool) (keep : BitVec 13),
  Heads s k q → headOf s k q = some w →
  let srs := fun (m l : Nat) => thRegs s k g.val m l
  let stopped := allStopped s (partAt s k) (realIds [w.rqi])
  let word := fun (i : Instr) (srs : List SReg) (bad : Option FT) (home : State → QWord → Except AFault Nat) (pin : Option (Bool × Nat)) =>
    (stopped = true → exec i s = .next (parkHead k q (allCancelled s (partAt s k) (realIds [w.rqi])) id s)) ∧
    (stopped = false → ∀ ty, bad = some ty → exec i s = .next (stopHead k q uThresher 0 w [w.rqi] ⟨ty, 0, 0⟩ s)) ∧
    (stopped = false → bad = none → ∀ f, home s w = .error f → exec i s = .next (stopHead k q uThresher 0 w [w.rqi] f s)) ∧
    (stopped = false → bad = none → ∀ st, home s w = .ok st → ∃ t cmd, exec i s = .next t ∧ (thrAt t st).cmds = (thrAt s st).cmds ++ [cmd] ∧ cmd.i = i ∧ cmd.core = k ∧
        cmd.word = w ∧ cmd.srs = srs ∧ cmd.row = 0 ∧ cmd.pinned = false ∧
        (eqAt (coreAt t k) q).words = (eqAt (coreAt s k) q).words.tail ∧ (coreAt t k).eng.thOut = (coreAt s k).eng.thOut ++ [cmd.id] ∧
        (pin = none → (thrAt t st).waiting = (thrAt s st).waiting) ∧
        ∀ e slot, pin = some (e, slot) → ∃ r, (thrAt t st).waiting = (thrAt s st).waiting ++ [r] ∧ r.excl = e ∧ r.slot = slot ∧ r.part = partAt s k ∧ r.forThr = some cmd.id)
  word (.kAppend rg1 g m l n) (srs m.val l.val) (slotFault (srs m.val l.val) none) (fun t w => .ok (appendHome t k n.toNat w (.kAppend rg1 g m l n) (srs m.val l.val))) none ∧
  word (.kPinTake g sl) (srs 0 0) (slotFault (srs 0 0) (some sl.toNat)) (fun t _ => slotHome t k (srs 0 0) sl.toNat) (some (false, sl.toNat)) ∧
  word (.kPinRelease g sl) (srs 0 0) (slotFault (srs 0 0) (some sl.toNat)) (fun t _ => slotHome t k (srs 0 0) sl.toNat) none ∧
  word (.tMerge rg1 g c sl) (srs 0 0) (slotFault (srs 0 0) (some sl.toNat)) (fun t _ => slotHome t k (srs 0 0) sl.toNat) (some (true, sl.toNat)) ∧
  word (.tRequant rg1 g six keep sl) (srs 0 0) (slotFault (srs 0 0) (some sl.toNat)) (fun t _ => slotHome t k (srs 0 0) sl.toNat) (some (true, sl.toNat)) ∧
  (∀ r : List SReg, (slotFault r (some sl.toNat) = none ↔ arenaOk (arenaOf r) = true ∧ sl.toNat < (sfld (r.getD 2 0)).e2) ∧
    (slotFault r none = none ↔ arenaOk (arenaOf r) = true)) ∧
  (∀ r : List SReg, ∀ i, let p := engPlace s k .none (thParty 0 0 k) .device (sfld (r.getD 2 0)) false .addrUnmapped .spadRange (sideAt (arenaOf r) i) 64 false
    (∀ f, p.2 = .error f → slotHome s k r i = .error f) ∧ (∀ z st, p.2 = .ok z → homeOf z = some st → slotHome s k r i = .ok st) ∧
    ∀ z, p.2 = .ok z → homeOf z = none → slotHome s k r i = .error ⟨.arenaSplit, 0, (sideAt (arenaOf r) i).toNat⟩)) ∧
  (∀ (s : State) (k q : Nat) (w : QWord) (add uli : Bool) (core : BitVec 6) (n : BitVec 8) (v : BitVec 16), Heads s k q → headOf s k q = some w →
  let o := coreAt s k
  let early := (eqAt o q).parked.any fun p => decide (p.seq < w.seq)
  let halted := allStopped s (partAt s k) (realIds [w.rqi])
  (halted = true → exec (.tStatus add uli core n v) s = .next (parkHead k q (allCancelled s (partAt s k) (realIds [w.rqi])) id s)) ∧
  (halted = false → early = true ∨ o.eng.thOut ≠ [] → exec (.tStatus add uli core n v) s = .next s) ∧
  (halted = false → early = false → o.eng.thOut = [] → runsPart s (partAt s k) core.toNat = false → exec (.tStatus add uli core n v) s = .next (stopHead k q uThresher 0 w [w.rqi] ⟨.spadWindow, 0, 0⟩ s)) ∧
  (halted = false → early = false → o.eng.thOut = [] → runsPart s (partAt s k) core.toNat = true → coreShut (coreAt s core.toNat) = true →
    exec (.tStatus add uli core n v) s = .next s) ∧
  (halted = false → early = false → o.eng.thOut = [] → runsPart s (partAt s k) core.toNat = true → coreShut (coreAt s core.toNat) = false →
    ∃ t, exec (.tStatus add uli core n v) s = .next t ∧
    let own := thOfCore k
    let r := releaseParties s own (if wroteSys s own = true then 5 else 4)
    t.sig = s.sig ++ [⟨core.toNat, n.toNat, if add = true then .add else .write, BitVec.ofNat 64 v.toNat, if uli = true then some (32 * k + 26) else none, cmdObs r own⟩] ∧
    (eqAt (coreAt t k) q).words = (eqAt o q).words.tail ∧ t.pend = r.pend))

/-- R336, R338, R341, R343 to R347: grants in the order of arrival, an exclusive one after the earlier appends to its slot, and what the commands at a
thresher do. Every page of an arena place lies on the thresher's stack. A merge rewrites the positions from COLD on with the surviving tokens, clears
the multiplicities behind them and writes the header last; a requant writes codes, block scales and zeros over the fp16 rows. A token that reads a
poisoned granule is written poisoned (log entry 46, DEDUCED). An answer goes on at the row that stopped. R190, R349: `kslot` reads the header of a
slot and its pins, and observes the writes that the header holds. Which slot's pins an address names is free (log entry 25, DESIGN CHOICE). -/
def Obligations.ThresherWork : Prop :=
  (∀ (s : State) (st idx : Nat),
  let t := thrAt s st
  (t.waiting.find? (pinGrantable s st) = none → exec (.thresherPinGrant st) s = .next s) ∧
  (∀ r, t.waiting.find? (pinGrantable s st) = some r → ∃ t', exec (.thresherPinGrant st) s = .next (modThr s st fun _ => t') ∧
    t'.pins = (grantPin t r).pins ∧ t'.waiting = t.waiting.filter (fun x => x.ord != r.ord) ∧ t'.cmds = t.cmds.map fun c => if r.forThr = some c.id then { c with pinned := true } else c) ∧
  (∀ r : PinReq, pinFree t r = true → (∀ x ∈ t.waiting, x.part = r.part → x.slot = r.slot → r.ord ≤ x.ord) ∧ exclHeld t r.part r.slot = false ∧
    (r.excl = true → readersOf t r.part r.slot = 0)) ∧
  (∀ r : PinReq, pinGrantable s st r = true → pinFree t r = true ∧
    (r.excl = true → ∀ d ∈ t.cmds, d.id < r.ord → d.part = r.part → appendNames s st d r.slot = false)) ∧
  (((t.cmds.take 16)[idx]? = none ∨ ∃ c, (t.cmds.take 16)[idx]? = some c ∧ c.stop.isSome = true) → exec (.thresherCommandComplete st idx) s = .next s) ∧
  ∀ c, (t.cmds.take 16)[idx]? = some c → c.stop = none →
    (∀ g sl, c.i = .kPinTake g sl → exec (.thresherCommandComplete st idx) s = .next (if c.pinned = true then endTh st c s else s)) ∧
    (∀ g sl, c.i = .kPinRelease g sl →
      (readersOf t c.part sl.toNat = 0 → exec (.thresherCommandComplete st idx) s = .next (stopTh st c ⟨.pinUnderflow, 0, 0⟩ s)) ∧
      (readersOf t c.part sl.toNat ≠ 0 → exec (.thresherCommandComplete st idx) s = .next (endTh st c (modThr s st fun t => releaseRead t c.part sl.toNat (instOwner c.launch c.core))))) ∧
    (∀ rg1 g m l n, c.i = .kAppend rg1 g m l n →
      (n.toNat ≤ c.row → exec (.thresherCommandComplete st idx) s = .next (endTh st c s)) ∧
      (c.row < n.toNat →
        (appendRow st c (rg1.toNat + 1) c.row s = .wait → exec (.thresherCommandComplete st idx) s = .next (setTh st c s)) ∧
        (∀ f, appendRow st c (rg1.toNat + 1) c.row s = .fault f → exec (.thresherCommandComplete st idx) s = .next (stopTh st c f s)) ∧
        ∀ s1, appendRow st c (rg1.toNat + 1) c.row s = .done s1 → n.toNat = c.row + 1 →
          exec (.thresherCommandComplete st idx) s = .next (endTh st { c with row := c.row + 1 } (setTh st { c with row := c.row + 1 } s1)))) ∧
    (∀ rg1 g cc sl, c.i = .tMerge rg1 g cc sl →
      (c.pinned = false → exec (.thresherCommandComplete st idx) s = .next s) ∧
      (c.pinned = true →
        let a := arenaOf c.srs
        let rg := rg1.toNat + 1
        let n1 := sl.toNat
        let head := readPlace s c.part (thParty st c.id c.core) (arenaPlace s st c.core (thParty st c.id c.core) a.side (sideAt a n1) 64 true)
        (∀ f, head.2 = .error f → exec (.thresherCommandComplete st idx) s = .next (stopTh st c f s)) ∧
        ∀ hb bad, head.2 = .ok (hb, bad) →
          let h := hdrOf hb
          let n := h.len - h.cold
          let rows := headsOf a * rg
          let mg := multGrans h.cold h.len
          (h.len ≤ h.cold + 1 → exec (.thresherCommandComplete st idx) s = .next (endTh st c (meterTh c 1 0 head.1))) ∧
          (h.cold + 1 < h.len →
            (∀ z f, readToks st c rg n1 ((List.range n).map (h.cold + ·)) head.1 = (z, .error f) → exec (.thresherCommandComplete st idx) s = .next (stopTh st c f s)) ∧
            ∀ s2 t0 ts, readToks st c rg n1 ((List.range n).map (h.cold + ·)) head.1 = (s2, .ok (t0 :: ts)) →
              let out := (mergeToks (engLoc c.core uThresher 0) cc.toNat t0 ts).1
              let k := (mergeToks (engLoc c.core uThresher 0) cc.toNat t0 ts).2
              let tokens := ((List.range out.length).zip out).foldl (fun s x => writeMult st c n1 (h.cold + x.1) x.2.m
                (writeHeads st c a.val rg n1 (h.cold + x.1) (halfBytes x.2.val) x.2.vbad
                  (writeHeads st c a.key rg n1 (h.cold + x.1) (halfBytes x.2.key) x.2.kbad s))) s2
              let cleared := (List.range (n - out.length)).foldl (fun s i => writeMult st c n1 (h.cold + out.length + i) 0 s) tokens
              exec (.thresherCommandComplete st idx) s = .next (endTh st c (meterTh c (2 * n * rows + 1 + mg) (2 * out.length * rows + 1 + mg)
                (writeHdr st c n1 hb { h with len := h.cold + out.length, merged := (h.merged + k) % 2 ^ 32 } cleared)))))) ∧
    (∀ rg1 g six keep sl, c.i = .tRequant rg1 g six keep sl →
      (c.pinned = false → exec (.thresherCommandComplete st idx) s = .next s) ∧
      (c.pinned = true →
        let a := arenaOf c.srs
        let rg := rg1.toNat + 1
        let n1 := sl.toNat
        let head := readPlace s c.part (thParty st c.id c.core) (arenaPlace s st c.core (thParty st c.id c.core) a.side (sideAt a n1) 64 true)
        (∀ f, head.2 = .error f → exec (.thresherCommandComplete st idx) s = .next (stopTh st c f s)) ∧
        ∀ hb bad, head.2 = .ok (hb, bad) →
          let h := hdrOf hb
          let code := if six = true then 12 else 11
          let c' := max h.cold (h.len - 64 * keep.toNat)
          let n := c' - h.cold
          (h.cfmt ≠ 0 → h.cfmt ≠ code → exec (.thresherCommandComplete st idx) s = .next (stopTh st c ⟨.arenaFormat, 0, 0⟩ s)) ∧
          (h.cfmt = 0 ∨ h.cfmt = code →
            (∀ z f, readBoth st c rg n1 ((List.range n).map (h.cold + ·)) head.1 = (z, .error f) → exec (.thresherCommandComplete st idx) s = .next (stopTh st c f s)) ∧
            ∀ s2 l, readBoth st c rg n1 ((List.range n).map (h.cold + ·)) head.1 = (s2, .ok l) →
              let put := fun (f : SFld) (p : Nat) (rows : List (List Byte × List Bool)) (s : State) => ((List.range rows.length).zip rows).foldl (fun s x =>
                writePlace s c.part (thParty st c.id c.core) (arenaPlace s st c.core (thParty st c.id c.core) f (rowAt f n1 p x.1) (64 * rg) true)
                  (requantRow (engLoc c.core uThresher 0) six rg x.2.1 x.2.2) false) s
              exec (.thresherCommandComplete st idx) s = .next (endTh st c (meterTh c (2 * n * headsOf a * rg + 1) (2 * n * headsOf a * rg + 1)
                (writeHdr st c n1 hb { h with cold := c', cfmt := code } (l.foldl (fun s x => put a.val x.1 x.2.2 (put a.key x.1 x.2.1 s)) s2))))))) ∧
    (∀ ty, resumeTh st c ty s = if ty = .pinUnderflow then endTh st c s else setTh st { c with stop := none } s) ∧
    (∀ core q f addr n w s1 ps l, engPlace s core .none q .device f false .addrUnmapped .spadRange addr n w = (s1, .ok (.home ps l)) →
      ((∀ x ∈ ps, pieceHome x = some st) → arenaPlace s st core q f addr n w = (seeTh q ps s1, .ok (ps, l))) ∧
      ((∃ x ∈ ps, pieceHome x ≠ some st) → arenaPlace s st core q f addr n w = (s, .error ⟨.arenaSplit, 0, addr.toNat⟩))) ∧
    (∀ l cc cur, mergeToks l cc cur [] = ([cur], 0) ∧ ∀ t ts,
      let cos := cosOf l cur.key t.key
      let near := cur.m + t.m ≤ 255 ∧ (cur.kbad ++ cur.vbad ++ t.kbad ++ t.vbad).any id = false ∧ fIsNan .fp32 cos = false ∧
        fOrd .fp32 (fRne .fp32 false ⟨(cc : Int), 16384⟩) ≤ fOrd .fp32 cos
      (near → mergeToks l cc cur (t :: ts) =
        let r := mergeToks l cc { cur with key := avgRow l cur.key t.key cur.m t.m, val := avgRow l cur.val t.val cur.m t.m, m := cur.m + t.m } ts
        (r.1, r.2 + 1)) ∧
      (¬near → mergeToks l cc cur (t :: ts) = (cur :: (mergeToks l cc t ts).1, (mergeToks l cc t ts).2))) ∧
    (∀ l x y, let dot := fun (u v : List Nat) => (u.zip v).foldl (fun a p => fAdd .fp32 l a (fMul .fp32 l (h32 l p.1) (h32 l p.2))) 0
      let z := fun n => fIsZero .fp32 n || fIsNan .fp32 n
      (z (dot x x) = true ∨ z (dot y y) = true ∨ fIsNan .fp32 (dot x y) = true → cosOf l x y = 0) ∧
      (z (dot x x) = false → z (dot y y) = false → fIsNan .fp32 (dot x y) = false →
        cosOf l x y = fDiv .fp32 l (dot x y) (sqrt32 l (fMul .fp32 l (dot x x) (dot y y))))) ∧
    (∀ l x y mx my, avgRow l x y mx my = (x.zip y).map fun p =>
      convert .fp16 .fp32 false l (fDiv .fp32 l (fAdd .fp32 l (fMul .fp32 l (fRne .fp32 false (qInt mx)) (h32 l p.1)) (fMul .fp32 l (fRne .fp32 false (qInt my)) (h32 l p.2)))
        (fRne .fp32 false (qInt (mx + my : Nat))))) ∧
    (∀ l six rg (bs : List Byte) (bad : List Bool), let D := 32 * rg
      let el := fun i => h32 l ((halves bs).getD i 0)
      let sick := fun i => bad.getD (2 * i) false
      let scale := fun j => blockScale (((List.range 32).filter fun i => !sick (32 * j + i)).map fun i => el (32 * j + i))
      let row := requantRow l six rg bs bad
      row.length = 64 * rg ∧ (∀ i < D, row.getD i 0 = BitVec.ofNat 8 (if sick i = true then tapNan six else scaledEnc six (el i) (scale (i / 32)) 0x3F800000)) ∧
      (∀ j < rg, row.getD (D + j) 0 = BitVec.ofNat 8 (scale j)) ∧ ∀ i, D + rg ≤ i → row.getD i 0 = 0) ∧
    (∀ xs : List Nat, let big := fun x => !fIsNan .fp32 x && !fIsInf .fp32 x && !fIsZero .fp32 x
      let lg := fun x => qLog2 (fQ .fp32 x).n.natAbs (fQ .fp32 x).d
      ((∀ x ∈ xs, big x = false) → blockScale xs = 127) ∧
      ∀ x ∈ xs, big x = true → (∀ y ∈ xs, big y = true → lg y ≤ lg x) → blockScale xs = (max 0 (min 254 (127 + lg x))).toNat) ∧
    ∀ n d : Nat, 0 < n → 0 < d → let e := qLog2 n d
      d * 2 ^ e.toNat ≤ n * 2 ^ (-e).toNat ∧ n * 2 ^ (-(e + 1)).toNat < d * 2 ^ (e + 1).toNat) ∧
  (∀ (s : State) (a : At) (d x : SOp), Moves s a → QueuesOk s a (popsS [x]) (pushS d) →
  let u := takeS a x s
  let e := u.1.toNat
  (e % 64 ≠ 0 → exec (.kslot d x) s = .next (trapMem a ⟨.misaligned, 0, e⟩ s)) ∧
  (e % 64 = 0 → ∀ s1 sp ad m ps l st, resolve u.2 a.k (tlOf a) (partyOf a) (partAt u.2 a.k) (issuerOf a) e 64 false = (s1, .ok (.home ((sp, ad, m) :: ps) l)) →
    homeOf (.home ((sp, ad, m) :: ps) l) = some st → tagRoom s1 a 1 = true → ownOut s1 (partyOf a) = false →
    let h := ofBytes (curBytes s1 (partyOf a) sp ad 16)
    let part := partAt s1 a.k
    let slot := Config.slotOf part ad % 4096
    let t := thrAt s1 st
    ∃ w : Word, exec (.kslot d x) s = .next (retire a (putS a d w (meterIds a [rqiOf s1 a] mRD 8 (observeAll (partyOf a) s1 (rangeObs s1 (partyOf a) sp ad 16))))) ∧
      w.toNat % 2 ^ 19 = min (h % 2 ^ 32) (2 ^ 19 - 1) ∧ w.toNat / 2 ^ 19 % 2 ^ 19 = min (h / 2 ^ 32 % 2 ^ 32) (2 ^ 19 - 1) ∧ w.toNat / 2 ^ 38 % 2 ^ 8 = h / 2 ^ 64 % 2 ^ 8 ∧
      w.getLsbD 46 = (t.waiting.any fun r => r.part == part && r.slot == slot && r.excl) ∧ w.getLsbD 47 = exclHeld t part slot ∧
      w.toNat / 2 ^ 48 = readersOf t part slot % 2 ^ 16))

/-- R212, R213, R217, R227: a configuration word writes its fields of the shadow of its own queue, touches no other queue's shadow, and issues. R172,
R214, R215, R217, R218, R221, R226, R228 to R230: an operation word parks under a halt, waits for the arbiter, stops its queue at a fault, or takes an
entry that keeps a copy of its shadow and of its stream registers. The record names the side that failed; MATRIX_CONFIG comes before STREAM_INVALID
(log entry 99, DEDUCED). -/
def Obligations.MatrixQueue : Prop :=
  (∀ (s : State) (k q : Nat) (gang kb1 : BitVec 3) (af bf : Ety) (r1 : BitVec 7) (t sa sb st : BitVec 6) (isB : Bool) (sr : Fin 32)
    (half : Fin 4) (v : BitVec 16) (l : Fin 6) (count : BitVec 16), Heads s k q →
  let cfg := fun (i : Instr) (ok : MShadow → MShadow → Prop) => ∃ t, exec i s = .next t ∧ ok (shadowAt (coreAt s k) q) (shadowAt (coreAt t k) q) ∧
    (∀ j, j ≠ q → shadowAt (coreAt t k) j = shadowAt (coreAt s k) j ∧ eqAt (coreAt t k) j = eqAt (coreAt s k) j) ∧
    (eqAt (coreAt t k) q).words = (eqAt (coreAt s k) q).words.tail ∧ (coreAt t k).eng.mops = (coreAt s k).eng.mops ∧ (coreAt t k).eng.tiles = (coreAt s k).eng.tiles
  cfg (.mShape gang af bf kb1) (fun o n => n = { o with gang := gang.toNat, af := af, bf := bf, kb := kb1.toNat + 1 }) ∧
  cfg (.mRows r1) (fun o n => n = { o with rows := r1.toNat + 1 }) ∧ cfg (.mTile t) (fun o n => n = { o with tbase := t.toNat }) ∧
  cfg (.mStr isB sr) (fun o n => n = if isB = true then { o with srb := sr.val } else { o with sra := sr.val }) ∧
  cfg (.mScale half v) (fun o n => o.ta < 2 ^ 32 → o.tb < 2 ^ 32 → n = { o with ta := n.ta, tb := n.tb } ∧
    let f := fun (h x : Nat) => x / 2 ^ (16 * h) % 2 ^ 16
    f 0 n.ta = (if half.val = 0 then v.toNat else f 0 o.ta) ∧ f 1 n.ta = (if half.val = 1 then v.toNat else f 1 o.ta) ∧
    f 0 n.tb = (if half.val = 2 then v.toNat else f 0 o.tb) ∧ f 1 n.tb = (if half.val = 3 then v.toNat else f 1 o.tb) ∧ n.ta < 2 ^ 32 ∧ n.tb < 2 ^ 32) ∧
  cfg (.mLvl l sa sb st count) (fun o n => n = { o with lv := n.lv } ∧ ∀ j, mlvl n j = if j = l.val then ⟨count.toNat, sa, sb, st⟩ else mlvl o j)) ∧
  (∀ (s : State) (k q : Nat) (w : QWord) (p acc rim bstr pl zero : Bool) (sB : BitVec 20) (toggle : BitVec 12) (tile : BitVec 6) (f : Ety) (sr : Fin 32)
    (n : BitVec 16), Heads s k q → headOf s k q = some w →
  let o := coreAt s k
  let sh := shadowOf o q w
  let ids := servedIds o w sh
  let word := fun (i : Instr) (fault : Option (FT × Nat)) (ok : MOp → Prop) =>
    (allStopped s (partAt s k) ids = true → exec i s = .next (parkHead k q (allCancelled s (partAt s k) ids) (fun w => { w with keepM := some sh }) s)) ∧
    (allStopped s (partAt s k) ids = false → arbiter s k ≠ some q → exec i s = .next s) ∧
    (allStopped s (partAt s k) ids = false → arbiter s k = some q →
      (∀ ty side, fault = some (ty, side) → exec i s = .next (stopHeadAt k q uMatrix 0 side w (if mKind w = .go then goIds w sh else [w.rqi]) ⟨ty, 0, 0⟩ s)) ∧
      (fault = none → ∃ t op, exec i s = .next t ∧ (coreAt t k).eng.mops = o.eng.mops ++ [op] ∧ (eqAt (coreAt t k) q).words = (eqAt o q).words.tail ∧
        op.q = q ∧ op.word = w ∧ op.sh = sh ∧ op.iter = 0 ∧ op.stop = none ∧ op.failed = false ∧ ok op))
  word (.mPlane p sB) (if streamOkT (sfld (getSR s k sh.srb)) sh.bf = true then none else some (.streamInvalid, 1))
    (fun op => op.kind = .plane ∧ op.plane = (if p = true then 1 else 0) ∧ op.lastSb = some sB.toInt ∧ op.sb = getSR s k sh.srb) ∧
  word (.mGo toggle acc rim bstr pl)
    (if goConfigBad o w sh = true then some (.matrixConfig, 0)
     else if streamOkT (sfld (getSR s k sh.sra)) sh.af = false then some (.streamInvalid, 0)
     else if goBstr w = true ∧ streamOkT (sfld (getSR s k sh.srb)) sh.bf = false then some (.streamInvalid, 1) else none)
    (fun op => op.kind = .go ∧ op.sa = getSR s k sh.sra ∧ op.sb = getSR s k sh.srb ∧ op.plane = goPl w ∧ op.lastSb = none) ∧
  word (.mDrain tile f sr zero n) (if streamOkT (sfld (getSR s k sr.val)) f = true then none else some (.streamInvalid, 2))
    (fun op => op.kind = .drain ∧ op.sa = getSR s k sr.val) ∧
  (8 ≤ o.eng.mops.length → arbiter s k = none))

/-- R231, R232, R233, R198, R333: `m.mark`, `m.sig` and `m.wait`: the governing marker of the words issued after it, the signal with what it releases,
and the waits: one for a token acquires at `.co` what the commands that held it released, one for a signal word acquires at `.sy` what its writes
brought (R196). R234: `mstat` by its selector. -/
def Obligations.MatrixOrderAndState : Prop :=
  (∀ (s : State) (k q : Nat) (w : QWord) (add uli : Bool) (core : BitVec 6) (n : BitVec 8) (v : BitVec 16) (x : Fin 8) (m : BitVec 8) (b : BitVec 16),
  Heads s k q → headOf s k q = some w →
  let o := coreAt s k
  let early := (eqAt o q).parked.any fun p => decide (p.seq < w.seq)
  let gone := fun (t : State) => (eqAt (coreAt t k) q).words = (eqAt o q).words.tail
  (early = true → exec .mMark s = .next s ∧ exec (.mSig add uli core n v) s = .next s) ∧
  let marked := fun (t : State) => let e := eqAt (coreAt t k) q
    e.since = 0 ∧ e.issued = (eqAt o q).issued + 1 ∧ e.markNo = (eqAt o q).issued + 1 ∧ e.markId = o.eng.nextId ∧ e.mark = some w.point
  (early = false → ∃ t, exec .mMark s = .next t ∧ gone t ∧ marked t) ∧
  ((∃ e ∈ o.eng.mops, e.q = q) → exec (.mSig add uli core n v) s = .next s) ∧
  (early = false → (∀ e ∈ o.eng.mops, e.q ≠ q) → runsPart s (partAt s k) core.toNat = false → exec (.mSig add uli core n v) s = .next (stopHead k q uMatrix 0 w [w.rqi] ⟨.spadWindow, 0, 0⟩ s)) ∧
  (early = false → (∀ e ∈ o.eng.mops, e.q ≠ q) → runsPart s (partAt s k) core.toNat = true → coreShut (coreAt s core.toNat) = true →
    exec (.mSig add uli core n v) s = .next s) ∧
  (early = false → (∀ e ∈ o.eng.mops, e.q ≠ q) → runsPart s (partAt s k) core.toNat = true → coreShut (coreAt s core.toNat) = false →
    ∃ t, exec (.mSig add uli core n v) s = .next t ∧ gone t ∧ marked t ∧
    let own := ofQueue k uMatrix q
    let r := releaseParties s own (if wroteSys s own = true then 5 else 4)
    t.pend = r.pend ∧
    t.sig = s.sig ++ [⟨core.toNat, n.toNat, if add = true then .add else .write, BitVec.ofNat 64 v.toNat, if uli = true then some (32 * k + 24) else none, cmdObs r own⟩]) ∧
  ((tokensHeld o).getLsbD x.val = true → exec (.mWait (.tok x)) s = .next s) ∧
  ((tokensHeld o).getLsbD x.val = false → ∃ t, exec (.mWait (.tok x)) s = .next t ∧ gone t ∧
    t = issueHead k q none (acquire (observeAll (cmdParty k uMatrix q 0) s (sget [] o.eng.tokObs x.val)) (cmdParty k uMatrix q 0) 2)) ∧
  ((getSg s k m.toNat).toNat < b.toNat → exec (.mWait (.sg m b)) s = .next s) ∧
  (b.toNat ≤ (getSg s k m.toNat).toNat → ∃ t, exec (.mWait (.sg m b)) s = .next t ∧ gone t ∧
    t = issueHead k q none (acquire (observeAll (cmdParty k uMatrix q 0) s (sget [] o.sgObs m.toNat)) (cmdParty k uMatrix q 0) 5))) ∧
  (∀ (s : State) (a : At) (d : SOp) (sel : BitVec 10), Moves s a →
  let o := coreAt s a.k
  let n := sel.toNat
  ((4 < n ∧ n < 64) ∨ 127 < n → exec (.mstat d sel) s = .next (trapTy a .illegalOperand s)) ∧
  (n ≤ 4 ∨ 64 ≤ n ∧ n ≤ 127 → QueuesOk s a [] (pushS d) → ∃ w : Word, exec (.mstat d sel) s = .next (retire a (putS a d w s)) ∧
    (n = 0 → (∀ q < 4, w.getLsbD q = ((eqAt o q).stop.isSome || o.eng.mops.any fun e => e.q == q && e.stop.isSome)) ∧ w.toNat / 2 ^ 8 % 2 ^ 8 = ((eqAt o 0).parked.length + (eqAt o 1).parked.length + (eqAt o 2).parked.length + (eqAt o 3).parked.length) % 2 ^ 8 ∧ w.toNat / 2 ^ 16 % 2 ^ 8 = o.eng.mops.length % 2 ^ 8 ∧ w.toNat / 2 ^ 32 = o.eng.replays % 2 ^ 32 ∧
      w.toNat / 2 ^ 4 % 2 ^ 4 = 0 ∧ w.toNat / 2 ^ 24 % 2 ^ 8 = 0) ∧
    (0 < n → n ≤ 4 → w.toNat % 2 ^ 8 = (eqAt o (n - 1)).since % 2 ^ 8 ∧ w.toNat / 2 ^ 8 = (eqAt o (n - 1)).passed % 2 ^ 8) ∧
    (64 ≤ n → n ≤ 127 → w.toNat < 2 ^ 32 ∧ ∀ r < 32, w.getLsbD r = (tileRow o (32 * (n - 64) + r)).stale)))

/-- R74 to R77, R211, R213, R215, R217, R222 to R226, R230: what ends an operation, the iterations of a nest, the rows of a drain, the checks, the
replay, and the arithmetic of parts, sums and drained elements. A first part of -0 keeps its sign or not (log entry 89, DESIGN CHOICE: free). -/
def Obligations.MatrixCommits : Prop :=
  ∀ (s : State) (k id : Nat) (bad : Bool),
  let o := coreAt s k
  ((mopAt o id = none ∨ ∃ op, mopAt o id = some op ∧ (op.stop.isSome = true ∨ o.frozen = true ∨ opReady o op = false)) →
    exec (.matrixPlaneLoadDone k id) s = .next s ∧ exec (.matrixOperationCommit k id bad) s = .next s ∧ exec (.matrixDrainDone k id bad) s = .next s) ∧
  (∀ op, mopAt o id = some op → op.stop = none → o.frozen = false → opReady o op = true →
    (op.kind = .plane → tagFree s k op.sb = false → exec (.matrixPlaneLoadDone k id) s = .next s) ∧
    (op.kind = .plane → tagFree s k op.sb = true →
      (∀ f, (loadPlane s k op op.plane (op.lastSb.getD 0)).2 = .error f → ∃ s1, exec (.matrixPlaneLoadDone k id) s = .next (stopOp k op 0 [op.word.rqi] f [] 1 s1)) ∧
      (∀ s1 n, loadPlane s k op op.plane (op.lastSb.getD 0) = (s1, .ok n) → op.again = false → exec (.matrixPlaneLoadDone k id) s = .next (endOp k op (meter s1 (partAt s1 k) [op.word.rqi] mRD n))) ∧
      (∀ s1 n, loadPlane s k op op.plane (op.lastSb.getD 0) = (s1, .ok n) → op.again = true → exec (.matrixPlaneLoadDone k id) s = .next (endOp k op s1))) ∧
    (op.kind = .go → exec (.matrixOperationCommit k id true) s = .next (mismatchAt k op s) ∧
      exec (.matrixOperationCommit k id false) s = .next (runGo k (nestTotal (mcounts op.sh) - op.iter) op s)) ∧
    (op.kind = .drain → exec (.matrixDrainDone k id true) s = .next (mismatchAt k op s) ∧
      exec (.matrixDrainDone k id false) s = .next (runDrain k (32 * drN op.word - op.iter) op s) ∧
      (op.iter = 32 * drN op.word → exec (.matrixDrainDone k id false) s = .next (endOp k op (meterDrain k op s))))) ∧
  -- the iterations of a nest, one after another
  (∀ (n : Nat) (d : MOp) (z : State),
    let ls := nestAt d.iter (trips (mcounts d.sh))
    runGo k 0 d z = endOp k d (meterGo k d z) ∧
    (∀ s1 d', goIter z k d = (s1, .ok d') → runGo k (n + 1) d z = runGo k n d' s1) ∧
    (∀ s1, goIter z k d = (s1, .mismatch) → runGo k (n + 1) d z = mismatchAt k d s1) ∧
    (∀ s1, goIter z k d = (s1, .wait) → runGo k (n + 1) d z = setMop k d z) ∧
    ∀ s1 f side, goIter z k d = (s1, .fault f side) →
      runGo k (n + 1) d z = stopOp k d ((d.sh.tbase : Int) + nestSum (stSteps d.sh) ls).toNat (goIds d.word d.sh) f ls side s1) ∧
  -- one iteration: the plane that it uses, the operands, the checks, and the rows that it writes
  (∀ (d : MOp) (z : State),
    let sh := d.sh
    let ls := nestAt d.iter (trips (mcounts sh))
    let sB := nestSum (sbSteps sh) ls
    let tOff := ((sh.tbase : Int) + nestSum (stSteps sh) ls).toNat
    let load := goBstr d.word && d.lastSb != some sB
    let p := if (load && d.lastSb.isSome) = true then 1 - d.plane else d.plane
    let out := fun i => d.masked.contains i || rqStopped z (partAt z k) (rowId d.word i)
    (tagFree z k d.sa = false ∨ load = true ∧ tagFree z k d.sb = false → goIter z k d = (z, .wait)) ∧
    (tagFree z k d.sa = true → load = false ∨ tagFree z k d.sb = true →
      let b := if load = true then loadPlane z k d p sB else (z, .ok 0)
      (∀ f, b.2 = .error f → goIter z k d = (z, .fault f 1)) ∧
      ∀ s1 nB, b = (s1, .ok nB) → (planeAt (coreAt s1 k) p).loaded = true →
        let a := fetchAll k (cmdParty k uMatrix d.q d.id) d.sa sh.af d.skipPoison (nbOf sh) (nestSum (saSteps sh) ls) ((List.range sh.rows).filter fun i => !out i) s1
        (∀ f, a.2 = .error f → goIter z k d = (z, .fault f 0)) ∧
        ∀ s2 rows, a = (s2, .ok rows) →
          let pl := planeAt (coreAt s2 k) p
          let wrong := (∃ r ∈ rows, glumeOk sh pl r.2.1 = false) ∨
            ∃ r ∈ rows, ∃ e ∈ rowKeys sh tOff r.1, (goAcc d.word || d.fresh.contains e.1) = true ∧ sumOk (tileRow (coreAt s2 k) e.1) = false
          (wrong → goIter z k d = (z, .mismatch)) ∧
          (¬wrong → ∃ t d', goIter z k d = (t, .ok d') ∧ d'.iter = d.iter + 1 ∧ d'.plane = p ∧ (∀ i < sh.rows, d'.masked.contains i = out i) ∧
            (∀ r ∈ rows, ∀ e ∈ rowKeys sh tOff r.1, e.1 ∈ d'.fresh ∧ tileRow (coreAt t k) e.1 =
              rowAfter k sh pl r.2.1 (e.1 / 32) e.2 (rowId d.word r.1) (!goAcc d.word && !d.fresh.contains e.1) (tileRow (coreAt s2 k) e.1)) ∧
            (∀ i < sh.rows, out i = true → ∀ e ∈ rowKeys sh tOff i, tileRow (coreAt t k) e.1 = { tileRow (coreAt s2 k) e.1 with stale := true }) ∧
            ∀ key, (∀ i < sh.rows, ∀ e ∈ rowKeys sh tOff i, e.1 ≠ key) → tileRow (coreAt t k) key = tileRow (coreAt s2 k) key))) ∧
  (∀ sh tOff i e, e ∈ rowKeys sh tOff i ↔ e.2 < 16 / 2 ^ sh.gang ∧ e.1 = 32 * (tOff + i / 32 * (16 / 2 ^ sh.gang) + e.2) + i % 32) ∧
  -- one row of a drain
  (∀ (n : Nat) (d : MOp) (z : State),
    let key := 32 * drTile d.word + d.iter
    let row := tileRow (coreAt z k) key
    let f := sfld d.sa
    let t := drTy d.word
    let next := { d with iter := d.iter + 1 }
    let kept := row.stale || rqStopped z (partAt z k) row.id || (f.bnd && decide (f.e1 ≤ d.iter % 32))
    let size := 256 * (etyW t / 8)
    let q := cmdParty k uMatrix d.q d.id
    let addr := addr64 (stepAddr f ((d.iter / 32 / gn d.sh : Nat) : Int) ((d.iter % 32 : Nat) : Int) ((d.iter / 32 % gn d.sh : Nat) : Int))
    let far := fun (a : Int) => if f.space = 0 then none else some a
    let place := engPlace (midWalk k 3 .m (if d.iter % 32 = 0 then none else far (addr - f.s1 * 64)) (far addr) (f.s1 * 64) z) k .m q .matrix f true
      .addrUnmapped .spadRange addr size true
    runDrain k 0 d z = endOp k d (meterDrain k d z) ∧
    (sumOk row = false → runDrain k (n + 1) d z = mismatchAt k d z) ∧
    (sumOk row = true → kept = true → runDrain k (n + 1) d z = runDrain k n next (setMop k next z)) ∧
    (sumOk row = true → kept = false →
      (∀ e, place.2 = .error e → runDrain k (n + 1) d z = stopOp k d (key / 32) (servedIds (coreAt z k) d.word d.sh) e [] 2 z) ∧
      ∀ s1 ps l, place = (s1, .ok (.home ps l)) →
        (portFree s1 k ps = false ∨ farGrans k ps ≠ 0 ∧ fetchLeft s1 k = 0 → runDrain k (n + 1) d z = setMop k d z) ∧
        (portFree s1 k ps = true → farGrans k ps = 0 ∨ fetchLeft s1 k ≠ 0 →
          let drawn := { next with rowBytes := sset 0 d.rowBytes d.iter size }
          ∃ bytes, bytes.length = size ∧ (∀ c < 256, elemN (etyW t) (ofBytes bytes) c = drainEl k (key / 32) d.sh t (elemN 32 row.d c) % 2 ^ etyW t) ∧
            let s2 := holdFetchTags k (farGrans k ps) (writePieces s1 q (partAt z k) l ps bytes)
            let s3 := setMop k drawn (if drZero d.word = true then noteTiles k d.q d.id [key / 32] (zeroRow k key s2) else s2)
            runDrain k (n + 1) d z = runDrain k n drawn s3))) ∧
  (∀ key z, tileRow (coreAt (zeroRow k key z) k) key = { tileRow (coreAt z k) key with d := 0, sum := 0, stale := false } ∧
    ∀ j, j ≠ key → tileRow (coreAt (zeroRow k key z) k) j = tileRow (coreAt z k) j) ∧
  -- a mismatch: the tiles written since the marker are discarded, and the words since then run again, or a record tells why not
  (∀ (d : MOp) (z : State),
    let c := coreAt (setMop k d z) k
    let ops := sinceMarker (eqAt c d.q) d.mkId
    let tiles := (c.eng.wrote.filter fun e => e.2.any fun w => w.1 == d.q && decide (d.mkId < w.2.1)).map (·.1)
    let z1 := discardTiles k d.q d.mkId tiles z
    let stop := fun ty => stopOp k d (match d.kind with | .go => d.sh.tbase | .drain => drTile d.word | .plane => 0) (servedIds c d.word d.sh) ⟨ty, 0, 0⟩ []
      (if d.kind = .drain then 2 else 0) z1
    let lost := (eqAt c d.q).issued ≥ (if d.mkNo = 0 then 1 else d.mkNo) + (eqAt c d.q).window.length ∨ accOld c [] ops = true ∨
      (∃ t ∈ tiles, ∃ w ∈ sget [] c.eng.wrote t, w.1 ≠ d.q ∧ d.mkId < w.2.2) ∨
      (d.kind = .go ∧ goBstr d.word = false ∧ ∀ x, (planeAt c (goPl d.word)).src = some x → x.id ≤ d.mkId)
    (d.failed = true → mismatchAt k d z = stop .matrixUncorrectable) ∧ (d.failed = false → lost → mismatchAt k d z = stop .matrixReplayLost) ∧
    (d.failed = false → ¬lost → mismatchAt k d z = replayOps k d ops z1)) ∧
  (∀ c seen x xs, accOld c seen (x :: xs) = true ↔
    (x.kind = .go ∧ goAcc x.word = true ∧ ∃ r ∈ wroteRows c x, r ∉ seen) ∨ accOld c (seen ++ wroteRows c x) xs = true) ∧ (∀ c seen, accOld c seen [] = false) ∧
  (∀ q m tiles z key, tileRow (coreAt (discardTiles k q m tiles z) k) key =
    if key / 32 ∈ tiles then { tileRow (coreAt z k) key with d := 0, sum := 0, stale := true } else tileRow (coreAt z k) key) ∧
  (∀ q m tiles z w, w ∈ (discardTiles k q m tiles z).pend ↔ w ∈ z.pend ∧ (w.lvl = 0 → ∀ i, w.who = .cmd k uMatrix i → i % 16 = q → i / 16 ≤ m)) ∧
  (∀ (d : MOp) ops z,
    let e := (coreAt z k).eng
    let t := (coreAt (replayOps k d ops z) k).eng
    let re := fun (x : MOp) => match e.mops.find? fun y => y.id == x.id with
      | some y => { x with again := y.again, failed := y.failed || x.id == d.id, stop := y.stop }
      | none => { x with again := true, failed := x.id == d.id }
    t.replays = min (2 ^ 32 - 1) (e.replays + 1) ∧ (∀ y, y ∈ t.mops ↔ (∃ x ∈ ops, y = re x) ∨ (y ∈ e.mops ∧ ∀ x ∈ ops, x.id ≠ y.id)) ∧
    ((e.mops.map (·.id)).Pairwise (· < ·) → (ops.map (·.id)).Pairwise (· < ·) → (t.mops.map (·.id)).Pairwise (· < ·))) ∧
  -- the checks and the arithmetic
  (∀ r, sumOk r = true ↔ r.sum = BitVec.ofNat 32 ((List.range 256).map fun c => elemN 32 r.d c).sum) ∧
  (∀ sh p ab, glumeOk sh p ab = true ↔ ∀ g < 16, ∀ b < sh.kb,
    let a := ab.getD (g % gk sh * sh.kb + b) {}
    let col := fun c => planeBlock p ((g * 256 + c) * 8 + b)
    a.spec.isSome = true ∨ (∃ c < 256, (col c).spec.isSome = true) ∨
      dotQ a.q ((List.range 32).map fun j => sget 0 p.chk ((g * 8 + b) * 32 + j)) = ((List.range 256).map fun c => dotQ a.q (col c).q).sum) ∧
  (∀ l a b, a.spec = none → b.spec = none → partOf l a b =
    if dotQ a.q b.q = 0 then 0 else fRne .fp32 false (qMul (qInt (dotQ a.q b.q)) (qDy 1 (a.e + b.e - 28)))) ∧
  (∀ l a b c, specOf a.spec b.spec = some c → partOf l a b = mkNan .fp32 c l) ∧
  (∀ u v : List Int, u.length = v.length → dotQ u v = ((u.zip v).map fun p => p.1 * p.2).sum) ∧
  (∀ l old parts, accEl l false old parts = parts.foldl (fAdd .fp32 l) old) ∧
  (∀ l old p parts, ∃ first, accEl l true old (p :: parts) = parts.foldl (fAdd .fp32 l) first ∧
    (p ≠ 0x80000000 → first = fAdd .fp32 l 0 p) ∧ (p = 0x80000000 → first = p ∨ first = 0)) ∧
  (∀ sh p ab tile ct i ovw r, sumOk (rowAfter k sh p ab tile ct i ovw r) = true ∧ (rowAfter k sh p ab tile ct i ovw r).id = i ∧
    (rowAfter k sh p ab tile ct i ovw r).stale = (if ovw = true then false else r.stale) ∧
    ∀ c < 256, elemN 32 (rowAfter k sh p ab tile ct i ovw r).d c = accEl (locM k tile) ovw (elemN 32 r.d c)
      ((List.range (nbOf sh)).map fun kb => partOf (locM k tile) (ab.getD kb {}) (planeBlock p (physKey sh (256 * ct + c) kb))) % 2 ^ 32) ∧
  ∀ tile sh t x, drainEl k tile sh t x = convert t .fp32 false (locM k tile) (fMul .fp32 (locM k tile) (fMul .fp32 (locM k tile) x sh.ta) sh.tb)

/-- R235, R252: configuration words of the copy queues. R236, R239, R243, R245, R246, R339: `c.go` parks under a halt, waits for an entry, its tokens
and its pins, and else takes an entry that holds its tokens; HOLD of its queue's shadow clears, also when it parks (log entry 44, DEDUCED). A bad
stream stops the command in an entry that holds its tokens (log entry 30, DEDUCED). A command that needs a pin checks its first iteration whole, side
S before side D, and stops at its fault; the pin of a side that forms no address is asked at the home of its slot's first row (log entry 102, DESIGN
CHOICE). R196, R198, R254, R255, R332, R333: `c.sig` waits for the commands of its queue and releases what they wrote, and one to a peer leaves its
queue when its packet is handed over (log entry 47, DEDUCED); `c.wait` waits for tokens and acquires at `.co`, or for a signal word and acquires at
`.sy`. -/
def Obligations.CopyQueue : Prop :=
  (∀ (s : State) (k q : Nat) (sr : Fin 32) (sl : BitVec 12) (l : Fin 6) (dst : Bool) (s1 : BitVec 10) (s2 : BitVec 9) (count : BitVec 16) (c bms bmd : BitVec 2) (w : BitVec 3)
    (p : BitVec 5) (hold : BitVec 8), Heads s k q →
  let cfg := fun (i : Instr) (ok : CShadow → CShadow → Prop) => ∃ t, exec i s = .next t ∧ ok (cshAt (coreAt s k) q) (cshAt (coreAt t k) q) ∧
    (∀ j, j ≠ q → cshAt (coreAt t k) j = cshAt (coreAt s k) j ∧ eqAt (coreAt t k) j = eqAt (coreAt s k) j) ∧
    (eqAt (coreAt t k) q).words = (eqAt (coreAt s k) q).words.tail ∧ (coreAt t k).eng.cmds = (coreAt s k).eng.cmds
  let swz := BitVec.ofNat 10 (p.toNat + 32 * w.toNat + 256 * c.toNat)
  cfg (.cSrc sr sl) (fun o n => n = { o with srs := sr.val, sls := sl.toNat }) ∧ cfg (.cDst sr sl) (fun o n => n = { o with srd := sr.val, sld := sl.toNat }) ∧
  cfg (.cLvl l dst s1 s2 count) (fun o n => n = { o with lv := n.lv } ∧ ∀ j, clvl n j =
    if j = l.val then (if dst = true then { clvl o j with dd1 := s1, dd2 := s2 } else { clvl o j with ds1 := s1, ds2 := s2, count := count.toNat }) else clvl o j) ∧
  cfg (.cSwz dst c w p) (fun o n => n = if dst = true then { o with swzd := swz } else { o with swzs := swz }) ∧
  cfg (.cBound bms bmd) (fun o n => n = { o with bms := bms.toNat, bmd := bmd.toNat }) ∧ cfg (.cTok hold) (fun o n => n = { o with hold := hold })) ∧
  (∀ (s : State) (k q : Nat) (w : QWord) (run1 : BitVec 6) (zf iset : Bool), Heads s k q → headOf s k q = some w →
  let o := coreAt s k
  let sh := w.keepC.getD (cshAt o q)
  let ids := realIds (if iset = true then w.idSet else [w.rqi])
  let part := partAt s k
  let src := srcSide sh (getSR s k sh.srs)
  let dst := dstSide sh (getSR s k sh.srd)
  let ls := nestAt 0 (trips (ccounts sh))
  let cleared := fun (t : State) => cshAt (coreAt t k) q = if w.keepC = none then { cshAt o q with hold := 0 } else cshAt o q
  let entry := fun (s1 t : State) (c : Cmd) (phase : Nat) => (coreAt t k).eng.cmds = (coreAt s1 k).eng.cmds ++ [c] ∧
    (eqAt (coreAt t k) q).words = (eqAt (coreAt s1 k) q).words.tail ∧ c.q = q ∧ c.word = w ∧ c.sh = { sh with hold := 0 } ∧ c.hold = sh.hold ∧
    c.run = run1.toNat + 1 ∧ c.zf = zf ∧ c.iter = 0 ∧ c.phase = phase ∧ c.stop = none ∧ c.ids = (if iset = true then w.idSet else [w.rqi]) ∧
    cleared t ∧ (tokensHeld (coreAt t k)) = (tokensHeld (coreAt s1 k) ||| sh.hold)
  (allStopped s part ids = true → ∃ t, exec (.cGo run1 zf iset) s = .next t ∧ (eqAt (coreAt t k) q).words = (eqAt o q).words.tail ∧ cleared t ∧
    (allCancelled s part ids = false → (eqAt (coreAt t k) q).parked = (eqAt o q).parked ++ [{ w with keepC := some sh }]) ∧
    (allCancelled s part ids = true → (eqAt (coreAt t k) q).parked = (eqAt o q).parked)) ∧
  (allStopped s part ids = false →
    (8 ≤ o.eng.cmds.length ∨ (tokensHeld o &&& sh.hold) ≠ 0 ∨ taken s k = true → exec (.cGo run1 zf iset) s = .next s) ∧
    (o.eng.cmds.length < 8 → (tokensHeld o &&& sh.hold) = 0 → taken s k = false →
      (streamOk src.f = false ∨ streamOk dst.f = false → ∃ t c, exec (.cGo run1 zf iset) s =
        .next (stopCmd k c ⟨.streamInvalid, 0, 0⟩ none (if streamOk src.f = true then 1 else 0) t) ∧ entry s t c 5) ∧
      (streamOk src.f = true → streamOk dst.f = true →
        let party := cmdParty k uCopy q 0
        let pins := cmdPins k party w src dst ls (64 * (run1.toNat + 1)) s
        let pin := fun (d : Side) (excl : Bool) (z : State) => sidePin k party w d ls excl z
        (∀ f side, pins = .error (f, side) → ∃ t c, exec (.cGo run1 zf iset) s = .next (stopCmd k c f none side t) ∧ entry s t c 6) ∧
        (∀ s1, pins = .ok (s1, false) → exec (.cGo run1 zf iset) s = .next s1) ∧
        (∀ s1, pins = .ok (s1, true) → ∃ t c, exec (.cGo run1 zf iset) s = .next t ∧ entry s1 t c 0) ∧
        (src.f.space ≠ 2 → dst.f.space ≠ 2 → pins = .ok (s, true)) ∧
        (src.f.space = 2 ∨ dst.f.space = 2 →
          (∀ f, (sidePlace s k party src.f (sideAddr src ls) (64 * (run1.toNat + 1)) false).2 = .error f → pins = .error (f, 0)) ∧
          ∀ s1 p, sidePlace s k party src.f (sideAddr src ls) (64 * (run1.toNat + 1)) false = (s1, .ok p) →
            (∀ f, (sidePlace s1 k party dst.f (sideAddr dst ls) (64 * (run1.toNat + 1)) true).2 = .error f → pins = .error (f, 1)) ∧
            ∀ s2 r, sidePlace s1 k party dst.f (sideAddr dst ls) (64 * (run1.toNat + 1)) true = (s2, .ok r) →
              (∀ s3 s4, pin src false s2 = .go s3 → pin dst true s3 = .go s4 → pins = .ok (s4, true)) ∧
              (∀ s3 s4, pin src false s2 = .go s3 → pin dst true s3 = .wait s4 → pins = .ok (s4, false)) ∧
              ∀ s3 s4, pin src false s2 = .wait s3 → pin dst true s3 = .wait s4 ∨ pin dst true s3 = .go s4 → pins = .ok (s4, false)) ∧
        ∀ d excl z, (d.f.space ≠ 2 → pin d excl z = .go z) ∧
          (d.f.space = 2 → let r := engPlace z k .c party .copy d.f false .copyAddress .copyAddress ((sideAddr d ls).getD (addr64 (stepAddr d.f (d.slot : Int) (d.f.i1 : Int) (d.f.i2 : Int)))) 64 excl
            (∀ f, r.2 = .error f → pin d excl z = .go z) ∧
            ∀ z1 p st, r = (z1, .ok p) → homeOf p = some st →
              let own := copyOwner k w.seq
              let t := thrAt z1 st
              pin d excl z = if holdsPin t (partAt z k) d.slot own excl = true then .go z1
                else if asksPin t (partAt z k) d.slot own excl = true then .wait z1 else .wait (askPin z1 st (partAt z k) d.slot own excl none)))))) ∧
  (∀ (s : State) (k q : Nat) (w : QWord) (add uli : Bool) (core : BitVec 6) (n m : BitVec 8) (rep b : BitVec 16) (mask : BitVec 8), Heads s k q → headOf s k q = some w →
  let o := coreAt s k
  let early := (eqAt o q).parked.any fun p => decide (p.seq < w.seq)
  let busy := o.eng.cmds.any fun c => c.q == q
  let gone := fun (t : State) => (eqAt (coreAt t k) q).words = (eqAt o q).words.tail
  (∀ peer, early = true ∨ busy = true → exec (.cSig add uli peer core n rep) s = .next s) ∧
  (early = false → busy = false →
    (runsPart s (partAt s k) core.toNat = false → exec (.cSig add uli false core n rep) s = .next (stopHead k q uCopy (q - 4) w [w.rqi] ⟨.spadWindow, 0, 0⟩ s)) ∧
    (runsPart s (partAt s k) core.toNat = true → coreShut (coreAt s core.toNat) = true → exec (.cSig add uli false core n rep) s = .next s) ∧
    (runsPart s (partAt s k) core.toNat = true → coreShut (coreAt s core.toNat) = false → ∃ t, exec (.cSig add uli false core n rep) s = .next t ∧ gone t ∧
      let own := ofQueue k uCopy q
      let r := releaseParties s own (if o.eng.ceSy.contains q = true ∨ wroteSys s own = true then 5 else 4)
      t.pend = r.pend ∧ (coreAt t k).eng.everSy = o.eng.everSy ∧
      t.sig = s.sig ++ [⟨core.toNat, n.toNat, if add = true then .add else .write, BitVec.ofNat 64 rep.toNat, if uli = true then some (32 * k + 25) else none,
        cmdObs r own⟩]) ∧
    (inSet s (partAt s k) (rep.toNat / 2 ^ 8) = false → exec (.cSig add uli true core n rep) s = .next (stopHead k q uCopy (q - 4) w [w.rqi] ⟨.pageFault, 3, 0⟩ s)) ∧
    (inSet s (partAt s k) (rep.toNat / 2 ^ 8) = true → ∃ t, exec (.cSig add uli true core n rep) s = .next t ∧ gone t ∧ t.sig = s.sig ∧
      ∃ e ∈ t.out, e.why = .csig k q w.w.toNat w.fwPushed)) ∧
  ((tokensHeld o &&& mask) ≠ 0 → exec (.cWait (.tok mask)) s = .next s) ∧
  ((tokensHeld o &&& mask) = 0 → ∃ t, exec (.cWait (.tok mask)) s = .next t ∧ gone t ∧
    t = issueHead k q none (acquire (observeAll (cmdParty k uCopy q 0) s (tokensObs o mask)) (cmdParty k uCopy q 0) 2)) ∧
  ((getSg s k m.toNat).toNat < b.toNat → exec (.cWait (.sg m b)) s = .next s) ∧
  (b.toNat ≤ (getSg s k m.toNat).toNat → ∃ t, exec (.cWait (.sg m b)) s = .next t ∧ gone t ∧
    t = issueHead k q none (acquire (observeAll (cmdParty k uCopy q 0) s (sget [] o.sgObs m.toNat)) (cmdParty k uCopy q 0) 5)))

/-- R175, R237, R238, R240 to R245, R298: one move of a copy command. It parks at an iteration boundary under a halt, stops at a fault of a side,
waits for a tag, or for as many as its packet has granules, and for a port that takes inbound writes, moves the granules of an iteration between
places of this device and commits it, or sends a packet to a peer; a side out of bounds reads zeros or is not written. When a peer's read has been
answered, the iteration goes on with the bytes that came. A command that stood at a record before it had its pins asks for them first. R256 to R258:
`waitk`, `tokq` and `pkt`. -/
def Obligations.CopyWork : Prop :=
  (∀ (s : State) (k id : Nat),
  let o := coreAt s k
  ((cmdAt o id = none ∨ ∃ c, cmdAt o id = some c ∧ (c.stop.isSome = true ∨ c.parked = true ∨ o.frozen = true)) → exec (.copyIterationCommit k id) s = .next s) ∧
  ∀ c, cmdAt o id = some c → c.stop = none → c.parked = false → o.frozen = false →
    let part := partAt s k
    let q := cmdParty k uCopy c.q c.id
    let ls := nestAt c.iter (trips (ccounts c.sh))
    let src := srcSide c.sh c.ss
    let dst := dstSide c.sh c.sd
    let aS := sideAddr src ls
    let aD := sideAddr dst ls
    let rd := if aS.isSome = true then c.run else 0
    let wr := if aD.isSome = true then c.run else 0
    (c.phase = 0 → allStopped s part (realIds c.ids) = true → exec (.copyIterationCommit k id) s =
      .next (if allCancelled s part (realIds c.ids) = true then endCmd k c s else setCmd k { c with parked := true } s)) ∧
    (c.phase = 1 ∨ c.phase = 3 ∨ c.phase = 5 → exec (.copyIterationCommit k id) s = .next s) ∧
    (c.phase = 6 → (∀ f side, cmdPins k q c.word src dst ls (64 * c.run) s = .error (f, side) → exec (.copyIterationCommit k id) s = .next (stopCmd k c f none side s)) ∧
      (∀ s1, cmdPins k q c.word src dst ls (64 * c.run) s = .ok (s1, true) → exec (.copyIterationCommit k id) s = .next (setCmd k { c with phase := 0 } s1)) ∧
      ∀ s1, cmdPins k q c.word src dst ls (64 * c.run) s = .ok (s1, false) → exec (.copyIterationCommit k id) s = .next s1) ∧
    (c.phase = 4 → exec (.copyIterationCommit k id) s = .next (commitIter k { c with wroteSy := true } rd wr s)) ∧
    (c.phase = 0 ∧ allStopped s part (realIds c.ids) = false ∨ c.phase = 2 →
      (∀ e, (sidePlace s k q src.f aS (64 * c.run) false).2 = .error e → exec (.copyIterationCommit k id) s = .next (stopCmd k c e none 0 s)) ∧
      ∀ s1 pS, sidePlace s k q src.f aS (64 * c.run) false = (s1, .ok pS) →
        (∀ e, (sidePlace s1 k q dst.f aD (64 * c.run) true).2 = .error e → exec (.copyIterationCommit k id) s = .next (stopCmd k c e none 1 s)) ∧
        ∀ s2 pD, sidePlace s1 k q dst.f aD (64 * c.run) true = (s2, .ok pD) →
          let here := fun (p : Option Place) => match p with | some (.home ps _) => ps | _ => []
          let peer := fun (p : Option Place) => match p with | some (.peer _ _) => true | _ => false
          let from' := if c.phase = 0 then pS else none
          let s3 := if c.phase = 0 then cmdWalks k c src dst s2 else s2
          let stall := (farGrans k (here from') + farGrans k (here pD) ≠ 0 ∧ copyLeft s3 k = 0) ∨ ((peer from' || peer pD) = true ∧ copyLeft s3 k < c.run) ∨
            portFree s3 k (here pD) = false
          let send := fun (off d : Nat) (bs : List Byte) (bits : Nat) (z : State) => Host.Outcome.next (setCmd k { c with phase := 3, flits := c.flits + flitsOf c.run + 1 }
            (sendReq z k part (pktWrite d off 0 bs bits) (realIds c.ids) (.copyWrite k c.id)))
          (stall → exec (.copyIterationCommit k id) s = .next s) ∧
          (¬stall → peer from' = false →
            (∀ pd m, pD = some (.home pd m) → exec (.copyIterationCommit k id) s = .next (commitIter k { c with wroteSy := c.wroteSy || m == 5 } rd wr
              (moveGrans c q part (match from' with | some (.home ps _) => some ps | _ => none) (some (pd, m)) c.run 0 (holdCopyTags k (farGrans k pd) s3)))) ∧
            (pD = none → wr = 0 ∧ exec (.copyIterationCommit k id) s = .next (commitIter k c rd 0
              (moveGrans c q part (match from' with | some (.home ps _) => some ps | _ => none) none c.run 0 (holdCopyTags k 0 s3)))) ∧
            ∀ d off, pD = some (.peer d off) →
              (∀ ps l, from' = some (.home ps l) → exec (.copyIterationCommit k id) s =
                let g := gatherGrans q part c.zf ps c.run 0 s3
                send off d g.1 g.2.1 g.2.2) ∧
              (from' = none → c.got = [] → exec (.copyIterationCommit k id) s = send off d (List.replicate (64 * c.run) 0) 0 s3) ∧
              (from' = none → c.got ≠ [] → c.zf = false → exec (.copyIterationCommit k id) s = send off d c.got c.gotPoison s3) ∧
              (from' = none → c.got ≠ [] → c.zf = true → exec (.copyIterationCommit k id) s = send off d
                ((List.range c.run).flatMap fun g => if c.gotPoison.testBit g = true then List.replicate 64 0 else (c.got.drop (64 * g)).take 64) 0 s3)) ∧
          (¬stall → ∀ d off, from' = some (.peer d off) → exec (.copyIterationCommit k id) s =
            .next (setCmd k { c with phase := 1, flits := flitsOf c.run + 1 } (sendReq s3 k part (pktRead d off c.run) (realIds c.ids) (.copyRead k c.id))))) ∧
    (aD = none → ∀ s, sidePlace s k q dst.f aD (64 * c.run) true = (s, .ok none)) ∧
    (aS = none → sidePlace s k q src.f aS (64 * c.run) false = (s, .ok none)) ∧
    (aS = none ↔ src.bnd = true ∧ ¬(0 ≤ (src.f.i1 : Int) + nestSum src.d1 ls ∧ (src.f.i1 : Int) + nestSum src.d1 ls < src.f.e1 ∧
      0 ≤ (src.f.i2 : Int) + nestSum src.d2 ls ∧ (src.f.i2 : Int) + nestSum src.d2 ls < src.f.e2)) ∧
    ∀ s, (c.iter + 1 < nestTotal (ccounts c.sh) → ∃ s1, commitIter k c rd wr s = setCmd k { c with iter := c.iter + 1, phase := 0, flits := 0, got := [], gotPoison := 0 } s1) ∧
      (nestTotal (ccounts c.sh) ≤ c.iter + 1 → ∃ s1, commitIter k c rd wr s = endCmd k { c with iter := c.iter + 1, phase := 0, flits := 0, got := [], gotPoison := 0 } s1)) ∧
  (∀ (s : State) (a : At) (mask : BitVec 8) (d x y : SOp), Moves s a →
  let held := tokensHeld (coreAt s a.k)
  ((held &&& mask) ≠ 0 → exec (.waitk mask) s = .next (block a .other s)) ∧
  ((held &&& mask) = 0 → exec (.waitk mask) s = .next (retire a (if mask = 0 then s else acquire (observeAll (partyOf a) s (tokensObs (coreAt s a.k) mask)) (partyOf a) 2))) ∧
  (QueuesOk s a [] (pushS d) → ∃ w : Word, exec (.tokq d) s = .next (retire a (putS a d w s)) ∧ w.toNat % 2 ^ 8 = held.toNat ∧
    w.toNat / 2 ^ 8 % 2 ^ 8 = (tokensWanted s a.k).toNat ∧ (∀ q < 4, w.getLsbD (16 + q) = copyStopped (coreAt s a.k) (4 + q)) ∧
    w.toNat / 2 ^ 20 % 2 ^ 4 = ((coreAt s a.k).eng.cmds.filter (·.parked)).length % 16 ∧ w.toNat / 2 ^ 24 = (coreAt s a.k).eng.cmds.length % 16) ∧
  (QueuesOk s a (popsS [x, y]) [] →
    let u := takeS a x s
    let v := takeS a y u.2
    let n := u.1.toNat
    let bad := n / 2 ^ 26 ≠ 0 ∨ n / 2 ^ 14 % 4 ≠ 0 ∨ 1 < n / 2 ^ 24 % 4
    (bad → exec (.pkt x y) s = .next (trapTy a .illegalOperand s)) ∧
    (¬bad → tagRoom s a 1 = false ∨ relReady s (partyOf a) 5 = false → exec (.pkt x y) s = .next (block a .other s)) ∧
    (¬bad → tagRoom s a 1 = true → relReady s (partyOf a) 5 = true → exec (.pkt x y) s = .next (retire a
      (sendSignal a (n % 2 ^ 8) (n / 2 ^ 8 % 2 ^ 6) (n / 2 ^ 16 % 2 ^ 8) (n / 2 ^ 24 % 4 == 1) v.1 (release v.2 (partyOf a) 5))))))

/-- R281, R282: opening and closing a ring pair, and its doorbell. What the host may not do changes nothing; an opening that fails a check, or of a
ring that is not closed, is counted as refused; an opening clears the indices; a closing ring reads no more. Both void the records of the front end,
those that wait unposted too (R282 says it of a closing; of an opening log entry 105, DEDUCED). A closing ring is closed when no launch and no record
that can be answered is left, and void records that it could not write are dropped then (log entry 105). R283, R284, R87: the packet at RDIDX. Nothing
to read changes nothing; more than 2^RINGLOG slots are RING_OVERRUN; a length of 0, or beyond the end of the ring, is MALFORMED_LENGTH with AUX0 = LEN
and AUX1 = RDIDX; a type above 1 is PACKET_UNDEFINED; a packet that WRIDX does not cover yet waits; a PAD advances RDIDX by its length; a LAUNCH with
LEN ≠ 2, with a level count of 0, with two die levels or with more than 32 instances a die is LAUNCH_MALFORMED; with an identity that is not open
REQUEST_NOT_OPEN; else it waits at the ring's head. Where a packet breaks several of these, the order of the checks is log entry 33's (DEDUCED). -/
def Obligations.Rings : Prop :=
  (∀ (s : State) (ring : Nat) (w : BitVec 32),
  let g := ringAt s ring
  let ok : Prop := g.state = 0 ∧ 4 ≤ g.ringlog ∧ g.ringlog ≤ 16 ∧ 4 ≤ g.exqlog ∧ g.exqlog ≤ 16 ∧ g.ringbase % 64 = 0 ∧ g.exqbase % 64 = 0 ∧ (g.savebase = 0 ∨ 40 ≤ g.savestride)
  let void := fun (x : FRec) => ((g.pend ++ g.held.drop 16).filter fun y => decide (y.who = .ring ring)).any fun y => y.token == x.token
  let others := fun (t : State) => ∀ j, j ≠ ring → ∃ p h, ringAt t j = { ringAt s j with pend := p, held := h } ∧
    p = (ringAt s j).pend.filter (fun x => !void x) ∧ (∀ x ∈ h, x ∈ (ringAt s j).held) ∧ ∀ x ∈ (ringAt s j).held, void x = false → x ∈ h
  (hostCan s (ring / 64) = false → exec (.ringOpen ring) s = .next s ∧ exec (.ringClose ring) s = .next s ∧ exec (.ringDoorbell ring w) s = .next s) ∧
  (hostCan s (ring / 64) = true →
    (ok → ∃ t h, exec (.ringOpen ring) s = .next t ∧ others t ∧ (∀ x ∈ h, x ∈ g.held) ∧ (∀ x ∈ g.held, void x = false → x ∈ h) ∧
      ringAt t ring = { g with pend := g.pend.filter (fun x => !void x), held := h, state := 1, rdidx := 0, wridx := 0, exqrd := 0, exqwr := 0, deficit := 0, head := none }) ∧
    (¬ok → exec (.ringOpen ring) s = .next (modRing s ring fun g => { g with refused := g.refused + 1 })) ∧
    (g.state = 1 ∨ g.state = 2 → ∃ t h, exec (.ringClose ring) s = .next (settle t) ∧ others t ∧ (∀ x ∈ h, x ∈ g.held) ∧ (∀ x ∈ g.held, void x = false → x ∈ h) ∧
      ringAt t ring = { g with pend := g.pend.filter (fun x => !void x), held := h, state := 3, head := none }) ∧
    (g.state ≠ 1 → g.state ≠ 2 → exec (.ringClose ring) s = .next (modRing s ring fun g => { g with refused := g.refused + 1 })) ∧
    exec (.ringDoorbell ring w) s = .next (modRing s ring fun g => { g with wridx := w })) ∧
  let closed := g.state = 3 ∧ (∀ r ∈ g.pend, ftNoAnswer r.ty = true) ∧ g.held.length ≤ 16 ∧ (∀ r ∈ g.held, ftNoAnswer r.ty = false ∧ ∀ x ∈ g.pend, x.token ≠ r.token) ∧
    ∀ l ∈ s.launches, l.ring ≠ ring
  (closed → ringAt (settle s) ring = { g with state := 0, held := [] }) ∧ (¬closed → ringAt (settle s) ring = g)) ∧
  (∀ (s : State) (ring : Nat),
  let g := ringAt s ring
  let both := fun (t : State) => exec (.pad ring) s = .next t ∧ exec (.launch ring) s = .next t
  let n := 2 ^ g.ringlog
  let stop := fun (s : State) (r : FRec) => stopRing ring r s
  let rec0 : FRec := { ty := .userTrap, unit := 4, slot := g.rdidx.toNat, ring := ring, who := .ring ring }
  (g.state ≠ 1 ∨ g.head.isSome = true ∨ g.wridx = g.rdidx → both s) ∧
  (g.state = 1 → g.head = none → g.wridx ≠ g.rdidx →
    (n < availOf g → both (stop s { rec0 with ty := .ringOverrun })) ∧
    (availOf g ≤ n → ∀ s1 bs, devRead s (ring / 64) (slotVa g) 4 = (s1, .ok bs) →
      let hdr := ofBytes bs
      let len := hdr / 2 ^ 8 % 2 ^ 8
      let bad := len = 0 ∨ n < len ∨ n < g.rdidx.toNat % n + len
      (bad → both (stop s1 { rec0 with ty := .malformedLength, raw := hdr, aux0 := len, aux1 := g.rdidx.toNat })) ∧
      (¬bad → 1 < hdr % 2 ^ 8 → both (stop s1 { rec0 with ty := .packetUndefined, raw := hdr })) ∧
      (¬bad → hdr % 2 ^ 8 ≤ 1 → availOf g < len → both s1) ∧
      (¬bad → hdr % 2 ^ 8 = 0 → len ≤ availOf g → exec (.pad ring) s = .next (advanceRing ring len s1) ∧ exec (.launch ring) s = .next s1) ∧
      (¬bad → hdr % 2 ^ 8 = 1 → len ≤ availOf g → ringAt s1 ring = g → exec (.pad ring) s = .next s1 ∧
        (len ≠ 2 → exec (.launch ring) s = .next (stop s1 { rec0 with ty := .launchMalformed, raw := hdr })) ∧
        (len = 2 → ∀ s2 pk, devRead s1 (ring / 64) (slotVa g) 128 = (s2, .ok pk) →
          let p := pktOf (ofBytes pk) 0 []
          ((∃ l ∈ levels p, (l.1 = 2 ∨ l.1 = 3) ∧ l.2 = 0) ∨ 1 < ((levels p).filter fun l => l.1 == 3).length ∨ 32 < instancesOf p →
            exec (.launch ring) s = .next (stop s2 { rec0 with ty := .launchMalformed, raw := hdr })) ∧
          (pktBad s2 ring (ofBytes pk) = false → ∀ s3 prime, readPrime s2 (ring / 64) (ofBytes pk / 2 ^ 192 % 2 ^ 64) = (s3, .ok (some prime)) →
            (rqOpenIn s3 (ring / 64) p.rq = false → exec (.launch ring) s = .next (stop s3 { rec0 with ty := .requestNotOpen, raw := hdr })) ∧
            (rqOpenIn s3 (ring / 64) p.rq = true → imageGood s3 p.image = true → ∃ t q, exec (.launch ring) s = .next t ∧ (ringAt t ring).head = some q ∧
              q.rq = p.rq ∧ q.image = p.image ∧ q.cls = p.cls ∧ q.kinds = p.kinds ∧ q.counts = p.counts ∧ q.prime = prime ∧ q.compl = p.compl ∧ q.compval = p.compval)))))))

/-- R88: a launch takes, on each of its dies, the allowed free cores in ascending order, as many as it has instances there, no core twice. R88, R90,
R99, R269: the front end places the launch that its choice comes to, and no other; a request that is no longer open is refused at the head. A core
that an instance takes wakes if it sleeps, has no started cluster, and has lost the scratchpad and the instruction memories of another partition. A
core that is prepared for an instance has fresh contexts, its identity, the riders of the launch, its handoff counters and LSMASK 15; the other cores
stay. R90, R91, R198, R269, R290, R301: an instance starts its four clusters at their entries once its core is awake, or goes on with what was saved
of it; it completes when its streams have ended and its work is done, and frees its core, whose registers, signal words and tiles stay unless it goes
to L2 (R309, R331, R390; log entry 68, DEDUCED); a launch completes when no instance is left, releases its stores at `.sy` and writes COMPVAL; a
killed one posts REQUEST_CANCELLED instead, with the request of its packet in RQ (log entry 62, DEDUCED). -/
def Obligations.Launches : Prop :=
  (∀ (s : State) (free : Nat → Bool) (part die : Nat) (p : LPkt) (l : List (Nat × Nat × Nat)), picks s free part die p = some l →
  l.length = instancesOf p * (if twoDies p = true then 2 else 1) ∧ (l.map (·.1)).Nodup ∧
  (∀ e ∈ l, free e.1 = true ∧ (partRec s part).cmask.getLsbD e.1 = true ∧ (p.cmask = 0 ∨ p.cmask.getLsbD e.1 = true) ∧ e.1 / 32 = e.2.1 ∧ e.2.2 < instancesOf p ∧
    (twoDies p = false → e.2.1 = die)) ∧
  ∀ e ∈ l, ∀ f ∈ l, e.2.1 = f.2.1 → e.2.2 < f.2.2 → e.1 < f.1) ∧
  ((∀ (s : State) (ring : Nat) (s1 : State) (c : Option Cand), choose s (ringDie s ring) = (s1, c) →
    (c = none → exec (.launchPlace ring) s = .next s1) ∧
    (∀ x, c = some x → (x.ring ≠ ring ∨ x.saved ≠ none) → exec (.launchPlace ring) s = .next s) ∧
    (∀ x p, c = some x → x.ring = ring → x.saved = none → (ringAt s1 ring).head = some p →
      (rqOpenIn s1 (ring / 64) p.rq = false → exec (.launchPlace ring) s = .next (stopRing ring (frontRec s1 ring .requestNotOpen 0x201) s1)) ∧
      (rqOpenIn s1 (ring / 64) p.rq = true → ∀ l, picks s1 (coreFree s1) (ring / 64) (ringDie s1 ring) p = some l →
        exec (.launchPlace ring) s = .next (placeAt ring p l s1)))) ∧
  (∀ (s : State) (ring : Nat) (p : LPkt) (l : List (Nat × Nat × Nat)) (k die n : Nat), (k, die, n) ∈ l → (l.map (·.1)).Nodup →
    ∃ i, (coreAt (placeAt ring p l s) k).inst = some i ∧ i.launch = s.dev.nextLaunch ∧ i.part = ring / 64 ∧ i.started = false ∧
      i.index = die * (if twoDies p = true then instancesOf p else 0) + n) ∧
  (∀ (s : State) (l : Launch) (k : Nat) (i : Inst),
    let t := claimCore l k i s
    let o := coreAt t k
    o.inst = some i ∧ (∀ c, (clOf o c).run = .off ∧ (clOf o c).rqi = l.pkt.rq) ∧ (o.waking = ((coreAt s k).waking || decide ((coreAt s k).pwr ≠ .l0))) ∧
    ((coreAt s k).lastPart = none ∨ (coreAt s k).lastPart = some l.part → ∀ c, (clOf o c).imem = (clOf (coreAt s k) c).imem) ∧
    (∀ p, (coreAt s k).lastPart = some p → p ≠ l.part → (∀ c, (clOf o c).imem = []) ∧ ∀ a, homeByte t (.spad k) a = 0) ∧ ∀ j, j ≠ k → coreAt t j = coreAt s j) ∧
  ∀ (s : State) (l : Launch) (im : Image) (k : Nat),
    let t := prepCore l im k s
    let o := coreAt t k
    (∀ c, (clOf o c).rqi = l.pkt.rq ∧ (clOf o c).ctx = {} ∧ (clOf o c).run = (cluAt s k c).run ∧ (clOf o c).stop = none) ∧
    o.inst = (coreAt s k).inst ∧ o.sg = [] ∧ o.eng.tiles = [] ∧
    o.ks.idDef = l.pkt.rq ∧ o.ks.idSet = [l.pkt.rq] ∧ o.ks.setk = false ∧ o.lsmask = 15 ∧ o.vq = [] ∧ o.sq = [] ∧ (∀ i, i < 8 → l.pkt.handoff.length = 8 → sget 0 o.hc i = BitVec.ofNat 8 (l.pkt.handoff.getD i 0)) ∧
    (∀ j, j ≠ k → coreAt t j = coreAt s j)) ∧
  ((∀ (s : State) (k : Nat) (i : Inst) (l : Launch) (im : Image), (coreAt s k).inst = some i → launchAt s k = some l → imageOf s k = some im →
    (i.started = true ∨ (coreAt s k).waking = true ∨ s.dev.l3 = true → exec (.instanceStart k) s = .next s) ∧
    (∀ e, i.started = false → (coreAt s k).waking = false → s.dev.l3 = false → l.saved.find? (·.core == k) = some e → exec (.instanceStart k) s = .next (unpark (restoreInst l.id k s))) ∧
    (i.started = false → (coreAt s k).waking = false → s.dev.l3 = false → l.saved.find? (·.core == k) = none →
      exec (.instanceStart k) s = .next (unpark (startInst k l i im (prepCore l im k s))) ∧ (∀ z : State, z.park = [] → z.linkWait = [] → unpark z = z) ∧
      let t := startInst k l i im (prepCore l im k s)
      (coreAt t k).inst = some { i with started := true } ∧
      ∀ c, ((cluAt s k c).run = .off → (cluAt t k c).run = .on ∧ (cluAt t k c).ctx.pc = imgEntry im c) ∧
        ((cluAt s k c).run ≠ .off → (cluAt t k c).run = (cluAt s k c).run))) ∧
  (∀ (s : State) (k : Nat) (i : Inst) (l : Launch), (coreAt s k).inst = some i → launchAt s k = some l →
    ((∃ c, ended (cluAt s k c).run = false) ∨ (coreAt s k).eng.mops ≠ [] ∨ (coreAt s k).eng.cmds ≠ [] ∨ (∃ q < 9, (eqAt (coreAt s k) q).words ≠ []) → exec (.instanceComplete k) s = .next s) ∧
    (i.started = true → instDone s k = true → ∃ t, exec (.instanceComplete k) s = .next t ∧ (coreAt t k).inst = none ∧ (coreAt t k).lastPart = some i.part ∧
      ((partRec s i.part).plat < 40 → (coreAt s k).waking = false ∨ (coreAt s k).pwr ≠ .l2 →
        (∀ c, (cluAt t k c).ctx.x = (cluAt s k c).ctx.x ∧ (cluAt t k c).ctx.p = (cluAt s k c).ctx.p ∧ (cluAt t k c).xs = (cluAt s k c).xs ∧ ((cluAt s k c).ctx.wait = none → cluAt t k c = cluAt s k c)) ∧
        (coreAt t k).sg = (coreAt s k).sg ∧ (coreAt t k).eng.tiles = (coreAt s k).eng.tiles) ∧ ∀ m ∈ t.launches, m.id = l.id → k ∉ m.left)) ∧
  ∀ (s : State) (id : Nat) (l : Launch), launchOf s id = some l →
    let s0 := (partiesIn s fun q => match q with | .past n _ _ => n == id | _ => false).foldl (fun s q => release s q 5) s
    let gone := fun (q : Party) => match q with | .past n _ _ => n == id | _ => false
    let s1 := { s0 with rels := s0.rels.filter (fun e => !gone e.1), seen := s0.seen.filter fun e => !gone e.1 && !gone e.2.1 }
    let finishing := fun (t : State) => finishPart l.part (settle { charge l.ring (voidLaunch l t) with launches := t.launches.filter fun x => x.id != id })
    (l.left ≠ [] → exec (.launchComplete id) s = .next s) ∧
    (l.left = [] → l.killed = true → exec (.launchComplete id) s =
      .next (finishing (postNew s1 { ty := .requestCancelled, unit := 4, rq := l.pkt.rq, slot := l.pkt.slot, ring := l.ring, launch := id }))) ∧
    (l.left = [] → l.killed = false →
      (∀ t u, devWrite s1 l.part l.pkt.compl (bytesOf 8 l.pkt.compval) = (t, .ok u) → exec (.launchComplete id) s = .next (finishing t)) ∧
      (∀ t e, devWrite s1 l.part l.pkt.compl (bytesOf 8 l.pkt.compval) = (t, .error e) → exec (.launchComplete id) s = .next (finishing (postNew t
        { ty := .completionLost, unit := 4, rq := l.pkt.rq, slot := l.pkt.slot, addr := l.pkt.compl, aux0 := l.pkt.compval, ring := l.ring, launch := id })))))

/-- R100, R104: a pre-emption is asked for by the launch at a ring's head, a pre-empted one before the packets, with a LATTOL, of launches of a lower
class that have a save area and that run on a core it may use: those of the lowest class first and in it the one placed last first (log entry 35,
DEDUCED), one more as long as the cores that they would free are not enough. A core it reaches has its waits withdrawn. At safe points clusters are
let go again at the release time while others have not arrived and no pre-emption is being taken, and a pre-emption that is not taken in time is
reported once, with the request of the launch in RQ (log entry 62, DEDUCED). R299 to R301, R225: the save frees the core and keeps, of an instance
that does not stand at safe points, every register; a fault of the save area posts PREEMPT_SAVE_FAILED and the instance stays. The launch that is due
takes its cores again, each of which goes on, once it is awake, with what was saved, with empty windows in its engine queues, with a gleaner that
starts from K's state, and under the names of its parties. -/
def Obligations.Preemption : Prop :=
  ((∀ (s : State) (ring : Nat),
    let back := s.launches.find? fun l => l.ring == ring && decide (l.st = .saved)
    let asks := fun (p : LPkt) (may : Nat → Prop) (fits : (Nat → Bool) → Prop) =>
      (p.lattol = 0 → exec (.preemptionRequest ring) s = .next s) ∧
      (p.lattol ≠ 0 → ∃ (all : List Launch) (n : Nat), n ≤ all.length ∧ exec (.preemptionRequest ring) s = .next ((all.take n).foldl requestLaunch s) ∧
        (∀ x, x ∈ all ↔ x ∈ s.launches ∧ p.cls < x.pkt.cls ∧ x.killed = false ∧ (x.st = .placed ∨ x.st = .running) ∧ (ringAt s x.ring).savebase ≠ 0 ∧ ∃ k ∈ x.left, may k) ∧
        all.Pairwise (fun a b => b.pkt.cls < a.pkt.cls ∨ (b.pkt.cls = a.pkt.cls ∧ b.id ≤ a.id)) ∧
        let free := fun (j k : Nat) => coreFree s k || ((all.take j).flatMap (·.left)).contains k
        (∀ j < n, ¬fits (free j)) ∧ (n < all.length → fits (free n)))
    (∀ b, back = some b → asks b.pkt (fun k => ∃ e ∈ b.saved, e.core = k) (fun free => ∀ e ∈ b.saved, free e.core = true)) ∧
    (back = none → ∀ p, (ringAt s ring).head = some p →
      asks p (fun k => allowed s (ring / 64) p k = true) (fun free => (picks s free (ring / 64) (ringDie s ring) p).isSome = true)) ∧
    (back = none → (ringAt s ring).head = none → exec (.preemptionRequest ring) s = .next s)) ∧
  (∀ (s : State) (l : Launch) (k : Nat), l.preempt = false → k ∈ l.left → launchNo s k = some l.id → (coreAt (requestLaunch s l) k).preempt = true) ∧
  (∀ (s : State) (k : Nat), ((coreAt s k).preempt = false ∨ (∀ c, ended (cluAt s k c).run = true ∨ (cluAt s k c).safeStop = true) ∨ taken s k = true → exec (.safeptReleaseTimeout k) s = .next s) ∧
    ((coreAt s k).preempt = true → (∃ c, ended (cluAt s k c).run = false ∧ (cluAt s k c).safeStop = false) → taken s k = false → ∃ t, exec (.safeptReleaseTimeout k) s = .next t ∧ (∀ c, cluAt t k c = { cluAt s k c with safeStop := false }) ∧ (coreAt t k).preempt = true)) ∧
  ∀ (s : State) (k : Nat) (l : Launch), launchAt s k = some l →
    ((coreAt s k).preempt = false ∨ (coreAt s k).preLate = true → exec (.preemptLate k) s = .next s) ∧
    ((coreAt s k).preempt = true → (coreAt s k).preLate = false → exec (.preemptLate k) s = .next (postNew (modCore s k fun o => { o with preLate := true })
      { ty := .preemptLate, unit := 4, core := k, rq := l.pkt.rq, slot := l.pkt.slot, ring := l.ring, launch := l.id }))) ∧
  ((∀ (s : State) (k : Nat) (i : Inst) (l : Launch) (im : Image), (coreAt s k).inst = some i → launchAt s k = some l → imageOf s k = some im →
    (saveReady s k = false → exec (.preemptTake k) s = .next s) ∧
    (saveReady s k = true → ∀ s1,
      (∀ f, saveArea s l i = (s1, some f) → exec (.preemptTake k) s = .next (raise s1 { ty := .preemptSaveFailed, cause := f.cause, unit := 7, core := k, slot := l.pkt.slot, addr := f.addr
                                                                                        ring := l.ring, launch := l.id, who := .save k }).2) ∧
      (saveArea s l i = (s1, none) → launchAt s1 k = some l → ∃ t, exec (.preemptTake k) s = .next t ∧ (coreAt t k).inst = none ∧
        ∃ m ∈ t.launches, m.id = l.id ∧ ∃ e ∈ m.saved, e.core = k ∧
          (∀ c, (clOf e.o c).ctx.pc = (cluAt s1 k c).ctx.pc ∧ (clOf e.o c).run = (cluAt s1 k c).run) ∧
          (allSafe (coreAt s1 k) = false → e.keep = none ∧ ∀ c, (clOf e.o c).ctx.x = (cluAt s1 k c).ctx.x ∧ (clOf e.o c).ctx.p = (cluAt s1 k c).ctx.p ∧ (clOf e.o c).xs = (cluAt s1 k c).xs)))) ∧
  (∀ (s : State) (id : Nat) (l : Launch) (s1 : State) (c : Option Cand), launchOf s id = some l → choose s (ringDie s l.ring) = (s1, c) →
    (c = none → exec (.preemptResume id) s = .next s1) ∧ (∀ x, c = some x → x.saved ≠ some id → exec (.preemptResume id) s = .next s) ∧
    (∀ x, c = some x → x.saved = some id → (l.saved.map (·.core)).Nodup → ∃ t, exec (.preemptResume id) s = .next t ∧
      (∀ m ∈ t.launches, m.id = id → m.st = .running) ∧ ∀ e ∈ l.saved, ∀ i, e.o.inst = some i →
        (coreAt t e.core).inst = some { i with started := false } ∧ ∀ c, (cluAt t e.core c).run = .off)) ∧
  (∀ (s : State) (id : Nat) (e : Saved), ∀ m ∈ (restoreSaved id e s).launches, m.id = id → ∀ x ∈ m.saved, x.core ≠ e.core) ∧
  (∀ (s : State) (id k : Nat) (l : Launch) (e : Saved), let s1 := renameParties (backName id k) s
    launchOf s1 id = some l → l.saved.find? (·.core == k) = some e → restoreInst id k s = restoreSaved id e s1) ∧
  ∀ (o e : Core) (c : Cluster) (q : Nat), let b := restoredCore o e
    clOf b c = clOf e c ∧ b.inst = e.inst ∧ b.vq = e.vq ∧ b.sq = e.sq ∧ b.hc = e.hc ∧ b.eng.tiles = e.eng.tiles ∧ b.eng.mops = e.eng.mops.map (fun m => { m with mkId := o.eng.nextId, mkNo := 0 }) ∧ b.eng.cmds = e.eng.cmds ∧
    (eqAt b q).words = (eqAt e q).words ∧ (eqAt b q).parked = (eqAt e q).parked ∧ (eqAt b q).window = [] ∧ ((eqAt e q).words ≠ [] → (eqAt b q).issued = 0 ∧ (eqAt b q).markNo = 0) ∧ b.frozen = o.frozen ∧ b.ks.fw = o.ks.fw ∧
    (eqAt b q).mark = none ∧ b.gl.seen = kCopy e ∧ b.gl.now.copy = kCopy e ∧ b.gl.first = b.gl.now)

/-- R394, R386, R264, R40 and `fwcall` of 04: a service pops its argument, gives its word and meters the clk of its stall; a number above 255 traps,
one that the firmware does not offer gives all ones. Service 6 starts the pager at pager syllable 1 with the 64 bytes in FR0 to FR7, while the user
context stalls and its identity is the firmware's (R262); an argument that is no block of K's control data memory gives -2. That service 6 waits in
the firmware and pager contexts, and while the pager serves, is the model's reading (DEDUCED, log 22). R294, R295, R304, R40: the three ends of a
service. Only the pager has them; its stores are released at `.dv`, it serves nothing any more, and then the answer acts on the trap, or the caller
gets FR0, -1 or the end of its launch. R108, R293, R295, R308, R167: once the results of K's user context have come, a trap that waits enters the
pager at pager syllable 0, with its record in FR0 to FR7, identity 0 and nothing of an earlier service on its way; the pager's time limit ends its
service with PAGER_FAULT of cause 1, and no result of its accesses comes any more; `exqpost` posts the pending trap's record from 64 aligned bytes of
K's control data memory, with its TYPE, TOKEN and SLOT, and ends the service. -/
def Obligations.FirmwareAndPager : Prop :=
  (∀ (s : State) (a : At) (d f : SOp) (svc : BitVec 16), Moves s a →
  let gives := fun (i : Instr) (v : Nat) => QueuesOk s a (popsS [f]) (pushS d) → exec i s = .next (retire a (meterStall a (putS a d (BitVec.ofNat 64 v) (takeS a f s).2)))
  gives (.fwVersion d f) (Config.fwVersionOf s.dev.fwRun).toNat ∧
  gives (.fwForm d f) ((if s.dev.modForm = true then 1 else 0) + 2 ^ 16 * (Config.sustained s.dev.modForm / 1000 % 2 ^ 16) + 2 ^ 32 * (Config.peak s.dev.modForm / 1000 % 2 ^ 16)) ∧
  gives (.fwPower d f) s.dev.lastPower ∧ gives (.fwGovernor d f) (2 ^ 24 * (supply s a.k % 2 ^ 12) + 2 ^ 48 * ((s.dev.scale - 1) % 16)) ∧
  gives (.fwPlat d f) (partRec s (partAt s a.k)).plat ∧ gives (.fwDebugPolicy d f) (partRec s (partAt s a.k)).policy.toNat ∧
  (255 < svc.toNat → exec (.fwUnknown d f svc) s = .next (trapTy a .illegalOperand s)) ∧ (svc.toNat ≤ 255 → gives (.fwUnknown d f svc) (2 ^ 64 - 1)) ∧
  (QueuesOk s a (popsS [f]) (pushS d) →
    let v := (takeS a f s).1.toNat
    let ks := (coreAt s a.k).ks
    (v % 64 ≠ 0 ∨ 0xFFC0 < v → gives (.fwPagerRequest d f) (2 ^ 64 - 2)) ∧
    (v % 64 = 0 → v ≤ 0xFFC0 → (a.x ≠ .user ∨ ks.pagerRun ≠ .idle) → exec (.fwPagerRequest d f) s = .next (block a .other s)) ∧
    (v % 64 = 0 → v ≤ 0xFFC0 → a.x = .user → ks.pagerRun = .idle → ∃ t, exec (.fwPagerRequest d f) s = .next t ∧
      let kt := (coreAt t a.k).ks
      kt.pagerRun = .request (pcOf s a) d ∧ kt.pager.pc = 1 ∧ kt.pagerRqi = 0 ∧ kt.fwRqi = rqiOf s a ∧ (cluAt t a.k .K).fwStall = true ∧ pcOf t a = pcOf s a ∧
      ∀ i < 8, sget 0 kt.fr i = BitVec.ofNat 64 (ofBytes (curBytes (takeS a f s).2 (partyOf a) (.kdm a.k) v 64) / 2 ^ (64 * i))))) ∧
  ((∀ (s : State) (a : At), Moves s a →
    (a.x ≠ .pager → exec .eret s = .next (trapTy a .illegalPrivilege s) ∧ exec .eretSkip s = .next (trapTy a .illegalPrivilege s) ∧ exec .eretAbort s = .next (trapTy a .illegalPrivilege s)) ∧
    (a.x = .pager →
      let s2 := modKs (release (retire a s) (partyOf a) 4) a.k fun ks => { ks with pagerRun := .idle }
      (∀ r, (coreAt s a.k).ks.pagerRun = .trap r → exec .eret s = .next (resumeRec r s2) ∧ exec .eretSkip s = .next (skipRec r 0 s2) ∧ exec .eretAbort s = .next (abortRec r s2)) ∧
      ∀ w d, (coreAt s a.k).ks.pagerRun = .request w d → let s3 := modKs s2 a.k fun ks => { ks with fwRqi := 0 }
        exec .eret s = .next (replyCaller a.k d (sget 0 (coreAt s a.k).ks.fr 0) s3) ∧
        exec .eretSkip s = .next (replyCaller a.k d (-1) s3) ∧ exec .eretAbort s = .next (abortCaller a.k s3))) ∧
  (∀ (s : State) (k : Nat) (d : SOp) (v : Word), (cluAt s k .K).run = .on →
    replyCaller k d v s = modClu (retire ⟨k, .K, .user⟩ (meterStall ⟨k, .K, .user⟩ (putS ⟨k, .K, .user⟩ d v s))) k .K fun u => { u with fwStall := false }) ∧
  ∀ (s : State) (k l : Nat), launchNo s k = some l → abortCaller k s = killLaunch l s) ∧
  (∀ (s : State) (k : Nat) (a : At) (x : SOp) (r : FRec) (rs : List FRec),
  let ks := (coreAt s k).ks
  let late := resultOut s k fun c x => c == .K && x == .user
  (late = true → exec (.pagerTrapEntry k) s = .next s) ∧
  (late = false → ks.pagerRun = .idle → ks.pagerQ = r :: rs → ∃ t, exec (.pagerTrapEntry k) s = .next t ∧
    let kt := (coreAt t k).ks
    kt.pagerRun = .trap r ∧ kt.pagerQ = rs ∧ kt.pager.pc = 0 ∧ kt.pagerRqi = 0 ∧ kt.pager.x = ks.pager.x ∧ kt.pager.wait = none ∧ kt.pager.peerWait = false ∧ kt.pager.sheafBusy = none ∧ kt.pager.sheafRes = none ∧ ∀ i < 8, sget 0 kt.fr i = BitVec.ofNat 64 (recNum r / 2 ^ (64 * i))) ∧
  (ks.pagerRun ≠ .idle ∨ ks.pagerQ = [] → ∃ t, exec (.pagerTrapEntry k) s = .next t ∧ ∀ j, coreAt t j = coreAt s j) ∧
  (ks.pagerRun = .idle → exec (.pagerTimeLimit k) s = .next s) ∧
  (ks.pagerRun = .trap r → exec (.pagerTimeLimit k) s = .next (postNew (modKs (dropPagerWork k s) k fun ks => { ks with pagerRun := .idle })
    { ty := .pagerFault, unit := 5, core := k, cause := 1, rq := r.rq, slot := r.slot, ring := r.ring, launch := r.launch, aux0 := r.token, aux1 := ftCode r.ty, who := r.who })) ∧
  (∀ m d, ks.pagerRun = .request m d → exec (.pagerTimeLimit k) s = .next (postNew (modKs (dropPagerWork k s) k fun ks => { ks with pagerRun := .idle, fwRqi := 0 })
    (withLaunch (modKs (dropPagerWork k s) k fun ks => { ks with pagerRun := .idle, fwRqi := 0 }) k
      { ty := .pagerFault, unit := 5, core := k, cause := 1, rq := (cluAt s k .K).rqi, aux1 := 2 ^ 32 * m, who := .cl k .K }))) ∧
  (let t := dropPagerWork k s
   (∀ o, o ∈ t.out ↔ o ∈ s.out ∧ resultOf (fun _ x => x == .pager) k { o with stop := none } = false) ∧
   (coreAt t k).ks.pager.wait = none ∧ (coreAt t k).ks.pager.peerWait = false ∧ (coreAt t k).ks.pager.sheafBusy = none ∧ (coreAt t k).ks.pager.sheafRes = none ∧
   (coreAt t k).ks.pager.x = ks.pager.x ∧ ∀ j, j ≠ k → coreAt t j = coreAt s j) ∧
  (Moves s a → QueuesOk s a (popsS [x]) [] →
    let u := takeS a x s
    let n := u.1.toNat
    let w := ofBytes (curBytes u.2 (partyOf a) (.kdm a.k) n 64)
    (n % 64 ≠ 0 → exec (.exqpost x) s = .next (trapTy a .misaligned s)) ∧
    (n % 64 = 0 → 0xFFC0 < n → exec (.exqpost x) s = .next (trapTy a .illegalOperand s)) ∧
    (n % 64 = 0 → n ≤ 0xFFC0 →
      ((coreAt s a.k).ks.pagerRun = .trap r → ∃ q, exec (.exqpost x) s = .next (postRec (modKs (retire a u.2) a.k fun ks => { ks with pagerRun := .idle }) q) ∧
        q.ty = r.ty ∧ q.token = r.token ∧ q.slot = r.slot ∧ q.who = r.who ∧ q.addr = w / 2 ^ 320 % 2 ^ 64 ∧ q.raw = w / 2 ^ 256 % 2 ^ 64 ∧ q.aux0 = w / 2 ^ 384 % 2 ^ 64 ∧
        q.aux1 = w / 2 ^ 448 % 2 ^ 64 ∧ q.rq = w / 2 ^ 144 % 2 ^ 16 ∧ q.cause = w / 2 ^ 88 % 2 ^ 8) ∧
      (∀ m d, (coreAt s a.k).ks.pagerRun = .request m d → exec (.exqpost x) s = .next (pagerFail s a.k 0 (pcOf s a) 2)))))

/-- R305, R306, R163: `tlbinv` takes the partition's entries, in mode 0 those that cover the address, out of the caches of its core, with PAGER the
pager's among them, and in mode 2 out of those of every core that runs the partition; `tlbfill` installs a leaf that is valid, well formed and not
denied. R307: `pgmap` gives 2 for a word that is no leaf, 0x101 or 0x102 where the table of level 1 or 2 has no valid pointer, and else 0 with the
entry swapped in: one of level 2 for a page of size 2, 32 of level 3 for size 1, one for size 0. That it walks from ROOT with no look at EN is the
model's reading (DEDUCED, log 32). R164 to R166, R175, R93 and `ovl` of 04: the oldest walk of a core ends, with its translation or without; an
acknowledgment frees a tag; the oldest overlay copy has written its words to its cluster's instruction memory. -/
def Obligations.Translations : Prop :=
  (∀ (s : State) (a : At) (x y : SOp) (mode : Fin 3) (pager : Bool) (target : Fin 4), Moves s a →
  (QueuesOk s a (popsS [x]) [] →
    let va := (takeS a x s).1.toNat
    let s0 := (takeS a x s).2
    let part := partAt s a.k
    let gone := fun (e : TlbE) => e.part = part ∧ (mode.val = 0 → covers e part va = true) ∧ (e.pg = true → pager = true)
    let swept := fun (o o' : Core) => ∀ e, (e ∈ o'.tlbK ↔ e ∈ o.tlbK ∧ ¬gone e) ∧ (e ∈ o'.tlbA ↔ e ∈ o.tlbA ∧ ¬gone e) ∧ (e ∈ o'.tlbM ↔ e ∈ o.tlbM ∧ ¬gone e) ∧
      (e ∈ o'.tlbC ↔ e ∈ o.tlbC ∧ ¬gone e)
    ∃ t, exec (.tlbinv x mode pager) s = .next (retire a t) ∧ swept (coreAt s0 a.k) (coreAt t a.k) ∧
      ∀ k, k ≠ a.k → (mode.val = 2 ∧ runsPart s part k = true → swept (coreAt s0 k) (coreAt t k)) ∧ (mode.val ≠ 2 ∨ runsPart s part k = false → coreAt t k = coreAt s0 k)) ∧
  (QueuesOk s a (popsS [x, y]) [] →
    let u := takeS a x s
    let v := takeS a y u.2
    let va := u.1.toNat
    let e := v.1.toNat
    let good := teV e = true ∧ teLeaf e = true ∧ leafMalformed e = false ∧ leafDenied e (isHostVa va) = false
    (¬good → exec (.tlbfill x y target) s = .next (trapTy a .illegalOperand s)) ∧
    let t : Tl := match target.val with | 0 => .k | 1 => .a | 2 => .m | _ => .c
    (good → exec (.tlbfill x y target) s = .next (retire a (tlInstall v.2 a.k t (mkTlb t (partAt s a.k) va e none)))))) ∧
  (∀ (s : State) (a : At) (d x y : SOp), Moves s a → QueuesOk s a (popsS [x, y]) (pushS d) →
  let u := takeS a x s
  let v := takeS a y u.2
  let va := u.1.toNat
  let e := v.1.toNat
  let s1 := v.2
  let part := partAt s a.k
  let gives := fun (st : Nat) (t : State) => exec (.pgmap d x y) s = .next (retire a (putS a d (BitVec.ofNat 64 st) t))
  let l1 := pointerTo (readEntry s1 (partyOf a) (fld (partRec s1 part).ptroot.toNat 13 35 * 2 ^ 13 + 8 * fld va 38 10)) (2 ^ 12)
  let bad := (teV e = false ∧ teSz e = 3) ∨ (teV e = true ∧ leafGood e va = false)
  (bad → gives 2 s1) ∧
  (¬bad → l1 = none → gives 0x101 s1) ∧
  (¬bad → ∀ t2, l1 = some t2 →
    let l2 := pointerTo (readEntry s1 (partyOf a) (t2 + 8 * fld va 29 9)) (2 ^ 16)
    (teSz e = 2 → gives 0 (swapEntries s1 (partyOf a) part (t2 + 8 * fld va 29 9) e 1)) ∧
    (teSz e ≠ 2 → l2 = none → gives 0x102 s1) ∧
    (∀ t3, l2 = some t3 → (teSz e = 1 → gives 0 (swapEntries s1 (partyOf a) part (t3 + 8 * (fld va 16 13 / 32 * 32)) e 32)) ∧
      (teSz e = 0 → gives 0 (swapEntries s1 (partyOf a) part (t3 + 8 * fld va 16 13) e 1))))) ∧
  (∀ (s : State) (k : Nat),
  let o := coreAt s k
  (o.walks = [] → exec (.tableWalkDone k) s = .next s) ∧
  (∀ w ws, o.walks = w :: ws →
    let s1 := modCore s k fun o => { o with walks := ws }
    let r := translate1 s1 k (walkTl k w.cache).1 (walkTl k w.cache).2 w.part w.va false
    (∀ s2 p, (regionOf w.va = .user ∨ regionOf w.va = .host) → r = (s2, .ok p) → exec (.tableWalkDone k) s = .next s2) ∧
    (∀ s2 e, r = (s2, .error e) → exec (.tableWalkDone k) s = .next s1)) ∧
  (∃ t, exec (.memoryResponse k .k) s = .next t ∧ coreAt t k = { o with tagsK := o.tagsK - 1 }) ∧ (∃ t, exec (.memoryResponse k .a) s = .next t ∧ coreAt t k = { o with tagsA := o.tagsA - 1 }) ∧
  (∃ t, exec (.memoryResponse k .copy) s = .next t ∧ coreAt t k = { o with tagsC := o.tagsC - 1 }) ∧
  (∃ t, exec (.memoryResponse k .fetch) s = .next t ∧ coreAt t k = { o with tagsF := o.tagsF - 1 }) ∧
  (o.ovl = [] → exec (.overlayLoadDone k) s = .next s) ∧
  ∀ l ls, o.ovl = l :: ls → ∃ t, exec (.overlayLoadDone k) s = .next t ∧ (coreAt t k).ovl = ls ∧ (∀ c, c ≠ l.cl → cluAt t k c = cluAt s k c) ∧
    ∀ i, sget 0 (cluAt t k l.cl).imem i = if l.base ≤ i ∧ i < l.base + l.words.length then l.words.getD (i - l.base) 0 else sget 0 (cluAt s k l.cl).imem i)

/-- R158, R247, R248, R268, R313: a request packet of a peer. One that is not for this device, or of another kind, does nothing; one with a bad
header, or without the partition's key, is dropped and counted; with every identity halted it is parked, or turned away when the park store is full;
else it is performed: a write puts its granules at their homes and is acknowledged, a read answers with the bytes there, a signal is applied at its
unit, and a range that does not translate comes back as a fault; a range that crosses into the scratchpad window is checked and performed in both of
its parts. One for a port that is shut, or that finds the device in L3, waits (R298, R302, R313, R390). That the write is performed for every party at
once, that a signal is acknowledged when it is applied, and that a core which has not started is shut are the model's readings (DEDUCED, logs 27, 60,
63 and 92). R159, R176, R248, R258, R268: an answer of a peer to a packet that waits for it. An acknowledgment parks it, discards it or completes it;
a read response and an atomic response bring data; a fault return is a record, or a packet to be sent again. What nothing waits for does nothing, and
one with a bad header is dropped and counted. A load's data go to its destination, a register or the entry that the load reserved (R109), and meter
512 LINK bytes and the bytes read; bytes that the party has read or written there in the phase are those it knows (R191). An atomic acquires with its
answer. Where the cause lies in the VALUE of a fault return is the model's choice (log 26). R158, R159, R247, R249, R268, R302, R392: no answer in
time is LINK_TIMEOUT, unless the packet is parked or waits at a port that is shut; a packet that a full park store turned away is sent again unless
its request is halted here, K's signal packet only to a device of the partition's set; credits come back; a bad flit is counted; a trigger flit of a
peer of the partition triggers. -/
def Obligations.Peers : Prop :=
  (∀ (s : State) (p : Packet),
  let part := p.part.toNat
  let op := fun (i : Instr) (n : BitVec 8) =>
    (p.dst ≠ s.dev.mydev ∨ (headerOk p = true ∧ p.op ≠ n) → exec i s = .next s) ∧
    (p.dst = s.dev.mydev → headerOk p = false → exec i s = .next (countDrop ((linkOf s p.src.toNat).getD 0) s)) ∧
    (p.op = n → p.dst = s.dev.mydev → headerOk p = true → p.src ≠ s.dev.mydev →
      ((partRec s part).live = false ∨ inSet s part p.src.toNat = false → exec i s = .next (countDrop ((linkOf s p.src.toNat).getD 0) s)) ∧
      ((partRec s part).live = true → inSet s part p.src.toNat = true → portShut s p = true ∨ s.dev.l3 = true →
        exec i s = .next { modDev s fun d => { d with hbmWaking := d.hbmWaking || d.l3 } with linkWait := s.linkWait ++ [p] }) ∧
      ((partRec s part).live = true → inSet s part p.src.toNat = true → portShut s p = false → s.dev.l3 = false →
        (allHalted s part (packetIds p) = true → s.park.length < 1024 → exec i s = .next (answerAck p 1 { s with park := s.park ++ [p] })) ∧
        (allHalted s part (packetIds p) = true → 1024 ≤ s.park.length → exec i s = .next (answerFault p .addrUnmapped 0xFF 0 s))))
  let runs := p.dst = s.dev.mydev ∧ headerOk p = true ∧ p.src ≠ s.dev.mydev ∧ (partRec s part).live = true ∧ inSet s part p.src.toNat = true ∧ portShut s p = false ∧ s.dev.l3 = false ∧
    allHalted s part (packetIds p) = false
  let n := p.len.toNat + 1
  let core := p.addr.toNat / 2 ^ 8 % 2 ^ 6
  (headerOk p = true ↔ 1 ≤ p.op.toNat ∧ p.op.toNat ≤ 9 ∧ p.rsv = 0) ∧
  op (.peerWrite p) 1 ∧ op (.peerReadRequest p) 2 ∧ op (.peerSignalWrite p) 4 ∧ op (.peerSignalAdd p) 5 ∧ op (.peerAtomicRequest p) 8 ∧
  (runs → p.op = 1 →
    (∀ f, (targetPlace s p (64 * n) true).2 = .error f → exec (.peerWrite p) s = .next (answerFault p f.ty f.cause 1 s)) ∧
    (∀ s1 ps, targetPlace s p (64 * n) true = (s1, .ok ps) → s1.dev.mydev = s.dev.mydev → p.byteen = 0 →
      exec (.peerWrite p) s = .next (answerAck p 0 (markGrans p ps (putHome s1 part ps (p.data.take (64 * n))))))) ∧
  (runs → p.op = 2 →
    (∀ f, (targetPlace s p (64 * n) false).2 = .error f → exec (.peerReadRequest p) s = .next (answerFault p f.ty f.cause 0 s)) ∧
    (∀ s1 ps, targetPlace s p (64 * n) false = (s1, .ok ps) → s1.dev.mydev = s.dev.mydev → ∃ bits, exec (.peerReadRequest p) s = .next (answer s1 { pktAnswer p 3 with
      data := ps.flatMap fun x => curBytes s1 (.peer p.src.toNat) x.1 x.2.1 x.2.2, len := p.len, poison := bits }))) ∧
  (runs → p.op = 4 ∨ p.op = 5 → let i := if p.op = 4 then Instr.peerSignalWrite p else .peerSignalAdd p
    (runsPart s part core = false → exec i s = .next (answerFault p .spadWindow 0 0 s)) ∧
    (runsPart s part core = true → exec i s = .next (answerAck p 0 (sigApply s core (p.addr.toNat % 2 ^ 8) (if p.op = 4 then .write else .add) p.value [])))) ∧
  (runs → p.op = 8 → ∀ r t, atomicFn (p.byteen.toNat % 2 ^ 8) = some r → atomicTy (p.byteen.toNat / 2 ^ 8 % 2 ^ 4) = some t →
    (∀ f, (targetPlace s p (etyW (atyE t) / 8) true).2 = .error f → exec (.peerAtomicRequest p) s = .next (answerFault p f.ty f.cause 0 s)) ∧
    (∀ s1 ps, targetPlace s p (etyW (atyE t) / 8) true = (s1, .ok ps) → s1.dev.mydev = s.dev.mydev →
      (piecesPoison s1 part ps = true → exec (.peerAtomicRequest p) s = .next (answer s1 { pktAnswer p 9 with poison := 1 })) ∧
      (piecesPoison s1 part ps = false → let h := atHome r t (.peer p.src.toNat) part (firstPiece ps).1 (firstPiece ps).2 p.value.toNat p.opnd2.toNat s1
        exec (.peerAtomicRequest p) s = .next (answer (emptySnap h.2.2 (.peer p.src.toNat)) { pktAnswer p 9 with value := BitVec.ofNat 64 h.1 })))) ∧
  (windowVa p.addr.toNat < 0x100000000 → ∀ m w, targetPlace s p m w = (s, .error ⟨.addrUnmapped, 0, windowVa p.addr.toNat⟩)) ∧
  ∀ m w, p.addr.toNat < 0x3F00000000 → 0x3F00000000 < p.addr.toNat + m → ∀ s1 ps s2 qs, targetRun s p p.addr.toNat (0x3F00000000 - p.addr.toNat) w = (s1, .ok ps) →
    targetRun s1 p 0x3F00000000 (m - (0x3F00000000 - p.addr.toNat)) w = (s2, .ok qs) → targetPlace s p m w = (s2, .ok (ps ++ qs))) ∧
  (∀ (s : State) (p : Packet),
  let own := takeOwn p s
  let drop := countDrop ((linkOf s p.src.toNat).getD 0) own
  let op := fun (i : Instr) (n : BitVec 8) (f : Out → State → State) =>
    (p.op ≠ n ∨ p.dst ≠ s.dev.mydev → exec i s = .next s) ∧
    (p.op = n → p.dst = s.dev.mydev → headerOk p = false → exec i s = .next drop ∧ exec (.peerAccessAnswer p) s = .next drop) ∧
    (p.op = n → p.dst = s.dev.mydev → headerOk p = true → (answered s p = none → exec i s = .next own) ∧ ∀ o, answered s p = some o → exec i s = .next (f o own) ∧
      (isAccess o = true → exec (.peerAccessAnswer p) s = .next (f o own)) ∧ (isAccess o = false → exec (.peerAccessAnswer p) s = .next s))
  let code := p.value.toNat % 2 ^ 8
  let late := fun (f : SOp) (k : Nat) (c : Cluster) (x : CtxK) (v : Word) (t : State) =>
    match f with
    | .x n => setX t ⟨k, c, x⟩ n.val v
    | .q n => modCore t k fun o => fillLate o (sq n) x (obsOf t (.cl k c x)) v
  (p.src ≠ s.dev.mydev → own = s) ∧
  op (.peerReadResponse p) 3 (fun o s => readDone o p s) ∧ op (.peerAtomicResponse p) 9 (fun o s => atomicDone o p s) ∧
  op (.peerAcknowledgment p) 6 (fun o s => if p.value = 1 then setOut o { o with parked := true } s else if p.value = 2 then discardOut o s else ackDone o s) ∧
  op (.peerFaultReturn p) 7 (fun o s => if code = 0xFF then setOut o { o with retry := true } s else failOut o (faultType p.value) code s) ∧
  (∀ (o : Out) (k : Nat) (c : Cluster) (x : CtxK) (wh addr raw n : Nat) (acq : Option Nat) (f : SOp) (t : Ety), o.why = .access k c x wh (.scalar f t) addr raw n acq → p.poison.getLsbD 0 = false →
    let met := settleHalt k (modCtx (meterOut o mLINK 512 (meterOut o mRD n (dropOut o s))) ⟨k, c, x⟩ fun t => { t with peerWait := false })
    let r := peerRead o (.cl k c x) (o.p.addr.toNat + addr % 64) ((p.data.drop (addr % 64)).take n) met
    readDone o p s = late f k c x (regOfElem t (ofBytes r.1)) r.2 ∧
    (o.p.dst = met.dev.mydev → r = ((p.data.drop (addr % 64)).take n, met))) ∧
  ∀ (o : Out) (k : Nat) (c : Cluster) (x : CtxK) (wh addr raw n : Nat) (acq : Option Nat) (f : SOp) (t : Ety), o.why = .access k c x wh (.scalar f t) addr raw n acq →
    p.poison.getLsbD 0 = false → atomicNew o.p p.value.toNat = none →
    let met := meterOut o mLINK 512 (meterOut o mRD n (dropOut o s))
    let seen := match acq with | some l => acquire met (.cl k c x) l | none => met
    atomicDone o p s = late f k c x (regOfElem t p.value.toNat) (settleHalt k (modCtx seen ⟨k, c, x⟩ fun t => { t with peerWait := false }))) ∧
  (∀ (s : State) (xid l n : Nat) (src : BitVec 8) (part : Nat) (tag : BitVec 32),
  let late := fun (o : Out) => o.sent && decide (o.why ≠ .answer) && o.p.xid.toNat == xid && !o.parked && !o.retry && o.stop.isNone && !(o.p.src == s.dev.mydev && !o.got && portShut s o.p)
  let used := (sget {} s.links l).used
  (s.out.find? late = none → exec (.linkTimeout xid) s = .next s) ∧ (∀ o, s.out.find? late = some o → exec (.linkTimeout xid) s = .next (failOut o .linkTimeout 0 s)) ∧
  (s.out.find? (fun o => o.retry && o.p.xid.toNat == xid) = none → exec (.parkStoreRetry xid) s = .next s) ∧
  (∀ o, s.out.find? (fun o => o.retry && o.p.xid.toNat == xid) = some o →
    (allStopped s o.p.part.toNat (packetIds o.p) = true → exec (.parkStoreRetry xid) s = .next s) ∧
    let gone := trySend (setOut o { o with sent := false, got := false, parked := false, retry := false, again := true, stop := none } s)
    (allStopped s o.p.part.toNat (packetIds o.p) = false → ((∀ k x wh rqi raw, o.why ≠ .pkt k x wh rqi raw) ∨ inSet s o.p.part.toNat o.p.dst.toNat = true) → exec (.parkStoreRetry xid) s = .next gone) ∧
    (allStopped s o.p.part.toNat (packetIds o.p) = false → ∀ k x wh rqi raw, o.why = .pkt k x wh rqi raw → inSet s o.p.part.toNat o.p.dst.toNat = false →
      let r := raise s (withLaunch s k { ty := .pageFault, cause := 3, core := k, wh := wh % 2 ^ 15, rq := rqi, raw := raw, who := .xid o.p.xid.toNat })
      exec (.parkStoreRetry xid) s = .next (setOut o { o with stop := some r.1, retry := false } r.2))) ∧
  exec (.linkCreditReturn l n false) s = .next (trySend { s with links := sput s.links l { sget {} s.links l with used := used - n } }) ∧
  (∃ out, exec (.linkCreditReturn l n true) s = .next (trySend { s with links := sput s.links l { sget {} s.links l with used := used - n }, out := out }) ∧
    ∀ o ∈ s.out, o.why ≠ .answer → o ∈ out) ∧
  (∃ t, exec (.linkFlitDrop l) s = .next t ∧ (sget {} t.links l).drops = (sget {} s.links l).drops + 1 ∧ (sget {} t.links l).used = used) ∧
  ((partRec s part).live = true → src ≠ s.dev.mydev → inSet s part src.toNat = true → exec (.linkTriggerFlit ⟨src, part⟩ tag) s = .next (trigger s tag.toNat).2) ∧
  ((partRec s part).live = false ∨ src = s.dev.mydev ∨ inSet s part src.toNat = false → exec (.linkTriggerFlit ⟨src, part⟩ tag) s = .next s))

/-- R392, R393, R395, R396: `winnow` triggers when the debug policy opens it: free banks latch an event with its number and tag, and the trigger of
latched ones is missed, up to 65 535; closed, it gives 0. `leaveq` gives the core's leave units, the limit and SCALE. R302, R387, R389: halts, the
debug policy, and the trace ring. A halt bit that the policy closes keeps its value; a halt that meets a pre-emption waits for the resume, and one
that comes while results of the core are on their way takes effect when the last has come (R108; that the halt waits is the model's reading, DEDUCED,
log 101); with a halt over, what was parked for the core's port is performed; a policy needs the partition's nonce and a signature of the tenant whose
key a session carried. R199, R281, R282, R383, R386, R393: the host's registers and its memory writes. A ring descriptor takes its fields while the
ring is closed; the id cannot change while a partition lives; WINNOWCTL stores its fields, releases the banks, then fires; a write to memory puts its
bytes there, and in L3 one to HBM, with those behind it, waits in its order for the wake. That RELEASE comes before FIRE, and that near stores' writes
wait behind one to a sleeping HBM, are the model's readings (DEDUCED, logs 65 and 98). -/
def Obligations.HostAndDebug : Prop :=
  (∀ (s : State) (a : At) (d x : SOp), Moves s a →
  (QueuesOk s a (popsS [x]) (pushS d) →
    let u := takeS a x s
    let open' := (partRec s (partAt s a.k)).policy.getLsbD 1
    (open' = false → exec (.winnow d x) s = .next (retire a (putS a d 0 u.2))) ∧
    (open' = true → exec (.winnow d x) s = .next (retire a (putS a d (BitVec.ofNat 64 (trigger u.2 (u.1.toNat % 2 ^ 32)).1) (trigger u.2 (u.1.toNat % 2 ^ 32)).2)))) ∧
  (QueuesOk s a [] (pushS d) → ∃ w : Word, exec (.leaveq d) s = .next (retire a (putS a d w s)) ∧ w.toNat / 2 ^ 12 % 2 ^ 12 = leaveHeld (coreAt s a.k) % 2 ^ 12 ∧
    w.toNat / 2 ^ 24 % 2 ^ 12 = supply s a.k % 2 ^ 12 ∧ w.toNat / 2 ^ 36 % 2 ^ 12 = (coreAt s a.k).pwrlimit.toNat ∧ w.toNat / 2 ^ 48 = (s.dev.scale - 1) % 2 ^ 4) ∧
  ∀ tag, let r := trigger s tag
    (∀ b, s.dev.win.bank = some b → r.1 = 0 ∧ r.2.dev.win.bank = some b ∧ r.2.dev.win.event = s.dev.win.event ∧ r.2.dev.win.missed.toNat = min 65535 (s.dev.win.missed.toNat + 1)) ∧
    (s.dev.win.bank = none → r.1 = (s.dev.win.event + 1).toNat ∧ r.2.dev.win.event = s.dev.win.event + 1 ∧ (s.dev.win.fwd = false → r.2.flits = s.flits) ∧ r.2.cores = s.cores ∧
      ∃ b, r.2.dev.win.bank = some b ∧ b.event = r.1 ∧ b.tag = tag % 2 ^ 32 ∧ b.cores = s.cores ∧ b.rq = s.rq ∧ b.thr = s.thr ∧ b.links = s.links)) ∧
  (∀ (s : State) (part k nonce sig : Nat) (quiet porous : Bool) (bits : BitVec 5) (v : BitVec 64),
  let p := partRec s part
  let o := coreAt s k
  let can := hostCan s part = true ∧ p.cmask.getLsbD k = true ∧ (p.policy.getLsbD 3 = true ∨ p.policy.getLsbD 4 = true)
  let q := if p.policy.getLsbD 3 = true then quiet else o.dbgQuiet
  let r := if p.policy.getLsbD 4 = true then porous else o.dbgPorous
  (¬can → exec (.debugHaltWrite part k quiet porous) s = .next s) ∧
  let wait := o.preempt = true ∨ (o.dbgQuiet = false ∧ o.dbgPorous = false ∧ resultOut s k (fun _ x => x != .pager) = true)
  (can → wait → q = true ∨ r = true → ∃ t, exec (.debugHaltWrite part k quiet porous) s = .next t ∧ coreAt t k = { o with dbgNext := some (q, r) } ∧
    (∀ j, j ≠ k → coreAt t j = coreAt s j)) ∧
  (o.dbgNext = none → settleHalt k s = s) ∧
  (∀ q r, o.dbgNext = some (q, r) → (o.preempt = true ∨ resultOut s k (fun _ x => x != .pager) = true → settleHalt k s = s) ∧
    (o.preempt = false → resultOut s k (fun _ x => x != .pager) = false → let t := settleHalt k s
      (coreAt t k).dbgQuiet = q ∧ (coreAt t k).dbgPorous = r ∧ (coreAt t k).dbgNext = none ∧ ∀ j, j ≠ k → coreAt t j = coreAt s j)) ∧
  (can → ¬wait ∨ (q = false ∧ r = false) → ∃ t, exec (.debugHaltWrite part k quiet porous) s = .next (unpark t) ∧ (s.park = [] → s.linkWait = [] → unpark t = t) ∧
    (coreAt t k).dbgQuiet = q ∧ (coreAt t k).dbgPorous = r ∧ (∀ j, j ≠ k → coreAt t j = coreAt s j)) ∧
  (∀ key, hostCan s part = true → nonce = p.nonce → p.tenant = some key → Config.sigOk key (bits.toNat + 2 ^ 8 * (nonce % 2 ^ 64)) sig = true →
    exec (.debugPolicyUpload part bits nonce sig) s = .next (modPart s part fun p => { p with policy := bits })) ∧
  (hostCan s part = false ∨ nonce ≠ p.nonce ∨ (∀ key, p.tenant = some key → Config.sigOk key (bits.toNat + 2 ^ 8 * (nonce % 2 ^ 64)) sig = false) → exec (.debugPolicyUpload part bits nonce sig) s = .next s) ∧
  (∀ b, hostCan s part = false → exec (.traceRingConfig part b v) s = .next s) ∧
  (hostCan s part = true → exec (.traceRingConfig part true v) s = .next (modPart s part fun p => { p with trlog := v.toNat % 32, trwr := 0, trrd := 0 }) ∧
    exec (.traceRingConfig part false v) s = .next (modPart s part fun p => { p with trbase := v.toNat / 4096 * 4096, trwr := 0, trrd := 0 }))) ∧
  (∀ (s : State) (r k part d : Nat) (v : BitVec 64) (id : BitVec 8),
  let n := v.toNat
  let refused := modRing s r fun g => { g with refused := g.refused + 1 }
  let field := fun (h : HReg) (f : Ring → Ring) => (hostCan s (r / 64) = false → exec (.registerWrite h v) s = .next s) ∧
    (hostCan s (r / 64) = true → ((ringAt s r).state = 0 → exec (.registerWrite h v) s = .next (modRing s r f)) ∧ ((ringAt s r).state ≠ 0 → exec (.registerWrite h v) s = .next refused))
  field (.ringSaveBase r) (fun g => { g with savebase := n }) ∧ field (.ringSaveStride r) (fun g => { g with savestride := n % 2 ^ 32 }) ∧
  field (.ringQuantum r) (fun g => { g with quantum := n % 2 ^ 32 }) ∧ field (.ringRdMirror r) (fun g => { g with rdmirror := n }) ∧
  field (.ringExqBase r) (fun g => { g with exqbase := n }) ∧ field (.ringBase r) (fun g => { g with ringbase := n }) ∧ field (.ringDie r) (fun g => { g with die := n % 2 }) ∧
  field (.ringExqLog r) (fun g => { g with exqlog := n % 32 }) ∧ field (.ringLog r) (fun g => { g with ringlog := n % 32 }) ∧
  field (.ringPart r) (fun g => { g with dpart := n % 16 }) ∧ field (.ringLocal r) (fun g => { g with dlocal := n % 64 }) ∧
  (hostCan s (r / 64) = true → exec (.registerWrite (.ringAnswer r) v) s = .next (modRing s r fun g => { g with ignored := g.ignored + 1 })) ∧
  (n % 16 = 1 → exec (.registerWrite (.ringState r) v) s = exec (.ringOpen r) s) ∧ (n % 16 = 3 → exec (.registerWrite (.ringState r) v) s = exec (.ringClose r) s) ∧
  (hostCan s (r / 64) = true → (n % 16 ≠ 1 → n % 16 ≠ 3 → exec (.registerWrite (.ringState r) v) s = .next refused) ∧ exec (.registerWrite (.ringReadOnly r) v) s = .next refused) ∧
  (d < 256 → ∃ t, exec (.registerWrite (.route d) v) s = .next t ∧ sget 0 t.dev.route d = BitVec.ofNat 8 n &&& 0x8F ∧ ∀ j, j ≠ d → sget 0 t.dev.route j = sget 0 s.dev.route j) ∧
  (k < 64 → ∃ t, exec (.registerWrite (.pwrlimit k) v) s = .next t ∧ coreAt t k = { coreAt s k with pwrlimit := BitVec.ofNat 12 n }) ∧
  (hostCan s part = true → ∃ t, exec (.registerWrite (.trrd part) v) s = .next t ∧ partRec t part = { partRec s part with trrd := n }) ∧
  exec (.registerWrite .readOnly v) s = .next s ∧
  (let win := fun (rel : Bool) => modDev s fun x => { x with win := { x.win with fwd := v.getLsbD 61, faults := BitVec.ofNat 28 (n / 2 ^ 32), bank := if rel = true then none else x.win.bank } }
   exec (.registerWrite .winnowctl v) s = .next (win false) ∧ exec (.winnowFire v) s = .next (trigger (win (v.getLsbD 62)) 0).2 ∧
   exec (.winnowRelease v) s = .next (if v.getLsbD 63 = true then (trigger (win true) 0).2 else win true)) ∧
  ((∃ e ∈ s.parts, e.2.live = true) → exec (.mydevset id) s = .next s) ∧ ((∀ e ∈ s.parts, e.2.live = false) → exec (.mydevset id) s = .next (modDev s fun x => { x with mydev := id })) ∧
  ∀ (ad : Nat) (bs : List Byte),
    (∀ sp, sp ≠ .host → (sp = .dram ∧ s.dev.l3 = true) ∨ s.hostWait ≠ [] → ∃ t, exec (.hostMemoryWrite sp ad bs) s = .next t ∧ t.hostWait = s.hostWait ++ [(sp, ad, bs)] ∧
      t.dev.hbmWaking = (s.dev.hbmWaking || s.dev.l3) ∧ t.dram = s.dram ∧ t.near = s.near) ∧
    (s.dev.hbmWaking = true → exec (.wakeLatencyExpiry none) s = .next (unpark (s.hostWait.foldl hostWrite (modDev { s with hostWait := [] } fun x => { x with hbmWaking := false, l3 := false })))) ∧
    (s.dev.l3 = false → s.hostWait = [] → exec (.hostMemoryWrite .dram ad bs) s = .next (hostWrite s (.dram, ad, bs))) ∧
    (s.dev.l3 = false → s.hostWait = [] → ad + bs.length ≤ dramBytes → ∃ t, exec (.hostMemoryWrite .dram ad bs) s = .next t ∧ (∀ i (h : i < bs.length), homeByte t .dram (ad + i) = bs[i]) ∧
      ∀ j, j < ad ∨ ad + bs.length ≤ j → homeByte t .dram j = homeByte s .dram j) ∧
    (s.hostWait = [] → ad + bs.length ≤ nearBytes → ∃ t, exec (.hostMemoryWrite .near ad bs) s = .next t ∧ ∀ i (h : i < bs.length), homeByte t .near (ad + i) = bs[i]) ∧
    ∃ t, exec (.hostMemoryWrite .host ad bs) s = .next t ∧ ∀ i (h : i < bs.length), homeByte t .host (ad + i) = bs[i])

/-- R383, R384: the commands of a creation block, and TDISP. A creation is refused when the partition lives, a reserved bit is set, RQQUOTA is 0 or a
core or function belongs to another; a destruction aborts the launches. That this list of refusals is whole, so that an RQQUOTA above 16384 is taken,
is the model's reading (DEDUCED, log 69). R385, R388 (with the order of log entry 38, the model's choice): a function that is not bound does not
answer; a request out of turn is answered with an error, and in its turn as its name says; the end of a key exchange with a bound function gives its
partition the tenant's key, and with a peer device the link keys of the partitions that name it and that its own partitions name; a new exchange ends
an open session, whose link keys go. R9, R219, R385, R390, R391: firmware images, the power windows, leave grants, waking, sleep and device reset.
SCALE falls by one when a window was above the sustained power, rises by one below 95 % of it, and halves at a peak; a core that has woken is in L0;
device reset keeps host memory, and gives every other field its value in State.reset, some of which are the model's choice (DESIGN CHOICE, logs 2 and
8). -/
def Obligations.PartitionsAndPower : Prop :=
  (∀ (s : State) (addr : BitVec 64) (vf q : Nat),
  let b := readBlock s addr.toNat
  let part := b / 2 ^ 4 % 2 ^ 4
  let p := partRec s part
  let stat := fun (n : Nat) (s : State) => modDev s fun d => { d with partstat := BitVec.ofNat 8 (part + 16 * n) }
  let bad := p.live = true ∨ b / 2 ^ 8 % 2 ^ 72 ≠ 0 ∨ b / 2 ^ 80 % 2 ^ 16 = 0 ∨ ∃ e ∈ s.parts, e.2.live = true ∧ e.1 ≠ part ∧
    (e.2.cmask &&& BitVec.ofNat 64 (b / 2 ^ 128) ≠ 0 ∨ e.2.vfmask &&& BitVec.ofNat 64 (b / 2 ^ 448) ≠ 0)
  (b % 16 ≠ 1 → exec (.partitionCreate addr) s = .next s) ∧ (b % 16 ≠ 2 → exec (.partitionDestroy addr) s = .next s) ∧ (b % 16 ≠ 3 → exec (.partitionSetPlat addr) s = .next s) ∧
  (b % 16 = 1 → bad → exec (.partitionCreate addr) s = .next (stat 2 s)) ∧
  (b % 16 = 1 → ¬bad → ∃ t, exec (.partitionCreate addr) s = .next t ∧ t.dev.partstat = BitVec.ofNat 8 part ∧ (∀ j, j ≠ part → partRec t j = partRec s j) ∧
    let n := partRec t part
    n.live = true ∧ n.dying = false ∧ n.cmask = BitVec.ofNat 64 (b / 2 ^ 128) ∧ n.vfmask = BitVec.ofNat 64 (b / 2 ^ 448) ∧ n.devset = BitVec.ofNat 256 (b / 2 ^ 192) ∧
    n.plat = b / 2 ^ 96 % 2 ^ 32 ∧ n.quota = b / 2 ^ 80 % 2 ^ 16 ∧ n.policy = 0 ∧ n.tenant = none ∧ n.block = b) ∧
  (b % 16 = 2 → p.live = false → exec (.partitionDestroy addr) s = .next (stat 2 s)) ∧
  (b % 16 = 2 → p.live = true → ∃ t, exec (.partitionDestroy addr) s = .next t ∧ ((partRec t part).dying = true ∨ (partRec t part).live = false) ∧ ∀ l ∈ t.launches, l.part = part → l.killed = true) ∧
  (b % 16 = 3 → p.live = false → exec (.partitionSetPlat addr) s = .next (stat 2 s)) ∧
  (b % 16 = 3 → p.live = true → exec (.partitionSetPlat addr) s = .next (stat 0 (modPart s part fun p => { p with plat := b / 2 ^ 96 % 2 ^ 32 }))) ∧
  (vf < 64 → (partRec s q).live = true → (partRec s q).vfmask.getLsbD vf = true → ∃ t, exec (.tdispRequest vf q) s = .next t ∧ slook t.dev.vfs vf = some q ∧ hostCan t q = true) ∧
  (64 ≤ vf ∨ (partRec s q).live = false ∨ (partRec s q).vfmask.getLsbD vf = false → exec (.tdispRequest vf q) s = .next s)) ∧
  (∀ (s : State) (fn nonce key : Nat) (peer : Option (BitVec 8)) (names : BitVec 16),
  let up := fn = 0 ∨ (slook s.dev.vfs (fn - 1)).isSome = true
  let x := sget {} s.dev.spdm fn
  let say := fun (n : Spdm) (r : SpdmResp) => modDev s fun d => { d with spdm := sput d.spdm fn n, spdmOut := d.spdmOut ++ [(fn, r)] }
  let req := fun (i : Instr) (turn : Bool) (go : State) => (¬up → exec i s = .next s) ∧ (up → turn = true → exec i s = .next go) ∧
    (up → turn = false → exec i s = .next (modDev s fun d => { d with spdmOut := d.spdmOut ++ [(fn, .error)] }))
  let ends := fun (i : Instr) (turn : Bool) (n : Spdm) (r : SpdmResp) => ∃ t, req i turn t ∧ sget {} t.dev.spdm fn = n ∧ t.dev.spdmOut = s.dev.spdmOut ++ [(fn, r)] ∧
    (∀ d, x.peer = some d → x.session = true → ∀ e, e ∈ t.dev.linkKeys ↔ e ∈ s.dev.linkKeys ∧ e.2 ≠ d) ∧ (x.peer = none ∨ x.session = false → t.dev.linkKeys = s.dev.linkKeys)
  ends (.spdmGetVersion fn) true { ver := true } .version ∧
  req (.spdmGetCapabilities fn) x.ver (say { x with caps := true } .capabilities) ∧ req (.spdmNegotiateAlgorithms fn) x.caps (say { x with algs := true } .algorithms) ∧
  req (.spdmGetDigests fn) x.algs (say x .digests) ∧ req (.spdmGetCertificate fn) x.algs (say x .certificate) ∧
  req (.spdmChallenge fn nonce) x.algs (say x (.challengeAuth nonce (measureBlocks s fn))) ∧ req (.spdmGetMeasurements fn nonce) x.algs (say x (.measurements nonce (measureBlocks s fn))) ∧
  ends (.spdmKeyExchange fn peer key) x.algs { x with keyex := true, session := false, peer := peer.map (·.toNat), key := key } .keyExchange ∧
  (∃ t, req (.spdmFinish ⟨fn, names⟩) x.keyex t ∧ (sget {} t.dev.spdm fn).session = true ∧ t.dev.spdmOut = s.dev.spdmOut ++ [(fn, .finish)] ∧
    (∀ p, x.peer = none → fn ≠ 0 → slook s.dev.vfs (fn - 1) = some p → (partRec t p).tenant = some x.key) ∧
    (∀ d, x.peer = some d → ∀ p d', (p, d') ∈ t.dev.linkKeys ↔ (p, d') ∈ s.dev.linkKeys ∨
      (d' = d ∧ names.getLsbD p = true ∧ ∃ e ∈ s.parts, e.1 = p ∧ e.2.live = true ∧ e.2.devset.getLsbD d = true))) ∧
  ∃ t, req (.spdmEndSession fn) x.session t ∧ (sget {} t.dev.spdm fn).session = false ∧ ∀ d, x.peer = some d → x.session = true → ∀ e ∈ t.dev.linkKeys, e.2 ≠ d) ∧
  (∀ (s : State) (image sig mw k : Nat),
  let lim := Config.sustained s.dev.modForm
  let sc := s.dev.scale
  (Config.sigOk 0 image sig = true → exec (.firmwareImageLoad true image sig) s = .next (modDev s fun d => { d with fwRun := image }) ∧
    exec (.firmwareImageLoad false image sig) s = .next (modDev s fun d => { d with fwBoot := image })) ∧
  (Config.sigOk 0 image sig = false → ∀ r, exec (.firmwareImageLoad r image sig) s = .next s) ∧
  (∃ t, exec (.powerWindowEnd mw) s = .next t ∧ t.dev.lastPower = mw ∧ (lim < mw → 1 < sc → t.dev.scale = sc - 1) ∧ (lim < mw → sc = 1 → t.dev.scale = 1) ∧
    (mw * 100 < 95 * lim → sc < 16 → t.dev.scale = sc + 1) ∧ (mw ≤ lim → 95 * lim ≤ mw * 100 → t.dev.scale = sc) ∧ (mw ≤ lim → 16 ≤ sc → t.dev.scale = sc) ∧ t.cores = s.cores) ∧
  (∃ t, exec .powerPeakExceeded s = .next t ∧ t.dev.scale = max 1 (sc / 2) ∧ t.cores = s.cores) ∧
  (arbiter s k = none → exec (.leaveGrant k) s = .next s) ∧
  (∀ q w, arbiter s k = some q → headOf s k q = some w →
    (mKind w = .go → (coreAt s k).frozen = false → (coreAt s k).dbgQuiet = false → (coreAt s k).dbgPorous = false → exec (.leaveGrant k) s = .next (goHead k q s)) ∧
    (mKind w ≠ .go → exec (.leaveGrant k) s = .next s)) ∧
  ((coreAt s k).waking = true → ∃ t, exec (.wakeLatencyExpiry (some k)) s = .next t ∧ coreAt t k = { coreAt s k with waking := false, pwr := .l0 }) ∧
  ((coreAt s k).waking = false → exec (.wakeLatencyExpiry (some k)) s = .next s) ∧
  (s.dev.hbmWaking = true → s.hostWait = [] → s.park = [] → s.linkWait = [] → exec (.wakeLatencyExpiry none) s = .next (modDev s fun d => { d with hbmWaking := false, l3 := false })) ∧
  (s.dev.hbmWaking = false → exec (.wakeLatencyExpiry none) s = .next s) ∧
  ((∀ j < 64, (coreAt s j).inst = none ∧ (coreAt s j).pwr = .l2) → (∀ e ∈ s.parts, e.2.live = true → 400 ≤ e.2.plat) → s.out = [] → s.hostWait = [] → s.linkWait = [] → s.shMsgs = [] → (∀ e ∈ s.thr, e.2.cmds = []) →
    exec .deviceEnterL3 s = .next (modDev s fun d => { d with l3 := true })) ∧
  ((∃ j < 64, (coreAt s j).inst ≠ none) ∨ (∃ e ∈ s.parts, e.2.live = true ∧ e.2.plat < 400) ∨ s.out ≠ [] ∨ s.linkWait ≠ [] → exec .deviceEnterL3 s = .next s) ∧
  ∃ t, exec .deviceReset s = .next t ∧ (∀ a, homeByte t .host a = homeByte s .host a) ∧
    { t with pages := [] } = { State.reset with
      hostmem := s.hostmem, agenda := s.agenda, dev := { State.reset.dev with modForm := s.dev.modForm, fwBoot := s.dev.fwBoot, fwRun := s.dev.fwRun, nextEpoch := s.dev.nextEpoch } })

/-- R31, R103, R112 to R120: what the scalar instructions leave alone. Nothing changes but the destination, the queues that the syllable pops or
pushes, its own program counter and loop levels, and ISSUE; no byte of memory, no other core, no special register. R121, R122, R146, R147: the
predicate and mask instructions and `nop` leave everything else alone. R84, R124, R125, R127: what the vector instructions leave alone: every register
but those of the destination group, every mask but a `vcmp`'s. -/
def Obligations.SyllableFrames : Prop :=
  (∀ (d x y z : SOp) (e : Fin 64) (p : Fin 16) (neg : Bool) (imm : BitVec 16) (k l : BitVec 6) (j : BitVec 26) (c : Fin 4) (t : FTy) (u v : Ety) (rz : Bool) (fc : FCond),
  (∀ i ∈ [Instr.add d x y, .sub d x y, .and d x y, .or d x y, .xor d x y, .andn d x y, .shl d x y, .shr d x y, .sra d x y, .rot d x y, .min d x y, .max d x y, .minu d x y,
      .maxu d x y, .mul d x y, .mulh d x y, .mulhu d x y, .div d x y, .divu d x y, .rem d x y, .remu d x y, .clz d x, .popc d x, .ctz d x, .addImm d x imm, .subImm d x imm,
      .andImm d x imm, .orImm d x imm, .xorImm d x imm, .andnImm d x imm, .shlImm d x imm, .shrImm d x imm, .sraImm d x imm, .rotImm d x imm, .minImm d x imm, .maxImm d x imm,
      .minuImm d x imm, .maxuImm d x imm, .bfxS d x k l, .bfxU d x k l, .li d j, .sel d x y p neg, .fadd t d x y, .fsub t d x y, .fmul t d x y, .fma t d x y z, .fmin t d x y,
      .fmax t d x y, .fcvt u v rz d x, .ptox d], Framed i (popsS [x, y, z] ++ pushS d) (dstS d) [] (fun _ _ => []) []) ∧
  (∀ i ∈ [Instr.bfi e x k l, .lih e c imm], Framed i (popsS [x]) [e.val] [] (fun _ _ => []) []) ∧
  ∀ i ∈ [Instr.cmpEq p x y, .cmpNe p x y, .cmpLt p x y, .cmpGe p x y, .cmpLtu p x y, .cmpGeu p x y, .cmpEqImm p x imm, .cmpNeImm p x imm, .cmpLtImm p x imm, .cmpGeImm p x imm,
      .cmpLtuImm p x imm, .cmpGeuImm p x imm, .fcmp t fc p x y], Framed i (popsS [x, y]) [] [p.val] (fun _ _ => []) []) ∧
  (∀ (p q r : Fin 16) (d x : SOp),
  (∀ i ∈ [Instr.pand p q r, .por p q r, .pxor p q r, .pandn p q r, .pnot p q, .pmov p q], Framed i [] [] [p.val] (fun _ _ => []) []) ∧
  (∀ i ∈ [Instr.mand p q r, .mor p q r, .mxor p q r, .mandn p q r, .mnot p q, .mmov p q], Framed i [] [] [] (fun _ _ => []) [p.val]) ∧
  Framed (.xtop x) (popsS [x]) [] (List.range 16) (fun _ _ => []) [] ∧ Framed (.mpopc d q) (pushS d) (dstS d) [] (fun _ _ => []) [] ∧ Framed .nop [] [] [] (fun _ _ => []) []) ∧
  (∀ (t dt : Ety) (f : FTy) (sat rz : Bool) (m : VMask) (d x y z : VOp) (r : Fin 640) (ms mk : Fin 16) (c : VCond) (e w : SOp) (imm : BitVec 16) (o : RedOp) (pt : Pat)
    (xi : XSrc) (oth blk : BitVec 2),
  let one := fun (s : State) (a : At) => dstV s a 1 d
  (∀ i ∈ [Instr.vadd t sat m d x y, .vsub t sat m d x y, .vmul t sat m d x y, .vfma f m d x y z, .vmin t m d x y, .vmax t m d x y, .vabs t sat m d x, .vneg t sat m d x,
      .vaddImm t d x imm, .vsubImm t d x imm, .vmulImm t d x imm, .vminImm t d x imm, .vmaxImm t d x imm, .vand t m d x y, .vor t m d x y, .vxor t m d x y, .vandn t m d x y,
      .vshl t m d x y, .vshr t m d x y, .vsra t m d x y, .vmulh t m d x y, .vbcast t m d e, .vbcastImm t d imm, .vsel t mk d x y, .vmov d x, .vcvt dt t rz m d x, .vnarrow dt t rz m d x,
      .vred t o m d x, .vscan t o m d x, .vperm t m d x y, .vshuf t pt m d x y, .vxl t m d x y xi, .vcompress t m d x, .vexpand t m d x, .vexp f m d x, .vln f m d x, .vrcp f m d x,
      .vrsq f m d x, .vsig f m d x, .vlut t m d x y], Framed i (portV 1 d ++ portV 1 x ++ portV 1 y ++ portV 1 z ++ popsS [e] ++ popsX xi) [] [] one []) ∧
  Framed (.vwiden dt t rz m d x) (portV 1 d ++ portV 1 x) [] [] (fun s a => dstV s a (etyW dt / etyW t) d) [] ∧
  Framed (.vcvts dt oth blk d x y e) (portV 1 d ++ portV 1 x ++ portV 1 y ++ popsS [e]) [] [] (fun s a => dstV s a (match etyF dt with | some g => fW g / 8 | none => 1) d) [] ∧
  Framed (.vins t r e xi) (popsS [e] ++ popsX xi) [] [] (fun s a => dstV s a 1 (.v r)) [] ∧ Framed (.vcmp t c m ms x y) (portV 1 x ++ portV 1 y) [] [] (fun _ _ => []) [ms.val] ∧
  Framed (.vext t w x xi) (portV 1 x ++ popsX xi ++ pushS w) (dstS w) [] (fun _ _ => []) [] ∧ Framed (.vnanscan t m w x) (portV 1 x ++ pushS w) (dstS w) [] (fun _ _ => []) [])

/-- R9 and the reset columns of R318, R384, R386, R393: what reset leaves. No partition, launch, request or packet; SHEAFDOWN, MYDEV, PARTSTAT and
WINNOWCTL 0, no route; PWRLIMIT 4095 in every core; every barrier free; every ring pair closed with all of its descriptor 0; the memories are in
canonical form. -/
def Obligations.ResetState : Prop :=
  let s := State.reset
  s.memOk = true ∧ s.dev.mydev = 0 ∧ s.dev.sheafdown = 0 ∧ s.dev.partstat = 0 ∧ (∀ d, sget 0 s.dev.route d = 0) ∧ s.dev.win = {} ∧ s.launches = [] ∧ s.out = [] ∧ s.park = [] ∧
  (∀ p, (partRec s p).live = false ∧ hostCan s p = false) ∧ (∀ id, (rqAt s id).st = .free) ∧ (∀ k, (coreAt s k).pwrlimit = 4095 ∧ (coreAt s k).inst = none) ∧
  (∀ b, (barAt s b).owner = 0x1F ∧ (barAt s b).mask = 0 ∧ (barAt s b).expect = 0 ∧ (barAt s b).arrived = 0 ∧ (barAt s b).arrmask = 0 ∧ (barAt s b).next = 0 ∧ (barAt s b).gen = 0) ∧
  ∀ r, ringAt s r = {}

/-- Every step keeps device memory, the near stores and host memory in canonical form. -/
def Obligations.MemoryKept : Prop :=
  ∀ s t, s.memOk = true → step s = .next t → t.memOk = true

/-- R22, R36, R39, R43: decoding the word of a well-formed syllable gives it back, guard and sync bit and every operand, and so does decoding a
well-formed engine word. -/
def Obligations.RoundTrip : Prop :=
  (∀ (y : Syl) (w : Nat), y.i.wf = true → (y.i ≠ .safept → y.id = 0) → encodeSyl y = some w → w < 2 ^ 64 ∧ decodeWith none w = .ok y) ∧
  (∀ (i : Instr) (n w : Nat), i.wf = true → encode i = some (n, w) → (n = 64 ∨ n = 48) ∧ w < 2 ^ n ∧ decodeTableWord n w = some i) ∧
  ∀ (y : Syl) (e : Nat × Nat), encode y.i = some e → e.1 = 64 → (encodeSyl y).isSome = true

/-- R36, R39, R45: a word has one meaning: whatever decodes is the encoding of what it decodes to, so reserved fields are checked, and a cluster that
may execute it reads it as every other does. -/
def Obligations.WordsHaveOneMeaning : Prop :=
  (∀ (w : Nat) (y : Syl), w < 2 ^ 64 → decodeWith none w = .ok y → encodeSyl y = some w) ∧ (∀ (w : Nat) (i : Instr), w < 2 ^ 48 → decodeEWord w = some i → encode i = some (48, w)) ∧
  ∀ (w : Nat) (y : Syl) (c : Cluster) (p : Bool), decodeWith (some (c, p)) w = .ok y → decodeWith none w = .ok y

/-- R22, R39, R43 and the worked encodings of 02, 07, 08, 09, 10, 11, 14, 16, 18 and 20: words decode to the instructions that they stand for. -/
def Obligations.DecodedWords : Prop :=
  decodeTableWord 64 0x0004000003FFFFFD = some (.br 0x3FFFFFD) ∧ decodeTableWord 64 0x0040005018070000 = some (.add (.x 5) (.x 6) (.x 7)) ∧
  decodeTableWord 64 0x005C805000004920 = some (.lih 5 2 0x4920) ∧ decodeTableWord 64 0xCE0200AFC3F10000 = some (.vadd .fp32 false none (.v 10) (.q 0) (.q 1)) ∧
  decodeTableWord 64 0x025E003010050002 = some (.vcmp .fp32 .lt none 3 (.v 4) (.v 5)) ∧ decodeTableWord 64 0x00CABF0018070200 = some (.ldq .bf16 0 (.x 6) (.x 7) 512) ∧
  decodeTableWord 64 0x0107403010054C00 = some (.amoAdd .i64 .dv .rel (.x 3) (.x 4) (.x 5)) ∧ decodeTableWord 64 0x01880000280B003F = some (.rqrow (.x 10) (.x 11) 63) ∧
  decodeTableWord 64 0x01C400300004080C = some (.waits .geu (.x 3) 12 (.x 4)) ∧ decodeTableWord 64 0x030800A02C0C002D = some (.dtx 1 true 5 (.v 10) (.v 11) (.v 12)) ∧
  decodeTableWord 64 0x03440030280B0000 = some (.mst (.x 3) (.x 10) (.x 11)) ∧ decodeTableWord 48 0x090060200000 = some (.mGo 96 false false true false) ∧
  decodeTableWord 48 0x440E90000000 = some (.cSwz true 3 2 8) ∧ decodeTableWord 48 0x8302399A0007 = some (.tMerge 0 4 14746 7) ∧ decodeTableWord 48 0x492000000001 = none
end

