-- ==== Sys2Proof/Laws/Sparse.lean ====
section
/-! SUPPORT. Finite maps: reading after writing, and the canonical form that every operation keeps. -/

namespace Sys2Proof.Machine

variable {α : Type}

@[simp] theorem sget_nil (d : α) (k : Nat) : sget d [] k = d := rfl
theorem sget_serase (d : α) (m : Sparse α) (k j : Nat) : sget d (serase m k) j = if j = k then d else sget d m j := by
  induction m with
  | nil => simp [serase]
  | cons e m ih =>
    obtain ⟨i, v⟩ := e
    by_cases hk : k = i
    · subst hk; simp only [serase, if_true, ih, sget]; split <;> simp_all
    · simp only [serase, hk, if_false, sget, ih]
      by_cases hj : j = i
      · subst hj; have : ¬ j = k := fun h => hk h.symm
        simp [this]
      · simp [hj]
theorem sabove_trans {k l : Nat} (hkl : k ≤ l) (m : Sparse α) (h : sabove l m = true) : sabove k m = true := by
  induction m with
  | nil => rfl
  | cons e m ih => obtain ⟨j, v⟩ := e; simp only [sabove, Bool.and_eq_true, decide_eq_true_eq] at *; exact ⟨by omega, ih h.2⟩
theorem sget_above (d : α) {k j : Nat} (hkj : j ≤ k) (m : Sparse α) (h : sabove k m = true) : sget d m j = d := by
  induction m with
  | nil => rfl
  | cons e m ih =>
    obtain ⟨i, v⟩ := e
    simp only [sabove, Bool.and_eq_true, decide_eq_true_eq] at h
    have hji : ¬ j = i := by omega
    simp only [sget, hji, if_false]; exact ih h.2
theorem sabove_serase {k j : Nat} (m : Sparse α) (h : sabove k m = true) : sabove k (serase m j) = true := by
  induction m with
  | nil => rfl
  | cons e m ih =>
    obtain ⟨i, v⟩ := e
    simp only [sabove, Bool.and_eq_true, decide_eq_true_eq] at h
    simp only [serase]; split
    · exact ih h.2
    · simp [sabove, h.1, ih h.2]
theorem srise_serase (m : Sparse α) (j : Nat) (h : srise m = true) : srise (serase m j) = true := by
  induction m with
  | nil => rfl
  | cons e m ih =>
    obtain ⟨i, v⟩ := e
    simp only [srise, Bool.and_eq_true] at h
    simp only [serase]; split
    · exact ih h.2
    · simp only [srise, Bool.and_eq_true]; exact ⟨sabove_serase m h.1, ih h.2⟩
theorem sabove_sinsert {k j : Nat} (m : Sparse α) (w : α) (hk : k < j) (h : sabove k m = true) : sabove k (sinsert m j w) = true := by
  induction m with
  | nil => simp [sinsert, sabove, hk]
  | cons e m ih =>
    obtain ⟨i, v⟩ := e
    simp only [sabove, Bool.and_eq_true, decide_eq_true_eq] at h
    simp only [sinsert]; split
    · simp [sabove, hk, h.1, h.2]
    · simp [sabove, h.1, ih h.2]
theorem serase_ne (m : Sparse α) (k : Nat) : ∀ e ∈ serase m k, e.1 ≠ k := by
  induction m with
  | nil => simp [serase]
  | cons e m ih =>
    obtain ⟨i, v⟩ := e
    simp only [serase]; split
    · exact ih
    · rename_i h
      intro e he
      rcases List.mem_cons.mp he with rfl | he
      · exact fun h' => h h'.symm
      · exact ih e he
theorem srise_sinsert (m : Sparse α) (k : Nat) (w : α) (hr : srise m = true) (he : ∀ e ∈ m, e.1 ≠ k) : srise (sinsert m k w) = true := by
  induction m with
  | nil => simp [sinsert, srise, sabove]
  | cons e m ih =>
    obtain ⟨i, v⟩ := e
    have hi : i ≠ k := he (i, v) (by simp)
    simp only [srise, Bool.and_eq_true] at hr
    have := ih hr.2 (fun e h => he e (List.mem_cons_of_mem _ h))
    simp only [sinsert]; split
    · rename_i hlt
      simp only [srise, sabove, Bool.and_eq_true, decide_eq_true_eq]
      exact ⟨⟨hlt, sabove_trans (Nat.le_of_lt hlt) m hr.1⟩, hr.1, hr.2⟩
    · simp only [srise, Bool.and_eq_true]
      exact ⟨sabove_sinsert m w (by omega) hr.1, this⟩

/-- The canonical form says that the keys rise and that no default is listed. -/
theorem swf_iff [DecidableEq α] (d : Nat → α) (m : Sparse α) : swf d m = true ↔ srise m = true ∧ ∀ e ∈ m, e.2 ≠ d e.1 := by
  simp [swf]
theorem swf_rise [DecidableEq α] {d : Nat → α} {m : Sparse α} (h : swf d m = true) : srise m = true := ((swf_iff d m).mp h).1
theorem mem_serase {m : Sparse α} {k : Nat} {e : Nat × α} (h : e ∈ serase m k) : e ∈ m := by
  induction m with
  | nil => simp [serase] at h
  | cons x m ih =>
    obtain ⟨i, v⟩ := x
    simp only [serase] at h; split at h
    · exact List.mem_cons_of_mem _ (ih h)
    · rcases List.mem_cons.mp h with rfl | h
      · exact List.mem_cons_self
      · exact List.mem_cons_of_mem _ (ih h)
theorem mem_sinsert {m : Sparse α} {k : Nat} {w : α} {e : Nat × α} (h : e ∈ sinsert m k w) : e = (k, w) ∨ e ∈ m := by
  induction m with
  | nil => simpa [sinsert] using h
  | cons x m ih =>
    obtain ⟨i, v⟩ := x
    simp only [sinsert] at h; split at h
    · simpa using h
    · rcases List.mem_cons.mp h with rfl | h
      · exact .inr List.mem_cons_self
      · exact (ih h).imp_right (List.mem_cons_of_mem _)

theorem swf_serase [DecidableEq α] {d : Nat → α} {m : Sparse α} (k : Nat) (h : swf d m = true) : swf d (serase m k) = true := by
  rw [swf_iff] at *
  exact ⟨srise_serase m k h.1, fun e he => h.2 e (mem_serase he)⟩
/-- Writing keeps the canonical form. -/
theorem swf_sset [DecidableEq α] {d : Nat → α} {m : Sparse α} (k : Nat) (v : α) (h : swf d m = true) : swf d (sset (d k) m k v) = true := by
  unfold sset; split
  · exact swf_serase k h
  · rename_i hv
    rw [swf_iff] at *
    refine ⟨srise_sinsert _ k v (srise_serase m k h.1) (serase_ne m k), fun e he => ?_⟩
    rcases mem_sinsert he with rfl | he
    · exact hv
    · exact h.2 e (mem_serase he)
theorem srise_sput (m : Sparse α) (k : Nat) (v : α) (h : srise m = true) : srise (sput m k v) = true :=
  srise_sinsert _ k v (srise_serase m k h) (serase_ne m k)
theorem sabove_filter (f : Nat × α → Bool) {k : Nat} (m : Sparse α) (h : sabove k m = true) : sabove k (m.filter f) = true := by
  induction m with
  | nil => rfl
  | cons e m ih =>
    obtain ⟨i, v⟩ := e
    simp only [sabove, Bool.and_eq_true, decide_eq_true_eq] at h
    simp only [List.filter]; split
    · simp [sabove, h.1, ih h.2]
    · exact ih h.2
theorem srise_filter (f : Nat × α → Bool) (m : Sparse α) (h : srise m = true) : srise (m.filter f) = true := by
  induction m with
  | nil => rfl
  | cons e m ih =>
    obtain ⟨i, v⟩ := e
    simp only [srise, Bool.and_eq_true] at h
    simp only [List.filter]; split
    · simp only [srise, Bool.and_eq_true]; exact ⟨sabove_filter f m h.1, ih h.2⟩
    · exact ih h.2
theorem swf_filter [DecidableEq α] {d : Nat → α} {m : Sparse α} (f : Nat × α → Bool) (h : swf d m = true) : swf d (m.filter f) = true := by
  rw [swf_iff] at *
  exact ⟨srise_filter f m h.1, fun e he => h.2 e (List.mem_filter.mp he).1⟩
theorem swf_sclear [DecidableEq α] {d : Nat → α} {m : Sparse α} (lo n : Nat) (h : swf d m = true) : swf d (sclear m lo n) = true := swf_filter _ h
theorem mem_sclear {m : Sparse α} {lo n : Nat} {e : Nat × α} (h : e ∈ sclear m lo n) : e ∈ m ∧ (e.1 < lo ∨ lo + n ≤ e.1) := by
  simpa [sclear] using h
/-- Once a range is cleared, what its unlisted keys read as may change. -/
theorem swf_sclear_congr [DecidableEq α] {c d : Nat → α} {m : Sparse α} (lo n : Nat) (h : swf d m = true)
    (hc : ∀ k, k < lo ∨ lo + n ≤ k → c k = d k) : swf c (sclear m lo n) = true := by
  have h1 := (swf_iff _ _).mp (swf_sclear lo n h)
  exact (swf_iff _ _).mpr ⟨h1.1, fun e he => by rw [hc e.1 (mem_sclear he).2]; exact h1.2 e he⟩

/-- Without any premise the key written reads as the value: an insertion stands before every equal or greater key left of it. -/
theorem sget_sinsert_same (d : α) (m : Sparse α) (k : Nat) (w : α) (he : ∀ e ∈ m, e.1 ≠ k) : sget d (sinsert m k w) k = w := by
  induction m with
  | nil => simp [sinsert, sget]
  | cons e m ih =>
    obtain ⟨i, v⟩ := e
    have hi : i ≠ k := he (i, v) (by simp)
    simp only [sinsert]; split
    · simp [sget]
    · have hki : ¬ k = i := fun h => hi h.symm
      simp only [sget, hki, if_false]
      exact ih fun e h => he e (List.mem_cons_of_mem _ h)
@[simp] theorem sget_sput_same (d : α) (m : Sparse α) (k : Nat) (v : α) : sget d (sput m k v) k = v :=
  sget_sinsert_same d _ k v (serase_ne m k)
theorem sget_sinsert_ne (d : α) (m : Sparse α) (k j : Nat) (w : α) (hj : j ≠ k) : sget d (sinsert m k w) j = sget d m j := by
  induction m with
  | nil => simp [sinsert, sget, hj]
  | cons e m ih =>
    obtain ⟨i, v⟩ := e
    simp only [sinsert]; split
    · simp [sget, hj]
    · simp only [sget, ih]
theorem sget_sput_ne (d : α) (m : Sparse α) (k j : Nat) (v : α) (hj : j ≠ k) : sget d (sput m k v) j = sget d m j := by
  unfold sput; rw [sget_sinsert_ne d _ k j v hj, sget_serase]; simp [hj]
@[simp] theorem sget_sset_same [DecidableEq α] (d : α) (m : Sparse α) (k : Nat) (v : α) : sget d (sset d m k v) k = v := by
  unfold sset; split
  · rename_i hv; subst hv; rw [sget_serase]; simp
  · simp
theorem sget_sset_ne [DecidableEq α] (d : α) (m : Sparse α) (k j : Nat) (v : α) (hj : j ≠ k) : sget d (sset d m k v) j = sget d m j := by
  unfold sset; split
  · rw [sget_serase]; simp [hj]
  · exact sget_sput_ne d m k j v hj
theorem slook_serase_ne (m : Sparse α) {k j : Nat} (hj : j ≠ k) : slook (serase m k) j = slook m j := by
  induction m with
  | nil => rfl
  | cons e m ih =>
    obtain ⟨i, w⟩ := e
    by_cases hk : k = i
    · subst hk; simp [serase, slook, hj, ih]
    · simp only [serase, hk, if_false, slook, ih]
theorem slook_sput_ne (m : Sparse α) (k j : Nat) (v : α) (hj : j ≠ k) : slook (sput m k v) j = slook m j := by
  have hi : ∀ m : Sparse α, slook (sinsert m k v) j = slook m j := fun m => by
    induction m with
    | nil => simp [sinsert, slook, hj]
    | cons e m ih => obtain ⟨i, w⟩ := e; simp only [sinsert]; split <;> simp [slook, hj, ih]
  rw [sput, hi, slook_serase_ne m hj]

end Sys2Proof.Machine
end

