-- ==== Sys2Proof/Laws/State.lean ====
section
/-! SUPPORT. One lemma for each field of State and each update of a part of it: what the update leaves alone. -/

namespace Sys2Proof.Machine

/-! ### modCore -/

@[simp] theorem modCore_dev (s : State) (k : Nat) (f : Core → Core) : (modCore s k f).dev = s.dev := rfl
@[simp] theorem modCore_dram (s : State) (k : Nat) (f : Core → Core) : (modCore s k f).dram = s.dram := rfl
@[simp] theorem modCore_near (s : State) (k : Nat) (f : Core → Core) : (modCore s k f).near = s.near := rfl
@[simp] theorem modCore_hostmem (s : State) (k : Nat) (f : Core → Core) : (modCore s k f).hostmem = s.hostmem := rfl
@[simp] theorem modCore_pages (s : State) (k : Nat) (f : Core → Core) : (modCore s k f).pages = s.pages := rfl
@[simp] theorem modCore_hostWait (s : State) (k : Nat) (f : Core → Core) : (modCore s k f).hostWait = s.hostWait := rfl
@[simp] theorem modCore_linkWait (s : State) (k : Nat) (f : Core → Core) : (modCore s k f).linkWait = s.linkWait := rfl
@[simp] theorem modCore_poison (s : State) (k : Nat) (f : Core → Core) : (modCore s k f).poison = s.poison := rfl
@[simp] theorem modCore_keys (s : State) (k : Nat) (f : Core → Core) : (modCore s k f).keys = s.keys := rfl
@[simp] theorem modCore_pend (s : State) (k : Nat) (f : Core → Core) : (modCore s k f).pend = s.pend := rfl
@[simp] theorem modCore_snaps (s : State) (k : Nat) (f : Core → Core) : (modCore s k f).snaps = s.snaps := rfl
@[simp] theorem modCore_rels (s : State) (k : Nat) (f : Core → Core) : (modCore s k f).rels = s.rels := rfl
@[simp] theorem modCore_seen (s : State) (k : Nat) (f : Core → Core) : (modCore s k f).seen = s.seen := rfl
@[simp] theorem modCore_wrote (s : State) (k : Nat) (f : Core → Core) : (modCore s k f).wrote = s.wrote := rfl
@[simp] theorem modCore_parts (s : State) (k : Nat) (f : Core → Core) : (modCore s k f).parts = s.parts := rfl
@[simp] theorem modCore_barriers (s : State) (k : Nat) (f : Core → Core) : (modCore s k f).barriers = s.barriers := rfl
@[simp] theorem modCore_rings (s : State) (k : Nat) (f : Core → Core) : (modCore s k f).rings = s.rings := rfl
@[simp] theorem modCore_images (s : State) (k : Nat) (f : Core → Core) : (modCore s k f).images = s.images := rfl
@[simp] theorem modCore_launches (s : State) (k : Nat) (f : Core → Core) : (modCore s k f).launches = s.launches := rfl
@[simp] theorem modCore_rq (s : State) (k : Nat) (f : Core → Core) : (modCore s k f).rq = s.rq := rfl
@[simp] theorem modCore_out (s : State) (k : Nat) (f : Core → Core) : (modCore s k f).out = s.out := rfl
@[simp] theorem modCore_links (s : State) (k : Nat) (f : Core → Core) : (modCore s k f).links = s.links := rfl
@[simp] theorem modCore_park (s : State) (k : Nat) (f : Core → Core) : (modCore s k f).park = s.park := rfl
@[simp] theorem modCore_flits (s : State) (k : Nat) (f : Core → Core) : (modCore s k f).flits = s.flits := rfl
@[simp] theorem modCore_thr (s : State) (k : Nat) (f : Core → Core) : (modCore s k f).thr = s.thr := rfl
@[simp] theorem modCore_sig (s : State) (k : Nat) (f : Core → Core) : (modCore s k f).sig = s.sig := rfl
@[simp] theorem modCore_shOps (s : State) (k : Nat) (f : Core → Core) : (modCore s k f).shOps = s.shOps := rfl
@[simp] theorem modCore_shMsgs (s : State) (k : Nat) (f : Core → Core) : (modCore s k f).shMsgs = s.shMsgs := rfl
@[simp] theorem modCore_shAns (s : State) (k : Nat) (f : Core → Core) : (modCore s k f).shAns = s.shAns := rfl
@[simp] theorem modCore_shTags (s : State) (k : Nat) (f : Core → Core) : (modCore s k f).shTags = s.shTags := rfl
@[simp] theorem modCore_agenda (s : State) (k : Nat) (f : Core → Core) : (modCore s k f).agenda = s.agenda := rfl
@[simp] theorem modCore_cur (s : State) (k : Nat) (f : Core → Core) : (modCore s k f).cur = s.cur := rfl
@[simp] theorem modCore_rr (s : State) (k : Nat) (f : Core → Core) : (modCore s k f).rr = s.rr := rfl

/-! ### modClu -/

@[simp] theorem modClu_dev (s : State) (k : Nat) (c : Cluster) (f : Clu → Clu) : (modClu s k c f).dev = s.dev := rfl
@[simp] theorem modClu_dram (s : State) (k : Nat) (c : Cluster) (f : Clu → Clu) : (modClu s k c f).dram = s.dram := rfl
@[simp] theorem modClu_near (s : State) (k : Nat) (c : Cluster) (f : Clu → Clu) : (modClu s k c f).near = s.near := rfl
@[simp] theorem modClu_hostmem (s : State) (k : Nat) (c : Cluster) (f : Clu → Clu) : (modClu s k c f).hostmem = s.hostmem := rfl
@[simp] theorem modClu_pages (s : State) (k : Nat) (c : Cluster) (f : Clu → Clu) : (modClu s k c f).pages = s.pages := rfl
@[simp] theorem modClu_hostWait (s : State) (k : Nat) (c : Cluster) (f : Clu → Clu) : (modClu s k c f).hostWait = s.hostWait := rfl
@[simp] theorem modClu_linkWait (s : State) (k : Nat) (c : Cluster) (f : Clu → Clu) : (modClu s k c f).linkWait = s.linkWait := rfl
@[simp] theorem modClu_poison (s : State) (k : Nat) (c : Cluster) (f : Clu → Clu) : (modClu s k c f).poison = s.poison := rfl
@[simp] theorem modClu_keys (s : State) (k : Nat) (c : Cluster) (f : Clu → Clu) : (modClu s k c f).keys = s.keys := rfl
@[simp] theorem modClu_pend (s : State) (k : Nat) (c : Cluster) (f : Clu → Clu) : (modClu s k c f).pend = s.pend := rfl
@[simp] theorem modClu_snaps (s : State) (k : Nat) (c : Cluster) (f : Clu → Clu) : (modClu s k c f).snaps = s.snaps := rfl
@[simp] theorem modClu_rels (s : State) (k : Nat) (c : Cluster) (f : Clu → Clu) : (modClu s k c f).rels = s.rels := rfl
@[simp] theorem modClu_seen (s : State) (k : Nat) (c : Cluster) (f : Clu → Clu) : (modClu s k c f).seen = s.seen := rfl
@[simp] theorem modClu_wrote (s : State) (k : Nat) (c : Cluster) (f : Clu → Clu) : (modClu s k c f).wrote = s.wrote := rfl
@[simp] theorem modClu_parts (s : State) (k : Nat) (c : Cluster) (f : Clu → Clu) : (modClu s k c f).parts = s.parts := rfl
@[simp] theorem modClu_barriers (s : State) (k : Nat) (c : Cluster) (f : Clu → Clu) : (modClu s k c f).barriers = s.barriers := rfl
@[simp] theorem modClu_rings (s : State) (k : Nat) (c : Cluster) (f : Clu → Clu) : (modClu s k c f).rings = s.rings := rfl
@[simp] theorem modClu_images (s : State) (k : Nat) (c : Cluster) (f : Clu → Clu) : (modClu s k c f).images = s.images := rfl
@[simp] theorem modClu_launches (s : State) (k : Nat) (c : Cluster) (f : Clu → Clu) : (modClu s k c f).launches = s.launches := rfl
@[simp] theorem modClu_rq (s : State) (k : Nat) (c : Cluster) (f : Clu → Clu) : (modClu s k c f).rq = s.rq := rfl
@[simp] theorem modClu_out (s : State) (k : Nat) (c : Cluster) (f : Clu → Clu) : (modClu s k c f).out = s.out := rfl
@[simp] theorem modClu_links (s : State) (k : Nat) (c : Cluster) (f : Clu → Clu) : (modClu s k c f).links = s.links := rfl
@[simp] theorem modClu_park (s : State) (k : Nat) (c : Cluster) (f : Clu → Clu) : (modClu s k c f).park = s.park := rfl
@[simp] theorem modClu_flits (s : State) (k : Nat) (c : Cluster) (f : Clu → Clu) : (modClu s k c f).flits = s.flits := rfl
@[simp] theorem modClu_thr (s : State) (k : Nat) (c : Cluster) (f : Clu → Clu) : (modClu s k c f).thr = s.thr := rfl
@[simp] theorem modClu_sig (s : State) (k : Nat) (c : Cluster) (f : Clu → Clu) : (modClu s k c f).sig = s.sig := rfl
@[simp] theorem modClu_shOps (s : State) (k : Nat) (c : Cluster) (f : Clu → Clu) : (modClu s k c f).shOps = s.shOps := rfl
@[simp] theorem modClu_shMsgs (s : State) (k : Nat) (c : Cluster) (f : Clu → Clu) : (modClu s k c f).shMsgs = s.shMsgs := rfl
@[simp] theorem modClu_shAns (s : State) (k : Nat) (c : Cluster) (f : Clu → Clu) : (modClu s k c f).shAns = s.shAns := rfl
@[simp] theorem modClu_shTags (s : State) (k : Nat) (c : Cluster) (f : Clu → Clu) : (modClu s k c f).shTags = s.shTags := rfl
@[simp] theorem modClu_agenda (s : State) (k : Nat) (c : Cluster) (f : Clu → Clu) : (modClu s k c f).agenda = s.agenda := rfl
@[simp] theorem modClu_cur (s : State) (k : Nat) (c : Cluster) (f : Clu → Clu) : (modClu s k c f).cur = s.cur := rfl
@[simp] theorem modClu_rr (s : State) (k : Nat) (c : Cluster) (f : Clu → Clu) : (modClu s k c f).rr = s.rr := rfl

/-! ### modKs -/

@[simp] theorem modKs_dev (s : State) (k : Nat) (f : KSt → KSt) : (modKs s k f).dev = s.dev := rfl
@[simp] theorem modKs_dram (s : State) (k : Nat) (f : KSt → KSt) : (modKs s k f).dram = s.dram := rfl
@[simp] theorem modKs_near (s : State) (k : Nat) (f : KSt → KSt) : (modKs s k f).near = s.near := rfl
@[simp] theorem modKs_hostmem (s : State) (k : Nat) (f : KSt → KSt) : (modKs s k f).hostmem = s.hostmem := rfl
@[simp] theorem modKs_pages (s : State) (k : Nat) (f : KSt → KSt) : (modKs s k f).pages = s.pages := rfl
@[simp] theorem modKs_hostWait (s : State) (k : Nat) (f : KSt → KSt) : (modKs s k f).hostWait = s.hostWait := rfl
@[simp] theorem modKs_linkWait (s : State) (k : Nat) (f : KSt → KSt) : (modKs s k f).linkWait = s.linkWait := rfl
@[simp] theorem modKs_poison (s : State) (k : Nat) (f : KSt → KSt) : (modKs s k f).poison = s.poison := rfl
@[simp] theorem modKs_keys (s : State) (k : Nat) (f : KSt → KSt) : (modKs s k f).keys = s.keys := rfl
@[simp] theorem modKs_pend (s : State) (k : Nat) (f : KSt → KSt) : (modKs s k f).pend = s.pend := rfl
@[simp] theorem modKs_snaps (s : State) (k : Nat) (f : KSt → KSt) : (modKs s k f).snaps = s.snaps := rfl
@[simp] theorem modKs_rels (s : State) (k : Nat) (f : KSt → KSt) : (modKs s k f).rels = s.rels := rfl
@[simp] theorem modKs_seen (s : State) (k : Nat) (f : KSt → KSt) : (modKs s k f).seen = s.seen := rfl
@[simp] theorem modKs_wrote (s : State) (k : Nat) (f : KSt → KSt) : (modKs s k f).wrote = s.wrote := rfl
@[simp] theorem modKs_parts (s : State) (k : Nat) (f : KSt → KSt) : (modKs s k f).parts = s.parts := rfl
@[simp] theorem modKs_barriers (s : State) (k : Nat) (f : KSt → KSt) : (modKs s k f).barriers = s.barriers := rfl
@[simp] theorem modKs_rings (s : State) (k : Nat) (f : KSt → KSt) : (modKs s k f).rings = s.rings := rfl
@[simp] theorem modKs_images (s : State) (k : Nat) (f : KSt → KSt) : (modKs s k f).images = s.images := rfl
@[simp] theorem modKs_launches (s : State) (k : Nat) (f : KSt → KSt) : (modKs s k f).launches = s.launches := rfl
@[simp] theorem modKs_rq (s : State) (k : Nat) (f : KSt → KSt) : (modKs s k f).rq = s.rq := rfl
@[simp] theorem modKs_out (s : State) (k : Nat) (f : KSt → KSt) : (modKs s k f).out = s.out := rfl
@[simp] theorem modKs_links (s : State) (k : Nat) (f : KSt → KSt) : (modKs s k f).links = s.links := rfl
@[simp] theorem modKs_park (s : State) (k : Nat) (f : KSt → KSt) : (modKs s k f).park = s.park := rfl
@[simp] theorem modKs_flits (s : State) (k : Nat) (f : KSt → KSt) : (modKs s k f).flits = s.flits := rfl
@[simp] theorem modKs_thr (s : State) (k : Nat) (f : KSt → KSt) : (modKs s k f).thr = s.thr := rfl
@[simp] theorem modKs_sig (s : State) (k : Nat) (f : KSt → KSt) : (modKs s k f).sig = s.sig := rfl
@[simp] theorem modKs_shOps (s : State) (k : Nat) (f : KSt → KSt) : (modKs s k f).shOps = s.shOps := rfl
@[simp] theorem modKs_shMsgs (s : State) (k : Nat) (f : KSt → KSt) : (modKs s k f).shMsgs = s.shMsgs := rfl
@[simp] theorem modKs_shAns (s : State) (k : Nat) (f : KSt → KSt) : (modKs s k f).shAns = s.shAns := rfl
@[simp] theorem modKs_shTags (s : State) (k : Nat) (f : KSt → KSt) : (modKs s k f).shTags = s.shTags := rfl
@[simp] theorem modKs_agenda (s : State) (k : Nat) (f : KSt → KSt) : (modKs s k f).agenda = s.agenda := rfl
@[simp] theorem modKs_cur (s : State) (k : Nat) (f : KSt → KSt) : (modKs s k f).cur = s.cur := rfl
@[simp] theorem modKs_rr (s : State) (k : Nat) (f : KSt → KSt) : (modKs s k f).rr = s.rr := rfl

/-! ### modEng -/

@[simp] theorem modEng_dev (s : State) (k : Nat) (f : Eng → Eng) : (modEng s k f).dev = s.dev := rfl
@[simp] theorem modEng_dram (s : State) (k : Nat) (f : Eng → Eng) : (modEng s k f).dram = s.dram := rfl
@[simp] theorem modEng_near (s : State) (k : Nat) (f : Eng → Eng) : (modEng s k f).near = s.near := rfl
@[simp] theorem modEng_hostmem (s : State) (k : Nat) (f : Eng → Eng) : (modEng s k f).hostmem = s.hostmem := rfl
@[simp] theorem modEng_pages (s : State) (k : Nat) (f : Eng → Eng) : (modEng s k f).pages = s.pages := rfl
@[simp] theorem modEng_hostWait (s : State) (k : Nat) (f : Eng → Eng) : (modEng s k f).hostWait = s.hostWait := rfl
@[simp] theorem modEng_linkWait (s : State) (k : Nat) (f : Eng → Eng) : (modEng s k f).linkWait = s.linkWait := rfl
@[simp] theorem modEng_poison (s : State) (k : Nat) (f : Eng → Eng) : (modEng s k f).poison = s.poison := rfl
@[simp] theorem modEng_keys (s : State) (k : Nat) (f : Eng → Eng) : (modEng s k f).keys = s.keys := rfl
@[simp] theorem modEng_pend (s : State) (k : Nat) (f : Eng → Eng) : (modEng s k f).pend = s.pend := rfl
@[simp] theorem modEng_snaps (s : State) (k : Nat) (f : Eng → Eng) : (modEng s k f).snaps = s.snaps := rfl
@[simp] theorem modEng_rels (s : State) (k : Nat) (f : Eng → Eng) : (modEng s k f).rels = s.rels := rfl
@[simp] theorem modEng_seen (s : State) (k : Nat) (f : Eng → Eng) : (modEng s k f).seen = s.seen := rfl
@[simp] theorem modEng_wrote (s : State) (k : Nat) (f : Eng → Eng) : (modEng s k f).wrote = s.wrote := rfl
@[simp] theorem modEng_parts (s : State) (k : Nat) (f : Eng → Eng) : (modEng s k f).parts = s.parts := rfl
@[simp] theorem modEng_barriers (s : State) (k : Nat) (f : Eng → Eng) : (modEng s k f).barriers = s.barriers := rfl
@[simp] theorem modEng_rings (s : State) (k : Nat) (f : Eng → Eng) : (modEng s k f).rings = s.rings := rfl
@[simp] theorem modEng_images (s : State) (k : Nat) (f : Eng → Eng) : (modEng s k f).images = s.images := rfl
@[simp] theorem modEng_launches (s : State) (k : Nat) (f : Eng → Eng) : (modEng s k f).launches = s.launches := rfl
@[simp] theorem modEng_rq (s : State) (k : Nat) (f : Eng → Eng) : (modEng s k f).rq = s.rq := rfl
@[simp] theorem modEng_out (s : State) (k : Nat) (f : Eng → Eng) : (modEng s k f).out = s.out := rfl
@[simp] theorem modEng_links (s : State) (k : Nat) (f : Eng → Eng) : (modEng s k f).links = s.links := rfl
@[simp] theorem modEng_park (s : State) (k : Nat) (f : Eng → Eng) : (modEng s k f).park = s.park := rfl
@[simp] theorem modEng_flits (s : State) (k : Nat) (f : Eng → Eng) : (modEng s k f).flits = s.flits := rfl
@[simp] theorem modEng_thr (s : State) (k : Nat) (f : Eng → Eng) : (modEng s k f).thr = s.thr := rfl
@[simp] theorem modEng_sig (s : State) (k : Nat) (f : Eng → Eng) : (modEng s k f).sig = s.sig := rfl
@[simp] theorem modEng_shOps (s : State) (k : Nat) (f : Eng → Eng) : (modEng s k f).shOps = s.shOps := rfl
@[simp] theorem modEng_shMsgs (s : State) (k : Nat) (f : Eng → Eng) : (modEng s k f).shMsgs = s.shMsgs := rfl
@[simp] theorem modEng_shAns (s : State) (k : Nat) (f : Eng → Eng) : (modEng s k f).shAns = s.shAns := rfl
@[simp] theorem modEng_shTags (s : State) (k : Nat) (f : Eng → Eng) : (modEng s k f).shTags = s.shTags := rfl
@[simp] theorem modEng_agenda (s : State) (k : Nat) (f : Eng → Eng) : (modEng s k f).agenda = s.agenda := rfl
@[simp] theorem modEng_cur (s : State) (k : Nat) (f : Eng → Eng) : (modEng s k f).cur = s.cur := rfl
@[simp] theorem modEng_rr (s : State) (k : Nat) (f : Eng → Eng) : (modEng s k f).rr = s.rr := rfl

/-! ### modEQ -/

@[simp] theorem modEQ_dev (s : State) (k q : Nat) (f : EQ → EQ) : (modEQ s k q f).dev = s.dev := rfl
@[simp] theorem modEQ_dram (s : State) (k q : Nat) (f : EQ → EQ) : (modEQ s k q f).dram = s.dram := rfl
@[simp] theorem modEQ_near (s : State) (k q : Nat) (f : EQ → EQ) : (modEQ s k q f).near = s.near := rfl
@[simp] theorem modEQ_hostmem (s : State) (k q : Nat) (f : EQ → EQ) : (modEQ s k q f).hostmem = s.hostmem := rfl
@[simp] theorem modEQ_pages (s : State) (k q : Nat) (f : EQ → EQ) : (modEQ s k q f).pages = s.pages := rfl
@[simp] theorem modEQ_hostWait (s : State) (k q : Nat) (f : EQ → EQ) : (modEQ s k q f).hostWait = s.hostWait := rfl
@[simp] theorem modEQ_linkWait (s : State) (k q : Nat) (f : EQ → EQ) : (modEQ s k q f).linkWait = s.linkWait := rfl
@[simp] theorem modEQ_poison (s : State) (k q : Nat) (f : EQ → EQ) : (modEQ s k q f).poison = s.poison := rfl
@[simp] theorem modEQ_keys (s : State) (k q : Nat) (f : EQ → EQ) : (modEQ s k q f).keys = s.keys := rfl
@[simp] theorem modEQ_pend (s : State) (k q : Nat) (f : EQ → EQ) : (modEQ s k q f).pend = s.pend := rfl
@[simp] theorem modEQ_snaps (s : State) (k q : Nat) (f : EQ → EQ) : (modEQ s k q f).snaps = s.snaps := rfl
@[simp] theorem modEQ_rels (s : State) (k q : Nat) (f : EQ → EQ) : (modEQ s k q f).rels = s.rels := rfl
@[simp] theorem modEQ_seen (s : State) (k q : Nat) (f : EQ → EQ) : (modEQ s k q f).seen = s.seen := rfl
@[simp] theorem modEQ_wrote (s : State) (k q : Nat) (f : EQ → EQ) : (modEQ s k q f).wrote = s.wrote := rfl
@[simp] theorem modEQ_parts (s : State) (k q : Nat) (f : EQ → EQ) : (modEQ s k q f).parts = s.parts := rfl
@[simp] theorem modEQ_barriers (s : State) (k q : Nat) (f : EQ → EQ) : (modEQ s k q f).barriers = s.barriers := rfl
@[simp] theorem modEQ_rings (s : State) (k q : Nat) (f : EQ → EQ) : (modEQ s k q f).rings = s.rings := rfl
@[simp] theorem modEQ_images (s : State) (k q : Nat) (f : EQ → EQ) : (modEQ s k q f).images = s.images := rfl
@[simp] theorem modEQ_launches (s : State) (k q : Nat) (f : EQ → EQ) : (modEQ s k q f).launches = s.launches := rfl
@[simp] theorem modEQ_rq (s : State) (k q : Nat) (f : EQ → EQ) : (modEQ s k q f).rq = s.rq := rfl
@[simp] theorem modEQ_out (s : State) (k q : Nat) (f : EQ → EQ) : (modEQ s k q f).out = s.out := rfl
@[simp] theorem modEQ_links (s : State) (k q : Nat) (f : EQ → EQ) : (modEQ s k q f).links = s.links := rfl
@[simp] theorem modEQ_park (s : State) (k q : Nat) (f : EQ → EQ) : (modEQ s k q f).park = s.park := rfl
@[simp] theorem modEQ_flits (s : State) (k q : Nat) (f : EQ → EQ) : (modEQ s k q f).flits = s.flits := rfl
@[simp] theorem modEQ_thr (s : State) (k q : Nat) (f : EQ → EQ) : (modEQ s k q f).thr = s.thr := rfl
@[simp] theorem modEQ_sig (s : State) (k q : Nat) (f : EQ → EQ) : (modEQ s k q f).sig = s.sig := rfl
@[simp] theorem modEQ_shOps (s : State) (k q : Nat) (f : EQ → EQ) : (modEQ s k q f).shOps = s.shOps := rfl
@[simp] theorem modEQ_shMsgs (s : State) (k q : Nat) (f : EQ → EQ) : (modEQ s k q f).shMsgs = s.shMsgs := rfl
@[simp] theorem modEQ_shAns (s : State) (k q : Nat) (f : EQ → EQ) : (modEQ s k q f).shAns = s.shAns := rfl
@[simp] theorem modEQ_shTags (s : State) (k q : Nat) (f : EQ → EQ) : (modEQ s k q f).shTags = s.shTags := rfl
@[simp] theorem modEQ_agenda (s : State) (k q : Nat) (f : EQ → EQ) : (modEQ s k q f).agenda = s.agenda := rfl
@[simp] theorem modEQ_cur (s : State) (k q : Nat) (f : EQ → EQ) : (modEQ s k q f).cur = s.cur := rfl
@[simp] theorem modEQ_rr (s : State) (k q : Nat) (f : EQ → EQ) : (modEQ s k q f).rr = s.rr := rfl

/-! ### setM -/

@[simp] theorem setM_dev (s : State) (a : At) (n : Nat) (v : Mask) : (setM s a n v).dev = s.dev := rfl
@[simp] theorem setM_dram (s : State) (a : At) (n : Nat) (v : Mask) : (setM s a n v).dram = s.dram := rfl
@[simp] theorem setM_near (s : State) (a : At) (n : Nat) (v : Mask) : (setM s a n v).near = s.near := rfl
@[simp] theorem setM_hostmem (s : State) (a : At) (n : Nat) (v : Mask) : (setM s a n v).hostmem = s.hostmem := rfl
@[simp] theorem setM_pages (s : State) (a : At) (n : Nat) (v : Mask) : (setM s a n v).pages = s.pages := rfl
@[simp] theorem setM_hostWait (s : State) (a : At) (n : Nat) (v : Mask) : (setM s a n v).hostWait = s.hostWait := rfl
@[simp] theorem setM_linkWait (s : State) (a : At) (n : Nat) (v : Mask) : (setM s a n v).linkWait = s.linkWait := rfl
@[simp] theorem setM_poison (s : State) (a : At) (n : Nat) (v : Mask) : (setM s a n v).poison = s.poison := rfl
@[simp] theorem setM_keys (s : State) (a : At) (n : Nat) (v : Mask) : (setM s a n v).keys = s.keys := rfl
@[simp] theorem setM_pend (s : State) (a : At) (n : Nat) (v : Mask) : (setM s a n v).pend = s.pend := rfl
@[simp] theorem setM_snaps (s : State) (a : At) (n : Nat) (v : Mask) : (setM s a n v).snaps = s.snaps := rfl
@[simp] theorem setM_rels (s : State) (a : At) (n : Nat) (v : Mask) : (setM s a n v).rels = s.rels := rfl
@[simp] theorem setM_seen (s : State) (a : At) (n : Nat) (v : Mask) : (setM s a n v).seen = s.seen := rfl
@[simp] theorem setM_wrote (s : State) (a : At) (n : Nat) (v : Mask) : (setM s a n v).wrote = s.wrote := rfl
@[simp] theorem setM_parts (s : State) (a : At) (n : Nat) (v : Mask) : (setM s a n v).parts = s.parts := rfl
@[simp] theorem setM_barriers (s : State) (a : At) (n : Nat) (v : Mask) : (setM s a n v).barriers = s.barriers := rfl
@[simp] theorem setM_rings (s : State) (a : At) (n : Nat) (v : Mask) : (setM s a n v).rings = s.rings := rfl
@[simp] theorem setM_images (s : State) (a : At) (n : Nat) (v : Mask) : (setM s a n v).images = s.images := rfl
@[simp] theorem setM_launches (s : State) (a : At) (n : Nat) (v : Mask) : (setM s a n v).launches = s.launches := rfl
@[simp] theorem setM_rq (s : State) (a : At) (n : Nat) (v : Mask) : (setM s a n v).rq = s.rq := rfl
@[simp] theorem setM_out (s : State) (a : At) (n : Nat) (v : Mask) : (setM s a n v).out = s.out := rfl
@[simp] theorem setM_links (s : State) (a : At) (n : Nat) (v : Mask) : (setM s a n v).links = s.links := rfl
@[simp] theorem setM_park (s : State) (a : At) (n : Nat) (v : Mask) : (setM s a n v).park = s.park := rfl
@[simp] theorem setM_flits (s : State) (a : At) (n : Nat) (v : Mask) : (setM s a n v).flits = s.flits := rfl
@[simp] theorem setM_thr (s : State) (a : At) (n : Nat) (v : Mask) : (setM s a n v).thr = s.thr := rfl
@[simp] theorem setM_sig (s : State) (a : At) (n : Nat) (v : Mask) : (setM s a n v).sig = s.sig := rfl
@[simp] theorem setM_shOps (s : State) (a : At) (n : Nat) (v : Mask) : (setM s a n v).shOps = s.shOps := rfl
@[simp] theorem setM_shMsgs (s : State) (a : At) (n : Nat) (v : Mask) : (setM s a n v).shMsgs = s.shMsgs := rfl
@[simp] theorem setM_shAns (s : State) (a : At) (n : Nat) (v : Mask) : (setM s a n v).shAns = s.shAns := rfl
@[simp] theorem setM_shTags (s : State) (a : At) (n : Nat) (v : Mask) : (setM s a n v).shTags = s.shTags := rfl
@[simp] theorem setM_agenda (s : State) (a : At) (n : Nat) (v : Mask) : (setM s a n v).agenda = s.agenda := rfl
@[simp] theorem setM_cur (s : State) (a : At) (n : Nat) (v : Mask) : (setM s a n v).cur = s.cur := rfl
@[simp] theorem setM_rr (s : State) (a : At) (n : Nat) (v : Mask) : (setM s a n v).rr = s.rr := rfl

/-! ### setV -/

@[simp] theorem setV_dev (s : State) (a : At) (n : Nat) (v : VReg) : (setV s a n v).dev = s.dev := rfl
@[simp] theorem setV_dram (s : State) (a : At) (n : Nat) (v : VReg) : (setV s a n v).dram = s.dram := rfl
@[simp] theorem setV_near (s : State) (a : At) (n : Nat) (v : VReg) : (setV s a n v).near = s.near := rfl
@[simp] theorem setV_hostmem (s : State) (a : At) (n : Nat) (v : VReg) : (setV s a n v).hostmem = s.hostmem := rfl
@[simp] theorem setV_pages (s : State) (a : At) (n : Nat) (v : VReg) : (setV s a n v).pages = s.pages := rfl
@[simp] theorem setV_hostWait (s : State) (a : At) (n : Nat) (v : VReg) : (setV s a n v).hostWait = s.hostWait := rfl
@[simp] theorem setV_linkWait (s : State) (a : At) (n : Nat) (v : VReg) : (setV s a n v).linkWait = s.linkWait := rfl
@[simp] theorem setV_poison (s : State) (a : At) (n : Nat) (v : VReg) : (setV s a n v).poison = s.poison := rfl
@[simp] theorem setV_keys (s : State) (a : At) (n : Nat) (v : VReg) : (setV s a n v).keys = s.keys := rfl
@[simp] theorem setV_pend (s : State) (a : At) (n : Nat) (v : VReg) : (setV s a n v).pend = s.pend := rfl
@[simp] theorem setV_snaps (s : State) (a : At) (n : Nat) (v : VReg) : (setV s a n v).snaps = s.snaps := rfl
@[simp] theorem setV_rels (s : State) (a : At) (n : Nat) (v : VReg) : (setV s a n v).rels = s.rels := rfl
@[simp] theorem setV_seen (s : State) (a : At) (n : Nat) (v : VReg) : (setV s a n v).seen = s.seen := rfl
@[simp] theorem setV_wrote (s : State) (a : At) (n : Nat) (v : VReg) : (setV s a n v).wrote = s.wrote := rfl
@[simp] theorem setV_parts (s : State) (a : At) (n : Nat) (v : VReg) : (setV s a n v).parts = s.parts := rfl
@[simp] theorem setV_barriers (s : State) (a : At) (n : Nat) (v : VReg) : (setV s a n v).barriers = s.barriers := rfl
@[simp] theorem setV_rings (s : State) (a : At) (n : Nat) (v : VReg) : (setV s a n v).rings = s.rings := rfl
@[simp] theorem setV_images (s : State) (a : At) (n : Nat) (v : VReg) : (setV s a n v).images = s.images := rfl
@[simp] theorem setV_launches (s : State) (a : At) (n : Nat) (v : VReg) : (setV s a n v).launches = s.launches := rfl
@[simp] theorem setV_rq (s : State) (a : At) (n : Nat) (v : VReg) : (setV s a n v).rq = s.rq := rfl
@[simp] theorem setV_out (s : State) (a : At) (n : Nat) (v : VReg) : (setV s a n v).out = s.out := rfl
@[simp] theorem setV_links (s : State) (a : At) (n : Nat) (v : VReg) : (setV s a n v).links = s.links := rfl
@[simp] theorem setV_park (s : State) (a : At) (n : Nat) (v : VReg) : (setV s a n v).park = s.park := rfl
@[simp] theorem setV_flits (s : State) (a : At) (n : Nat) (v : VReg) : (setV s a n v).flits = s.flits := rfl
@[simp] theorem setV_thr (s : State) (a : At) (n : Nat) (v : VReg) : (setV s a n v).thr = s.thr := rfl
@[simp] theorem setV_sig (s : State) (a : At) (n : Nat) (v : VReg) : (setV s a n v).sig = s.sig := rfl
@[simp] theorem setV_shOps (s : State) (a : At) (n : Nat) (v : VReg) : (setV s a n v).shOps = s.shOps := rfl
@[simp] theorem setV_shMsgs (s : State) (a : At) (n : Nat) (v : VReg) : (setV s a n v).shMsgs = s.shMsgs := rfl
@[simp] theorem setV_shAns (s : State) (a : At) (n : Nat) (v : VReg) : (setV s a n v).shAns = s.shAns := rfl
@[simp] theorem setV_shTags (s : State) (a : At) (n : Nat) (v : VReg) : (setV s a n v).shTags = s.shTags := rfl
@[simp] theorem setV_agenda (s : State) (a : At) (n : Nat) (v : VReg) : (setV s a n v).agenda = s.agenda := rfl
@[simp] theorem setV_cur (s : State) (a : At) (n : Nat) (v : VReg) : (setV s a n v).cur = s.cur := rfl
@[simp] theorem setV_rr (s : State) (a : At) (n : Nat) (v : VReg) : (setV s a n v).rr = s.rr := rfl

/-! ### setSR -/

@[simp] theorem setSR_dev (s : State) (k n : Nat) (v : SReg) : (setSR s k n v).dev = s.dev := rfl
@[simp] theorem setSR_dram (s : State) (k n : Nat) (v : SReg) : (setSR s k n v).dram = s.dram := rfl
@[simp] theorem setSR_near (s : State) (k n : Nat) (v : SReg) : (setSR s k n v).near = s.near := rfl
@[simp] theorem setSR_hostmem (s : State) (k n : Nat) (v : SReg) : (setSR s k n v).hostmem = s.hostmem := rfl
@[simp] theorem setSR_pages (s : State) (k n : Nat) (v : SReg) : (setSR s k n v).pages = s.pages := rfl
@[simp] theorem setSR_hostWait (s : State) (k n : Nat) (v : SReg) : (setSR s k n v).hostWait = s.hostWait := rfl
@[simp] theorem setSR_linkWait (s : State) (k n : Nat) (v : SReg) : (setSR s k n v).linkWait = s.linkWait := rfl
@[simp] theorem setSR_poison (s : State) (k n : Nat) (v : SReg) : (setSR s k n v).poison = s.poison := rfl
@[simp] theorem setSR_keys (s : State) (k n : Nat) (v : SReg) : (setSR s k n v).keys = s.keys := rfl
@[simp] theorem setSR_pend (s : State) (k n : Nat) (v : SReg) : (setSR s k n v).pend = s.pend := rfl
@[simp] theorem setSR_snaps (s : State) (k n : Nat) (v : SReg) : (setSR s k n v).snaps = s.snaps := rfl
@[simp] theorem setSR_rels (s : State) (k n : Nat) (v : SReg) : (setSR s k n v).rels = s.rels := rfl
@[simp] theorem setSR_seen (s : State) (k n : Nat) (v : SReg) : (setSR s k n v).seen = s.seen := rfl
@[simp] theorem setSR_wrote (s : State) (k n : Nat) (v : SReg) : (setSR s k n v).wrote = s.wrote := rfl
@[simp] theorem setSR_parts (s : State) (k n : Nat) (v : SReg) : (setSR s k n v).parts = s.parts := rfl
@[simp] theorem setSR_barriers (s : State) (k n : Nat) (v : SReg) : (setSR s k n v).barriers = s.barriers := rfl
@[simp] theorem setSR_rings (s : State) (k n : Nat) (v : SReg) : (setSR s k n v).rings = s.rings := rfl
@[simp] theorem setSR_images (s : State) (k n : Nat) (v : SReg) : (setSR s k n v).images = s.images := rfl
@[simp] theorem setSR_launches (s : State) (k n : Nat) (v : SReg) : (setSR s k n v).launches = s.launches := rfl
@[simp] theorem setSR_rq (s : State) (k n : Nat) (v : SReg) : (setSR s k n v).rq = s.rq := rfl
@[simp] theorem setSR_out (s : State) (k n : Nat) (v : SReg) : (setSR s k n v).out = s.out := rfl
@[simp] theorem setSR_links (s : State) (k n : Nat) (v : SReg) : (setSR s k n v).links = s.links := rfl
@[simp] theorem setSR_park (s : State) (k n : Nat) (v : SReg) : (setSR s k n v).park = s.park := rfl
@[simp] theorem setSR_flits (s : State) (k n : Nat) (v : SReg) : (setSR s k n v).flits = s.flits := rfl
@[simp] theorem setSR_thr (s : State) (k n : Nat) (v : SReg) : (setSR s k n v).thr = s.thr := rfl
@[simp] theorem setSR_sig (s : State) (k n : Nat) (v : SReg) : (setSR s k n v).sig = s.sig := rfl
@[simp] theorem setSR_shOps (s : State) (k n : Nat) (v : SReg) : (setSR s k n v).shOps = s.shOps := rfl
@[simp] theorem setSR_shMsgs (s : State) (k n : Nat) (v : SReg) : (setSR s k n v).shMsgs = s.shMsgs := rfl
@[simp] theorem setSR_shAns (s : State) (k n : Nat) (v : SReg) : (setSR s k n v).shAns = s.shAns := rfl
@[simp] theorem setSR_shTags (s : State) (k n : Nat) (v : SReg) : (setSR s k n v).shTags = s.shTags := rfl
@[simp] theorem setSR_agenda (s : State) (k n : Nat) (v : SReg) : (setSR s k n v).agenda = s.agenda := rfl
@[simp] theorem setSR_cur (s : State) (k n : Nat) (v : SReg) : (setSR s k n v).cur = s.cur := rfl
@[simp] theorem setSR_rr (s : State) (k n : Nat) (v : SReg) : (setSR s k n v).rr = s.rr := rfl

/-! ### modDev -/

@[simp] theorem modDev_dram (s : State) (f : Dev → Dev) : (modDev s f).dram = s.dram := rfl
@[simp] theorem modDev_near (s : State) (f : Dev → Dev) : (modDev s f).near = s.near := rfl
@[simp] theorem modDev_hostmem (s : State) (f : Dev → Dev) : (modDev s f).hostmem = s.hostmem := rfl
@[simp] theorem modDev_pages (s : State) (f : Dev → Dev) : (modDev s f).pages = s.pages := rfl
@[simp] theorem modDev_hostWait (s : State) (f : Dev → Dev) : (modDev s f).hostWait = s.hostWait := rfl
@[simp] theorem modDev_linkWait (s : State) (f : Dev → Dev) : (modDev s f).linkWait = s.linkWait := rfl
@[simp] theorem modDev_poison (s : State) (f : Dev → Dev) : (modDev s f).poison = s.poison := rfl
@[simp] theorem modDev_keys (s : State) (f : Dev → Dev) : (modDev s f).keys = s.keys := rfl
@[simp] theorem modDev_pend (s : State) (f : Dev → Dev) : (modDev s f).pend = s.pend := rfl
@[simp] theorem modDev_snaps (s : State) (f : Dev → Dev) : (modDev s f).snaps = s.snaps := rfl
@[simp] theorem modDev_rels (s : State) (f : Dev → Dev) : (modDev s f).rels = s.rels := rfl
@[simp] theorem modDev_seen (s : State) (f : Dev → Dev) : (modDev s f).seen = s.seen := rfl
@[simp] theorem modDev_wrote (s : State) (f : Dev → Dev) : (modDev s f).wrote = s.wrote := rfl
@[simp] theorem modDev_parts (s : State) (f : Dev → Dev) : (modDev s f).parts = s.parts := rfl
@[simp] theorem modDev_barriers (s : State) (f : Dev → Dev) : (modDev s f).barriers = s.barriers := rfl
@[simp] theorem modDev_rings (s : State) (f : Dev → Dev) : (modDev s f).rings = s.rings := rfl
@[simp] theorem modDev_images (s : State) (f : Dev → Dev) : (modDev s f).images = s.images := rfl
@[simp] theorem modDev_launches (s : State) (f : Dev → Dev) : (modDev s f).launches = s.launches := rfl
@[simp] theorem modDev_rq (s : State) (f : Dev → Dev) : (modDev s f).rq = s.rq := rfl
@[simp] theorem modDev_cores (s : State) (f : Dev → Dev) : (modDev s f).cores = s.cores := rfl
@[simp] theorem modDev_out (s : State) (f : Dev → Dev) : (modDev s f).out = s.out := rfl
@[simp] theorem modDev_links (s : State) (f : Dev → Dev) : (modDev s f).links = s.links := rfl
@[simp] theorem modDev_park (s : State) (f : Dev → Dev) : (modDev s f).park = s.park := rfl
@[simp] theorem modDev_flits (s : State) (f : Dev → Dev) : (modDev s f).flits = s.flits := rfl
@[simp] theorem modDev_thr (s : State) (f : Dev → Dev) : (modDev s f).thr = s.thr := rfl
@[simp] theorem modDev_sig (s : State) (f : Dev → Dev) : (modDev s f).sig = s.sig := rfl
@[simp] theorem modDev_shOps (s : State) (f : Dev → Dev) : (modDev s f).shOps = s.shOps := rfl
@[simp] theorem modDev_shMsgs (s : State) (f : Dev → Dev) : (modDev s f).shMsgs = s.shMsgs := rfl
@[simp] theorem modDev_shAns (s : State) (f : Dev → Dev) : (modDev s f).shAns = s.shAns := rfl
@[simp] theorem modDev_shTags (s : State) (f : Dev → Dev) : (modDev s f).shTags = s.shTags := rfl
@[simp] theorem modDev_agenda (s : State) (f : Dev → Dev) : (modDev s f).agenda = s.agenda := rfl
@[simp] theorem modDev_cur (s : State) (f : Dev → Dev) : (modDev s f).cur = s.cur := rfl
@[simp] theorem modDev_rr (s : State) (f : Dev → Dev) : (modDev s f).rr = s.rr := rfl

/-! ### modPart -/

@[simp] theorem modPart_dev (s : State) (p : Nat) (f : Part → Part) : (modPart s p f).dev = s.dev := rfl
@[simp] theorem modPart_dram (s : State) (p : Nat) (f : Part → Part) : (modPart s p f).dram = s.dram := rfl
@[simp] theorem modPart_near (s : State) (p : Nat) (f : Part → Part) : (modPart s p f).near = s.near := rfl
@[simp] theorem modPart_hostmem (s : State) (p : Nat) (f : Part → Part) : (modPart s p f).hostmem = s.hostmem := rfl
@[simp] theorem modPart_pages (s : State) (p : Nat) (f : Part → Part) : (modPart s p f).pages = s.pages := rfl
@[simp] theorem modPart_hostWait (s : State) (p : Nat) (f : Part → Part) : (modPart s p f).hostWait = s.hostWait := rfl
@[simp] theorem modPart_linkWait (s : State) (p : Nat) (f : Part → Part) : (modPart s p f).linkWait = s.linkWait := rfl
@[simp] theorem modPart_poison (s : State) (p : Nat) (f : Part → Part) : (modPart s p f).poison = s.poison := rfl
@[simp] theorem modPart_keys (s : State) (p : Nat) (f : Part → Part) : (modPart s p f).keys = s.keys := rfl
@[simp] theorem modPart_pend (s : State) (p : Nat) (f : Part → Part) : (modPart s p f).pend = s.pend := rfl
@[simp] theorem modPart_snaps (s : State) (p : Nat) (f : Part → Part) : (modPart s p f).snaps = s.snaps := rfl
@[simp] theorem modPart_rels (s : State) (p : Nat) (f : Part → Part) : (modPart s p f).rels = s.rels := rfl
@[simp] theorem modPart_seen (s : State) (p : Nat) (f : Part → Part) : (modPart s p f).seen = s.seen := rfl
@[simp] theorem modPart_wrote (s : State) (p : Nat) (f : Part → Part) : (modPart s p f).wrote = s.wrote := rfl
@[simp] theorem modPart_barriers (s : State) (p : Nat) (f : Part → Part) : (modPart s p f).barriers = s.barriers := rfl
@[simp] theorem modPart_rings (s : State) (p : Nat) (f : Part → Part) : (modPart s p f).rings = s.rings := rfl
@[simp] theorem modPart_images (s : State) (p : Nat) (f : Part → Part) : (modPart s p f).images = s.images := rfl
@[simp] theorem modPart_launches (s : State) (p : Nat) (f : Part → Part) : (modPart s p f).launches = s.launches := rfl
@[simp] theorem modPart_rq (s : State) (p : Nat) (f : Part → Part) : (modPart s p f).rq = s.rq := rfl
@[simp] theorem modPart_cores (s : State) (p : Nat) (f : Part → Part) : (modPart s p f).cores = s.cores := rfl
@[simp] theorem modPart_out (s : State) (p : Nat) (f : Part → Part) : (modPart s p f).out = s.out := rfl
@[simp] theorem modPart_links (s : State) (p : Nat) (f : Part → Part) : (modPart s p f).links = s.links := rfl
@[simp] theorem modPart_park (s : State) (p : Nat) (f : Part → Part) : (modPart s p f).park = s.park := rfl
@[simp] theorem modPart_flits (s : State) (p : Nat) (f : Part → Part) : (modPart s p f).flits = s.flits := rfl
@[simp] theorem modPart_thr (s : State) (p : Nat) (f : Part → Part) : (modPart s p f).thr = s.thr := rfl
@[simp] theorem modPart_sig (s : State) (p : Nat) (f : Part → Part) : (modPart s p f).sig = s.sig := rfl
@[simp] theorem modPart_shOps (s : State) (p : Nat) (f : Part → Part) : (modPart s p f).shOps = s.shOps := rfl
@[simp] theorem modPart_shMsgs (s : State) (p : Nat) (f : Part → Part) : (modPart s p f).shMsgs = s.shMsgs := rfl
@[simp] theorem modPart_shAns (s : State) (p : Nat) (f : Part → Part) : (modPart s p f).shAns = s.shAns := rfl
@[simp] theorem modPart_shTags (s : State) (p : Nat) (f : Part → Part) : (modPart s p f).shTags = s.shTags := rfl
@[simp] theorem modPart_agenda (s : State) (p : Nat) (f : Part → Part) : (modPart s p f).agenda = s.agenda := rfl
@[simp] theorem modPart_cur (s : State) (p : Nat) (f : Part → Part) : (modPart s p f).cur = s.cur := rfl
@[simp] theorem modPart_rr (s : State) (p : Nat) (f : Part → Part) : (modPart s p f).rr = s.rr := rfl

/-! ### modRing -/

@[simp] theorem modRing_dev (s : State) (r : Nat) (f : Ring → Ring) : (modRing s r f).dev = s.dev := rfl
@[simp] theorem modRing_dram (s : State) (r : Nat) (f : Ring → Ring) : (modRing s r f).dram = s.dram := rfl
@[simp] theorem modRing_near (s : State) (r : Nat) (f : Ring → Ring) : (modRing s r f).near = s.near := rfl
@[simp] theorem modRing_hostmem (s : State) (r : Nat) (f : Ring → Ring) : (modRing s r f).hostmem = s.hostmem := rfl
@[simp] theorem modRing_pages (s : State) (r : Nat) (f : Ring → Ring) : (modRing s r f).pages = s.pages := rfl
@[simp] theorem modRing_hostWait (s : State) (r : Nat) (f : Ring → Ring) : (modRing s r f).hostWait = s.hostWait := rfl
@[simp] theorem modRing_linkWait (s : State) (r : Nat) (f : Ring → Ring) : (modRing s r f).linkWait = s.linkWait := rfl
@[simp] theorem modRing_poison (s : State) (r : Nat) (f : Ring → Ring) : (modRing s r f).poison = s.poison := rfl
@[simp] theorem modRing_keys (s : State) (r : Nat) (f : Ring → Ring) : (modRing s r f).keys = s.keys := rfl
@[simp] theorem modRing_pend (s : State) (r : Nat) (f : Ring → Ring) : (modRing s r f).pend = s.pend := rfl
@[simp] theorem modRing_snaps (s : State) (r : Nat) (f : Ring → Ring) : (modRing s r f).snaps = s.snaps := rfl
@[simp] theorem modRing_rels (s : State) (r : Nat) (f : Ring → Ring) : (modRing s r f).rels = s.rels := rfl
@[simp] theorem modRing_seen (s : State) (r : Nat) (f : Ring → Ring) : (modRing s r f).seen = s.seen := rfl
@[simp] theorem modRing_wrote (s : State) (r : Nat) (f : Ring → Ring) : (modRing s r f).wrote = s.wrote := rfl
@[simp] theorem modRing_parts (s : State) (r : Nat) (f : Ring → Ring) : (modRing s r f).parts = s.parts := rfl
@[simp] theorem modRing_barriers (s : State) (r : Nat) (f : Ring → Ring) : (modRing s r f).barriers = s.barriers := rfl
@[simp] theorem modRing_images (s : State) (r : Nat) (f : Ring → Ring) : (modRing s r f).images = s.images := rfl
@[simp] theorem modRing_launches (s : State) (r : Nat) (f : Ring → Ring) : (modRing s r f).launches = s.launches := rfl
@[simp] theorem modRing_rq (s : State) (r : Nat) (f : Ring → Ring) : (modRing s r f).rq = s.rq := rfl
@[simp] theorem modRing_cores (s : State) (r : Nat) (f : Ring → Ring) : (modRing s r f).cores = s.cores := rfl
@[simp] theorem modRing_out (s : State) (r : Nat) (f : Ring → Ring) : (modRing s r f).out = s.out := rfl
@[simp] theorem modRing_links (s : State) (r : Nat) (f : Ring → Ring) : (modRing s r f).links = s.links := rfl
@[simp] theorem modRing_park (s : State) (r : Nat) (f : Ring → Ring) : (modRing s r f).park = s.park := rfl
@[simp] theorem modRing_flits (s : State) (r : Nat) (f : Ring → Ring) : (modRing s r f).flits = s.flits := rfl
@[simp] theorem modRing_thr (s : State) (r : Nat) (f : Ring → Ring) : (modRing s r f).thr = s.thr := rfl
@[simp] theorem modRing_sig (s : State) (r : Nat) (f : Ring → Ring) : (modRing s r f).sig = s.sig := rfl
@[simp] theorem modRing_shOps (s : State) (r : Nat) (f : Ring → Ring) : (modRing s r f).shOps = s.shOps := rfl
@[simp] theorem modRing_shMsgs (s : State) (r : Nat) (f : Ring → Ring) : (modRing s r f).shMsgs = s.shMsgs := rfl
@[simp] theorem modRing_shAns (s : State) (r : Nat) (f : Ring → Ring) : (modRing s r f).shAns = s.shAns := rfl
@[simp] theorem modRing_shTags (s : State) (r : Nat) (f : Ring → Ring) : (modRing s r f).shTags = s.shTags := rfl
@[simp] theorem modRing_agenda (s : State) (r : Nat) (f : Ring → Ring) : (modRing s r f).agenda = s.agenda := rfl
@[simp] theorem modRing_cur (s : State) (r : Nat) (f : Ring → Ring) : (modRing s r f).cur = s.cur := rfl
@[simp] theorem modRing_rr (s : State) (r : Nat) (f : Ring → Ring) : (modRing s r f).rr = s.rr := rfl

/-! ### modRq -/

@[simp] theorem modRq_dev (s : State) (id : Nat) (f : Rq → Rq) : (modRq s id f).dev = s.dev := rfl
@[simp] theorem modRq_dram (s : State) (id : Nat) (f : Rq → Rq) : (modRq s id f).dram = s.dram := rfl
@[simp] theorem modRq_near (s : State) (id : Nat) (f : Rq → Rq) : (modRq s id f).near = s.near := rfl
@[simp] theorem modRq_hostmem (s : State) (id : Nat) (f : Rq → Rq) : (modRq s id f).hostmem = s.hostmem := rfl
@[simp] theorem modRq_pages (s : State) (id : Nat) (f : Rq → Rq) : (modRq s id f).pages = s.pages := rfl
@[simp] theorem modRq_hostWait (s : State) (id : Nat) (f : Rq → Rq) : (modRq s id f).hostWait = s.hostWait := rfl
@[simp] theorem modRq_linkWait (s : State) (id : Nat) (f : Rq → Rq) : (modRq s id f).linkWait = s.linkWait := rfl
@[simp] theorem modRq_poison (s : State) (id : Nat) (f : Rq → Rq) : (modRq s id f).poison = s.poison := rfl
@[simp] theorem modRq_keys (s : State) (id : Nat) (f : Rq → Rq) : (modRq s id f).keys = s.keys := rfl
@[simp] theorem modRq_pend (s : State) (id : Nat) (f : Rq → Rq) : (modRq s id f).pend = s.pend := rfl
@[simp] theorem modRq_snaps (s : State) (id : Nat) (f : Rq → Rq) : (modRq s id f).snaps = s.snaps := rfl
@[simp] theorem modRq_rels (s : State) (id : Nat) (f : Rq → Rq) : (modRq s id f).rels = s.rels := rfl
@[simp] theorem modRq_seen (s : State) (id : Nat) (f : Rq → Rq) : (modRq s id f).seen = s.seen := rfl
@[simp] theorem modRq_wrote (s : State) (id : Nat) (f : Rq → Rq) : (modRq s id f).wrote = s.wrote := rfl
@[simp] theorem modRq_parts (s : State) (id : Nat) (f : Rq → Rq) : (modRq s id f).parts = s.parts := rfl
@[simp] theorem modRq_barriers (s : State) (id : Nat) (f : Rq → Rq) : (modRq s id f).barriers = s.barriers := rfl
@[simp] theorem modRq_rings (s : State) (id : Nat) (f : Rq → Rq) : (modRq s id f).rings = s.rings := rfl
@[simp] theorem modRq_images (s : State) (id : Nat) (f : Rq → Rq) : (modRq s id f).images = s.images := rfl
@[simp] theorem modRq_launches (s : State) (id : Nat) (f : Rq → Rq) : (modRq s id f).launches = s.launches := rfl
@[simp] theorem modRq_cores (s : State) (id : Nat) (f : Rq → Rq) : (modRq s id f).cores = s.cores := rfl
@[simp] theorem modRq_out (s : State) (id : Nat) (f : Rq → Rq) : (modRq s id f).out = s.out := rfl
@[simp] theorem modRq_links (s : State) (id : Nat) (f : Rq → Rq) : (modRq s id f).links = s.links := rfl
@[simp] theorem modRq_park (s : State) (id : Nat) (f : Rq → Rq) : (modRq s id f).park = s.park := rfl
@[simp] theorem modRq_flits (s : State) (id : Nat) (f : Rq → Rq) : (modRq s id f).flits = s.flits := rfl
@[simp] theorem modRq_thr (s : State) (id : Nat) (f : Rq → Rq) : (modRq s id f).thr = s.thr := rfl
@[simp] theorem modRq_sig (s : State) (id : Nat) (f : Rq → Rq) : (modRq s id f).sig = s.sig := rfl
@[simp] theorem modRq_shOps (s : State) (id : Nat) (f : Rq → Rq) : (modRq s id f).shOps = s.shOps := rfl
@[simp] theorem modRq_shMsgs (s : State) (id : Nat) (f : Rq → Rq) : (modRq s id f).shMsgs = s.shMsgs := rfl
@[simp] theorem modRq_shAns (s : State) (id : Nat) (f : Rq → Rq) : (modRq s id f).shAns = s.shAns := rfl
@[simp] theorem modRq_shTags (s : State) (id : Nat) (f : Rq → Rq) : (modRq s id f).shTags = s.shTags := rfl
@[simp] theorem modRq_agenda (s : State) (id : Nat) (f : Rq → Rq) : (modRq s id f).agenda = s.agenda := rfl
@[simp] theorem modRq_cur (s : State) (id : Nat) (f : Rq → Rq) : (modRq s id f).cur = s.cur := rfl
@[simp] theorem modRq_rr (s : State) (id : Nat) (f : Rq → Rq) : (modRq s id f).rr = s.rr := rfl

/-! ### addMeter -/

@[simp] theorem addMeter_dev (s : State) (id m n : Nat) : (addMeter s id m n).dev = s.dev := rfl
@[simp] theorem addMeter_dram (s : State) (id m n : Nat) : (addMeter s id m n).dram = s.dram := rfl
@[simp] theorem addMeter_near (s : State) (id m n : Nat) : (addMeter s id m n).near = s.near := rfl
@[simp] theorem addMeter_hostmem (s : State) (id m n : Nat) : (addMeter s id m n).hostmem = s.hostmem := rfl
@[simp] theorem addMeter_pages (s : State) (id m n : Nat) : (addMeter s id m n).pages = s.pages := rfl
@[simp] theorem addMeter_hostWait (s : State) (id m n : Nat) : (addMeter s id m n).hostWait = s.hostWait := rfl
@[simp] theorem addMeter_linkWait (s : State) (id m n : Nat) : (addMeter s id m n).linkWait = s.linkWait := rfl
@[simp] theorem addMeter_poison (s : State) (id m n : Nat) : (addMeter s id m n).poison = s.poison := rfl
@[simp] theorem addMeter_keys (s : State) (id m n : Nat) : (addMeter s id m n).keys = s.keys := rfl
@[simp] theorem addMeter_pend (s : State) (id m n : Nat) : (addMeter s id m n).pend = s.pend := rfl
@[simp] theorem addMeter_snaps (s : State) (id m n : Nat) : (addMeter s id m n).snaps = s.snaps := rfl
@[simp] theorem addMeter_rels (s : State) (id m n : Nat) : (addMeter s id m n).rels = s.rels := rfl
@[simp] theorem addMeter_seen (s : State) (id m n : Nat) : (addMeter s id m n).seen = s.seen := rfl
@[simp] theorem addMeter_wrote (s : State) (id m n : Nat) : (addMeter s id m n).wrote = s.wrote := rfl
@[simp] theorem addMeter_parts (s : State) (id m n : Nat) : (addMeter s id m n).parts = s.parts := rfl
@[simp] theorem addMeter_barriers (s : State) (id m n : Nat) : (addMeter s id m n).barriers = s.barriers := rfl
@[simp] theorem addMeter_rings (s : State) (id m n : Nat) : (addMeter s id m n).rings = s.rings := rfl
@[simp] theorem addMeter_images (s : State) (id m n : Nat) : (addMeter s id m n).images = s.images := rfl
@[simp] theorem addMeter_launches (s : State) (id m n : Nat) : (addMeter s id m n).launches = s.launches := rfl
@[simp] theorem addMeter_cores (s : State) (id m n : Nat) : (addMeter s id m n).cores = s.cores := rfl
@[simp] theorem addMeter_out (s : State) (id m n : Nat) : (addMeter s id m n).out = s.out := rfl
@[simp] theorem addMeter_links (s : State) (id m n : Nat) : (addMeter s id m n).links = s.links := rfl
@[simp] theorem addMeter_park (s : State) (id m n : Nat) : (addMeter s id m n).park = s.park := rfl
@[simp] theorem addMeter_flits (s : State) (id m n : Nat) : (addMeter s id m n).flits = s.flits := rfl
@[simp] theorem addMeter_thr (s : State) (id m n : Nat) : (addMeter s id m n).thr = s.thr := rfl
@[simp] theorem addMeter_sig (s : State) (id m n : Nat) : (addMeter s id m n).sig = s.sig := rfl
@[simp] theorem addMeter_shOps (s : State) (id m n : Nat) : (addMeter s id m n).shOps = s.shOps := rfl
@[simp] theorem addMeter_shMsgs (s : State) (id m n : Nat) : (addMeter s id m n).shMsgs = s.shMsgs := rfl
@[simp] theorem addMeter_shAns (s : State) (id m n : Nat) : (addMeter s id m n).shAns = s.shAns := rfl
@[simp] theorem addMeter_shTags (s : State) (id m n : Nat) : (addMeter s id m n).shTags = s.shTags := rfl
@[simp] theorem addMeter_agenda (s : State) (id m n : Nat) : (addMeter s id m n).agenda = s.agenda := rfl
@[simp] theorem addMeter_cur (s : State) (id m n : Nat) : (addMeter s id m n).cur = s.cur := rfl
@[simp] theorem addMeter_rr (s : State) (id m n : Nat) : (addMeter s id m n).rr = s.rr := rfl

/-! ### modThr -/

@[simp] theorem modThr_dev (s : State) (st : Nat) (f : Thr → Thr) : (modThr s st f).dev = s.dev := rfl
@[simp] theorem modThr_dram (s : State) (st : Nat) (f : Thr → Thr) : (modThr s st f).dram = s.dram := rfl
@[simp] theorem modThr_near (s : State) (st : Nat) (f : Thr → Thr) : (modThr s st f).near = s.near := rfl
@[simp] theorem modThr_hostmem (s : State) (st : Nat) (f : Thr → Thr) : (modThr s st f).hostmem = s.hostmem := rfl
@[simp] theorem modThr_pages (s : State) (st : Nat) (f : Thr → Thr) : (modThr s st f).pages = s.pages := rfl
@[simp] theorem modThr_hostWait (s : State) (st : Nat) (f : Thr → Thr) : (modThr s st f).hostWait = s.hostWait := rfl
@[simp] theorem modThr_linkWait (s : State) (st : Nat) (f : Thr → Thr) : (modThr s st f).linkWait = s.linkWait := rfl
@[simp] theorem modThr_poison (s : State) (st : Nat) (f : Thr → Thr) : (modThr s st f).poison = s.poison := rfl
@[simp] theorem modThr_keys (s : State) (st : Nat) (f : Thr → Thr) : (modThr s st f).keys = s.keys := rfl
@[simp] theorem modThr_pend (s : State) (st : Nat) (f : Thr → Thr) : (modThr s st f).pend = s.pend := rfl
@[simp] theorem modThr_snaps (s : State) (st : Nat) (f : Thr → Thr) : (modThr s st f).snaps = s.snaps := rfl
@[simp] theorem modThr_rels (s : State) (st : Nat) (f : Thr → Thr) : (modThr s st f).rels = s.rels := rfl
@[simp] theorem modThr_seen (s : State) (st : Nat) (f : Thr → Thr) : (modThr s st f).seen = s.seen := rfl
@[simp] theorem modThr_wrote (s : State) (st : Nat) (f : Thr → Thr) : (modThr s st f).wrote = s.wrote := rfl
@[simp] theorem modThr_parts (s : State) (st : Nat) (f : Thr → Thr) : (modThr s st f).parts = s.parts := rfl
@[simp] theorem modThr_barriers (s : State) (st : Nat) (f : Thr → Thr) : (modThr s st f).barriers = s.barriers := rfl
@[simp] theorem modThr_rings (s : State) (st : Nat) (f : Thr → Thr) : (modThr s st f).rings = s.rings := rfl
@[simp] theorem modThr_images (s : State) (st : Nat) (f : Thr → Thr) : (modThr s st f).images = s.images := rfl
@[simp] theorem modThr_launches (s : State) (st : Nat) (f : Thr → Thr) : (modThr s st f).launches = s.launches := rfl
@[simp] theorem modThr_rq (s : State) (st : Nat) (f : Thr → Thr) : (modThr s st f).rq = s.rq := rfl
@[simp] theorem modThr_cores (s : State) (st : Nat) (f : Thr → Thr) : (modThr s st f).cores = s.cores := rfl
@[simp] theorem modThr_out (s : State) (st : Nat) (f : Thr → Thr) : (modThr s st f).out = s.out := rfl
@[simp] theorem modThr_links (s : State) (st : Nat) (f : Thr → Thr) : (modThr s st f).links = s.links := rfl
@[simp] theorem modThr_park (s : State) (st : Nat) (f : Thr → Thr) : (modThr s st f).park = s.park := rfl
@[simp] theorem modThr_flits (s : State) (st : Nat) (f : Thr → Thr) : (modThr s st f).flits = s.flits := rfl
@[simp] theorem modThr_sig (s : State) (st : Nat) (f : Thr → Thr) : (modThr s st f).sig = s.sig := rfl
@[simp] theorem modThr_shOps (s : State) (st : Nat) (f : Thr → Thr) : (modThr s st f).shOps = s.shOps := rfl
@[simp] theorem modThr_shMsgs (s : State) (st : Nat) (f : Thr → Thr) : (modThr s st f).shMsgs = s.shMsgs := rfl
@[simp] theorem modThr_shAns (s : State) (st : Nat) (f : Thr → Thr) : (modThr s st f).shAns = s.shAns := rfl
@[simp] theorem modThr_shTags (s : State) (st : Nat) (f : Thr → Thr) : (modThr s st f).shTags = s.shTags := rfl
@[simp] theorem modThr_agenda (s : State) (st : Nat) (f : Thr → Thr) : (modThr s st f).agenda = s.agenda := rfl
@[simp] theorem modThr_cur (s : State) (st : Nat) (f : Thr → Thr) : (modThr s st f).cur = s.cur := rfl
@[simp] theorem modThr_rr (s : State) (st : Nat) (f : Thr → Thr) : (modThr s st f).rr = s.rr := rfl

/-! ### modLaunch -/

@[simp] theorem modLaunch_dev (s : State) (id : Nat) (f : Launch → Launch) : (modLaunch s id f).dev = s.dev := rfl
@[simp] theorem modLaunch_dram (s : State) (id : Nat) (f : Launch → Launch) : (modLaunch s id f).dram = s.dram := rfl
@[simp] theorem modLaunch_near (s : State) (id : Nat) (f : Launch → Launch) : (modLaunch s id f).near = s.near := rfl
@[simp] theorem modLaunch_hostmem (s : State) (id : Nat) (f : Launch → Launch) : (modLaunch s id f).hostmem = s.hostmem := rfl
@[simp] theorem modLaunch_pages (s : State) (id : Nat) (f : Launch → Launch) : (modLaunch s id f).pages = s.pages := rfl
@[simp] theorem modLaunch_hostWait (s : State) (id : Nat) (f : Launch → Launch) : (modLaunch s id f).hostWait = s.hostWait := rfl
@[simp] theorem modLaunch_linkWait (s : State) (id : Nat) (f : Launch → Launch) : (modLaunch s id f).linkWait = s.linkWait := rfl
@[simp] theorem modLaunch_poison (s : State) (id : Nat) (f : Launch → Launch) : (modLaunch s id f).poison = s.poison := rfl
@[simp] theorem modLaunch_keys (s : State) (id : Nat) (f : Launch → Launch) : (modLaunch s id f).keys = s.keys := rfl
@[simp] theorem modLaunch_pend (s : State) (id : Nat) (f : Launch → Launch) : (modLaunch s id f).pend = s.pend := rfl
@[simp] theorem modLaunch_snaps (s : State) (id : Nat) (f : Launch → Launch) : (modLaunch s id f).snaps = s.snaps := rfl
@[simp] theorem modLaunch_rels (s : State) (id : Nat) (f : Launch → Launch) : (modLaunch s id f).rels = s.rels := rfl
@[simp] theorem modLaunch_seen (s : State) (id : Nat) (f : Launch → Launch) : (modLaunch s id f).seen = s.seen := rfl
@[simp] theorem modLaunch_wrote (s : State) (id : Nat) (f : Launch → Launch) : (modLaunch s id f).wrote = s.wrote := rfl
@[simp] theorem modLaunch_parts (s : State) (id : Nat) (f : Launch → Launch) : (modLaunch s id f).parts = s.parts := rfl
@[simp] theorem modLaunch_barriers (s : State) (id : Nat) (f : Launch → Launch) : (modLaunch s id f).barriers = s.barriers := rfl
@[simp] theorem modLaunch_rings (s : State) (id : Nat) (f : Launch → Launch) : (modLaunch s id f).rings = s.rings := rfl
@[simp] theorem modLaunch_images (s : State) (id : Nat) (f : Launch → Launch) : (modLaunch s id f).images = s.images := rfl
@[simp] theorem modLaunch_rq (s : State) (id : Nat) (f : Launch → Launch) : (modLaunch s id f).rq = s.rq := rfl
@[simp] theorem modLaunch_cores (s : State) (id : Nat) (f : Launch → Launch) : (modLaunch s id f).cores = s.cores := rfl
@[simp] theorem modLaunch_out (s : State) (id : Nat) (f : Launch → Launch) : (modLaunch s id f).out = s.out := rfl
@[simp] theorem modLaunch_links (s : State) (id : Nat) (f : Launch → Launch) : (modLaunch s id f).links = s.links := rfl
@[simp] theorem modLaunch_park (s : State) (id : Nat) (f : Launch → Launch) : (modLaunch s id f).park = s.park := rfl
@[simp] theorem modLaunch_flits (s : State) (id : Nat) (f : Launch → Launch) : (modLaunch s id f).flits = s.flits := rfl
@[simp] theorem modLaunch_thr (s : State) (id : Nat) (f : Launch → Launch) : (modLaunch s id f).thr = s.thr := rfl
@[simp] theorem modLaunch_sig (s : State) (id : Nat) (f : Launch → Launch) : (modLaunch s id f).sig = s.sig := rfl
@[simp] theorem modLaunch_shOps (s : State) (id : Nat) (f : Launch → Launch) : (modLaunch s id f).shOps = s.shOps := rfl
@[simp] theorem modLaunch_shMsgs (s : State) (id : Nat) (f : Launch → Launch) : (modLaunch s id f).shMsgs = s.shMsgs := rfl
@[simp] theorem modLaunch_shAns (s : State) (id : Nat) (f : Launch → Launch) : (modLaunch s id f).shAns = s.shAns := rfl
@[simp] theorem modLaunch_shTags (s : State) (id : Nat) (f : Launch → Launch) : (modLaunch s id f).shTags = s.shTags := rfl
@[simp] theorem modLaunch_agenda (s : State) (id : Nat) (f : Launch → Launch) : (modLaunch s id f).agenda = s.agenda := rfl
@[simp] theorem modLaunch_cur (s : State) (id : Nat) (f : Launch → Launch) : (modLaunch s id f).cur = s.cur := rfl
@[simp] theorem modLaunch_rr (s : State) (id : Nat) (f : Launch → Launch) : (modLaunch s id f).rr = s.rr := rfl

/-! ### modBar -/

@[simp] theorem modBar_dev (s : State) (b : Nat) (f : Barrier → Barrier) : (modBar s b f).dev = s.dev := rfl
@[simp] theorem modBar_dram (s : State) (b : Nat) (f : Barrier → Barrier) : (modBar s b f).dram = s.dram := rfl
@[simp] theorem modBar_near (s : State) (b : Nat) (f : Barrier → Barrier) : (modBar s b f).near = s.near := rfl
@[simp] theorem modBar_hostmem (s : State) (b : Nat) (f : Barrier → Barrier) : (modBar s b f).hostmem = s.hostmem := rfl
@[simp] theorem modBar_pages (s : State) (b : Nat) (f : Barrier → Barrier) : (modBar s b f).pages = s.pages := rfl
@[simp] theorem modBar_hostWait (s : State) (b : Nat) (f : Barrier → Barrier) : (modBar s b f).hostWait = s.hostWait := rfl
@[simp] theorem modBar_linkWait (s : State) (b : Nat) (f : Barrier → Barrier) : (modBar s b f).linkWait = s.linkWait := rfl
@[simp] theorem modBar_poison (s : State) (b : Nat) (f : Barrier → Barrier) : (modBar s b f).poison = s.poison := rfl
@[simp] theorem modBar_keys (s : State) (b : Nat) (f : Barrier → Barrier) : (modBar s b f).keys = s.keys := rfl
@[simp] theorem modBar_pend (s : State) (b : Nat) (f : Barrier → Barrier) : (modBar s b f).pend = s.pend := rfl
@[simp] theorem modBar_snaps (s : State) (b : Nat) (f : Barrier → Barrier) : (modBar s b f).snaps = s.snaps := rfl
@[simp] theorem modBar_rels (s : State) (b : Nat) (f : Barrier → Barrier) : (modBar s b f).rels = s.rels := rfl
@[simp] theorem modBar_seen (s : State) (b : Nat) (f : Barrier → Barrier) : (modBar s b f).seen = s.seen := rfl
@[simp] theorem modBar_wrote (s : State) (b : Nat) (f : Barrier → Barrier) : (modBar s b f).wrote = s.wrote := rfl
@[simp] theorem modBar_parts (s : State) (b : Nat) (f : Barrier → Barrier) : (modBar s b f).parts = s.parts := rfl
@[simp] theorem modBar_rings (s : State) (b : Nat) (f : Barrier → Barrier) : (modBar s b f).rings = s.rings := rfl
@[simp] theorem modBar_images (s : State) (b : Nat) (f : Barrier → Barrier) : (modBar s b f).images = s.images := rfl
@[simp] theorem modBar_launches (s : State) (b : Nat) (f : Barrier → Barrier) : (modBar s b f).launches = s.launches := rfl
@[simp] theorem modBar_rq (s : State) (b : Nat) (f : Barrier → Barrier) : (modBar s b f).rq = s.rq := rfl
@[simp] theorem modBar_cores (s : State) (b : Nat) (f : Barrier → Barrier) : (modBar s b f).cores = s.cores := rfl
@[simp] theorem modBar_out (s : State) (b : Nat) (f : Barrier → Barrier) : (modBar s b f).out = s.out := rfl
@[simp] theorem modBar_links (s : State) (b : Nat) (f : Barrier → Barrier) : (modBar s b f).links = s.links := rfl
@[simp] theorem modBar_park (s : State) (b : Nat) (f : Barrier → Barrier) : (modBar s b f).park = s.park := rfl
@[simp] theorem modBar_flits (s : State) (b : Nat) (f : Barrier → Barrier) : (modBar s b f).flits = s.flits := rfl
@[simp] theorem modBar_thr (s : State) (b : Nat) (f : Barrier → Barrier) : (modBar s b f).thr = s.thr := rfl
@[simp] theorem modBar_sig (s : State) (b : Nat) (f : Barrier → Barrier) : (modBar s b f).sig = s.sig := rfl
@[simp] theorem modBar_shOps (s : State) (b : Nat) (f : Barrier → Barrier) : (modBar s b f).shOps = s.shOps := rfl
@[simp] theorem modBar_shMsgs (s : State) (b : Nat) (f : Barrier → Barrier) : (modBar s b f).shMsgs = s.shMsgs := rfl
@[simp] theorem modBar_shAns (s : State) (b : Nat) (f : Barrier → Barrier) : (modBar s b f).shAns = s.shAns := rfl
@[simp] theorem modBar_shTags (s : State) (b : Nat) (f : Barrier → Barrier) : (modBar s b f).shTags = s.shTags := rfl
@[simp] theorem modBar_agenda (s : State) (b : Nat) (f : Barrier → Barrier) : (modBar s b f).agenda = s.agenda := rfl
@[simp] theorem modBar_cur (s : State) (b : Nat) (f : Barrier → Barrier) : (modBar s b f).cur = s.cur := rfl
@[simp] theorem modBar_rr (s : State) (b : Nat) (f : Barrier → Barrier) : (modBar s b f).rr = s.rr := rfl

/-! ### What an update writes -/

@[simp] theorem modDev_dev (s : State) (f : Dev → Dev) : (modDev s f).dev = f s.dev := rfl
@[simp] theorem modCore_cores (s : State) (k : Nat) (f : Core → Core) : (modCore s k f).cores = sput s.cores k (f (coreAt s k)) := rfl
@[simp] theorem modPart_parts (s : State) (p : Nat) (f : Part → Part) : (modPart s p f).parts = sput s.parts p (f (partRec s p)) := rfl
@[simp] theorem modRing_rings (s : State) (r : Nat) (f : Ring → Ring) : (modRing s r f).rings = sput s.rings r (f (ringAt s r)) := rfl
@[simp] theorem modRq_rq (s : State) (id : Nat) (f : Rq → Rq) : (modRq s id f).rq = sput s.rq id (f (rqAt s id)) := rfl
@[simp] theorem modThr_thr (s : State) (st : Nat) (f : Thr → Thr) : (modThr s st f).thr = sput s.thr st (f (thrAt s st)) := rfl

/-! ### modCl and mapClus leave the rest of a core alone -/

@[simp] theorem modCl_ks (o : Core) (c : Cluster) (f : Clu → Clu) : (modCl o c f).ks = o.ks := by cases c <;> rfl
@[simp] theorem mapClus_ks (o : Core) (f : Cluster → Clu → Clu) : (mapClus o f).ks = o.ks := rfl
@[simp] theorem modCl_eng (o : Core) (c : Cluster) (f : Clu → Clu) : (modCl o c f).eng = o.eng := by cases c <;> rfl
@[simp] theorem mapClus_eng (o : Core) (f : Cluster → Clu → Clu) : (mapClus o f).eng = o.eng := rfl
@[simp] theorem modCl_kdm (o : Core) (c : Cluster) (f : Clu → Clu) : (modCl o c f).kdm = o.kdm := by cases c <;> rfl
@[simp] theorem mapClus_kdm (o : Core) (f : Cluster → Clu → Clu) : (mapClus o f).kdm = o.kdm := rfl
@[simp] theorem modCl_spad (o : Core) (c : Cluster) (f : Clu → Clu) : (modCl o c f).spad = o.spad := by cases c <;> rfl
@[simp] theorem mapClus_spad (o : Core) (f : Cluster → Clu → Clu) : (mapClus o f).spad = o.spad := rfl
@[simp] theorem modCl_spadEpoch (o : Core) (c : Cluster) (f : Clu → Clu) : (modCl o c f).spadEpoch = o.spadEpoch := by cases c <;> rfl
@[simp] theorem mapClus_spadEpoch (o : Core) (f : Cluster → Clu → Clu) : (mapClus o f).spadEpoch = o.spadEpoch := rfl
@[simp] theorem modCl_lsmask (o : Core) (c : Cluster) (f : Clu → Clu) : (modCl o c f).lsmask = o.lsmask := by cases c <;> rfl
@[simp] theorem mapClus_lsmask (o : Core) (f : Cluster → Clu → Clu) : (mapClus o f).lsmask = o.lsmask := rfl
@[simp] theorem modCl_lsmaskNext (o : Core) (c : Cluster) (f : Clu → Clu) : (modCl o c f).lsmaskNext = o.lsmaskNext := by cases c <;> rfl
@[simp] theorem mapClus_lsmaskNext (o : Core) (f : Cluster → Clu → Clu) : (mapClus o f).lsmaskNext = o.lsmaskNext := rfl
@[simp] theorem modCl_inRun (o : Core) (c : Cluster) (f : Clu → Clu) : (modCl o c f).inRun = o.inRun := by cases c <;> rfl
@[simp] theorem mapClus_inRun (o : Core) (f : Cluster → Clu → Clu) : (mapClus o f).inRun = o.inRun := rfl
@[simp] theorem modCl_runClk (o : Core) (c : Cluster) (f : Clu → Clu) : (modCl o c f).runClk = o.runClk := by cases c <;> rfl
@[simp] theorem mapClus_runClk (o : Core) (f : Cluster → Clu → Clu) : (mapClus o f).runClk = o.runClk := rfl
@[simp] theorem modCl_runstall (o : Core) (c : Cluster) (f : Clu → Clu) : (modCl o c f).runstall = o.runstall := by cases c <;> rfl
@[simp] theorem mapClus_runstall (o : Core) (f : Cluster → Clu → Clu) : (mapClus o f).runstall = o.runstall := rfl
@[simp] theorem modCl_vq (o : Core) (c : Cluster) (f : Clu → Clu) : (modCl o c f).vq = o.vq := by cases c <;> rfl
@[simp] theorem mapClus_vq (o : Core) (f : Cluster → Clu → Clu) : (mapClus o f).vq = o.vq := rfl
@[simp] theorem modCl_sq (o : Core) (c : Cluster) (f : Clu → Clu) : (modCl o c f).sq = o.sq := by cases c <;> rfl
@[simp] theorem mapClus_sq (o : Core) (f : Cluster → Clu → Clu) : (mapClus o f).sq = o.sq := rfl
@[simp] theorem modCl_q13b (o : Core) (c : Cluster) (f : Clu → Clu) : (modCl o c f).q13b = o.q13b := by cases c <;> rfl
@[simp] theorem mapClus_q13b (o : Core) (f : Cluster → Clu → Clu) : (mapClus o f).q13b = o.q13b := rfl
@[simp] theorem modCl_defV (o : Core) (c : Cluster) (f : Clu → Clu) : (modCl o c f).defV = o.defV := by cases c <;> rfl
@[simp] theorem mapClus_defV (o : Core) (f : Cluster → Clu → Clu) : (mapClus o f).defV = o.defV := rfl
@[simp] theorem modCl_defS (o : Core) (c : Cluster) (f : Clu → Clu) : (modCl o c f).defS = o.defS := by cases c <;> rfl
@[simp] theorem mapClus_defS (o : Core) (f : Cluster → Clu → Clu) : (mapClus o f).defS = o.defS := rfl
@[simp] theorem modCl_hc (o : Core) (c : Cluster) (f : Clu → Clu) : (modCl o c f).hc = o.hc := by cases c <;> rfl
@[simp] theorem mapClus_hc (o : Core) (f : Cluster → Clu → Clu) : (mapClus o f).hc = o.hc := rfl
@[simp] theorem modCl_popN (o : Core) (c : Cluster) (f : Clu → Clu) : (modCl o c f).popN = o.popN := by cases c <;> rfl
@[simp] theorem mapClus_popN (o : Core) (f : Cluster → Clu → Clu) : (mapClus o f).popN = o.popN := rfl
@[simp] theorem modCl_hcPost (o : Core) (c : Cluster) (f : Clu → Clu) : (modCl o c f).hcPost = o.hcPost := by cases c <;> rfl
@[simp] theorem mapClus_hcPost (o : Core) (f : Cluster → Clu → Clu) : (mapClus o f).hcPost = o.hcPost := rfl
@[simp] theorem modCl_hcTook (o : Core) (c : Cluster) (f : Clu → Clu) : (modCl o c f).hcTook = o.hcTook := by cases c <;> rfl
@[simp] theorem mapClus_hcTook (o : Core) (f : Cluster → Clu → Clu) : (mapClus o f).hcTook = o.hcTook := rfl
@[simp] theorem modCl_sg (o : Core) (c : Cluster) (f : Clu → Clu) : (modCl o c f).sg = o.sg := by cases c <;> rfl
@[simp] theorem mapClus_sg (o : Core) (f : Cluster → Clu → Clu) : (mapClus o f).sg = o.sg := rfl
@[simp] theorem modCl_barGen (o : Core) (c : Cluster) (f : Clu → Clu) : (modCl o c f).barGen = o.barGen := by cases c <;> rfl
@[simp] theorem mapClus_barGen (o : Core) (f : Cluster → Clu → Clu) : (mapClus o f).barGen = o.barGen := rfl
@[simp] theorem modCl_barArr (o : Core) (c : Cluster) (f : Clu → Clu) : (modCl o c f).barArr = o.barArr := by cases c <;> rfl
@[simp] theorem mapClus_barArr (o : Core) (f : Cluster → Clu → Clu) : (mapClus o f).barArr = o.barArr := rfl
@[simp] theorem modCl_barNext (o : Core) (c : Cluster) (f : Clu → Clu) : (modCl o c f).barNext = o.barNext := by cases c <;> rfl
@[simp] theorem mapClus_barNext (o : Core) (f : Cluster → Clu → Clu) : (mapClus o f).barNext = o.barNext := rfl
@[simp] theorem modCl_frozen (o : Core) (c : Cluster) (f : Clu → Clu) : (modCl o c f).frozen = o.frozen := by cases c <;> rfl
@[simp] theorem mapClus_frozen (o : Core) (f : Cluster → Clu → Clu) : (mapClus o f).frozen = o.frozen := rfl
@[simp] theorem modCl_freezeMore (o : Core) (c : Cluster) (f : Clu → Clu) : (modCl o c f).freezeMore = o.freezeMore := by cases c <;> rfl
@[simp] theorem mapClus_freezeMore (o : Core) (f : Cluster → Clu → Clu) : (mapClus o f).freezeMore = o.freezeMore := rfl
@[simp] theorem modCl_cefreeze (o : Core) (c : Cluster) (f : Clu → Clu) : (modCl o c f).cefreeze = o.cefreeze := by cases c <;> rfl
@[simp] theorem mapClus_cefreeze (o : Core) (f : Cluster → Clu → Clu) : (mapClus o f).cefreeze = o.cefreeze := rfl
@[simp] theorem modCl_gleanfix (o : Core) (c : Cluster) (f : Clu → Clu) : (modCl o c f).gleanfix = o.gleanfix := by cases c <;> rfl
@[simp] theorem mapClus_gleanfix (o : Core) (f : Cluster → Clu → Clu) : (mapClus o f).gleanfix = o.gleanfix := rfl
@[simp] theorem modCl_dbgQuiet (o : Core) (c : Cluster) (f : Clu → Clu) : (modCl o c f).dbgQuiet = o.dbgQuiet := by cases c <;> rfl
@[simp] theorem mapClus_dbgQuiet (o : Core) (f : Cluster → Clu → Clu) : (mapClus o f).dbgQuiet = o.dbgQuiet := rfl
@[simp] theorem modCl_dbgPorous (o : Core) (c : Cluster) (f : Clu → Clu) : (modCl o c f).dbgPorous = o.dbgPorous := by cases c <;> rfl
@[simp] theorem mapClus_dbgPorous (o : Core) (f : Cluster → Clu → Clu) : (mapClus o f).dbgPorous = o.dbgPorous := rfl
@[simp] theorem modCl_dbgNext (o : Core) (c : Cluster) (f : Clu → Clu) : (modCl o c f).dbgNext = o.dbgNext := by cases c <;> rfl
@[simp] theorem mapClus_dbgNext (o : Core) (f : Cluster → Clu → Clu) : (mapClus o f).dbgNext = o.dbgNext := rfl
@[simp] theorem modCl_pwr (o : Core) (c : Cluster) (f : Clu → Clu) : (modCl o c f).pwr = o.pwr := by cases c <;> rfl
@[simp] theorem mapClus_pwr (o : Core) (f : Cluster → Clu → Clu) : (mapClus o f).pwr = o.pwr := rfl
@[simp] theorem modCl_waking (o : Core) (c : Cluster) (f : Clu → Clu) : (modCl o c f).waking = o.waking := by cases c <;> rfl
@[simp] theorem mapClus_waking (o : Core) (f : Cluster → Clu → Clu) : (mapClus o f).waking = o.waking := rfl
@[simp] theorem modCl_pwrlimit (o : Core) (c : Cluster) (f : Clu → Clu) : (modCl o c f).pwrlimit = o.pwrlimit := by cases c <;> rfl
@[simp] theorem mapClus_pwrlimit (o : Core) (f : Cluster → Clu → Clu) : (mapClus o f).pwrlimit = o.pwrlimit := rfl
@[simp] theorem modCl_inst (o : Core) (c : Cluster) (f : Clu → Clu) : (modCl o c f).inst = o.inst := by cases c <;> rfl
@[simp] theorem mapClus_inst (o : Core) (f : Cluster → Clu → Clu) : (mapClus o f).inst = o.inst := rfl
@[simp] theorem modCl_lastPart (o : Core) (c : Cluster) (f : Clu → Clu) : (modCl o c f).lastPart = o.lastPart := by cases c <;> rfl
@[simp] theorem mapClus_lastPart (o : Core) (f : Cluster → Clu → Clu) : (mapClus o f).lastPart = o.lastPart := rfl
@[simp] theorem modCl_preempt (o : Core) (c : Cluster) (f : Clu → Clu) : (modCl o c f).preempt = o.preempt := by cases c <;> rfl
@[simp] theorem mapClus_preempt (o : Core) (f : Cluster → Clu → Clu) : (mapClus o f).preempt = o.preempt := rfl
@[simp] theorem modCl_preLate (o : Core) (c : Cluster) (f : Clu → Clu) : (modCl o c f).preLate = o.preLate := by cases c <;> rfl
@[simp] theorem mapClus_preLate (o : Core) (f : Cluster → Clu → Clu) : (mapClus o f).preLate = o.preLate := rfl
@[simp] theorem modCl_tlbK (o : Core) (c : Cluster) (f : Clu → Clu) : (modCl o c f).tlbK = o.tlbK := by cases c <;> rfl
@[simp] theorem mapClus_tlbK (o : Core) (f : Cluster → Clu → Clu) : (mapClus o f).tlbK = o.tlbK := rfl
@[simp] theorem modCl_tlbA (o : Core) (c : Cluster) (f : Clu → Clu) : (modCl o c f).tlbA = o.tlbA := by cases c <;> rfl
@[simp] theorem mapClus_tlbA (o : Core) (f : Cluster → Clu → Clu) : (mapClus o f).tlbA = o.tlbA := rfl
@[simp] theorem modCl_tlbM (o : Core) (c : Cluster) (f : Clu → Clu) : (modCl o c f).tlbM = o.tlbM := by cases c <;> rfl
@[simp] theorem mapClus_tlbM (o : Core) (f : Cluster → Clu → Clu) : (mapClus o f).tlbM = o.tlbM := rfl
@[simp] theorem modCl_tlbC (o : Core) (c : Cluster) (f : Clu → Clu) : (modCl o c f).tlbC = o.tlbC := by cases c <;> rfl
@[simp] theorem mapClus_tlbC (o : Core) (f : Cluster → Clu → Clu) : (mapClus o f).tlbC = o.tlbC := rfl
@[simp] theorem modCl_walks (o : Core) (c : Cluster) (f : Clu → Clu) : (modCl o c f).walks = o.walks := by cases c <;> rfl
@[simp] theorem mapClus_walks (o : Core) (f : Cluster → Clu → Clu) : (mapClus o f).walks = o.walks := rfl
@[simp] theorem modCl_pre (o : Core) (c : Cluster) (f : Clu → Clu) : (modCl o c f).pre = o.pre := by cases c <;> rfl
@[simp] theorem mapClus_pre (o : Core) (f : Cluster → Clu → Clu) : (mapClus o f).pre = o.pre := rfl
@[simp] theorem modCl_tagsK (o : Core) (c : Cluster) (f : Clu → Clu) : (modCl o c f).tagsK = o.tagsK := by cases c <;> rfl
@[simp] theorem mapClus_tagsK (o : Core) (f : Cluster → Clu → Clu) : (mapClus o f).tagsK = o.tagsK := rfl
@[simp] theorem modCl_tagsA (o : Core) (c : Cluster) (f : Clu → Clu) : (modCl o c f).tagsA = o.tagsA := by cases c <;> rfl
@[simp] theorem mapClus_tagsA (o : Core) (f : Cluster → Clu → Clu) : (mapClus o f).tagsA = o.tagsA := rfl
@[simp] theorem modCl_ovl (o : Core) (c : Cluster) (f : Clu → Clu) : (modCl o c f).ovl = o.ovl := by cases c <;> rfl
@[simp] theorem mapClus_ovl (o : Core) (f : Cluster → Clu → Clu) : (mapClus o f).ovl = o.ovl := rfl
@[simp] theorem modCl_qObs (o : Core) (c : Cluster) (f : Clu → Clu) : (modCl o c f).qObs = o.qObs := by cases c <;> rfl
@[simp] theorem mapClus_qObs (o : Core) (f : Cluster → Clu → Clu) : (mapClus o f).qObs = o.qObs := rfl
@[simp] theorem modCl_hcObs (o : Core) (c : Cluster) (f : Clu → Clu) : (modCl o c f).hcObs = o.hcObs := by cases c <;> rfl
@[simp] theorem mapClus_hcObs (o : Core) (f : Cluster → Clu → Clu) : (mapClus o f).hcObs = o.hcObs := rfl
@[simp] theorem modCl_sgObs (o : Core) (c : Cluster) (f : Clu → Clu) : (modCl o c f).sgObs = o.sgObs := by cases c <;> rfl
@[simp] theorem mapClus_sgObs (o : Core) (f : Cluster → Clu → Clu) : (mapClus o f).sgObs = o.sgObs := rfl
@[simp] theorem modCl_barObs (o : Core) (c : Cluster) (f : Clu → Clu) : (modCl o c f).barObs = o.barObs := by cases c <;> rfl
@[simp] theorem mapClus_barObs (o : Core) (f : Cluster → Clu → Clu) : (mapClus o f).barObs = o.barObs := rfl
@[simp] theorem modCl_barNextObs (o : Core) (c : Cluster) (f : Clu → Clu) : (modCl o c f).barNextObs = o.barNextObs := by cases c <;> rfl
@[simp] theorem mapClus_barNextObs (o : Core) (f : Cluster → Clu → Clu) : (mapClus o f).barNextObs = o.barNextObs := rfl
@[simp] theorem modCl_barDone (o : Core) (c : Cluster) (f : Clu → Clu) : (modCl o c f).barDone = o.barDone := by cases c <;> rfl
@[simp] theorem mapClus_barDone (o : Core) (f : Cluster → Clu → Clu) : (mapClus o f).barDone = o.barDone := rfl
@[simp] theorem modCl_gl (o : Core) (c : Cluster) (f : Clu → Clu) : (modCl o c f).gl = o.gl := by cases c <;> rfl
@[simp] theorem mapClus_gl (o : Core) (f : Cluster → Clu → Clu) : (mapClus o f).gl = o.gl := rfl
@[simp] theorem modCl_late (o : Core) (c : Cluster) (f : Clu → Clu) : (modCl o c f).late = o.late := by cases c <;> rfl
@[simp] theorem mapClus_late (o : Core) (f : Cluster → Clu → Clu) : (mapClus o f).late = o.late := rfl
@[simp] theorem modCl_tagsC (o : Core) (c : Cluster) (f : Clu → Clu) : (modCl o c f).tagsC = o.tagsC := by cases c <;> rfl
@[simp] theorem mapClus_tagsC (o : Core) (f : Cluster → Clu → Clu) : (mapClus o f).tagsC = o.tagsC := rfl
@[simp] theorem modCl_tagsF (o : Core) (c : Cluster) (f : Clu → Clu) : (modCl o c f).tagsF = o.tagsF := by cases c <;> rfl
@[simp] theorem mapClus_tagsF (o : Core) (f : Cluster → Clu → Clu) : (mapClus o f).tagsF = o.tagsF := rfl

@[simp] theorem clOf_modCl (o : Core) (c : Cluster) (f : Clu → Clu) : clOf (modCl o c f) c = f (clOf o c) := by cases c <;> rfl
theorem clOf_modCl_ne (o : Core) (c d : Cluster) (f : Clu → Clu) (h : d ≠ c) : clOf (modCl o c f) d = clOf o d := by
  cases c <;> cases d <;> first | rfl | exact absurd rfl h

end Sys2Proof.Machine
end

