-- ==== Sys2Proof/Laws/Access.lean ====
section
/-! SUPPORT. Reading a part of the state after writing one: cores, clusters, contexts, registers, tables. -/

namespace Sys2Proof.Machine

/-! ### Cores, clusters, contexts -/

@[simp] theorem coreAt_modCore_same (s : State) (k : Nat) (f : Core → Core) : coreAt (modCore s k f) k = f (coreAt s k) := sget_sput_same ..
theorem coreAt_modCore_ne (s : State) {k j : Nat} (f : Core → Core) (h : j ≠ k) : coreAt (modCore s k f) j = coreAt s j := sget_sput_ne _ _ _ _ _ h
@[simp] theorem cluAt_modClu_same (s : State) (k : Nat) (c : Cluster) (f : Clu → Clu) : cluAt (modClu s k c f) k c = f (cluAt s k c) := by
  simp [cluAt, modClu]
theorem cluAt_modClu_ne (s : State) (k : Nat) {c d : Cluster} (f : Clu → Clu) (h : d ≠ c) : cluAt (modClu s k c f) k d = cluAt s k d := by
  simp [cluAt, modClu, clOf_modCl_ne _ c d f h]
theorem coreAt_modClu (s : State) (k : Nat) (c : Cluster) (f : Clu → Clu) : coreAt (modClu s k c f) k = modCl (coreAt s k) c f := coreAt_modCore_same ..
theorem coreAt_modClu_ne (s : State) {k j : Nat} (c : Cluster) (f : Clu → Clu) (h : j ≠ k) : coreAt (modClu s k c f) j = coreAt s j :=
  coreAt_modCore_ne s _ h
theorem coreAt_modKs (s : State) (k : Nat) (f : KSt → KSt) : coreAt (modKs s k f) k = { coreAt s k with ks := f (coreAt s k).ks } :=
  coreAt_modCore_same ..
theorem coreAt_modEng (s : State) (k : Nat) (f : Eng → Eng) : coreAt (modEng s k f) k = { coreAt s k with eng := f (coreAt s k).eng } :=
  coreAt_modCore_same ..
@[simp] theorem ctxOf_modCtx_same (s : State) (a : At) (f : Ctx → Ctx) : ctxOf (modCtx s a f) a = f (ctxOf s a) := by
  obtain ⟨k, c, x⟩ := a
  cases x <;> simp [ctxOf, modCtx, coreAt_modKs]
theorem pcOf_modCtx (s : State) (a : At) (f : Ctx → Ctx) : pcOf (modCtx s a f) a = (f (ctxOf s a)).pc := by simp [pcOf]
@[simp] theorem modCtx_uliActive (s : State) (a : At) (f : Ctx → Ctx) : (coreAt (modCtx s a f) a.k).ks.uliActive = (coreAt s a.k).ks.uliActive := by
  obtain ⟨k, c, x⟩ := a
  cases x <;> simp [modCtx, coreAt_modKs, coreAt_modClu]
/-- A change of a context, as a change of its core. -/
def ctxIn (a : At) (f : Ctx → Ctx) (o : Core) : Core :=
  match a.x with
  | .user => modCl o a.c fun u => { u with ctx := f u.ctx }
  | .fw => { o with ks := { o.ks with fw := f o.ks.fw } }
  | .pager => { o with ks := { o.ks with pager := f o.ks.pager } }
theorem modCtx_eq_modCore (s : State) (a : At) (f : Ctx → Ctx) : modCtx s a f = modCore s a.k (ctxIn a f) := by
  obtain ⟨k, c, x⟩ := a
  cases x <;> rfl

/-! ### Scalar registers and predicates -/

@[simp] theorem getX_zero (s : State) (a : At) : getX s a 0 = 0 := rfl
@[simp] theorem setX_zero (s : State) (a : At) (v : Word) : setX s a 0 v = s := rfl
@[simp] theorem getP_zero (s : State) (a : At) : getP s a 0 = true := rfl
@[simp] theorem setP_zero (s : State) (a : At) (v : Bool) : setP s a 0 v = s := rfl
@[simp] theorem xKey_modCtx (s : State) (a : At) (f : Ctx → Ctx) (n : Nat) : xKey (modCtx s a f) a n = xKey s a n := by simp [xKey]
theorem xKey_inj (s : State) (a : At) {n m : Nat} (hn : n < 64) (hm : m < 64) (h : xKey s a n = xKey s a m) : n = m := by
  simp only [xKey] at h; split at h <;> split at h <;> omega
theorem getX_setX_same (s : State) (a : At) (n : Nat) (v : Word) (h : n ≠ 0) : getX (setX s a n v) a n = v := by simp [getX, setX, h]
theorem getX_setX_ne (s : State) (a : At) {n m : Nat} (v : Word) (hn : n < 64) (hm : m < 64) (h : m ≠ n) : getX (setX s a n v) a m = getX s a m := by
  unfold getX setX
  split
  · rfl
  · split
    · rfl
    · simp only [xKey_modCtx, ctxOf_modCtx_same]
      exact sget_sset_ne _ _ _ _ _ fun e => h (xKey_inj s a hm hn e)
theorem getP_setP_same (s : State) (a : At) (n : Nat) (v : Bool) (h : n ≠ 0) (h16 : n < 16) : getP (setP s a n v) a n = v := by
  simp only [getP, setP, h, if_false, ctxOf_modCtx_same, BitVec.getLsbD_or, BitVec.getLsbD_and, BitVec.getLsbD_not, BitVec.getLsbD_ofNat, h16, decide_true,
    Nat.testBit_two_pow_self]
  cases v <;> simp
theorem getP_setP_ne (s : State) (a : At) {n m : Nat} (v : Bool) (h : m ≠ n) (h16 : m < 16) : getP (setP s a n v) a m = getP s a m := by
  unfold getP setP
  split
  · rfl
  · split
    · rfl
    · rename_i hm hn
      simp only [ctxOf_modCtx_same, BitVec.getLsbD_or, BitVec.getLsbD_and, BitVec.getLsbD_not, BitVec.getLsbD_ofNat, h16, decide_true]
      have ht : Nat.testBit (2 ^ n) m = false := by rw [Nat.testBit_two_pow]; simpa using fun e => h e.symm
      cases v <;> simp [ht]

/-! ### Vector registers, masks, stream registers, signal words -/

theorem vPhys_inj (r : Nat) {n m : Nat} (hn : n < 640) (hm : m < 640) (h : vPhys r n = vPhys r m) : n = m := by
  simp only [vPhys] at h; split at h <;> split at h <;> omega
@[simp] theorem getV_setV_same (s : State) (a : At) (n : Nat) (v : VReg) : getV (setV s a n v) a n = v := by simp [getV, setV]
theorem getV_setV_ne (s : State) (a : At) {n m : Nat} (v : VReg) (hn : n < 640) (hm : m < 640) (h : m ≠ n) : getV (setV s a n v) a m = getV s a m := by
  simp only [getV, setV, cluAt_modClu_same]
  exact sget_sset_ne _ _ _ _ _ fun e => h (vPhys_inj _ hm hn e)
@[simp] theorem getM_setM_same (s : State) (a : At) (n : Nat) (v : Mask) : getM (setM s a n v) a n = v := by simp [getM, setM]
theorem getM_setM_ne (s : State) (a : At) {n m : Nat} (v : Mask) (h : m ≠ n) : getM (setM s a n v) a m = getM s a m := by
  simp only [getM, setM, cluAt_modClu_same]; exact sget_sset_ne _ _ _ _ _ h
@[simp] theorem getSR_setSR_same (s : State) (k n : Nat) (v : SReg) : getSR (setSR s k n v) k n = v := by
  simp [getSR, setSR, coreAt_modClu, modCl]
theorem getSR_setSR_ne (s : State) (k : Nat) {n m : Nat} (v : SReg) (h : m ≠ n) : getSR (setSR s k n v) k m = getSR s k m := by
  simp only [getSR, setSR, coreAt_modClu, modCl]; exact sget_sset_ne _ _ _ _ _ h

/-! ### Tables of the device -/

@[simp] theorem partRec_modPart_same (s : State) (p : Nat) (f : Part → Part) : partRec (modPart s p f) p = f (partRec s p) := sget_sput_same ..
theorem partRec_modPart_ne (s : State) {p q : Nat} (f : Part → Part) (h : q ≠ p) : partRec (modPart s p f) q = partRec s q := sget_sput_ne _ _ _ _ _ h
@[simp] theorem ringAt_modRing_same (s : State) (r : Nat) (f : Ring → Ring) : ringAt (modRing s r f) r = f (ringAt s r) := sget_sput_same ..
theorem ringAt_modRing_ne (s : State) {r q : Nat} (f : Ring → Ring) (h : q ≠ r) : ringAt (modRing s r f) q = ringAt s q := sget_sput_ne _ _ _ _ _ h
@[simp] theorem rqAt_modRq_same (s : State) (id : Nat) (f : Rq → Rq) : rqAt (modRq s id f) id = f (rqAt s id) := sget_sput_same ..
theorem rqAt_modRq_ne (s : State) {id j : Nat} (f : Rq → Rq) (h : j ≠ id) : rqAt (modRq s id f) j = rqAt s j := sget_sput_ne _ _ _ _ _ h
@[simp] theorem thrAt_modThr_same (s : State) (st : Nat) (f : Thr → Thr) : thrAt (modThr s st f) st = f (thrAt s st) := sget_sput_same ..
theorem thrAt_modThr_ne (s : State) {st j : Nat} (f : Thr → Thr) (h : j ≠ st) : thrAt (modThr s st f) j = thrAt s j := sget_sput_ne _ _ _ _ _ h
@[simp] theorem eqAt_modEQ_same (s : State) (k q : Nat) (f : EQ → EQ) : eqAt (coreAt (modEQ s k q f) k) q = f (eqAt (coreAt s k) q) := by
  simp only [eqAt, modEQ, coreAt_modEng]; exact sget_sput_same ..
theorem eqAt_modEQ_ne (s : State) (k : Nat) {q r : Nat} (f : EQ → EQ) (h : r ≠ q) : eqAt (coreAt (modEQ s k q f) k) r = eqAt (coreAt s k) r := by
  simp only [eqAt, modEQ, coreAt_modEng]; exact sget_sput_ne _ _ _ _ _ h

end Sys2Proof.Machine
end

