-- ==== Sys2Proof/Laws/Bits.lean ====
section
/-! SUPPORT. Bit fields, elements and bytes: what is read of a number that was put together. -/

namespace Sys2Proof.Machine

theorem fld_eq (x lo len : Nat) : fld x lo len = x / 2 ^ lo % 2 ^ len := by simp [fld, Nat.shiftRight_eq_div_pow]
theorem fld_lt (x lo len : Nat) : fld x lo len < 2 ^ len := Nat.mod_lt _ (Nat.two_pow_pos len)
theorem fld_mod (x lo len k : Nat) (h : lo + len ≤ k) : fld (x % 2 ^ k) lo len = fld x lo len := by
  simp only [fld_eq]
  rw [← Nat.mod_mul_right_div_self, ← Nat.mod_mul_right_div_self, ← Nat.pow_add, Nat.mod_mod_of_dvd x (Nat.pow_dvd_pow 2 h)]
theorem bitN_eq (x i : Nat) : bitN x i = x.testBit i := by
  simp [bitN, fld_eq, Nat.testBit, Nat.shiftRight_eq_div_pow, Nat.one_and_eq_mod_two]

/-! ### Elements -/

theorem buildN_succ (w n : Nat) (f : Nat → Nat) : buildN w (n + 1) f = f 0 % 2 ^ w + 2 ^ w * buildN w n fun i => f (i + 1) := by
  simp only [buildN, List.range_succ_eq_map, List.foldr_cons, List.foldr_map]
theorem buildN_lt (w n : Nat) (f : Nat → Nat) : buildN w n f < 2 ^ (w * n) := by
  induction n generalizing f with
  | zero => simp [buildN]
  | succ n ih =>
    rw [buildN_succ, Nat.mul_succ, Nat.pow_add]
    have h1 := Nat.mod_lt (f 0) (Nat.two_pow_pos w)
    have h2 := ih fun i => f (i + 1)
    calc f 0 % 2 ^ w + 2 ^ w * buildN w n _ < 2 ^ w * (buildN w n (fun i => f (i + 1)) + 1) := by rw [Nat.mul_add]; omega
      _ ≤ 2 ^ w * 2 ^ (w * n) := Nat.mul_le_mul_left _ h2
      _ = 2 ^ (w * n) * 2 ^ w := Nat.mul_comm ..
/-- An element of a register that was put together. -/
theorem elemN_buildN (w n : Nat) (f : Nat → Nat) {j : Nat} (h : j < n) : elemN w (buildN w n f) j = f j % 2 ^ w := by
  simp only [elemN, fld_eq]
  induction n generalizing f j with
  | zero => omega
  | succ n ih =>
    have hw := Nat.two_pow_pos w
    rw [buildN_succ]
    cases j with
    | zero => simp [Nat.add_mul_mod_self_left]
    | succ j =>
      rw [Nat.mul_succ, Nat.add_comm (w * j), Nat.pow_add, ← Nat.div_div_eq_div_mul, Nat.add_mul_div_left _ _ hw,
        Nat.div_eq_of_lt (Nat.mod_lt _ hw), Nat.zero_add]
      exact ih (fun i => f (i + 1)) (by omega)
theorem elemN_lt (w x i : Nat) : elemN w x i < 2 ^ w := fld_lt ..
/-- Elements under a mask (R125). -/
theorem elemN_mergeV (w n mask old : Nat) (f : Nat → Nat) {j : Nat} (h : j < n) :
    elemN w (buildN w n fun i => if bitN mask i then f i else elemN w old i) j = if bitN mask j then f j % 2 ^ w else elemN w old j := by
  rw [elemN_buildN w n _ h]
  split
  · rfl
  · exact Nat.mod_eq_of_lt (elemN_lt w old j)

/-! ### Bytes -/

@[simp] theorem length_bytesOf (n x : Nat) : (bytesOf n x).length = n := by
  induction n generalizing x with
  | zero => rfl
  | succ n ih => simp [bytesOf, ih]
theorem ofBytes_bytesOf (n x : Nat) : ofBytes (bytesOf n x) = x % 256 ^ n := by
  induction n generalizing x with
  | zero => simp [bytesOf, ofBytes, Nat.mod_one]
  | succ n ih =>
    simp only [bytesOf, ofBytes, ih, BitVec.toNat_ofNat]
    rw [show 256 ^ (n + 1) = 256 * 256 ^ n from Nat.pow_succ', Nat.mod_mul]

/-! ### Packed fields -/

/-- The field that stands first. -/
theorem packFields_head (w v : Nat) (fs : List (Nat × Nat)) : packFields ((w, v) :: fs) % 2 ^ w = v % 2 ^ w := by
  simp [packFields, Nat.add_mul_mod_self_left]
theorem packFields_tail (w v : Nat) (fs : List (Nat × Nat)) : packFields ((w, v) :: fs) / 2 ^ w = packFields fs := by
  have hw := Nat.two_pow_pos w
  rw [packFields, Nat.add_mul_div_left _ _ hw, Nat.div_eq_of_lt (Nat.mod_lt _ hw), Nat.zero_add]

end Sys2Proof.Machine
end

