-- ==== Sys2Proof/Laws/Exec.lean ====
section
/-! SUPPORT. One equation for each instruction: `exec` calls its meaning. -/

namespace Sys2Proof.Machine

@[simp] theorem exec_br off (s : State) : exec (.br off) s = execBr off s := rfl
@[simp] theorem exec_brp off (s : State) : exec (.brp off) s = execBrp off s := rfl
@[simp] theorem exec_brx a (s : State) : exec (.brx a) s = execBrx a s := rfl
@[simp] theorem exec_call d off (s : State) : exec (.call d off) s = execCall d off s := rfl
@[simp] theorem exec_ret a (s : State) : exec (.ret a) s = execRet a s := rfl
@[simp] theorem exec_loop l a off (s : State) : exec (.loop l a off) s = execLoop l a off s := rfl
@[simp] theorem exec_rloop l st a off (s : State) : exec (.rloop l st a off) s = execRloop l st a off s := rfl
@[simp] theorem exec_ovl n mask (s : State) : exec (.ovl n mask) s = execOvl n mask s := rfl
@[simp] theorem exec_sysrd d r (s : State) : exec (.sysrd d r) s = execSysrd d r s := rfl
@[simp] theorem exec_syswr a r (s : State) : exec (.syswr a r) s = execSyswr a r s := rfl
@[simp] theorem exec_fwVersion d a (s : State) : exec (.fwVersion d a) s = execFwVersion d a s := rfl
@[simp] theorem exec_fwForm d a (s : State) : exec (.fwForm d a) s = execFwForm d a s := rfl
@[simp] theorem exec_fwPower d a (s : State) : exec (.fwPower d a) s = execFwPower d a s := rfl
@[simp] theorem exec_fwGovernor d a (s : State) : exec (.fwGovernor d a) s = execFwGovernor d a s := rfl
@[simp] theorem exec_fwPlat d a (s : State) : exec (.fwPlat d a) s = execFwPlat d a s := rfl
@[simp] theorem exec_fwDebugPolicy d a (s : State) : exec (.fwDebugPolicy d a) s = execFwDebugPolicy d a s := rfl
@[simp] theorem exec_fwPagerRequest d a (s : State) : exec (.fwPagerRequest d a) s = execFwPagerRequest d a s := rfl
@[simp] theorem exec_fwUnknown d a svc (s : State) : exec (.fwUnknown d a svc) s = execFwUnknown d a svc s := rfl
@[simp] theorem exec_trap a code (s : State) : exec (.trap a code) s = execTrap a code s := rfl
@[simp] theorem exec_add d a b (s : State) : exec (.add d a b) s = execAdd d a b s := rfl
@[simp] theorem exec_sub d a b (s : State) : exec (.sub d a b) s = execSub d a b s := rfl
@[simp] theorem exec_and d a b (s : State) : exec (.and d a b) s = execAnd d a b s := rfl
@[simp] theorem exec_or d a b (s : State) : exec (.or d a b) s = execOr d a b s := rfl
@[simp] theorem exec_xor d a b (s : State) : exec (.xor d a b) s = execXor d a b s := rfl
@[simp] theorem exec_andn d a b (s : State) : exec (.andn d a b) s = execAndn d a b s := rfl
@[simp] theorem exec_shl d a b (s : State) : exec (.shl d a b) s = execShl d a b s := rfl
@[simp] theorem exec_shr d a b (s : State) : exec (.shr d a b) s = execShr d a b s := rfl
@[simp] theorem exec_sra d a b (s : State) : exec (.sra d a b) s = execSra d a b s := rfl
@[simp] theorem exec_rot d a b (s : State) : exec (.rot d a b) s = execRot d a b s := rfl
@[simp] theorem exec_min d a b (s : State) : exec (.min d a b) s = execMin d a b s := rfl
@[simp] theorem exec_max d a b (s : State) : exec (.max d a b) s = execMax d a b s := rfl
@[simp] theorem exec_minu d a b (s : State) : exec (.minu d a b) s = execMinu d a b s := rfl
@[simp] theorem exec_maxu d a b (s : State) : exec (.maxu d a b) s = execMaxu d a b s := rfl
@[simp] theorem exec_addImm d a imm (s : State) : exec (.addImm d a imm) s = execAddImm d a imm s := rfl
@[simp] theorem exec_subImm d a imm (s : State) : exec (.subImm d a imm) s = execSubImm d a imm s := rfl
@[simp] theorem exec_andImm d a imm (s : State) : exec (.andImm d a imm) s = execAndImm d a imm s := rfl
@[simp] theorem exec_orImm d a imm (s : State) : exec (.orImm d a imm) s = execOrImm d a imm s := rfl
@[simp] theorem exec_xorImm d a imm (s : State) : exec (.xorImm d a imm) s = execXorImm d a imm s := rfl
@[simp] theorem exec_andnImm d a imm (s : State) : exec (.andnImm d a imm) s = execAndnImm d a imm s := rfl
@[simp] theorem exec_shlImm d a imm (s : State) : exec (.shlImm d a imm) s = execShlImm d a imm s := rfl
@[simp] theorem exec_shrImm d a imm (s : State) : exec (.shrImm d a imm) s = execShrImm d a imm s := rfl
@[simp] theorem exec_sraImm d a imm (s : State) : exec (.sraImm d a imm) s = execSraImm d a imm s := rfl
@[simp] theorem exec_rotImm d a imm (s : State) : exec (.rotImm d a imm) s = execRotImm d a imm s := rfl
@[simp] theorem exec_minImm d a imm (s : State) : exec (.minImm d a imm) s = execMinImm d a imm s := rfl
@[simp] theorem exec_maxImm d a imm (s : State) : exec (.maxImm d a imm) s = execMaxImm d a imm s := rfl
@[simp] theorem exec_minuImm d a imm (s : State) : exec (.minuImm d a imm) s = execMinuImm d a imm s := rfl
@[simp] theorem exec_maxuImm d a imm (s : State) : exec (.maxuImm d a imm) s = execMaxuImm d a imm s := rfl
@[simp] theorem exec_mul d a b (s : State) : exec (.mul d a b) s = execMul d a b s := rfl
@[simp] theorem exec_mulh d a b (s : State) : exec (.mulh d a b) s = execMulh d a b s := rfl
@[simp] theorem exec_mulhu d a b (s : State) : exec (.mulhu d a b) s = execMulhu d a b s := rfl
@[simp] theorem exec_div d a b (s : State) : exec (.div d a b) s = execDiv d a b s := rfl
@[simp] theorem exec_divu d a b (s : State) : exec (.divu d a b) s = execDivu d a b s := rfl
@[simp] theorem exec_rem d a b (s : State) : exec (.rem d a b) s = execRem d a b s := rfl
@[simp] theorem exec_remu d a b (s : State) : exec (.remu d a b) s = execRemu d a b s := rfl
@[simp] theorem exec_clz d a (s : State) : exec (.clz d a) s = execClz d a s := rfl
@[simp] theorem exec_popc d a (s : State) : exec (.popc d a) s = execPopc d a s := rfl
@[simp] theorem exec_ctz d a (s : State) : exec (.ctz d a) s = execCtz d a s := rfl
@[simp] theorem exec_bfxS d a pos len1 (s : State) : exec (.bfxS d a pos len1) s = execBfxS d a pos len1 s := rfl
@[simp] theorem exec_bfxU d a pos len1 (s : State) : exec (.bfxU d a pos len1) s = execBfxU d a pos len1 s := rfl
@[simp] theorem exec_bfi d a pos len1 (s : State) : exec (.bfi d a pos len1) s = execBfi d a pos len1 s := rfl
@[simp] theorem exec_li d imm (s : State) : exec (.li d imm) s = execLi d imm s := rfl
@[simp] theorem exec_lih d chunk imm (s : State) : exec (.lih d chunk imm) s = execLih d chunk imm s := rfl
@[simp] theorem exec_cmpEq d a b (s : State) : exec (.cmpEq d a b) s = execCmpEq d a b s := rfl
@[simp] theorem exec_cmpNe d a b (s : State) : exec (.cmpNe d a b) s = execCmpNe d a b s := rfl
@[simp] theorem exec_cmpLt d a b (s : State) : exec (.cmpLt d a b) s = execCmpLt d a b s := rfl
@[simp] theorem exec_cmpGe d a b (s : State) : exec (.cmpGe d a b) s = execCmpGe d a b s := rfl
@[simp] theorem exec_cmpLtu d a b (s : State) : exec (.cmpLtu d a b) s = execCmpLtu d a b s := rfl
@[simp] theorem exec_cmpGeu d a b (s : State) : exec (.cmpGeu d a b) s = execCmpGeu d a b s := rfl
@[simp] theorem exec_cmpEqImm d a imm (s : State) : exec (.cmpEqImm d a imm) s = execCmpEqImm d a imm s := rfl
@[simp] theorem exec_cmpNeImm d a imm (s : State) : exec (.cmpNeImm d a imm) s = execCmpNeImm d a imm s := rfl
@[simp] theorem exec_cmpLtImm d a imm (s : State) : exec (.cmpLtImm d a imm) s = execCmpLtImm d a imm s := rfl
@[simp] theorem exec_cmpGeImm d a imm (s : State) : exec (.cmpGeImm d a imm) s = execCmpGeImm d a imm s := rfl
@[simp] theorem exec_cmpLtuImm d a imm (s : State) : exec (.cmpLtuImm d a imm) s = execCmpLtuImm d a imm s := rfl
@[simp] theorem exec_cmpGeuImm d a imm (s : State) : exec (.cmpGeuImm d a imm) s = execCmpGeuImm d a imm s := rfl
@[simp] theorem exec_sel d a b c neg (s : State) : exec (.sel d a b c neg) s = execSel d a b c neg s := rfl
@[simp] theorem exec_fadd t d a b (s : State) : exec (.fadd t d a b) s = execFadd t d a b s := rfl
@[simp] theorem exec_fsub t d a b (s : State) : exec (.fsub t d a b) s = execFsub t d a b s := rfl
@[simp] theorem exec_fmul t d a b (s : State) : exec (.fmul t d a b) s = execFmul t d a b s := rfl
@[simp] theorem exec_fma t d a b c (s : State) : exec (.fma t d a b c) s = execFma t d a b c s := rfl
@[simp] theorem exec_fmin t d a b (s : State) : exec (.fmin t d a b) s = execFmin t d a b s := rfl
@[simp] theorem exec_fmax t d a b (s : State) : exec (.fmax t d a b) s = execFmax t d a b s := rfl
@[simp] theorem exec_fcmp t c d a b (s : State) : exec (.fcmp t c d a b) s = execFcmp t c d a b s := rfl
@[simp] theorem exec_fcvt dt st rz d a (s : State) : exec (.fcvt dt st rz d a) s = execFcvt dt st rz d a s := rfl
@[simp] theorem exec_pand d a b (s : State) : exec (.pand d a b) s = execPand d a b s := rfl
@[simp] theorem exec_por d a b (s : State) : exec (.por d a b) s = execPor d a b s := rfl
@[simp] theorem exec_pxor d a b (s : State) : exec (.pxor d a b) s = execPxor d a b s := rfl
@[simp] theorem exec_pandn d a b (s : State) : exec (.pandn d a b) s = execPandn d a b s := rfl
@[simp] theorem exec_pnot d a (s : State) : exec (.pnot d a) s = execPnot d a s := rfl
@[simp] theorem exec_pmov d a (s : State) : exec (.pmov d a) s = execPmov d a s := rfl
@[simp] theorem exec_ptox d (s : State) : exec (.ptox d) s = execPtox d s := rfl
@[simp] theorem exec_xtop a (s : State) : exec (.xtop a) s = execXtop a s := rfl
@[simp] theorem exec_ld t d a b off (s : State) : exec (.ld t d a b off) s = execLd t d a b off s := rfl
@[simp] theorem exec_st t d a b off (s : State) : exec (.st t d a b off) s = execSt t d a b off s := rfl
@[simp] theorem exec_ldq t q a b off (s : State) : exec (.ldq t q a b off) s = execLdq t q a b off s := rfl
@[simp] theorem exec_stq t q a b off (s : State) : exec (.stq t q a b off) s = execStq t q a b off s := rfl
@[simp] theorem exec_lds t q n a off (s : State) : exec (.lds t q n a off) s = execLds t q n a off s := rfl
@[simp] theorem exec_sts t q n a off (s : State) : exec (.sts t q n a off) s = execSts t q n a off s := rfl
@[simp] theorem exec_gth t q n a off (s : State) : exec (.gth t q n a off) s = execGth t q n a off s := rfl
@[simp] theorem exec_sct t q n a off (s : State) : exec (.sct t q n a off) s = execSct t q n a off s := rfl
@[simp] theorem exec_pref a b off (s : State) : exec (.pref a b off) s = execPref a b off s := rfl
@[simp] theorem exec_srset n a k (s : State) : exec (.srset n a k) s = execSrset n a k s := rfl
@[simp] theorem exec_srget d n k (s : State) : exec (.srget d n k) s = execSrget d n k s := rfl
@[simp] theorem exec_qstat d q (s : State) : exec (.qstat d q) s = execQstat d q s := rfl
@[simp] theorem exec_hpost n v (s : State) : exec (.hpost n v) s = execHpost n v s := rfl
@[simp] theorem exec_htake n v (s : State) : exec (.htake n v) s = execHtake n v s := rfl
@[simp] theorem exec_push e a (s : State) : exec (.push e a) s = execPush e a s := rfl
@[simp] theorem exec_phase s1 rel acq (s : State) : exec (.phase s1 rel acq) s = execPhase s1 rel acq s := rfl
@[simp] theorem exec_amoAdd t s1 o d a b (s : State) : exec (.amoAdd t s1 o d a b) s = execAmoAdd t s1 o d a b s := rfl
@[simp] theorem exec_amoMin t s1 o d a b (s : State) : exec (.amoMin t s1 o d a b) s = execAmoMin t s1 o d a b s := rfl
@[simp] theorem exec_amoMax t s1 o d a b (s : State) : exec (.amoMax t s1 o d a b) s = execAmoMax t s1 o d a b s := rfl
@[simp] theorem exec_amoAnd t s1 o d a b (s : State) : exec (.amoAnd t s1 o d a b) s = execAmoAnd t s1 o d a b s := rfl
@[simp] theorem exec_amoOr t s1 o d a b (s : State) : exec (.amoOr t s1 o d a b) s = execAmoOr t s1 o d a b s := rfl
@[simp] theorem exec_amoXor t s1 o d a b (s : State) : exec (.amoXor t s1 o d a b) s = execAmoXor t s1 o d a b s := rfl
@[simp] theorem exec_amoSwap t s1 o d a b (s : State) : exec (.amoSwap t s1 o d a b) s = execAmoSwap t s1 o d a b s := rfl
@[simp] theorem exec_cas t s1 o d a b c (s : State) : exec (.cas t s1 o d a b c) s = execCas t s1 o d a b c s := rfl
@[simp] theorem exec_waitm t c acq s1 d a b (s : State) : exec (.waitm t c acq s1 d a b) s = execWaitm t c acq s1 d a b s := rfl
@[simp] theorem exec_mstat d sel (s : State) : exec (.mstat d sel) s = execMstat d sel s := rfl
@[simp] theorem exec_waitk mask (s : State) : exec (.waitk mask) s = execWaitk mask s := rfl
@[simp] theorem exec_tokq d (s : State) : exec (.tokq d) s = execTokq d s := rfl
@[simp] theorem exec_pkt a b (s : State) : exec (.pkt a b) s = execPkt a b s := rfl
@[simp] theorem exec_kslot d a (s : State) : exec (.kslot d a) s = execKslot d a s := rfl
@[simp] theorem exec_rqopen d a b (s : State) : exec (.rqopen d a b) s = execRqopen d a b s := rfl
@[simp] theorem exec_rqset a (s : State) : exec (.rqset a) s = execRqset a s := rfl
@[simp] theorem exec_rqrow a b n1 (s : State) : exec (.rqrow a b n1) s = execRqrow a b n1 s := rfl
@[simp] theorem exec_rqsets k a (s : State) : exec (.rqsets k a) s = execRqsets k a s := rfl
@[simp] theorem exec_rqhalt d a (s : State) : exec (.rqhalt d a) s = execRqhalt d a s := rfl
@[simp] theorem exec_rqresume d a (s : State) : exec (.rqresume d a) s = execRqresume d a s := rfl
@[simp] theorem exec_rqcancel d a (s : State) : exec (.rqcancel d a) s = execRqcancel d a s := rfl
@[simp] theorem exec_rqcancelDrain d a (s : State) : exec (.rqcancelDrain d a) s = execRqcancelDrain d a s := rfl
@[simp] theorem exec_rqmeter d a sel (s : State) : exec (.rqmeter d a sel) s = execRqmeter d a sel s := rfl
@[simp] theorem exec_rqmark d a (s : State) : exec (.rqmark d a) s = execRqmark d a s := rfl
@[simp] theorem exec_rqstat d a (s : State) : exec (.rqstat d a) s = execRqstat d a s := rfl
@[simp] theorem exec_tlbinv a mode pager (s : State) : exec (.tlbinv a mode pager) s = execTlbinv a mode pager s := rfl
@[simp] theorem exec_tlbfill a b target (s : State) : exec (.tlbfill a b target) s = execTlbfill a b target s := rfl
@[simp] theorem exec_pgmap d a b (s : State) : exec (.pgmap d a b) s = execPgmap d a b s := rfl
@[simp] theorem exec_exqpost a (s : State) : exec (.exqpost a) s = execExqpost a s := rfl
@[simp] theorem exec_winnow d a (s : State) : exec (.winnow d a) s = execWinnow d a s := rfl
@[simp] theorem exec_leaveq d (s : State) : exec (.leaveq d) s = execLeaveq d s := rfl
@[simp] theorem exec_sig o peer loc n a b (s : State) : exec (.sig o peer loc n a b) s = execSig o peer loc n a b s := rfl
@[simp] theorem exec_waits c d n b (s : State) : exec (.waits c d n b) s = execWaits c d n b s := rfl
@[simp] theorem exec_waitsPoll d n (s : State) : exec (.waitsPoll d n) s = execWaitsPoll d n s := rfl
@[simp] theorem exec_barDv b (s : State) : exec (.barDv b) s = execBarDv b s := rfl
@[simp] theorem exec_bard b (s : State) : exec (.bard b) s = execBard b s := rfl
@[simp] theorem exec_barsetAlloc d a b (s : State) : exec (.barsetAlloc d a b) s = execBarsetAlloc d a b s := rfl
@[simp] theorem exec_barsetSet d a b n (s : State) : exec (.barsetSet d a b n) s = execBarsetSet d a b n s := rfl
@[simp] theorem exec_barsetFree d n (s : State) : exec (.barsetFree d n) s = execBarsetFree d n s := rfl
@[simp] theorem exec_barsetQuery d n (s : State) : exec (.barsetQuery d n) s = execBarsetQuery d n s := rfl
@[simp] theorem exec_ulienOn a (s : State) : exec (.ulienOn a) s = execUlienOn a s := rfl
@[simp] theorem exec_ulienWatch w n b c (s : State) : exec (.ulienWatch w n b c) s = execUlienWatch w n b c s := rfl
@[simp] theorem exec_ulienUnwatch w (s : State) : exec (.ulienUnwatch w) s = execUlienUnwatch w s := rfl
@[simp] theorem exec_vadd t sat m d a b (s : State) : exec (.vadd t sat m d a b) s = execVadd t sat m d a b s := rfl
@[simp] theorem exec_vsub t sat m d a b (s : State) : exec (.vsub t sat m d a b) s = execVsub t sat m d a b s := rfl
@[simp] theorem exec_vmul t sat m d a b (s : State) : exec (.vmul t sat m d a b) s = execVmul t sat m d a b s := rfl
@[simp] theorem exec_vfma t m d a b c (s : State) : exec (.vfma t m d a b c) s = execVfma t m d a b c s := rfl
@[simp] theorem exec_vmin t m d a b (s : State) : exec (.vmin t m d a b) s = execVmin t m d a b s := rfl
@[simp] theorem exec_vmax t m d a b (s : State) : exec (.vmax t m d a b) s = execVmax t m d a b s := rfl
@[simp] theorem exec_vabs t sat m d a (s : State) : exec (.vabs t sat m d a) s = execVabs t sat m d a s := rfl
@[simp] theorem exec_vneg t sat m d a (s : State) : exec (.vneg t sat m d a) s = execVneg t sat m d a s := rfl
@[simp] theorem exec_vaddImm t d a imm (s : State) : exec (.vaddImm t d a imm) s = execVaddImm t d a imm s := rfl
@[simp] theorem exec_vsubImm t d a imm (s : State) : exec (.vsubImm t d a imm) s = execVsubImm t d a imm s := rfl
@[simp] theorem exec_vmulImm t d a imm (s : State) : exec (.vmulImm t d a imm) s = execVmulImm t d a imm s := rfl
@[simp] theorem exec_vminImm t d a imm (s : State) : exec (.vminImm t d a imm) s = execVminImm t d a imm s := rfl
@[simp] theorem exec_vmaxImm t d a imm (s : State) : exec (.vmaxImm t d a imm) s = execVmaxImm t d a imm s := rfl
@[simp] theorem exec_vand t m d a b (s : State) : exec (.vand t m d a b) s = execVand t m d a b s := rfl
@[simp] theorem exec_vor t m d a b (s : State) : exec (.vor t m d a b) s = execVor t m d a b s := rfl
@[simp] theorem exec_vxor t m d a b (s : State) : exec (.vxor t m d a b) s = execVxor t m d a b s := rfl
@[simp] theorem exec_vandn t m d a b (s : State) : exec (.vandn t m d a b) s = execVandn t m d a b s := rfl
@[simp] theorem exec_vshl t m d a b (s : State) : exec (.vshl t m d a b) s = execVshl t m d a b s := rfl
@[simp] theorem exec_vshr t m d a b (s : State) : exec (.vshr t m d a b) s = execVshr t m d a b s := rfl
@[simp] theorem exec_vsra t m d a b (s : State) : exec (.vsra t m d a b) s = execVsra t m d a b s := rfl
@[simp] theorem exec_vmulh t m d a b (s : State) : exec (.vmulh t m d a b) s = execVmulh t m d a b s := rfl
@[simp] theorem exec_vbcast t m d a (s : State) : exec (.vbcast t m d a) s = execVbcast t m d a s := rfl
@[simp] theorem exec_vbcastImm t d imm (s : State) : exec (.vbcastImm t d imm) s = execVbcastImm t d imm s := rfl
@[simp] theorem exec_vcmp t c m d a b (s : State) : exec (.vcmp t c m d a b) s = execVcmp t c m d a b s := rfl
@[simp] theorem exec_vsel t ms d a b (s : State) : exec (.vsel t ms d a b) s = execVsel t ms d a b s := rfl
@[simp] theorem exec_vmov d a (s : State) : exec (.vmov d a) s = execVmov d a s := rfl
@[simp] theorem exec_vcvt dt st rz m d a (s : State) : exec (.vcvt dt st rz m d a) s = execVcvt dt st rz m d a s := rfl
@[simp] theorem exec_vwiden dt st rz m d a (s : State) : exec (.vwiden dt st rz m d a) s = execVwiden dt st rz m d a s := rfl
@[simp] theorem exec_vnarrow dt st rz m d a (s : State) : exec (.vnarrow dt st rz m d a) s = execVnarrow dt st rz m d a s := rfl
@[simp] theorem exec_vcvts dt other blk d a b t (s : State) : exec (.vcvts dt other blk d a b t) s = execVcvts dt other blk d a b t s := rfl
@[simp] theorem exec_vred t o m d a (s : State) : exec (.vred t o m d a) s = execVred t o m d a s := rfl
@[simp] theorem exec_vscan t o m d a (s : State) : exec (.vscan t o m d a) s = execVscan t o m d a s := rfl
@[simp] theorem exec_vperm t m d a b (s : State) : exec (.vperm t m d a b) s = execVperm t m d a b s := rfl
@[simp] theorem exec_vshuf t p m d a b (s : State) : exec (.vshuf t p m d a b) s = execVshuf t p m d a b s := rfl
@[simp] theorem exec_vxl t m d a b x (s : State) : exec (.vxl t m d a b x) s = execVxl t m d a b x s := rfl
@[simp] theorem exec_vins t d a i1 (s : State) : exec (.vins t d a i1) s = execVins t d a i1 s := rfl
@[simp] theorem exec_vext t d a i1 (s : State) : exec (.vext t d a i1) s = execVext t d a i1 s := rfl
@[simp] theorem exec_vcompress t m d a (s : State) : exec (.vcompress t m d a) s = execVcompress t m d a s := rfl
@[simp] theorem exec_vexpand t m d a (s : State) : exec (.vexpand t m d a) s = execVexpand t m d a s := rfl
@[simp] theorem exec_vexp t m d a (s : State) : exec (.vexp t m d a) s = execVexp t m d a s := rfl
@[simp] theorem exec_vln t m d a (s : State) : exec (.vln t m d a) s = execVln t m d a s := rfl
@[simp] theorem exec_vrcp t m d a (s : State) : exec (.vrcp t m d a) s = execVrcp t m d a s := rfl
@[simp] theorem exec_vrsq t m d a (s : State) : exec (.vrsq t m d a) s = execVrsq t m d a s := rfl
@[simp] theorem exec_vsig t m d a (s : State) : exec (.vsig t m d a) s = execVsig t m d a s := rfl
@[simp] theorem exec_vlut t m d a b (s : State) : exec (.vlut t m d a b) s = execVlut t m d a b s := rfl
@[simp] theorem exec_mand d a b (s : State) : exec (.mand d a b) s = execMand d a b s := rfl
@[simp] theorem exec_mor d a b (s : State) : exec (.mor d a b) s = execMor d a b s := rfl
@[simp] theorem exec_mxor d a b (s : State) : exec (.mxor d a b) s = execMxor d a b s := rfl
@[simp] theorem exec_mandn d a b (s : State) : exec (.mandn d a b) s = execMandn d a b s := rfl
@[simp] theorem exec_mnot d a (s : State) : exec (.mnot d a) s = execMnot d a s := rfl
@[simp] theorem exec_mmov d a (s : State) : exec (.mmov d a) s = execMmov d a s := rfl
@[simp] theorem exec_mpopc d a (s : State) : exec (.mpopc d a) s = execMpopc d a s := rfl
@[simp] theorem exec_vnanscan t m d a (s : State) : exec (.vnanscan t m d a) s = execVnanscan t m d a s := rfl
@[simp] theorem exec_dtload c a first count1 (s : State) : exec (.dtload c a first count1) s = execDtload c a first count1 s := rfl
@[simp] theorem exec_dtsave d c first count1 (s : State) : exec (.dtsave d c first count1) s = execDtsave d c first count1 s := rfl
@[simp] theorem exec_dtattrSet c a (s : State) : exec (.dtattrSet c a) s = execDtattrSet c a s := rfl
@[simp] theorem exec_dtattrGet d c (s : State) : exec (.dtattrGet d c) s = execDtattrGet d c s := rfl
@[simp] theorem exec_dtattrHnd a (s : State) : exec (.dtattrHnd a) s = execDtattrHnd a s := rfl
@[simp] theorem exec_dtx c ovm o d a b (s : State) : exec (.dtx c ovm o d a b) s = execDtx c ovm o d a b s := rfl
@[simp] theorem exec_dtmap c ovm o d a (s : State) : exec (.dtmap c ovm o d a) s = execDtmap c ovm o d a s := rfl
@[simp] theorem exec_dtcmp c d a b (s : State) : exec (.dtcmp c d a b) s = execDtcmp c d a b s := rfl
@[simp] theorem exec_dtvalI32 c d a (s : State) : exec (.dtvalI32 c d a) s = execDtvalI32 c d a s := rfl
@[simp] theorem exec_dtvalFp32 c d a (s : State) : exec (.dtvalFp32 c d a) s = execDtvalFp32 c d a s := rfl
@[simp] theorem exec_mld tag d a b (s : State) : exec (.mld tag d a b) s = execMld tag d a b s := rfl
@[simp] theorem exec_mst d a b (s : State) : exec (.mst d a b) s = execMst d a b s := rfl
@[simp] theorem exec_mcas d a b c (s : State) : exec (.mcas d a b c) s = execMcas d a b c s := rfl
@[simp] theorem exec_mrepair d a b (s : State) : exec (.mrepair d a b) s = execMrepair d a b s := rfl
@[simp] theorem exec_sheafmap d a (s : State) : exec (.sheafmap d a) s = execSheafmap d a s := rfl
@[simp] theorem exec_mShape gang af bf kb1 (s : State) : exec (.mShape gang af bf kb1) s = execMShape gang af bf kb1 s := rfl
@[simp] theorem exec_mRows r1 (s : State) : exec (.mRows r1) s = execMRows r1 s := rfl
@[simp] theorem exec_mTile t (s : State) : exec (.mTile t) s = execMTile t s := rfl
@[simp] theorem exec_mStr isB sr (s : State) : exec (.mStr isB sr) s = execMStr isB sr s := rfl
@[simp] theorem exec_mScale half v (s : State) : exec (.mScale half v) s = execMScale half v s := rfl
@[simp] theorem exec_mLvl l sa sb st count (s : State) : exec (.mLvl l sa sb st count) s = execMLvl l sa sb st count s := rfl
@[simp] theorem exec_mPlane p s1 (s : State) : exec (.mPlane p s1) s = execMPlane p s1 s := rfl
@[simp] theorem exec_mGo toggle acc rim bstr pl (s : State) : exec (.mGo toggle acc rim bstr pl) s = execMGo toggle acc rim bstr pl s := rfl
@[simp] theorem exec_mDrain tile f sr zero n (s : State) : exec (.mDrain tile f sr zero n) s = execMDrain tile f sr zero n s := rfl
@[simp] theorem exec_mSig add uli core n v (s : State) : exec (.mSig add uli core n v) s = execMSig add uli core n v s := rfl
@[simp] theorem exec_mWait w (s : State) : exec (.mWait w) s = execMWait w s := rfl
@[simp] theorem exec_cSrc sr sl (s : State) : exec (.cSrc sr sl) s = execCSrc sr sl s := rfl
@[simp] theorem exec_cDst sr sl (s : State) : exec (.cDst sr sl) s = execCDst sr sl s := rfl
@[simp] theorem exec_cLvl l dst s1 s2 count (s : State) : exec (.cLvl l dst s1 s2 count) s = execCLvl l dst s1 s2 count s := rfl
@[simp] theorem exec_cSwz dst c w p (s : State) : exec (.cSwz dst c w p) s = execCSwz dst c w p s := rfl
@[simp] theorem exec_cBound bms bmd (s : State) : exec (.cBound bms bmd) s = execCBound bms bmd s := rfl
@[simp] theorem exec_cTok hold (s : State) : exec (.cTok hold) s = execCTok hold s := rfl
@[simp] theorem exec_cGo run1 zf iset (s : State) : exec (.cGo run1 zf iset) s = execCGo run1 zf iset s := rfl
@[simp] theorem exec_cSig add uli peer core n rep (s : State) : exec (.cSig add uli peer core n rep) s = execCSig add uli peer core n rep s := rfl
@[simp] theorem exec_cWait w (s : State) : exec (.cWait w) s = execCWait w s := rfl
@[simp] theorem exec_kAppend rg1 g m l n (s : State) : exec (.kAppend rg1 g m l n) s = execKAppend rg1 g m l n s := rfl
@[simp] theorem exec_kPinTake g s1 (s : State) : exec (.kPinTake g s1) s = execKPinTake g s1 s := rfl
@[simp] theorem exec_kPinRelease g s1 (s : State) : exec (.kPinRelease g s1) s = execKPinRelease g s1 s := rfl
@[simp] theorem exec_tMerge rg1 g c s1 (s : State) : exec (.tMerge rg1 g c s1) s = execTMerge rg1 g c s1 s := rfl
@[simp] theorem exec_tRequant rg1 g f keep s1 (s : State) : exec (.tRequant rg1 g f keep s1) s = execTRequant rg1 g f keep s1 s := rfl
@[simp] theorem exec_tStatus add uli core n v (s : State) : exec (.tStatus add uli core n v) s = execTStatus add uli core n v s := rfl
@[simp] theorem exec_nop (s : State) : exec (.nop) s = execNop s := rfl
@[simp] theorem exec_exit (s : State) : exec (.exit) s = execExit s := rfl
@[simp] theorem exec_sync (s : State) : exec (.sync) s = execSync s := rfl
@[simp] theorem exec_safept (s : State) : exec (.safept) s = execSafept s := rfl
@[simp] theorem exec_idle (s : State) : exec (.idle) s = execIdle s := rfl
@[simp] theorem exec_eret (s : State) : exec (.eret) s = execEret s := rfl
@[simp] theorem exec_eretSkip (s : State) : exec (.eretSkip) s = execEretSkip s := rfl
@[simp] theorem exec_eretAbort (s : State) : exec (.eretAbort) s = execEretAbort s := rfl
@[simp] theorem exec_barCo (s : State) : exec (.barCo) s = execBarCo s := rfl
@[simp] theorem exec_ulienOff (s : State) : exec (.ulienOff) s = execUlienOff s := rfl
@[simp] theorem exec_uliret (s : State) : exec (.uliret) s = execUliret s := rfl
@[simp] theorem exec_dtattrRet (s : State) : exec (.dtattrRet) s = execDtattrRet s := rfl
@[simp] theorem exec_mMark (s : State) : exec (.mMark) s = execMMark s := rfl
@[simp] theorem exec_ringDoorbell ring wridx (s : State) : exec (.ringDoorbell ring wridx) s = execRingDoorbell ring wridx s := rfl
@[simp] theorem exec_launch ring (s : State) : exec (.launch ring) s = execLaunch ring s := rfl
@[simp] theorem exec_pad ring (s : State) : exec (.pad ring) s = execPad ring s := rfl
@[simp] theorem exec_launchPlace ring (s : State) : exec (.launchPlace ring) s = execLaunchPlace ring s := rfl
@[simp] theorem exec_instanceStart core (s : State) : exec (.instanceStart core) s = execInstanceStart core s := rfl
@[simp] theorem exec_instanceComplete core (s : State) : exec (.instanceComplete core) s = execInstanceComplete core s := rfl
@[simp] theorem exec_launchComplete id (s : State) : exec (.launchComplete id) s = execLaunchComplete id s := rfl
@[simp] theorem exec_ringOpen ring (s : State) : exec (.ringOpen ring) s = execRingOpen ring s := rfl
@[simp] theorem exec_ringClose ring (s : State) : exec (.ringClose ring) s = execRingClose ring s := rfl
@[simp] theorem exec_answerResume ring token (s : State) : exec (.answerResume ring token) s = execAnswerResume ring token s := rfl
@[simp] theorem exec_answerSkip ring token newrd (s : State) : exec (.answerSkip ring token newrd) s = execAnswerSkip ring token newrd s := rfl
@[simp] theorem exec_answerAbort ring token (s : State) : exec (.answerAbort ring token) s = execAnswerAbort ring token s := rfl
@[simp] theorem exec_exqrdWrite ring v (s : State) : exec (.exqrdWrite ring v) s = execExqrdWrite ring v s := rfl
@[simp] theorem exec_exceptionRecordWrite ring (s : State) : exec (.exceptionRecordWrite ring) s = execExceptionRecordWrite ring s := rfl
@[simp] theorem exec_exqWriteRetry ring (s : State) : exec (.exqWriteRetry ring) s = execExqWriteRetry ring s := rfl
@[simp] theorem exec_preemptionRequest ring (s : State) : exec (.preemptionRequest ring) s = execPreemptionRequest ring s := rfl
@[simp] theorem exec_preemptTake core (s : State) : exec (.preemptTake core) s = execPreemptTake core s := rfl
@[simp] theorem exec_safeptReleaseTimeout core (s : State) : exec (.safeptReleaseTimeout core) s = execSafeptReleaseTimeout core s := rfl
@[simp] theorem exec_preemptLate core (s : State) : exec (.preemptLate core) s = execPreemptLate core s := rfl
@[simp] theorem exec_preemptResume id (s : State) : exec (.preemptResume id) s = execPreemptResume id s := rfl
@[simp] theorem exec_runDeadlock core (s : State) : exec (.runDeadlock core) s = execRunDeadlock core s := rfl
@[simp] theorem exec_tableWalkDone core (s : State) : exec (.tableWalkDone core) s = execTableWalkDone core s := rfl
@[simp] theorem exec_pagerTrapEntry core (s : State) : exec (.pagerTrapEntry core) s = execPagerTrapEntry core s := rfl
@[simp] theorem exec_pagerTimeLimit core (s : State) : exec (.pagerTimeLimit core) s = execPagerTimeLimit core s := rfl
@[simp] theorem exec_memoryResponse core who (s : State) : exec (.memoryResponse core who) s = execMemoryResponse core who s := rfl
@[simp] theorem exec_peerAccessAnswer p (s : State) : exec (.peerAccessAnswer p) s = execPeerAccessAnswer p s := rfl
@[simp] theorem exec_linkTimeout xid (s : State) : exec (.linkTimeout xid) s = execLinkTimeout xid s := rfl
@[simp] theorem exec_matrixPlaneLoadDone core entry (s : State) : exec (.matrixPlaneLoadDone core entry) s = execMatrixPlaneLoadDone core entry s := rfl
@[simp] theorem exec_matrixOperationCommit core entry mismatch (s : State) : exec (.matrixOperationCommit core entry mismatch) s = execMatrixOperationCommit core entry mismatch s := rfl
@[simp] theorem exec_matrixDrainDone core entry mismatch (s : State) : exec (.matrixDrainDone core entry mismatch) s = execMatrixDrainDone core entry mismatch s := rfl
@[simp] theorem exec_copyIterationCommit core entry (s : State) : exec (.copyIterationCommit core entry) s = execCopyIterationCommit core entry s := rfl
@[simp] theorem exec_thresherPinGrant stack (s : State) : exec (.thresherPinGrant stack) s = execThresherPinGrant stack s := rfl
@[simp] theorem exec_thresherCommandComplete stack idx (s : State) : exec (.thresherCommandComplete stack idx) s = execThresherCommandComplete stack idx s := rfl
@[simp] theorem exec_signalWordUpdate idx (s : State) : exec (.signalWordUpdate idx) s = execSignalWordUpdate idx s := rfl
@[simp] theorem exec_uliEntry core (s : State) : exec (.uliEntry core) s = execUliEntry core s := rfl
@[simp] theorem exec_waitExhausted core cl (s : State) : exec (.waitExhausted core cl) s = execWaitExhausted core cl s := rfl
@[simp] theorem exec_waitDeadlock unit (s : State) : exec (.waitDeadlock unit) s = execWaitDeadlock unit s := rfl
@[simp] theorem exec_barrierRegWrite part b isExpect v (s : State) : exec (.barrierRegWrite part b isExpect v) s = execBarrierRegWrite part b isExpect v s := rfl
@[simp] theorem exec_requestFinalRecord id (s : State) : exec (.requestFinalRecord id) s = execRequestFinalRecord id s := rfl
@[simp] theorem exec_peerWrite p (s : State) : exec (.peerWrite p) s = execPeerWrite p s := rfl
@[simp] theorem exec_peerReadRequest p (s : State) : exec (.peerReadRequest p) s = execPeerReadRequest p s := rfl
@[simp] theorem exec_peerReadResponse p (s : State) : exec (.peerReadResponse p) s = execPeerReadResponse p s := rfl
@[simp] theorem exec_peerSignalWrite p (s : State) : exec (.peerSignalWrite p) s = execPeerSignalWrite p s := rfl
@[simp] theorem exec_peerSignalAdd p (s : State) : exec (.peerSignalAdd p) s = execPeerSignalAdd p s := rfl
@[simp] theorem exec_peerAcknowledgment p (s : State) : exec (.peerAcknowledgment p) s = execPeerAcknowledgment p s := rfl
@[simp] theorem exec_peerFaultReturn p (s : State) : exec (.peerFaultReturn p) s = execPeerFaultReturn p s := rfl
@[simp] theorem exec_peerAtomicRequest p (s : State) : exec (.peerAtomicRequest p) s = execPeerAtomicRequest p s := rfl
@[simp] theorem exec_peerAtomicResponse p (s : State) : exec (.peerAtomicResponse p) s = execPeerAtomicResponse p s := rfl
@[simp] theorem exec_parkStoreRetry xid (s : State) : exec (.parkStoreRetry xid) s = execParkStoreRetry xid s := rfl
@[simp] theorem exec_linkTriggerFlit part tag (s : State) : exec (.linkTriggerFlit part tag) s = execLinkTriggerFlit part tag s := rfl
@[simp] theorem exec_sheafReadMsg idx (s : State) : exec (.sheafReadMsg idx) s = execSheafReadMsg idx s := rfl
@[simp] theorem exec_sheafProposeMsg idx (s : State) : exec (.sheafProposeMsg idx) s = execSheafProposeMsg idx s := rfl
@[simp] theorem exec_sheafCommitMsg idx (s : State) : exec (.sheafCommitMsg idx) s = execSheafCommitMsg idx s := rfl
@[simp] theorem exec_sheafAbortMsg idx (s : State) : exec (.sheafAbortMsg idx) s = execSheafAbortMsg idx s := rfl
@[simp] theorem exec_sheafAnswer idx (s : State) : exec (.sheafAnswer idx) s = execSheafAnswer idx s := rfl
@[simp] theorem exec_sheafCopyTimeout op stack (s : State) : exec (.sheafCopyTimeout op stack) s = execSheafCopyTimeout op stack s := rfl
@[simp] theorem exec_ptagExpiry part region stack cell (s : State) : exec (.ptagExpiry part region stack cell) s = execPtagExpiry part region stack cell s := rfl
@[simp] theorem exec_correctableErrorFreeze core (s : State) : exec (.correctableErrorFreeze core) s = execCorrectableErrorFreeze core s := rfl
@[simp] theorem exec_freezeEnd core (s : State) : exec (.freezeEnd core) s = execFreezeEnd core s := rfl
@[simp] theorem exec_debugHaltWrite part core quiet porous (s : State) : exec (.debugHaltWrite part core quiet porous) s = execDebugHaltWrite part core quiet porous s := rfl
@[simp] theorem exec_debugPolicyUpload part bits nonce sig (s : State) : exec (.debugPolicyUpload part bits nonce sig) s = execDebugPolicyUpload part bits nonce sig s := rfl
@[simp] theorem exec_traceRingConfig part isLog v (s : State) : exec (.traceRingConfig part isLog v) s = execTraceRingConfig part isLog v s := rfl
@[simp] theorem exec_partitionCreate addr (s : State) : exec (.partitionCreate addr) s = execPartitionCreate addr s := rfl
@[simp] theorem exec_partitionDestroy addr (s : State) : exec (.partitionDestroy addr) s = execPartitionDestroy addr s := rfl
@[simp] theorem exec_partitionSetPlat addr (s : State) : exec (.partitionSetPlat addr) s = execPartitionSetPlat addr s := rfl
@[simp] theorem exec_mydevset v (s : State) : exec (.mydevset v) s = execMydevset v s := rfl
@[simp] theorem exec_sheafclr mask (s : State) : exec (.sheafclr mask) s = execSheafclr mask s := rfl
@[simp] theorem exec_winnowFire v (s : State) : exec (.winnowFire v) s = execWinnowFire v s := rfl
@[simp] theorem exec_winnowRelease v (s : State) : exec (.winnowRelease v) s = execWinnowRelease v s := rfl
@[simp] theorem exec_registerWrite r v (s : State) : exec (.registerWrite r v) s = execRegisterWrite r v s := rfl
@[simp] theorem exec_spdmGetVersion fn (s : State) : exec (.spdmGetVersion fn) s = execSpdmGetVersion fn s := rfl
@[simp] theorem exec_spdmGetCapabilities fn (s : State) : exec (.spdmGetCapabilities fn) s = execSpdmGetCapabilities fn s := rfl
@[simp] theorem exec_spdmNegotiateAlgorithms fn (s : State) : exec (.spdmNegotiateAlgorithms fn) s = execSpdmNegotiateAlgorithms fn s := rfl
@[simp] theorem exec_spdmGetDigests fn (s : State) : exec (.spdmGetDigests fn) s = execSpdmGetDigests fn s := rfl
@[simp] theorem exec_spdmGetCertificate fn (s : State) : exec (.spdmGetCertificate fn) s = execSpdmGetCertificate fn s := rfl
@[simp] theorem exec_spdmChallenge fn nonce (s : State) : exec (.spdmChallenge fn nonce) s = execSpdmChallenge fn nonce s := rfl
@[simp] theorem exec_spdmGetMeasurements fn nonce (s : State) : exec (.spdmGetMeasurements fn nonce) s = execSpdmGetMeasurements fn nonce s := rfl
@[simp] theorem exec_spdmKeyExchange fn peer key (s : State) : exec (.spdmKeyExchange fn peer key) s = execSpdmKeyExchange fn peer key s := rfl
@[simp] theorem exec_spdmFinish fn (s : State) : exec (.spdmFinish fn) s = execSpdmFinish fn s := rfl
@[simp] theorem exec_spdmEndSession fn (s : State) : exec (.spdmEndSession fn) s = execSpdmEndSession fn s := rfl
@[simp] theorem exec_hostMemoryWrite sp addr bytes (s : State) : exec (.hostMemoryWrite sp addr bytes) s = execHostMemoryWrite sp addr bytes s := rfl
@[simp] theorem exec_powerWindowEnd mw (s : State) : exec (.powerWindowEnd mw) s = execPowerWindowEnd mw s := rfl
@[simp] theorem exec_powerPeakExceeded (s : State) : exec (.powerPeakExceeded) s = execPowerPeakExceeded s := rfl
@[simp] theorem exec_leaveGrant core (s : State) : exec (.leaveGrant core) s = execLeaveGrant core s := rfl
@[simp] theorem exec_wakeLatencyExpiry core (s : State) : exec (.wakeLatencyExpiry core) s = execWakeLatencyExpiry core s := rfl
@[simp] theorem exec_deviceEnterL3 (s : State) : exec (.deviceEnterL3) s = execDeviceEnterL3 s := rfl
@[simp] theorem exec_deviceReset (s : State) : exec (.deviceReset) s = execDeviceReset s := rfl
@[simp] theorem exec_overlayLoadDone core (s : State) : exec (.overlayLoadDone core) s = execOverlayLoadDone core s := rfl
@[simp] theorem exec_linkCreditReturn link n answers (s : State) : exec (.linkCreditReturn link n answers) s = execLinkCreditReturn link n answers s := rfl
@[simp] theorem exec_linkFlitDrop link (s : State) : exec (.linkFlitDrop link) s = execLinkFlitDrop link s := rfl
@[simp] theorem exec_firmwareImageLoad runtime image sig (s : State) : exec (.firmwareImageLoad runtime image sig) s = execFirmwareImageLoad runtime image sig s := rfl
@[simp] theorem exec_tdispRequest vf part (s : State) : exec (.tdispRequest vf part) s = execTdispRequest vf part s := rfl

end Sys2Proof.Machine
end

