-- ==== Sys2Proof/Laws/Memory.lean ====
section
/-! SUPPORT. Memory: a byte read after a byte written, and the canonical form that every write keeps. -/

namespace Sys2Proof.Machine

/-! ### Spaces -/

@[simp] theorem byteDefault_setCells (s : State) (sp tp : Space) (m : List Host.Cell) (a : Nat) :
    byteDefault (setCells s sp m) tp a = byteDefault s tp a := by
  cases sp <;> cases tp <;> try rfl
  all_goals
    rename_i k j
    by_cases h : j = k
    · subst h; simp [byteDefault, setCells]
    · simp [byteDefault, setCells, coreAt_modCore_ne _ _ h]
@[simp] theorem cells_setCells_same (s : State) (sp : Space) (m : List Host.Cell) : cells (setCells s sp m) sp = m := by
  cases sp <;> simp [cells, setCells]
theorem cells_setCells_ne (s : State) {sp tp : Space} (m : List Host.Cell) (h : tp ≠ sp) : cells (setCells s sp m) tp = cells s tp := by
  cases sp <;> cases tp <;> first | rfl | exact absurd rfl h | skip
  all_goals
    rename_i k j
    by_cases hk : j = k
    · subst hk; first | exact absurd rfl h | simp [cells, setCells]
    · simp [cells, setCells, coreAt_modCore_ne _ _ hk]

/-! ### A byte after a write -/

@[simp] theorem homeByte_homeSet_same (s : State) (sp : Space) (a : Nat) (b : Byte) : homeByte (homeSet s sp a b) sp a = b := by
  simp [homeByte, homeSet]
theorem homeByte_homeSet_addr (s : State) (sp : Space) {a c : Nat} (b : Byte) (h : c ≠ a) :
    homeByte (homeSet s sp a b) sp c = homeByte s sp c := by
  simp only [homeByte, homeSet, byteDefault_setCells, cells_setCells_same]
  cases sp <;> (simp only [sset]; split <;> simp [sget_serase, sget_sput_ne _ _ _ _ _ h, h])
theorem homeByte_homeSet_space (s : State) {sp tp : Space} (a c : Nat) (b : Byte) (h : tp ≠ sp) :
    homeByte (homeSet s sp a b) tp c = homeByte s tp c := by
  simp [homeByte, homeSet, cells_setCells_ne s _ h]
/-- A run of bytes changes its own addresses only. -/
theorem homeByte_homeSetRun_out (bs : List Byte) (s : State) (sp tp : Space) (a c : Nat) (h : tp ≠ sp ∨ c < a ∨ a + bs.length ≤ c) :
    homeByte (homeSetRun s sp a bs) tp c = homeByte s tp c := by
  induction bs generalizing s a with
  | nil => rfl
  | cons b bs ih =>
    simp only [List.length_cons] at h
    rw [homeSetRun, ih _ _ (h.imp_right fun h => by omega)]
    by_cases hs : tp = sp
    · subst hs; exact homeByte_homeSet_addr s tp b (by have h' := h.resolve_left (fun e => e rfl); omega)
    · exact homeByte_homeSet_space s a c b hs
theorem homeByte_homeSetRun_in (bs : List Byte) (s : State) (sp : Space) (a i : Nat) (h : i < bs.length) :
    homeByte (homeSetRun s sp a bs) sp (a + i) = bs[i] := by
  induction bs generalizing s a i with
  | nil => simp at h
  | cons b bs ih =>
    cases i with
    | zero => rw [homeSetRun, homeByte_homeSetRun_out _ _ _ _ _ _ (.inr (.inl (by omega)))]; simp
    | succ i =>
      simp only [List.length_cons] at h
      have := ih (homeSet s sp a b) (a + 1) i (by omega)
      rw [show a + 1 + i = a + (i + 1) by omega] at this
      simpa [homeSetRun] using this

/-! ### The canonical form -/

theorem cellsOk_homeSet (s : State) (sp tp : Space) (a : Nat) (b : Byte) (h : cellsOk s tp = true) : cellsOk (homeSet s sp a b) tp = true := by
  by_cases hs : tp = sp
  · subst hs
    have hd : byteDefault (homeSet s tp a b) tp = byteDefault s tp := funext fun c => byteDefault_setCells s tp tp _ c
    rw [cellsOk, Memory.wf, hd, homeSet, cells_setCells_same]
    exact swf_sset a b h
  · have hd : byteDefault (homeSet s sp a b) tp = byteDefault s tp := funext fun c => byteDefault_setCells s sp tp _ c
    rw [cellsOk, Memory.wf, hd, homeSet, cells_setCells_ne s _ hs]
    exact h
theorem cellsOk_homeSetRun (bs : List Byte) (s : State) (sp tp : Space) (a : Nat) (h : cellsOk s tp = true) :
    cellsOk (homeSetRun s sp a bs) tp = true := by
  induction bs generalizing s a with
  | nil => exact h
  | cons b bs ih => exact ih _ _ (cellsOk_homeSet s sp tp a b h)
theorem cellsOk_reset (sp : Space) : cellsOk State.reset sp = true := by cases sp <;> rfl

/-- The memories outside the cores are in canonical form. -/
theorem memOk_iff (s : State) : s.memOk = true ↔ cellsOk s .dram = true ∧ cellsOk s .near = true ∧ cellsOk s .host = true := by
  simp only [State.memOk, Bool.and_eq_true, and_assoc]
theorem memOk_congr {s t : State} (h : s.memOk = true) (h1 : t.dram = s.dram) (h2 : t.near = s.near) (h3 : t.hostmem = s.hostmem)
    (h4 : t.pages = s.pages) : t.memOk = true := by
  rw [memOk_iff] at *
  have hd : ∀ sp, sp = .dram ∨ sp = .near ∨ sp = .host → byteDefault t sp = byteDefault s sp := fun sp hs => funext fun a => by
    rcases hs with rfl | rfl | rfl <;> simp only [byteDefault, pageFill, h4]
  simpa only [cellsOk, hd _ (.inl rfl), hd _ (.inr (.inl rfl)), hd _ (.inr (.inr rfl)), cells, h1, h2, h3] using h
theorem memOk_homeSet (s : State) (sp : Space) (a : Nat) (b : Byte) (h : s.memOk = true) : (homeSet s sp a b).memOk = true := by
  rw [memOk_iff] at *
  exact ⟨cellsOk_homeSet _ _ _ _ _ h.1, cellsOk_homeSet _ _ _ _ _ h.2.1, cellsOk_homeSet _ _ _ _ _ h.2.2⟩
theorem memOk_homeSetRun (bs : List Byte) (s : State) (sp : Space) (a : Nat) (h : s.memOk = true) : (homeSetRun s sp a bs).memOk = true := by
  induction bs generalizing s a with
  | nil => exact h
  | cons b bs ih => exact ih _ _ (memOk_homeSet s sp a b h)
/-- A page whose bytes are no longer listed may read as something else (R300). -/
theorem cellsOk_page (s : State) (sp tp : Space) (p : Nat) (ps : Sparse PageFill) (h : cellsOk s tp = true)
    (hp : ∀ j, j ≠ pageKey sp (p * 2 ^ 16) → slook ps j = slook s.pages j) (hs : sp = .dram ∨ sp = .near ∨ sp = .host)
    (ht : tp = .dram ∨ tp = .near ∨ tp = .host) :
    cellsOk { setCells s sp (sclear (cells s sp) (p * 2 ^ 16) (2 ^ 16)) with pages := ps } tp = true := by
  by_cases e : tp = sp
  · subst e
    have := swf_sclear_congr (c := byteDefault { setCells s tp (sclear (cells s tp) (p * 2 ^ 16) (2 ^ 16)) with pages := ps } tp)
      (p * 2 ^ 16) (2 ^ 16) h fun k hk => by
        have : pageKey tp k ≠ pageKey tp (p * 2 ^ 16) := by simp only [pageKey]; omega
        have hl := hp _ this
        rcases hs with rfl | rfl | rfl <;> simp only [byteDefault, pageFill, hl]
    rcases hs with rfl | rfl | rfl <;> exact this
  · have hk : ∀ k, pageKey tp k ≠ pageKey sp (p * 2 ^ 16) := fun k => by
      rcases hs with rfl | rfl | rfl <;> rcases ht with rfl | rfl | rfl <;> first | exact absurd rfl e | (simp only [pageKey, spaceKey]; omega)
    have hc : cells { setCells s sp (sclear (cells s sp) (p * 2 ^ 16) (2 ^ 16)) with pages := ps } tp = cells s tp := by
      rcases hs with rfl | rfl | rfl <;> rcases ht with rfl | rfl | rfl <;> first | exact absurd rfl e | rfl
    have hd : byteDefault { setCells s sp (sclear (cells s sp) (p * 2 ^ 16) (2 ^ 16)) with pages := ps } tp = byteDefault s tp := funext fun k => by
      have hl := hp _ (hk k)
      rcases ht with rfl | rfl | rfl <;> simp only [byteDefault, pageFill, hl]
    rw [cellsOk, Memory.wf, hc, hd]; exact h
theorem memOk_page (s : State) (sp : Space) (p : Nat) (ps : Sparse PageFill) (h : s.memOk = true)
    (hp : ∀ j, j ≠ pageKey sp (p * 2 ^ 16) → slook ps j = slook s.pages j) (hs : sp = .dram ∨ sp = .near ∨ sp = .host) :
    ({ setCells s sp (sclear (cells s sp) (p * 2 ^ 16) (2 ^ 16)) with pages := ps } : State).memOk = true := by
  rw [memOk_iff] at *
  exact ⟨cellsOk_page s sp _ p ps h.1 hp hs (.inl rfl), cellsOk_page s sp _ p ps h.2.1 hp hs (.inr (.inl rfl)),
    cellsOk_page s sp _ p ps h.2.2 hp hs (.inr (.inr rfl))⟩
theorem memOk_clear (s : State) (a n : Nat) (h : s.memOk = true) : ({ s with dram := sclear s.dram a n } : State).memOk = true := by
  rw [memOk_iff] at *
  exact ⟨swf_sclear a n h.1, h.2⟩
theorem memOk_zeroPage (a n p : Nat) (s : State) (h : s.memOk = true) : (zeroPage a n s p).memOk = true := by
  unfold zeroPage
  dsimp only
  generalize (if a < p * 2 ^ 16 then p * 2 ^ 16 else a) = lo
  generalize (if a + n < p * 2 ^ 16 + 2 ^ 16 then a + n else p * 2 ^ 16 + 2 ^ 16) = hi
  split
  · exact memOk_page s .dram p _ h (fun j hj => slook_serase_ne _ hj) (.inl rfl)
  · exact memOk_homeSetRun _ _ _ _ h
theorem memOk_zeroDram (a n : Nat) (s : State) (h : s.memOk = true) : (zeroDram a n s).memOk = true := by
  unfold zeroDram
  dsimp only
  generalize List.map _ _ = l
  have h0 : ∀ (l : List Nat) (t : State), t.memOk = true → (l.foldl (zeroPage a n) t).memOk = true := fun l => by
    induction l with
    | nil => exact fun _ h => h
    | cons x l ih => exact fun t h => ih _ (memOk_zeroPage a n x t h)
  exact h0 l _ (memOk_clear s a n h)

end Sys2Proof.Machine
end

