-- ==== Sys2Proof/Laws/Ops.lean ====
section
/-! SUPPORT. What the shared operations do: who moves, queue ports, retiring a syllable, posting a record. -/

namespace Sys2Proof.Machine

theorem onCl_moves {s : State} {a : At} (h : Moves s a) (f : At → State → State) : onCl s f = .next (f a s) := by
  simp only [Moves] at h; simp only [onCl, h]
theorem onQ_heads {s : State} {k q : Nat} (h : Heads s k q) (f : Nat → Nat → State → State) : onQ s f = .next (f k q s) := by
  simp only [Heads] at h; simp only [onQ, h]
/-- With the queues ready a syllable goes on. -/
theorem needQ_ok {s : State} {a : At} {pops pushes : List Nat} (h : QueuesOk s a pops pushes) (go : State → State) :
    needQ a pops pushes go s = go s := by
  have h1 : shortOf (coreAt s a.k) a.c pops = none := by simpa [shortOf] using h.1
  have h2 : fullOf (coreAt s a.k) pushes = none := by simpa [fullOf] using h.2
  simp only [needQ, h1, h2]
/-- Otherwise it changes nothing but the mark that says what it waits for. -/
theorem needQ_stall {s : State} {a : At} {pops pushes : List Nat} (h : ¬QueuesOk s a pops pushes) (go : State → State) :
    ∃ b, b ≠ .no ∧ needQ a pops pushes go s = block a b s := by
  unfold needQ
  split
  · exact ⟨_, by simp, rfl⟩
  · rename_i h1
    split
    · exact ⟨_, by simp, rfl⟩
    · rename_i h2
      refine absurd ⟨?_, ?_⟩ h
      · simpa [shortOf] using h1
      · simpa [fullOf] using h2

end Sys2Proof.Machine
end

