-- ==== Sys2Proof/Laws/Keep.lean ====
section
/-! SUPPORT. The canonical form of the memories under every operation on memory and every shared operation, and what the shared
operations answer. -/

namespace Sys2Proof.Machine

/-! ### Operations that no memory outside the cores sees -/

theorem memOk_modCore (s : State) (k : Nat) (f : Core → Core) (h : s.memOk = true) : (modCore s k f).memOk = true := h
theorem memOk_modClu (s : State) (k : Nat) (c : Cluster) (f : Clu → Clu) (h : s.memOk = true) : (modClu s k c f).memOk = true := h
theorem memOk_modKs (s : State) (k : Nat) (f : KSt → KSt) (h : s.memOk = true) : (modKs s k f).memOk = true := h
theorem memOk_modEng (s : State) (k : Nat) (f : Eng → Eng) (h : s.memOk = true) : (modEng s k f).memOk = true := h
theorem memOk_modEQ (s : State) (k q : Nat) (f : EQ → EQ) (h : s.memOk = true) : (modEQ s k q f).memOk = true := h
theorem memOk_modCtx (s : State) (a : At) (f : Ctx → Ctx) (h : s.memOk = true) : (modCtx s a f).memOk = true := by
  unfold modCtx; split <;> exact h
theorem memOk_modDev (s : State) (f : Dev → Dev) (h : s.memOk = true) : (modDev s f).memOk = true := h
theorem memOk_modPart (s : State) (p : Nat) (f : Part → Part) (h : s.memOk = true) : (modPart s p f).memOk = true := h
theorem memOk_modRing (s : State) (r : Nat) (f : Ring → Ring) (h : s.memOk = true) : (modRing s r f).memOk = true := h
theorem memOk_modRq (s : State) (id : Nat) (f : Rq → Rq) (h : s.memOk = true) : (modRq s id f).memOk = true := h
theorem memOk_modThr (s : State) (st : Nat) (f : Thr → Thr) (h : s.memOk = true) : (modThr s st f).memOk = true := h
theorem memOk_modLaunch (s : State) (l : Nat) (f : Launch → Launch) (h : s.memOk = true) : (modLaunch s l f).memOk = true := h
theorem memOk_setSnap (s : State) (q : Party) (m : Sparse Byte) (h : s.memOk = true) : (setSnap s q m).memOk = true := h
theorem memOk_fixBytes (s : State) (q : Party) (sp : Space) (a : Nat) (bs : List Byte) (h : s.memOk = true) : (fixBytes s q sp a bs).memOk = true := h
theorem memOk_emptySnap (s : State) (q : Party) (h : s.memOk = true) : (emptySnap s q).memOk = true := h
theorem memOk_pokeMem (s : State) (h : s.memOk = true) : (pokeMem s).memOk = true := h
theorem memOk_acquire (s : State) (q : Party) (lvl : Nat) (h : s.memOk = true) : (acquire s q lvl).memOk = true := h
theorem memOk_markPoison (s : State) (sp : Space) (a : Nat) (on : Bool) (h : s.memOk = true) : (markPoison s sp a on).memOk = true := h
theorem memOk_observe (q : Party) (s : State) (o : Obs) (h : s.memOk = true) : (observe q s o).memOk = true := by
  unfold observe; split <;> exact h
/-- A fold keeps what each of its steps keeps. -/
theorem memOk_foldl {α : Type} (f : State → α → State) (hf : ∀ s x, s.memOk = true → (f s x).memOk = true) (l : List α) (s : State)
    (h : s.memOk = true) : (l.foldl f s).memOk = true := by
  induction l generalizing s with
  | nil => exact h
  | cons x l ih => exact ih _ (hf s x h)

theorem memOk_observeRead (s : State) (q : Party) (sp : Space) (a n : Nat) (h : s.memOk = true) : (observeRead s q sp a n).memOk = true := by
  unfold observeRead
  split
  · exact h
  · exact memOk_foldl _ (fun s o h => memOk_observe q s o h) _ _ h

/-! ### Writes at the homes, and the memory order -/

theorem memOk_noteWrote (s : State) (sp : Space) (a n : Nat) (o : Option Obs) (h : s.memOk = true) : (noteWrote s sp a n o).memOk = true := by
  unfold noteWrote
  split
  · exact h
  · split <;> exact h
theorem memOk_commitBytes (s : State) (q : Party) (sp : Space) (a : Nat) (bs : List Byte) (h : s.memOk = true) :
    (commitBytes s q sp a bs).memOk = true := memOk_homeSetRun _ _ _ _ (memOk_noteWrote _ _ _ _ _ h)
theorem memOk_commitStore (s : State) (w : PStore) (h : s.memOk = true) : (commitStore s w).memOk = true :=
  memOk_homeSetRun _ _ _ _ (memOk_noteWrote _ _ _ _ _ h)
theorem memOk_publishOne (s : State) (w : PStore) (lvl : Nat) (h : s.memOk = true) : (publishOne s w lvl).memOk = true := by
  unfold publishOne
  refine memOk_pokeMem _ ?_
  split
  · exact memOk_commitStore s w h
  · split <;> exact h
theorem memOk_numberRel (s : State) (q : Party) (lvl : Nat) (h : s.memOk = true) : (numberRel s q lvl).memOk = true := by
  unfold numberRel; split <;> exact h
theorem memOk_release (s : State) (q : Party) (lvl : Nat) (h : s.memOk = true) : (release s q lvl).memOk = true :=
  memOk_foldl _ (fun s w h => by
    split
    · exact memOk_publishOne _ _ _ h
    · exact h) _ _ (memOk_numberRel s q lvl h)
theorem memOk_storePlain (s : State) (q : Party) (sp : Space) (a : Nat) (bs : List Byte) (least : Nat) (h : s.memOk = true) :
    (storePlain s q sp a bs least).memOk = true := by unfold storePlain; split <;> exact h
theorem memOk_storeHome (s : State) (q : Party) (sp : Space) (a : Nat) (bs : List Byte) (h : s.memOk = true) :
    (storeHome s q sp a bs).memOk = true := memOk_commitBytes s q sp a bs h
theorem memOk_storeDevice (s : State) (sp : Space) (a : Nat) (bs : List Byte) (h : s.memOk = true) :
    (storeDevice s sp a bs).memOk = true := memOk_commitBytes s .host sp a bs h
theorem memOk_stamp (s : State) (part : Nat) (sp : Space) (a n : Nat) (h : s.memOk = true) : (stamp s part sp a n).memOk = true :=
  memOk_foldl _ (fun s i h => by exact h) _ _ h

/-! ### Translation, and the bytes of a place -/

theorem memOk_setEntryBit (s : State) (q : Party) (a bit : Nat) (h : s.memOk = true) : (setEntryBit s q a bit).memOk = true :=
  memOk_pokeMem _ (memOk_commitBytes _ _ _ _ _ h)
theorem memOk_tlInstall (s : State) (k : Nat) (t : Tl) (e : TlbE) (h : s.memOk = true) : (tlInstall s k t e).memOk = true := h
theorem memOk_touchD (s : State) (k : Nat) (t : Tl) (q : Party) (x : TlbE) (w : Bool) (h : s.memOk = true) : (touchD s k t q x w).memOk = true := by
  unfold touchD
  split
  · split
    · exact memOk_modCore _ _ _ (memOk_setEntryBit _ _ _ _ h)
    · exact h
  · exact h
theorem memOk_translate1 (s : State) (k : Nat) (t : Tl) (q : Party) (part va : Nat) (w : Bool) (h : s.memOk = true) :
    (translate1 s k t q part va w).1.memOk = true := by
  unfold translate1
  dsimp only
  split
  · exact h
  · split
    · split
      · exact h
      · exact memOk_touchD _ _ _ _ _ _ h
    · split
      · exact h
      · dsimp only
        split
        · exact memOk_setEntryBit _ _ _ _ h
        · exact memOk_tlInstall _ _ _ _ (memOk_setEntryBit _ _ _ _ h)
theorem memOk_translate (s : State) (k : Nat) (t : Tl) (q : Party) (part va n : Nat) (w : Bool) (h : s.memOk = true) :
    (Machine.translate s k t q part va n w).1.memOk = true := by
  unfold Machine.translate
  dsimp only
  generalize (if va / 2 ^ 16 = (va + n - 1) / 2 ^ 16 then n else 2 ^ 16 - va % 2 ^ 16) = n1
  split
  · exact h
  · rename_i s1 sp a e
    have h1 : s1.memOk = true := by have := memOk_translate1 s k t q part va w h; rwa [e] at this
    by_cases hn : n1 = n
    · rw [if_pos hn]; exact h1
    · rw [if_neg hn]
      have h2 := memOk_translate1 s1 k t q part (va + n1) w h1
      split
      · exact h
      · rename_i e2; rw [e2] at h2; exact h2
theorem memOk_resolve (s : State) (k : Nat) (t : Tl) (q : Party) (part : Nat) (i : Issuer) (va n : Nat) (w : Bool) (h : s.memOk = true) :
    (resolve s k t q part i va n w).1.memOk = true := by
  unfold resolve
  dsimp only
  have h1 := memOk_translate s k t q part va n w h
  split
  · exact h
  · split
    · exact h
    · split <;> first | exact h | (split <;> (rename_i e; rw [e] at h1; exact h1))
theorem memOk_readPieces (q : Party) (ps : List (Space × Nat × Nat)) (s : State) (h : s.memOk = true) : (readPieces s q ps).2.memOk = true := by
  induction ps generalizing s with
  | nil => exact h
  | cons p ps ih => exact ih _ (memOk_fixBytes _ _ _ _ _ (memOk_observeRead _ _ _ _ _ h))
theorem memOk_writePieces (q : Party) (part least : Nat) (ps : List (Space × Nat × Nat)) (bs : List Byte) (s : State) (h : s.memOk = true) :
    (writePieces s q part least ps bs).memOk = true := by
  induction ps generalizing s bs with
  | nil => exact h
  | cons p ps ih => exact ih _ _ (memOk_stamp _ _ _ _ _ (memOk_storePlain _ _ _ _ _ _ h))
theorem memOk_devRead (s : State) (part va n : Nat) (h : s.memOk = true) : (devRead s part va n).1.memOk = true := by
  unfold devRead
  have h1 := memOk_resolve s 64 .none .host part .device va n false h
  split <;> (rename_i e; rw [e] at h1; exact h1)
theorem memOk_devWrite (s : State) (part va : Nat) (bs : List Byte) (h : s.memOk = true) : (devWrite s part va bs).1.memOk = true := by
  unfold devWrite
  have h1 := memOk_resolve s 64 .none .host part .device va bs.length true h
  split
  · rename_i e; rw [e] at h1; exact h1
  · rename_i s1 ps l e
    rw [e] at h1
    dsimp only
    generalize bs = b
    clear e
    induction ps generalizing s1 b with
    | nil => exact h1
    | cons p ps ih => exact ih _ (memOk_stamp _ _ _ _ _ (memOk_storeDevice _ _ _ _ h1)) _
  · rename_i e; rw [e] at h1; exact h1

/-! ### Meters, traces and records -/

theorem memOk_addMeter (s : State) (id m n : Nat) (h : s.memOk = true) : (addMeter s id m n).memOk = true := h
theorem memOk_shares (m q : Nat) (ids : List Nat) (r : Nat) (s : State) (h : s.memOk = true) : (shares s m q r ids).memOk = true := by
  induction ids generalizing s r with
  | nil => exact h
  | cons i ids ih => exact ih _ _ (memOk_addMeter _ _ _ _ h)
theorem memOk_meter (s : State) (part : Nat) (ids : List Nat) (m n : Nat) (h : s.memOk = true) : (meter s part ids m n).memOk = true := by
  unfold meter
  dsimp only
  repeat' split
  all_goals first | exact h | exact memOk_shares _ _ _ _ _ h
theorem memOk_traceWrite (s : State) (part : Nat) (bs : List Byte) (h : s.memOk = true) : (traceWrite s part bs).memOk = true := by
  unfold traceWrite
  dsimp only
  split
  · exact h
  · split
    · exact h
    · have h1 := memOk_devWrite s part ((partRec s part).trbase + 32 * ((partRec s part).trwr % 2 ^ (partRec s part).trlog)) bs h
      split <;> (rename_i e; rw [e] at h1; exact h1)
theorem memOk_traceEvent (s : State) (rq kind core cl wh payload : Nat) (h : s.memOk = true) :
    (traceEvent s rq kind core cl wh payload).2.memOk = true := by
  unfold traceEvent
  dsimp only
  split
  · exact h
  · exact memOk_traceWrite _ _ _ h
theorem memOk_traceIt (s : State) (rq kind core cl wh payload : Nat) (h : s.memOk = true) : (traceIt s rq kind core cl wh payload).memOk = true :=
  memOk_traceEvent _ _ _ _ _ _ _ h
theorem memOk_latchEvent (s : State) (tag : Nat) (h : s.memOk = true) : (latchEvent s tag).2.memOk = true := by
  unfold latchEvent; dsimp only; split <;> exact h
theorem memOk_trigger (s : State) (tag : Nat) (h : s.memOk = true) : (trigger s tag).2.memOk = true := by
  unfold trigger
  split
  · exact h
  · exact memOk_latchEvent s tag h
theorem memOk_notePosted (s : State) (r : FRec) (h : s.memOk = true) : (notePosted s r).memOk = true := by
  unfold notePosted
  split
  · exact h
  · exact memOk_traceIt _ _ _ _ _ _ _ (memOk_addMeter _ _ _ _ h)
theorem memOk_postRec (s : State) (r : FRec) (h : s.memOk = true) : (postRec s r).memOk = true := by
  unfold postRec
  split
  · exact memOk_notePosted _ _ h
  · exact h
theorem memOk_postNew (s : State) (r : FRec) (h : s.memOk = true) : (postNew s r).memOk = true := memOk_postRec _ _ h
theorem memOk_raise (s : State) (r : FRec) (h : s.memOk = true) : (raise s r).2.memOk = true := by
  unfold raise
  dsimp only
  split
  · exact h
  · exact memOk_postRec _ _ h
theorem memOk_pagerFail (s : State) (k own wh cause : Nat) (h : s.memOk = true) : (pagerFail s k own wh cause).memOk = true := by
  unfold pagerFail
  dsimp only
  split
  · exact h
  · exact memOk_postNew _ _ h
  · exact memOk_postNew _ _ h
theorem memOk_takeTrap (a : At) (r : FRec) (s : State) (h : s.memOk = true) : (takeTrap a r s).memOk = true := by
  unfold takeTrap
  split
  · exact memOk_pagerFail _ _ _ _ _ h
  · exact memOk_postRec _ _ h
  · exact memOk_modClu _ _ _ _ (memOk_raise s r h)
theorem memOk_trapTy (a : At) (ty : FT) (s : State) (h : s.memOk = true) : (trapTy a ty s).memOk = true := memOk_takeTrap _ _ _ h
theorem memOk_trapMem (a : At) (f : AFault) (s : State) (h : s.memOk = true) : (trapMem a f s).memOk = true := memOk_takeTrap _ _ _ h

/-! ### The end of a syllable -/

theorem memOk_pcCheck (a : At) (pc : Nat) (s : State) (h : s.memOk = true) : (pcCheck a pc s).memOk = true := by
  unfold pcCheck
  split
  · exact h
  · exact memOk_takeTrap _ _ _ h
theorem memOk_meterIssue (a : At) (s : State) (h : s.memOk = true) : (meterIssue a s).memOk = true := by
  unfold meterIssue
  split
  · exact h
  · exact memOk_meter _ _ _ _ _ h
theorem memOk_advance (a : At) (s : State) (h : s.memOk = true) : (advance a s).memOk = true := by
  refine memOk_pcCheck _ _ _ ?_
  split
  · exact h
  · exact memOk_modCtx _ _ _ h
theorem memOk_retire (a : At) (s : State) (h : s.memOk = true) : (retire a s).memOk = true := memOk_advance _ _ (memOk_meterIssue a s h)
theorem memOk_branchTo (a : At) (t : Nat) (outs : Bool) (s : State) (h : s.memOk = true) : (branchTo a t outs s).memOk = true :=
  memOk_pcCheck _ _ _ (memOk_modCtx _ _ _ (memOk_meterIssue a s h))
theorem memOk_block (a : At) (b : Blocked) (s : State) (h : s.memOk = true) : (block a b s).memOk = true := memOk_modCtx _ _ _ h
theorem memOk_needQ (a : At) (pops pushes : List Nat) (go : State → State) (s : State) (h : s.memOk = true)
    (hg : s.memOk = true → (go s).memOk = true) : (needQ a pops pushes go s).memOk = true := by
  unfold needQ
  split
  · exact memOk_block _ _ _ h
  · split
    · exact memOk_block _ _ _ h
    · exact hg h

/-! ### Operands -/

theorem memOk_observeAll (q : Party) (l : List Obs) (s : State) (h : s.memOk = true) : (observeAll q s l).memOk = true :=
  memOk_foldl _ (fun s o h => memOk_observe q s o h) _ _ h
theorem memOk_popS (a : At) (q : Nat) (s : State) (h : s.memOk = true) : (popS a q s).2.memOk = true := memOk_observeAll _ _ _ h
theorem memOk_popV (a : At) (q : Nat) (s : State) (h : s.memOk = true) : (popV a q s).2.memOk = true := memOk_observeAll _ _ _ h
theorem memOk_takeS (a : At) (f : SOp) (s : State) (h : s.memOk = true) : (takeS a f s).2.memOk = true := by
  cases f with
  | x n => exact h
  | q n => exact memOk_popS _ _ _ h
theorem memOk_setX (s : State) (a : At) (n : Nat) (v : Word) (h : s.memOk = true) : (setX s a n v).memOk = true := by
  unfold setX
  split
  · exact h
  · exact memOk_modCtx _ _ _ h
theorem memOk_setP (s : State) (a : At) (n : Nat) (v : Bool) (h : s.memOk = true) : (setP s a n v).memOk = true := by
  unfold setP
  split
  · exact h
  · exact memOk_modCtx _ _ _ h
theorem memOk_putS (a : At) (f : SOp) (v : Word) (s : State) (h : s.memOk = true) : (putS a f v s).memOk = true := by
  cases f with
  | x n => exact memOk_setX _ _ _ _ h
  | q n => exact h
theorem memOk_popVG (a : At) (q : Nat) (g : Nat) (s : State) (h : s.memOk = true) : (popVG s a q g).2.memOk = true := by
  induction g generalizing s with
  | zero => exact h
  | succ g ih => simp only [popVG, -Nat.reducePow]; exact ih _ (memOk_popV _ _ _ h)
theorem memOk_pushVG (a : At) (q : Nat) (g x : Nat) (s : State) (h : s.memOk = true) : (pushVG s a q g x).memOk = true := by
  induction g generalizing s x with
  | zero => exact h
  | succ g ih => rw [pushVG]; exact ih _ _ (memOk_modCore _ _ _ h)
theorem memOk_setVG (a : At) (g n x : Nat) (s : State) (h : s.memOk = true) : (setVG s a n g x).memOk = true := by
  induction g generalizing s x n with
  | zero => exact h
  | succ g ih => rw [setVG]; exact ih _ _ _ (memOk_modClu _ _ _ _ h)
theorem memOk_takeV (a : At) (g : Nat) (f : VOp) (s : State) (h : s.memOk = true) : (takeV a g f s).2.memOk = true := by
  cases f with
  | v n => exact h
  | q n => exact memOk_popVG _ _ _ _ h
theorem memOk_putV (a : At) (g : Nat) (f : VOp) (x : Nat) (s : State) (h : s.memOk = true) : (putV a g f x s).memOk = true := by
  cases f with
  | v n => exact memOk_setVG _ _ _ _ _ h
  | q n => exact memOk_pushVG _ _ _ _ _ h

/-! ### What the shared operations answer -/

/-- A record that stops a party takes the next TOKEN (R288). -/
theorem raise_token (s : State) (r : FRec) : (raise s r).1 = s.dev.nextToken := rfl
/-- A user context that traps stands at the record whose TOKEN was next; nothing else of the cluster changes (R37). -/
theorem takeTrap_user {a : At} (h : a.x = .user) (r : FRec) (s : State) :
    takeTrap a r s = modClu (raise s r).2 a.k a.c fun u => { u with stop := some s.dev.nextToken } := by
  unfold takeTrap; rw [h]; rfl
/-- The pager's own fault ends its service (R293). -/
theorem takeTrap_pager {a : At} (h : a.x = .pager) (r : FRec) (s : State) : takeTrap a r s = pagerFail s a.k (ftCode r.ty) r.wh 0 := by
  unfold takeTrap; rw [h]
/-- A program counter within the instruction memory passes its check (R23). -/
theorem pcCheck_ok {a : At} {s : State} (pc : Nat) (h : pcOf s a < pcLimit a) : pcCheck a pc s = s := by unfold pcCheck; rw [if_pos h]
/-- A syllable outside every loop level that ends at it falls through. -/
theorem nextPc_plain (pc nxt : Nat) (l : List Nat) (t : Ctx) (xs : XSt) (h : ∀ n ∈ l, ((sget {} t.lv n).armed && (sget {} t.lv n).fin == pc) = false) :
    nextPc pc nxt l t xs = ({ t with pc := nxt }, xs) := by
  induction l with
  | nil => rfl
  | cons n l ih =>
    have := h n (by simp)
    simp only [nextPc, this, Bool.false_eq_true, if_false]
    exact ih fun m hm => h m (by simp [hm])

end Sys2Proof.Machine
end

