-- ==== Sys2Proof/Tests/Slice0.lean ====
section
/-! SUPPORT. Tests: an ill-formed instruction for each check of `Instr.wf`; words written from the encodings of the manual; single steps
with results worked out from the manual; and, for each obligation, states and operands that meet its hypotheses. -/

namespace Sys2Proof.Tests

-- One test after another: many at once would need more memory than the tests are worth.
set_option Elab.async false

open Sys2Proof.Machine

/-! ### Ill-formed instructions are refused -/

theorem test_wf_scalar : Instr.wf (.fwUnknown (.x 1) (.x 2) 6) = false ∧ Instr.wf (.fwUnknown (.x 1) (.x 2) 7) = true ∧
    Instr.wf (.fcvt .i4 .fp32 false (.x 1) (.x 2)) = false ∧ Instr.wf (.fcvt .fp32 .n4 false (.x 1) (.x 2)) = false ∧
    Instr.wf (.fcvt .fp32 .i32 true (.x 1) (.x 2)) = false ∧ Instr.wf (.fcvt .i32 .fp32 true (.x 1) (.x 2)) = true ∧
    Instr.wf (.ld .i4 (.x 1) (.x 2) (.x 3) 0) = false ∧ Instr.wf (.st .n4 (.x 1) (.x 2) (.x 3) 0) = false := by decide
theorem test_wf_order : Instr.wf (.phase .co false false) = false ∧ Instr.wf (.phase .co true false) = true ∧
    Instr.wf (.amoAdd .i32 .co .relaxed (.x 1) (.x 2) (.x 3)) = false ∧ Instr.wf (.amoMin .i32 .co .relaxed (.x 1) (.x 2) (.x 3)) = false ∧
    Instr.wf (.amoMax .i32 .co .relaxed (.x 1) (.x 2) (.x 3)) = false ∧ Instr.wf (.amoAnd .i32 .co .relaxed (.x 1) (.x 2) (.x 3)) = false ∧
    Instr.wf (.amoOr .i32 .co .relaxed (.x 1) (.x 2) (.x 3)) = false ∧ Instr.wf (.amoXor .i32 .co .relaxed (.x 1) (.x 2) (.x 3)) = false ∧
    Instr.wf (.amoSwap .i32 .co .relaxed (.x 1) (.x 2) (.x 3)) = false ∧ Instr.wf (.cas .i32 .co .relaxed (.x 1) (.x 2) (.x 3) (.x 4)) = false ∧
    Instr.wf (.waitm .i32 .eq false .co (.x 1) (.x 2) (.x 3)) = false ∧ Instr.wf (.sig .or true false 0 (.x 1) (.x 2)) = false ∧
    Instr.wf (.sig .add true true 0 (.x 0) (.x 2)) = false ∧ Instr.wf (.sig .add false true 0 (.x 1) (.x 2)) = false := by decide
theorem test_wf_vector : Instr.wf (.vadd .fp32 true none (.v 1) (.v 2) (.v 3)) = false ∧ Instr.wf (.vsub .tf8 false none (.v 1) (.v 2) (.v 3)) = false ∧
    Instr.wf (.vmul .i4 false none (.v 1) (.v 2) (.v 3)) = false ∧ Instr.wf (.vabs .fp16 true none (.v 1) (.v 2)) = false ∧
    Instr.wf (.vneg .tf6 false none (.v 1) (.v 2)) = false ∧ Instr.wf (.vmin .tf8 none (.v 1) (.v 2) (.v 3)) = false ∧
    Instr.wf (.vmax .n4 none (.v 1) (.v 2) (.v 3)) = false ∧ Instr.wf (.vaddImm .i4 (.v 1) (.v 2) 1) = false ∧
    Instr.wf (.vsubImm .tf8 (.v 1) (.v 2) 1) = false ∧ Instr.wf (.vmulImm .tf6 (.v 1) (.v 2) 1) = false ∧
    Instr.wf (.vminImm .n4 (.v 1) (.v 2) 1) = false ∧ Instr.wf (.vmaxImm .tf8 (.v 1) (.v 2) 1) = false ∧
    Instr.wf (.vand .fp32 none (.v 1) (.v 2) (.v 3)) = false ∧ Instr.wf (.vor .bf16 none (.v 1) (.v 2) (.v 3)) = false ∧
    Instr.wf (.vxor .tf8 none (.v 1) (.v 2) (.v 3)) = false ∧ Instr.wf (.vandn .fp16 none (.v 1) (.v 2) (.v 3)) = false ∧
    Instr.wf (.vshl .i4 none (.v 1) (.v 2) (.v 3)) = false ∧ Instr.wf (.vshr .fp32 none (.v 1) (.v 2) (.v 3)) = false ∧
    Instr.wf (.vsra .n4 none (.v 1) (.v 2) (.v 3)) = false ∧ Instr.wf (.vmulh .bf16 none (.v 1) (.v 2) (.v 3)) = false ∧
    Instr.wf (.vcmp .i32 .un none 1 (.v 2) (.v 3)) = false ∧ Instr.wf (.vcmp .tf8 .eq none 1 (.v 2) (.v 3)) = false := by decide
theorem test_wf_convert : Instr.wf (.vcvt .fp32 .fp16 false none (.v 1) (.v 2)) = false ∧ Instr.wf (.vcvt .fp32 .i32 true none (.v 1) (.v 2)) = false ∧
    Instr.wf (.vwiden .fp16 .fp32 false none (.v 2) (.v 4)) = false ∧ Instr.wf (.vwiden .i64 .i8 false none (.v 2) (.v 4)) = false ∧
    Instr.wf (.vwiden .fp32 .fp16 true none (.v 2) (.v 4)) = false ∧ Instr.wf (.vnarrow .fp32 .fp16 false none (.v 2) (.v 4)) = false ∧
    Instr.wf (.vnarrow .fp16 .fp32 true none (.v 2) (.v 4)) = false ∧ Instr.wf (.vcvts .fp32 2 0 (.v 4) (.v 8) (.v 1) (.x 0)) = false ∧
    Instr.wf (.vcvts .tf8 3 0 (.v 4) (.v 8) (.v 1) (.x 0)) = false ∧ Instr.wf (.vcvts .fp32 0 3 (.v 4) (.v 8) (.v 1) (.x 0)) = false ∧
    Instr.wf (.vcvts .i8 0 0 (.v 4) (.v 8) (.v 1) (.x 0)) = false ∧ Instr.wf (.vred .fp32 .and none (.v 1) (.v 2)) = false ∧
    Instr.wf (.vscan .tf8 .add none (.v 1) (.v 2)) = false ∧ Instr.wf (.vshuf .i8 .rev none (.v 1) (.v 2) (.v 3)) = false ∧
    Instr.wf (.vnanscan .i8 none (.x 1) (.v 2)) = false ∧ Instr.wf (.dtload 0 (.v 0) 9 1) = false ∧ Instr.wf (.dtload 0 (.v 0) 9 0) = true ∧
    Instr.wf (.dtsave (.v 0) 0 3 7) = false := by decide
theorem test_wf_engine : Instr.wf (.mShape 5 .tf8 .tf8 7) = false ∧ Instr.wf (.mShape 0 .fp32 .tf8 7) = false ∧ Instr.wf (.mShape 0 .tf8 .i4 7) = false ∧
    Instr.wf (.mDrain 0 .i8 3 false 1) = false ∧ Instr.wf (.mDrain 0 .bf16 3 false 0) = false ∧ Instr.wf (.mDrain 33 .bf16 3 false 32) = false ∧
    Instr.wf (.mDrain 32 .bf16 3 false 32) = true ∧ Instr.wf (.cLvl 0 true 1 0 1) = false ∧ Instr.wf (.cBound 3 0) = false ∧ Instr.wf (.cBound 0 3) = false ∧
    Instr.wf (.kAppend 7 4 31 12 2) = false ∧ Instr.wf (.kAppend 7 4 8 12 0) = false ∧ Instr.wf (.kAppend 7 4 8 12 4097) = false ∧
    Instr.wf (.kAppend 7 4 30 12 4096) = true ∧ Instr.wf (.kAppend 7 30 8 12 2) = false ∧ Instr.wf (.kAppend 7 29 8 12 2) = true ∧
    Instr.wf (.kPinTake 30 7) = false ∧ Instr.wf (.kPinRelease 31 7) = false ∧ Instr.wf (.tMerge 0 30 1 7) = false ∧ Instr.wf (.tRequant 7 30 false 4 7) = false ∧ Instr.wf (.tMerge 0 4 16385 7) = false ∧ Instr.wf (.tMerge 0 4 16384 7) = true := by decide

/-! ### Words of the manual -/

/-- A syllable with S, N and P zero, by the columns of R22. -/
def syl (op fn d a b c : Nat) : Nat := op * 2 ^ 50 + fn * 2 ^ 46 + d * 2 ^ 36 + a * 2 ^ 26 + b * 2 ^ 16 + c
/-- An engine word by the columns of R41. -/
def ew (eop lvl field rep : Nat) : Nat := eop * 2 ^ 40 + lvl * 2 ^ 36 + field * 2 ^ 16 + rep
def is (w : Nat) (i : Instr) : Prop := decodeTableWord 64 w = some i
def isE (w : Nat) (i : Instr) : Prop := decodeTableWord 48 w = some i

theorem test_words_control : is (syl 0x00 0 0 0 0 0) .nop ∧ is (syl 0x01 0 0 0 1023 0xFFFD) (.br 0x3FFFFFD) ∧ is (syl 0x02 0 0 0 0 7) (.brp 7) ∧
    is (syl 0x03 0 0 9 0 0) (.brx (.x 9)) ∧ is (syl 0x04 0 63 0 1 2) (.call 63 0x10002) ∧ is (syl 0x05 0 0 63 0 0) (.ret (.x 63)) ∧
    is (syl 0x06 5 0 1022 0 9) (.loop 5 (.q 2) 9) ∧ is (syl 0x07 1 3 4 0 9) (.rloop 1 3 (.x 4) 9) ∧ is (syl 0x08 0 0 0 0 0) .exit ∧ is (syl 0x09 0 0 0 0 0) .sync ∧
    is (syl 0x0A 0 0 0 0 77) .safept ∧ is (syl 0x0B 0 0 0 0 0xA3) (.ovl 3 10) ∧ is (syl 0x0C 0 5 0 0 0x23) (.sysrd (.x 5) 0x23) ∧
    is (syl 0x0D 0 0 5 0 0x20) (.syswr (.x 5) 0x20) ∧ is (syl 0x0E 0 1 2 0 0) (.fwVersion (.x 1) (.x 2)) ∧ is (syl 0x0E 0 1 2 0 1) (.fwForm (.x 1) (.x 2)) ∧
    is (syl 0x0E 0 1 2 0 2) (.fwPower (.x 1) (.x 2)) ∧ is (syl 0x0E 0 1 2 0 3) (.fwGovernor (.x 1) (.x 2)) ∧ is (syl 0x0E 0 1 2 0 4) (.fwPlat (.x 1) (.x 2)) ∧
    is (syl 0x0E 0 1 2 0 5) (.fwDebugPolicy (.x 1) (.x 2)) ∧ is (syl 0x0E 0 1 2 0 6) (.fwPagerRequest (.x 1) (.x 2)) ∧ is (syl 0x0E 0 1 2 0 7) (.fwUnknown (.x 1) (.x 2) 7) ∧
    is (syl 0x0E 1 0 0 0 0) .idle ∧ is (syl 0x0E 2 0 5 0 7) (.trap (.x 5) 7) ∧ is (syl 0x0E 3 0 0 0 0) .eret ∧ is (syl 0x0E 4 0 0 0 0) .eretSkip ∧
    is (syl 0x0E 5 0 0 0 0) .eretAbort := by unfold is; and_intros <;> decide
theorem test_words_integer : is (syl 0x10 0 5 6 7 0) (.add (.x 5) (.x 6) (.x 7)) ∧ is (syl 0x10 1 5 6 7 0) (.sub (.x 5) (.x 6) (.x 7)) ∧
    is (syl 0x10 2 5 6 7 0) (.and (.x 5) (.x 6) (.x 7)) ∧ is (syl 0x10 3 5 6 7 0) (.or (.x 5) (.x 6) (.x 7)) ∧ is (syl 0x10 4 5 6 7 0) (.xor (.x 5) (.x 6) (.x 7)) ∧
    is (syl 0x10 5 5 6 7 0) (.andn (.x 5) (.x 6) (.x 7)) ∧ is (syl 0x10 6 5 6 7 0) (.shl (.x 5) (.x 6) (.x 7)) ∧ is (syl 0x10 7 5 6 7 0) (.shr (.x 5) (.x 6) (.x 7)) ∧
    is (syl 0x10 8 5 6 7 0) (.sra (.x 5) (.x 6) (.x 7)) ∧ is (syl 0x10 9 5 6 7 0) (.rot (.x 5) (.x 6) (.x 7)) ∧ is (syl 0x10 10 5 6 7 0) (.min (.x 5) (.x 6) (.x 7)) ∧
    is (syl 0x10 11 5 6 7 0) (.max (.x 5) (.x 6) (.x 7)) ∧ is (syl 0x10 12 5 6 7 0) (.minu (.x 5) (.x 6) (.x 7)) ∧ is (syl 0x10 13 5 6 7 0) (.maxu (.x 5) (.x 6) (.x 7)) ∧
    is (syl 0x11 0 5 6 0 9) (.addImm (.x 5) (.x 6) 9) ∧ is (syl 0x11 1 5 6 0 9) (.subImm (.x 5) (.x 6) 9) ∧ is (syl 0x11 2 5 6 0 9) (.andImm (.x 5) (.x 6) 9) ∧
    is (syl 0x11 3 5 6 0 9) (.orImm (.x 5) (.x 6) 9) ∧ is (syl 0x11 4 5 6 0 9) (.xorImm (.x 5) (.x 6) 9) ∧ is (syl 0x11 5 5 6 0 9) (.andnImm (.x 5) (.x 6) 9) ∧
    is (syl 0x11 6 5 6 0 9) (.shlImm (.x 5) (.x 6) 9) ∧ is (syl 0x11 7 5 6 0 9) (.shrImm (.x 5) (.x 6) 9) ∧ is (syl 0x11 8 5 6 0 9) (.sraImm (.x 5) (.x 6) 9) ∧
    is (syl 0x11 9 5 6 0 9) (.rotImm (.x 5) (.x 6) 9) ∧ is (syl 0x11 10 5 6 0 9) (.minImm (.x 5) (.x 6) 9) ∧ is (syl 0x11 11 5 6 0 9) (.maxImm (.x 5) (.x 6) 9) ∧
    is (syl 0x11 12 5 6 0 9) (.minuImm (.x 5) (.x 6) 9) ∧ is (syl 0x11 13 5 6 0 9) (.maxuImm (.x 5) (.x 6) 9) := by unfold is; and_intros <;> decide
theorem test_words_scalar : is (syl 0x12 0 5 6 7 0) (.mul (.x 5) (.x 6) (.x 7)) ∧ is (syl 0x12 1 5 6 7 0) (.mulh (.x 5) (.x 6) (.x 7)) ∧
    is (syl 0x12 2 5 6 7 0) (.mulhu (.x 5) (.x 6) (.x 7)) ∧ is (syl 0x12 3 5 6 7 0) (.div (.x 5) (.x 6) (.x 7)) ∧ is (syl 0x12 4 5 6 7 0) (.divu (.x 5) (.x 6) (.x 7)) ∧
    is (syl 0x12 5 5 6 7 0) (.rem (.x 5) (.x 6) (.x 7)) ∧ is (syl 0x12 6 5 6 7 0) (.remu (.x 5) (.x 6) (.x 7)) ∧ is (syl 0x13 0 5 6 0 0) (.clz (.x 5) (.x 6)) ∧
    is (syl 0x13 1 5 6 0 0) (.popc (.x 5) (.x 6)) ∧ is (syl 0x13 2 5 6 0 0) (.ctz (.x 5) (.x 6)) ∧ is (syl 0x14 0 5 6 0 (3 + 64 * 7)) (.bfxS (.x 5) (.x 6) 3 7) ∧
    is (syl 0x14 1 5 6 0 (3 + 64 * 7)) (.bfxU (.x 5) (.x 6) 3 7) ∧ is (syl 0x15 0 5 6 0 (3 + 64 * 7)) (.bfi 5 (.x 6) 3 7) ∧
    is (syl 0x16 0 9 0 1023 0xFFFE) (.li (.x 9) 0x3FFFFFE) ∧ is (syl 0x17 2 5 0 0 0x4920) (.lih 5 2 0x4920) ∧ is (syl 0x18 0 3 4 5 0) (.cmpEq 3 (.x 4) (.x 5)) ∧
    is (syl 0x18 1 3 4 5 0) (.cmpNe 3 (.x 4) (.x 5)) ∧ is (syl 0x18 2 3 4 5 0) (.cmpLt 3 (.x 4) (.x 5)) ∧ is (syl 0x18 3 3 4 5 0) (.cmpGe 3 (.x 4) (.x 5)) ∧
    is (syl 0x18 4 3 4 5 0) (.cmpLtu 3 (.x 4) (.x 5)) ∧ is (syl 0x18 5 3 4 5 0) (.cmpGeu 3 (.x 4) (.x 5)) ∧ is (syl 0x19 0 3 4 0 9) (.cmpEqImm 3 (.x 4) 9) ∧
    is (syl 0x19 1 3 4 0 9) (.cmpNeImm 3 (.x 4) 9) ∧ is (syl 0x19 2 3 4 0 9) (.cmpLtImm 3 (.x 4) 9) ∧ is (syl 0x19 3 3 4 0 9) (.cmpGeImm 3 (.x 4) 9) ∧
    is (syl 0x19 4 3 4 0 9) (.cmpLtuImm 3 (.x 4) 9) ∧ is (syl 0x19 5 3 4 0 9) (.cmpGeuImm 3 (.x 4) 9) ∧ is (syl 0x1A 0 5 6 7 (1024 + 4)) (.sel (.x 5) (.x 6) (.x 7) 4 true) ∧
    is (syl 0x20 8 5 6 7 0) (.fadd .fp32 (.x 5) (.x 6) (.x 7)) ∧ is (syl 0x21 9 5 6 7 0) (.fsub .fp16 (.x 5) (.x 6) (.x 7)) ∧
    is (syl 0x22 10 5 6 7 0) (.fmul .bf16 (.x 5) (.x 6) (.x 7)) ∧ is (syl 0x23 8 5 6 7 8) (.fma .fp32 (.x 5) (.x 6) (.x 7) (.x 8)) ∧
    is (syl 0x24 8 5 6 7 0) (.fmin .fp32 (.x 5) (.x 6) (.x 7)) ∧ is (syl 0x25 8 5 6 7 0) (.fmax .fp32 (.x 5) (.x 6) (.x 7)) ∧
    is (syl 0x26 8 3 4 5 (1024 * 4)) (.fcmp .fp32 .un 3 (.x 4) (.x 5)) ∧ is (syl 0x27 4 5 6 0 (1024 * (8 + 16))) (.fcvt .i32 .fp32 true (.x 5) (.x 6)) ∧
    is (syl 0x28 0 1 2 3 0) (.pand 1 2 3) ∧ is (syl 0x28 1 1 2 3 0) (.por 1 2 3) ∧ is (syl 0x28 2 1 2 3 0) (.pxor 1 2 3) ∧ is (syl 0x28 3 1 2 3 0) (.pandn 1 2 3) ∧
    is (syl 0x28 4 1 2 0 0) (.pnot 1 2) ∧ is (syl 0x28 5 1 2 0 0) (.pmov 1 2) ∧ is (syl 0x29 0 5 0 0 0) (.ptox (.x 5)) ∧ is (syl 0x29 1 0 5 0 0) (.xtop (.x 5)) := by
  unfold is; and_intros <;> decide
theorem test_words_memory : is (syl 0x30 8 5 6 7 9) (.ld .fp32 (.x 5) (.x 6) (.x 7) 9) ∧ is (syl 0x31 8 5 6 7 9) (.st .fp32 (.x 5) (.x 6) (.x 7) 9) ∧
    is (syl 0x32 10 1008 6 7 512) (.ldq .bf16 0 (.x 6) (.x 7) 512) ∧ is (syl 0x33 0 1017 6 7 64) (.stq .i8 1 (.x 6) (.x 7) 64) ∧
    is (syl 0x34 11 1015 6 31 64) (.lds .tf8 7 31 (.x 6) 64) ∧ is (syl 0x35 11 1016 6 31 64) (.sts .tf8 0 31 (.x 6) 64) ∧
    is (syl 0x36 11 1009 6 30 64) (.gth .tf8 1 30 (.x 6) 64) ∧ is (syl 0x37 11 1016 6 30 64) (.sct .tf8 0 30 (.x 6) 64) ∧ is (syl 0x38 0 0 6 7 64) (.pref (.x 6) (.x 7) 64) ∧
    is (syl 0x39 0 31 6 0 3) (.srset 31 (.x 6) 3) ∧ is (syl 0x3A 0 6 31 0 3) (.srget (.x 6) 31 3) ∧ is (syl 0x3B 0 5 1023 0 0) (.qstat (.x 5) (.ic 15)) ∧
    is (syl 0x3B 0 5 8 0 1) (.qstat (.x 5) (.eq 8)) ∧ is (syl 0x3C 0 7 0 0 255) (.hpost 7 255) ∧ is (syl 0x3D 0 7 0 0 255) (.htake 7 255) ∧
    is (syl 0x3E 0 4 5 0 0) (.push 4 (.x 5)) ∧ is (syl 0x40 3 0 0 0 1024) (.phase .dv true false) ∧ is (syl 0x40 1 0 0 0 2048) (.phase .co false true) ∧
    is (syl 0x41 13 3 4 5 (1024 * (3 + 16))) (.amoAdd .i64 .dv .rel (.x 3) (.x 4) (.x 5)) ∧ is (syl 0x42 4 3 4 5 0) (.amoMin .i32 .cl .relaxed (.x 3) (.x 4) (.x 5)) ∧
    is (syl 0x43 5 3 4 5 (1024 * (1 + 8))) (.amoMax .n32 .co .acq (.x 3) (.x 4) (.x 5)) ∧ is (syl 0x44 14 3 4 5 (1024 * (4 + 24))) (.amoAnd .n64 .sy .ar (.x 3) (.x 4) (.x 5)) ∧
    is (syl 0x45 4 3 4 5 0) (.amoOr .i32 .cl .relaxed (.x 3) (.x 4) (.x 5)) ∧ is (syl 0x46 4 3 4 5 0) (.amoXor .i32 .cl .relaxed (.x 3) (.x 4) (.x 5)) ∧
    is (syl 0x47 4 3 4 5 0) (.amoSwap .i32 .cl .relaxed (.x 3) (.x 4) (.x 5)) ∧ is (syl 0x48 13 3 4 5 (1024 * 8 + 6)) (.cas .i64 .cl .acq (.x 3) (.x 4) (.x 5) (.x 6)) ∧
    is (syl 0x49 14 6 10 0 (1024 * (3 + 8))) (.waitm .n64 .eq true .dv (.x 6) (.x 10) (.x 0)) ∧ is (syl 0x49 4 6 10 1 (1024 * 48)) (.waitm .i32 .ge false .cl (.x 6) (.x 10) (.x 1)) := by
  unfold is; and_intros <;> decide
theorem test_words_system : is (syl 0x50 0 5 0 0 64) (.mstat (.x 5) 64) ∧ is (syl 0x51 0 0 0 0 8) (.waitk 8) ∧ is (syl 0x52 0 3 0 0 0) (.tokq (.x 3)) ∧
    is (syl 0x53 0 0 8 9 0) (.pkt (.x 8) (.x 9)) ∧ is (syl 0x54 0 3 4 0 0) (.kslot (.x 3) (.x 4)) ∧ is (syl 0x60 0 3 4 5 0) (.rqopen (.x 3) (.x 4) (.x 5)) ∧
    is (syl 0x61 0 0 7 0 0) (.rqset (.x 7)) ∧ is (syl 0x62 0 0 10 11 63) (.rqrow (.x 10) (.x 11) 63) ∧ is (syl 0x63 0 0 6 0 1024) (.rqsets true (.x 6)) ∧
    is (syl 0x64 0 3 4 0 0) (.rqhalt (.x 3) (.x 4)) ∧ is (syl 0x65 0 3 4 0 0) (.rqresume (.x 3) (.x 4)) ∧ is (syl 0x66 0 3 4 0 0) (.rqcancel (.x 3) (.x 4)) ∧
    is (syl 0x66 0 3 4 0 1024) (.rqcancelDrain (.x 3) (.x 4)) ∧ is (syl 0x67 0 5 6 0 1) (.rqmeter (.x 5) (.x 6) 1) ∧ is (syl 0x68 0 2 9 0 0) (.rqmark (.x 2) (.x 9)) ∧
    is (syl 0x69 0 2 9 0 0) (.rqstat (.x 2) (.x 9)) ∧ is (syl 0x6A 0 0 4 0 (2048 + 4096)) (.tlbinv (.x 4) 2 true) ∧ is (syl 0x6B 0 0 4 5 1) (.tlbfill (.x 4) (.x 5) 1) ∧
    is (syl 0x6C 0 3 4 5 0) (.pgmap (.x 3) (.x 4) (.x 5)) ∧ is (syl 0x6D 0 0 6 0 0) (.exqpost (.x 6)) ∧ is (syl 0x6E 0 3 5 0 0) (.winnow (.x 3) (.x 5)) ∧
    is (syl 0x6F 0 5 0 0 0) (.leaveq (.x 5)) ∧ is (syl 0x70 0 0 0 5 (0x0C + 1024 + 8192)) (.sig .add false true 12 (.x 0) (.x 5)) ∧
    is (syl 0x70 0 0 4 5 (0x0C + 4096)) (.sig .write true false 12 (.x 4) (.x 5)) ∧ is (syl 0x71 0 3 0 4 (12 + 2048)) (.waits .geu (.x 3) 12 (.x 4)) ∧
    is (syl 0x71 0 3 0 0 (12 + 4096)) (.waitsPoll (.x 3) 12) ∧ is (syl 0x72 0 0 0 0 0) .barCo ∧ is (syl 0x72 0 0 0 0 (7 + 1024)) (.barDv 7) ∧ is (syl 0x73 0 0 0 0 7) (.bard 7) ∧
    is (syl 0x74 0 3 4 5 0) (.barsetAlloc (.x 3) (.x 4) (.x 5)) ∧ is (syl 0x74 0 3 4 5 (7 + 1024)) (.barsetSet (.x 3) (.x 4) (.x 5) 7) ∧
    is (syl 0x74 0 3 0 0 (7 + 2048)) (.barsetFree (.x 3) 7) ∧ is (syl 0x74 0 3 0 0 (7 + 3072)) (.barsetQuery (.x 3) 7) ∧ is (syl 0x75 0 0 4 0 0) (.ulienOn (.x 4)) ∧
    is (syl 0x75 0 0 0 0 1024) .ulienOff ∧ is (syl 0x75 0 2 0 4 (12 + 512 + 2048)) (.ulienWatch 2 12 (.x 4) .geu) ∧ is (syl 0x75 0 2 0 0 3072) (.ulienUnwatch 2) ∧
    is (syl 0x76 0 0 0 0 0) .uliret := by unfold is; and_intros <;> decide
theorem test_words_vector : is (syl 0x80 8 10 11 12 (1024 * 18)) (.vadd .fp32 false (some 2) (.v 10) (.v 11) (.v 12)) ∧
    is (syl 0x81 0 10 11 12 (1024 * 32)) (.vsub .i8 true none (.v 10) (.v 11) (.v 12)) ∧ is (syl 0x82 4 639 11 1008 0) (.vmul .i32 false none (.v 639) (.v 11) (.q 0)) ∧
    is (syl 0x83 9 10 11 12 13) (.vfma .fp16 none (.v 10) (.v 11) (.v 12) (.v 13)) ∧ is (syl 0x84 4 10 11 12 0) (.vmin .i32 none (.v 10) (.v 11) (.v 12)) ∧
    is (syl 0x85 4 10 11 12 0) (.vmax .i32 none (.v 10) (.v 11) (.v 12)) ∧ is (syl 0x86 4 10 11 0 0) (.vabs .i32 false none (.v 10) (.v 11)) ∧
    is (syl 0x87 4 10 11 0 0) (.vneg .i32 false none (.v 10) (.v 11)) ∧ is (syl 0x88 7 10 11 12 0) (.vand .n4 none (.v 10) (.v 11) (.v 12)) ∧
    is (syl 0x89 1 10 11 12 0) (.vor .n8 none (.v 10) (.v 11) (.v 12)) ∧ is (syl 0x8A 1 10 11 12 0) (.vxor .n8 none (.v 10) (.v 11) (.v 12)) ∧
    is (syl 0x8B 1 10 11 12 0) (.vandn .n8 none (.v 10) (.v 11) (.v 12)) ∧ is (syl 0x8C 1 10 11 12 0) (.vshl .n8 none (.v 10) (.v 11) (.v 12)) ∧
    is (syl 0x8D 1 10 11 12 0) (.vshr .n8 none (.v 10) (.v 11) (.v 12)) ∧ is (syl 0x8E 0 10 11 12 0) (.vsra .i8 none (.v 10) (.v 11) (.v 12)) ∧
    is (syl 0x8F 0 10 11 12 0) (.vmulh .i8 none (.v 10) (.v 11) (.v 12)) ∧ is (syl 0x90 8 10 11 0 9) (.vaddImm .fp32 (.v 10) (.v 11) 9) ∧
    is (syl 0x91 8 10 11 0 9) (.vsubImm .fp32 (.v 10) (.v 11) 9) ∧ is (syl 0x92 8 10 11 0 9) (.vmulImm .fp32 (.v 10) (.v 11) 9) ∧
    is (syl 0x93 8 10 11 0 9) (.vminImm .fp32 (.v 10) (.v 11) 9) ∧ is (syl 0x94 8 10 11 0 9) (.vmaxImm .fp32 (.v 10) (.v 11) 9) ∧
    is (syl 0x95 11 10 1021 0 0) (.vbcast .tf8 none (.v 10) (.q 1)) ∧ is (syl 0x96 11 10 0 0 9) (.vbcastImm .tf8 (.v 10) 9) ∧
    is (syl 0x97 8 3 4 5 2) (.vcmp .fp32 .lt none 3 (.v 4) (.v 5)) ∧ is (syl 0x98 8 3 4 5 15) (.vsel .fp32 15 (.v 3) (.v 4) (.v 5)) ∧
    is (syl 0x99 9 3 4 0 (3 + 1024 * 17)) (.vcvt .fp16 .n16 false (some 1) (.v 3) (.v 4)) ∧
    is (syl 0x9A 8 4 8 1 (1024 * 2 + 8192 + 7)) (.vcvts .fp32 1 2 (.v 4) (.v 8) (.v 1) (.x 7)) ∧ is (syl 0x9B 8 4 8 0 9) (.vwiden .fp32 .fp16 false none (.v 4) (.v 8)) ∧
    is (syl 0x9C 0 4 8 0 (8 + 16)) (.vnarrow .i8 .fp32 true none (.v 4) (.v 8)) ∧ is (syl 0x9D 4 4 8 0 3) (.vred .i32 .and none (.v 4) (.v 8)) ∧
    is (syl 0x9E 8 4 8 0 2) (.vscan .fp32 .max none (.v 4) (.v 8)) ∧ is (syl 0x9F 0 4 8 12 0) (.vperm .i8 none (.v 4) (.v 8) (.v 12)) ∧
    is (syl 0xA0 0 4 8 12 3) (.vshuf .i8 .odd none (.v 4) (.v 8) (.v 12)) ∧ is (syl 0xA1 8 4 8 12 (32768 + 16384 + 1024 + 5)) (.vxl .fp32 (some 1) (.v 4) (.v 8) (.v 12) (.imm 5)) ∧
    is (syl 0xA1 8 4 8 12 5) (.vxl .fp32 none (.v 4) (.v 8) (.v 12) (.reg (.x 5))) ∧ is (syl 0xA2 8 4 8 0 (32768 + 5)) (.vins .fp32 4 (.x 8) (.imm 5)) ∧
    is (syl 0xA3 8 4 8 9 0) (.vext .fp32 (.x 4) (.v 8) (.reg (.x 9))) := by unfold is; and_intros <;> decide
theorem test_words_masks : is (syl 0xA4 8 4 8 0 (1024 * 17)) (.vcompress .fp32 (some 1) (.v 4) (.v 8)) ∧ is (syl 0xA5 8 4 8 0 0) (.vexpand .fp32 none (.v 4) (.v 8)) ∧
    is (syl 0xA6 8 4 8 0 0) (.vexp .fp32 none (.v 4) (.v 8)) ∧ is (syl 0xA7 9 4 8 0 0) (.vln .fp16 none (.v 4) (.v 8)) ∧ is (syl 0xA8 10 4 8 0 0) (.vrcp .bf16 none (.v 4) (.v 8)) ∧
    is (syl 0xA9 8 4 8 0 0) (.vrsq .fp32 none (.v 4) (.v 8)) ∧ is (syl 0xAA 8 4 8 0 0) (.vsig .fp32 none (.v 4) (.v 8)) ∧ is (syl 0xAB 11 4 8 12 0) (.vlut .tf8 none (.v 4) (.v 8) (.v 12)) ∧
    is (syl 0xAC 0 4 8 0 0) (.vmov (.v 4) (.v 8)) ∧ is (syl 0xAD 0 1 2 3 0) (.mand 1 2 3) ∧ is (syl 0xAD 1 1 2 3 0) (.mor 1 2 3) ∧ is (syl 0xAD 2 1 2 3 0) (.mxor 1 2 3) ∧
    is (syl 0xAD 3 1 2 3 0) (.mandn 1 2 3) ∧ is (syl 0xAD 4 1 2 0 0) (.mnot 1 2) ∧ is (syl 0xAD 5 1 2 0 0) (.mmov 1 2) ∧ is (syl 0xAE 0 5 2 0 0) (.mpopc (.x 5) 2) ∧
    is (syl 0xAF 12 5 8 0 0) (.vnanscan .tf6 none (.x 5) (.v 8)) ∧ is (syl 0xC0 0 3 1008 0 (2 + 16 * 7)) (.dtload 3 (.q 0) 2 7) ∧ is (syl 0xC1 0 1 5 0 0) (.dtattrSet 1 (.x 5)) ∧
    is (syl 0xC1 0 5 1 0 1024) (.dtattrGet (.x 5) 1) ∧ is (syl 0xC1 0 0 5 0 2048) (.dtattrHnd (.x 5)) ∧ is (syl 0xC1 0 0 0 0 3072) .dtattrRet ∧
    is (syl 0xC2 0 10 11 12 (1 + 4 + 8 * 5)) (.dtx 1 true 5 (.v 10) (.v 11) (.v 12)) ∧ is (syl 0xC3 0 10 11 0 2) (.dtmap 2 false 0 (.v 10) (.v 11)) ∧
    is (syl 0xC4 0 13 11 12 3) (.dtcmp 3 13 (.v 11) (.v 12)) ∧ is (syl 0xC5 0 40 30 0 1) (.dtvalI32 1 (.v 40) (.v 30)) ∧ is (syl 0xC5 0 40 30 0 5) (.dtvalFp32 1 (.v 40) (.v 30)) ∧
    is (syl 0xC6 0 8 3 0 (9 + 0)) (.dtsave (.v 8) 3 9 0) ∧ is (syl 0xD0 0 5 6 2 1024) (.mld true (.x 5) (.x 6) 2) ∧ is (syl 0xD1 0 3 10 11 0) (.mst (.x 3) (.x 10) (.x 11)) ∧
    is (syl 0xD2 0 3 10 11 12) (.mcas (.x 3) (.x 10) (.x 11) (.x 12)) ∧ is (syl 0xD3 0 4 10 9 0) (.mrepair (.x 4) (.x 10) (.x 9)) ∧
    is (syl 0xD4 0 3 8 0 0) (.sheafmap (.x 3) (.x 8)) := by unfold is; and_intros <;> decide
theorem test_words_engine : isE (ew 0x01 1 0xFFFFF 0) (.mPlane true 0xFFFFF) ∧ isE (ew 0x02 0 (11 * 8192 + 11 * 512 + 7 * 64) 0) (.mShape 0 .tf8 .tf8 7) ∧
    isE (ew 0x03 5 (16384 + 256 + 4) 2) (.mLvl 5 1 1 1 2) ∧ isE (ew 0x04 1 31 0) (.mStr true 31) ∧ isE (ew 0x05 3 0x3F80 0) (.mScale 3 0x3F80) ∧
    isE (ew 0x06 0 (63 * 16384) 0) (.mTile 63) ∧ isE (ew 0x07 0 (63 * 8192) 0) (.mRows 63) ∧ isE (ew 0x08 0 0 0) .mMark ∧
    isE (ew 0x09 0 (96 * 256 + 32) 0) (.mGo 96 false false true false) ∧ isE (ew 0x09 0 (128 + 64 + 16) 0) (.mGo 0 true true false true) ∧
    isE (ew 0x0A 0 (10 * 1024 + 3 * 32) 32) (.mDrain 0 .bf16 3 false 32) ∧ isE (ew 0x0B 0 (4 * 256 + 5) 1) (.mSig false false 4 5 1) ∧
    isE (ew 0x0C 3 0 0) (.mWait (.tok 3)) ∧ isE (ew 0x0C 0 (524288 + 7) 1) (.mWait (.sg 7 1)) ∧ isE (ew 0x41 0 (4 * 32768) 0) (.cSrc 4 0) ∧
    isE (ew 0x42 0 (5 * 32768 + 8) 0) (.cDst 5 1) ∧ isE (ew 0x43 2 (524288 + 512 + 1) 0) (.cLvl 2 true 1 1 0) ∧ isE (ew 0x44 0 0xE9000 0) (.cSwz true 3 2 8) ∧
    isE (ew 0x45 0 6 0) (.cBound 2 1) ∧ isE (ew 0x46 0 8 0) (.cTok 8) ∧ isE (ew 0x47 0 (4 * 256 + 12) 1) (.cSig false false false 4 12 1) ∧
    isE (ew 0x47 0 (131072 + 4 * 256 + 12) 0x201) (.cSig false false true 4 12 0x201) ∧ isE (ew 0x48 0 8 0) (.cWait (.tok 8)) ∧ isE (ew 0x48 0 (524288 + 7) 1) (.cWait (.sg 7 1)) ∧
    isE (ew 0x49 0 (3 * 16384 + 4096) 0) (.cGo 3 false true) ∧ isE (ew 0x81 7 (4 * 32768 + 8 * 1024 + 12 * 32) 2) (.kAppend 7 4 8 12 2) ∧
    isE (ew 0x82 0 (4 * 32768) 7) (.kPinTake 4 7) ∧ isE (ew 0x82 1 (4 * 32768) 7) (.kPinRelease 4 7) ∧ isE (ew 0x83 0 (4 * 32768 + 14746) 7) (.tMerge 0 4 14746 7) ∧
    isE (ew 0x84 7 (4 * 32768 + 4) 7) (.tRequant 7 4 false 4 7) ∧ isE (ew 0x85 0 (4 * 256 + 20) 1) (.tStatus false false 4 20 1) := by unfold isE; and_intros <;> decide
/-- The worked encodings of the manual. -/
theorem test_words_worked : is 0x0040005018070000 (.add (.x 5) (.x 6) (.x 7)) ∧ is 0x004400501800FFFF (.addImm (.x 5) (.x 6) 0xFFFF) ∧ is 0x0058009003FFFFFE (.li (.x 9) 0x3FFFFFE) ∧
    is 0x0060803010050000 (.cmpLt 3 (.x 4) (.x 5)) ∧ is 0x020200A02C0C4800 (.vadd .fp32 false (some 2) (.v 10) (.v 11) (.v 12)) ∧ is 0x00F8004014000000 (.push 4 (.x 5)) ∧
    is 0x01C400300004080C (.waits .geu (.x 3) 12 (.x 4)) ∧ isE 0x4900D0000000 (.cGo 3 false true) ∧ isE 0x817221800002 (.kAppend 7 4 8 12 2) ∧ isE 0x8302399A0007 (.tMerge 0 4 14746 7) := by
  unfold is isE; and_intros <;> decide
/-- Refused words: an unlisted OP, a reserved FN, a modifier, a register number, an engine word with a reserved bit. -/
theorem test_words_refused : decodeWith none (syl 0x0F 0 0 0 0 0) = .error .opcode ∧ decodeWith none (syl 0x10 14 1 2 3 0) = .error .opcode ∧
    decodeWith none (syl 0x10 0 1 2 3 1) = .error .modifier ∧ decodeWith none (syl 0x10 0 64 2 3 0) = .error .operand ∧ decodeWith (some (.A, false)) (syl 0x3E 0 4 5 0 0) = .error .cluster ∧
    decodeWith (some (.K, false)) (syl 0x0E 3 0 0 0 0) = .error .privilege ∧ decodeTableWord 48 0 = none ∧ decodeTableWord 48 0x492000000001 = none ∧
    decodeTableWord 48 (ew 0x08 0 1 0) = none ∧ decodeTableWord 48 (ew 0x82 0 (30 * 32768) 7) = none ∧ decodeTableWord 48 (ew 0x83 0 (31 * 32768 + 1) 7) = none := by and_intros <;> rfl

/-! ### Small states -/

/-- Core 0 runs an instance of partition 0, and context `x` of cluster `c` moves, with something put into the state. -/
def at0 (c : Cluster) (f : State → State := id) (x : CtxK := .user) : State := { f (placed State.reset) with cur := .cl 0 c x }
def aK : At := ⟨0, .K, .user⟩
def aA : At := ⟨0, .A, .user⟩
def aX : At := ⟨0, .X0, .user⟩
/-- Scalar registers of a context. -/
def xs (a : At) (l : List (Nat × Word)) (s : State) : State := l.foldl (fun s e => setX s a e.1 e.2) s
/-- The head word of queue `q` of core 0 moves. -/
def atQ (q : Nat) (w : BitVec 48) (f : State → State := id) : State :=
  { f (modCore (placed State.reset) 0 fun o => { o with eng := { o.eng with eq := sset {} o.eng.eq q { words := [{ w := w, g := some w }] } } }) with cur := .eq 0 q }
/-- What register `n` of context `a` holds after one instruction. -/
def after (i : Instr) (s : State) (f : State → Bool) : Bool :=
  match exec i s with
  | .next t => f t
  | _ => false
/-- Context `a` has gone on to index 1 with `v` in `x3`. -/
def gives (a : At) (v : Word) (t : State) : Bool := decide (getX t a 3 = v) && decide (pcOf t a = 1) && (cluAt t a.k a.c).stop.isNone
/-- Two operands in `x1` and `x2` of K. -/
def two (u v : Word) : State := at0 .K (xs aK [(1, u), (2, v)])
/-- The context stands at a record of a type. -/
def trapped (a : At) (ty : FT) (t : State) : Bool :=
  (cluAt t a.k a.c).stop.isSome && decide (pcOf t a = 0) && (t.rings.any fun e => e.2.pend.any fun r => decide (r.ty = ty))

/-! ### Single steps -/

theorem test_add_wraps : after (.add (.x 3) (.x 1) (.x 2)) (two (-1) 2) (gives aK 1) = true := by decide
theorem test_sub_borrow : after (.sub (.x 3) (.x 1) (.x 2)) (two 1 2) (gives aK (-1)) = true := by decide
theorem test_bits : after (.and (.x 3) (.x 1) (.x 2)) (two 12 10) (gives aK 8) = true ∧ after (.or (.x 3) (.x 1) (.x 2)) (two 12 10) (gives aK 14) = true ∧
    after (.xor (.x 3) (.x 1) (.x 2)) (two 12 10) (gives aK 6) = true ∧ after (.andn (.x 3) (.x 1) (.x 2)) (two 12 10) (gives aK 4) = true := by decide
/-- Shifts by 68 are shifts by 4 (R112). -/
theorem test_shifts : after (.shl (.x 3) (.x 1) (.x 2)) (two 3 68) (gives aK 48) = true ∧ after (.shr (.x 3) (.x 1) (.x 2)) (two 48 68) (gives aK 3) = true ∧
    after (.sra (.x 3) (.x 1) (.x 2)) (two (-32) 68) (gives aK (-2)) = true ∧ after (.rot (.x 3) (.x 1) (.x 2)) (two 0x8000000000000001 1) (gives aK 3) = true := by decide
theorem test_min_max : after (.min (.x 3) (.x 1) (.x 2)) (two (-1) 2) (gives aK (-1)) = true ∧ after (.max (.x 3) (.x 1) (.x 2)) (two (-1) 2) (gives aK 2) = true ∧
    after (.minu (.x 3) (.x 1) (.x 2)) (two (-1) 2) (gives aK 2) = true ∧ after (.maxu (.x 3) (.x 1) (.x 2)) (two (-1) 2) (gives aK (-1)) = true := by decide
/-- IMM16 is sign-extended for `add`, zero-extended for `and` (R112). -/
theorem test_immediates : after (.addImm (.x 3) (.x 1) 0xFFFF) (two 5 0) (gives aK 4) = true ∧ after (.subImm (.x 3) (.x 1) 0xFFFF) (two 5 0) (gives aK 6) = true ∧
    after (.andImm (.x 3) (.x 1) 0xFFFF) (two (-1) 0) (gives aK 0xFFFF) = true ∧ after (.orImm (.x 3) (.x 1) 0x8000) (two 1 0) (gives aK 0x8001) = true ∧
    after (.minuImm (.x 3) (.x 1) 0xFFFF) (two (-1) 0) (gives aK 0xFFFF) = true ∧ after (.minImm (.x 3) (.x 1) 0xFFFF) (two 0 0) (gives aK (-1)) = true := by decide
theorem test_mul : after (.mul (.x 3) (.x 1) (.x 2)) (two (-1) (-1)) (gives aK 1) = true ∧ after (.mulh (.x 3) (.x 1) (.x 2)) (two (-1) (-1)) (gives aK 0) = true ∧
    after (.mulhu (.x 3) (.x 1) (.x 2)) (two (-1) (-1)) (gives aK (-2)) = true := by decide
/-- The corners of R113: a divisor of 0, and the least number by -1; truncation towards 0. -/
theorem test_div : after (.div (.x 3) (.x 1) (.x 2)) (two 7 0) (gives aK (-1)) = true ∧ after (.rem (.x 3) (.x 1) (.x 2)) (two 7 0) (gives aK 7) = true ∧
    after (.div (.x 3) (.x 1) (.x 2)) (two 0x8000000000000000 (-1)) (gives aK 0x8000000000000000) = true ∧ after (.rem (.x 3) (.x 1) (.x 2)) (two (-7) 2) (gives aK (-1)) = true ∧
    after (.divu (.x 3) (.x 1) (.x 2)) (two (-1) 2) (gives aK 0x7FFFFFFFFFFFFFFF) = true ∧ after (.remu (.x 3) (.x 1) (.x 2)) (two (-1) 0) (gives aK (-1)) = true := by decide
theorem test_count : after (.clz (.x 3) (.x 1)) (two 0 0) (gives aK 64) = true ∧ after (.ctz (.x 3) (.x 1)) (two 8 0) (gives aK 3) = true ∧
    after (.popc (.x 3) (.x 1)) (two (-1) 0) (gives aK 64) = true := by decide
theorem test_fields : after (.bfxS (.x 3) (.x 1) 60 3) (two 0x9000000000000000 0) (gives aK (-7)) = true ∧ after (.bfxU (.x 3) (.x 1) 60 3) (two 0x9000000000000000 0) (gives aK 9) = true ∧
    after (.bfxU (.x 3) (.x 1) 61 3) (two 0 0) (trapped aK .illegalOperand) = true ∧ after (.bfi 3 (.x 1) 4 3) (at0 .K (xs aK [(1, 0xA), (3, 0xFFF)])) (gives aK 0xFAF) = true := by decide
theorem test_constants : after (.li (.x 3) 0x3FFFFFE) (two 0 0) (gives aK (-2)) = true ∧ after (.lih 3 2 0x4920) (at0 .K (xs aK [(3, -1)])) (gives aK 0xFFFF4920FFFFFFFF) = true := by decide
theorem test_zero_register : after (.add (.x 0) (.x 1) (.x 2)) (two 1 2) (fun t => decide (getX t aK 0 = 0) && decide (pcOf t aK = 1)) = true := by decide
theorem test_compare : after (.cmpLt 1 (.x 1) (.x 2)) (two (-1) 0) (fun t => getP t aK 1) = true ∧ after (.cmpLtu 1 (.x 1) (.x 2)) (two (-1) 0) (fun t => !getP t aK 1) = true ∧
    after (.cmpEqImm 1 (.x 1) 0xFFFF) (two (-1) 0) (fun t => getP t aK 1) = true ∧ after (.cmpGeuImm 1 (.x 1) 0xFFFF) (two 0xFFFF 0) (fun t => getP t aK 1) = true := by decide
theorem test_sel : after (.sel (.x 3) (.x 1) (.x 2) 0 false) (two 5 6) (gives aK 5) = true ∧ after (.sel (.x 3) (.x 1) (.x 2) 0 true) (two 5 6) (gives aK 6) = true := by decide
theorem test_predicates : after (.pnot 2 0) (two 0 0) (fun t => !getP t aK 2) = true ∧ after (.pandn 2 0 1) (two 0 0) (fun t => getP t aK 2) = true ∧
    after (.ptox (.x 3)) (two 0 0) (gives aK 1) = true ∧ after (.xtop (.x 1)) (two 6 0) (fun t => getP t aK 1 && getP t aK 2 && getP t aK 0 && !getP t aK 3) = true := by decide
/-- 1.5 + 2.5 in fp32; a NaN comes back quiet; 2.5 to an integer, to nearest even and towards zero (R58, R60, R72, R120). -/
theorem test_float : after (.fadd .fp32 (.x 3) (.x 1) (.x 2)) (two 0x3FC00000 0x40200000) (gives aK 0x40800000) = true ∧
    after (.fmul .fp16 (.x 3) (.x 1) (.x 2)) (two 0x7C01 0x3C00) (gives aK 0x7E01) = true ∧ after (.fcvt .i32 .fp32 false (.x 3) (.x 1)) (two 0x40600000 0) (gives aK 4) = true ∧
    after (.fcvt .i32 .fp32 true (.x 3) (.x 1)) (two 0x40600000 0) (gives aK 3) = true := by decide
theorem test_fcmp : after (.fcmp .fp32 .un 1 (.x 1) (.x 2)) (two 0x7FC00000 0) (fun t => getP t aK 1) = true ∧
    after (.fcmp .fp32 .eq 1 (.x 1) (.x 2)) (two 0x80000000 0) (fun t => getP t aK 1) = true := by decide
/-- A branch of -1 at index 0 leaves the memory; a taken branch does not count as the end of a loop (R93, R102). -/
theorem test_branch : after (.br 0x3FFFFFF) (two 0 0) (trapped aK .pcRange) = true ∧ after (.br 5) (two 0 0) (fun t => decide (pcOf t aK = 5)) = true ∧
    after (.call 7 5) (two 0 0) (fun t => decide (pcOf t aK = 5) && decide (getX t aK 7 = 1)) = true ∧ after (.ret (.x 1)) (two 32767 0) (fun t => decide (pcOf t aK = 32767)) = true := by decide
/-- A loop of one syllable and two passes goes back once. -/
def looped : State := at0 .K (fun s => modCtx (xs aK [] s) aK fun t => { t with lv := sset {} t.lv 2 { start := 0, fin := 0, count := 2, armed := true }, order := [2] })
/-- A `loop` with count 0 at the end of another level's body: that level goes back (R102). -/
theorem test_loop_zero_at_end : after (.loop 3 (.x 1) 3) looped (fun t => decide (pcOf t aK = 0) && decide ((sget {} (ctxOf t aK).lv 2).count = 1)) = true := by decide
theorem test_loop_back : after .nop looped (fun t => decide (pcOf t aK = 0) && decide ((sget {} (ctxOf t aK).lv 2).count = 1)) = true := by decide
theorem test_loop_arms : after (.loop 2 (.x 1) 3) (two 4 0) (fun t => let v := sget {} (ctxOf t aK).lv 2
    decide (v = { start := 1, fin := 3, count := 4, armed := true }) && decide (pcOf t aK = 1)) = true ∧
    after (.loop 2 (.x 1) 3) (two 0 0) (fun t => decide (pcOf t aK = 4)) = true ∧ after (.loop 2 (.x 1) 0) (two 1 0) (trapped aK .illegalOperand) = true := by decide
theorem test_traps : after (.trap (.x 1) 7) (two 9 0) (fun t => trapped aK .userTrap t && t.rings.any fun e => e.2.pend.any fun r => decide (r.aux0 = 7 ∧ r.aux1 = 9)) = true ∧
    after .eret (two 0 0) (trapped aK .illegalPrivilege) = true ∧ after (.syswr (.x 1) 0x22) (two 0 0) (trapped aK .illegalPrivilege) = true := by decide
/-- K's control data memory: a store is read back, little endian, sign-extended (R157, R177). -/
def stored : State := match exec (.st .i32 (.x 2) (.x 1) (.x 0) 4) (two 0x4000000 0x80000001) with
  | .next t => { t with cur := .cl 0 .K .user }
  | _ => State.reset
theorem test_store_load : after (.ld .i32 (.x 3) (.x 1) (.x 0) 4) stored (fun t => decide (getX t aK 3 = 0xFFFFFFFF80000001)) = true ∧
    after (.ld .n8 (.x 3) (.x 1) (.x 0) 7) stored (fun t => decide (getX t aK 3 = 0x80)) = true ∧ after (.ld .i32 (.x 3) (.x 1) (.x 0) 2) stored (fun t => (cluAt t 0 .K).stop.isSome) = true := by decide
theorem test_spad_of_k : after (.ld .i32 (.x 3) (.x 1) (.x 0) 0) (two 0 0) (trapped aK .addrUnmapped) = true ∧
    after (.ld .i32 (.x 3) (.x 1) (.x 0) 0) (two 0x100000000 0) (fun t => (cluAt t 0 .K).stop.isSome && !(coreAt t 0).ks.pagerQ.isEmpty) = true := by decide
theorem test_amo : after (.amoAdd .n32 .cl .relaxed (.x 3) (.x 1) (.x 2)) (two 0x4000000 5) (fun t => gives aK 0 t && decide (homeByte t (.kdm 0) 0 = 5)) = true ∧
    after (.amoSwap .n32 .cl .relaxed (.x 3) (.x 1) (.x 2)) (two 0x4000002 5) (trapped aK .misaligned) = true := by decide
theorem test_queue : after (.qstat (.x 3) (.ic 4)) (two 0 0) (fun t => decide (pcOf t aK = 1)) = true ∧ after (.push 4 (.x 1)) (two 0x450000020000 0) (fun t => decide ((eqAt (coreAt t 0) 4).words.length = 1)) = true ∧
    after (.push 4 (.x 1)) (two 0x1450000020000 0) (trapped aK .illegalOperand) = true ∧ after (.hpost 3 5) (two 0 0) (fun t => decide (sget 0 (coreAt t 0).hc 3 = 5)) = true ∧
    after (.htake 3 5) (two 0 0) (fun t => decide (pcOf t aK = 0) && (cluAt t 0 .K).stop.isNone) = true := by decide
theorem test_signals : after (.sig .add false true 12 (.x 0) (.x 1)) (two 5 0) (fun t => decide (t.sig = [⟨0, 12, .add, 5, none, [(.cl 0 .K .user, 0)]⟩])) = true ∧
    after (.waitsPoll (.x 3) 12) (two 0 0) (gives aK 0) = true ∧ after (.waits .geu (.x 3) 12 (.x 1)) (two 1 0) (fun t => decide (pcOf t aK = 0) && (ctxOf t aK).wait.isSome) = true := by decide
theorem test_barset : after (.barsetAlloc (.x 3) (.x 1) (.x 0)) (two 1 0) (fun t => gives aK 0x0000000100000000 t && decide ((barAt t 0).owner = 0)) = true ∧
    after (.barsetQuery (.x 3) 5) (two 0 0) (gives aK 512) = true := by decide
theorem test_requests : after (.rqopen (.x 3) (.x 1) (.x 2)) (at0 .K (fun s => modPart (xs aK [(1, 7), (2, 0)] s) 0 fun p => { p with quota := 1 })) (fun t => gives aK 0 t && decide ((rqAt t 7).st = .open)) = true ∧
    after (.rqopen (.x 3) (.x 1) (.x 2)) (two 7 0) (gives aK 4) = true ∧ after (.rqhalt (.x 3) (.x 1)) (two 7 0) (gives aK 1) = true ∧ after (.rqset (.x 1)) (two 7 0) (trapped aK .requestNotOpen) = true := by decide
/-- Vector registers of X0 by their elements. -/
def twoV (u v : Nat) : State := at0 .X0 fun s => setV (setV s aX 1 (BitVec.ofNat 4096 u)) aX 2 (BitVec.ofNat 4096 v)
def givesV (w : Nat) (f : Nat → Nat) (n : Nat) (t : State) : Bool := (List.range n).all fun i => elemN w (getV t aX 3).toNat i == f i
theorem test_vadd : after (.vadd .i8 true none (.v 3) (.v 1) (.v 2)) (twoV 0x7F7F 0x0102) (givesV 8 (fun i => if i < 2 then 0x7F else 0) 3) = true ∧
    after (.vadd .i8 false none (.v 3) (.v 1) (.v 2)) (twoV 0x7F7F 0x0102) (givesV 8 (fun i => if i = 0 then 0x81 else if i = 1 then 0x80 else 0) 3) = true := by decide +kernel
theorem test_vmask : after (.vmov (.v 3) (.v 1)) (twoV 5 0) (fun t => decide (getV t aX 3 = 5)) = true ∧
    after (.vcmp .n8 .eq none 5 (.v 1) (.v 2)) (twoV 0x0102 0x0103) (fun t => !(getM t aX 5).getLsbD 0 && (getM t aX 5).getLsbD 1 && (getM t aX 5).getLsbD 511 && !(getM t aX 5).getLsbD 512) = true ∧
    after (.mnot 5 4) (twoV 0 0) (fun t => (getM t aX 5).getLsbD 1023) = true := by decide +kernel
theorem test_vred : after (.vred .i64 .add none (.v 3) (.v 1)) (twoV (5 + 2 ^ 64 * 7) 0) (givesV 64 (fun i => if i = 0 then 12 else 0) 2) = true ∧
    after (.vext .n8 (.x 3) (.v 1) (.imm 1)) (twoV 0x0102 0) (gives aX 1) = true := by decide +kernel
/-- A configuration word of a matrix queue and one of a copy queue write their own shadow (R227, R252). -/
theorem test_shadows : after (.mRows 63) (atQ 0 0x0707E0000000) (fun t => decide ((shadowAt (coreAt t 0) 0).rows = 64) && decide ((shadowAt (coreAt t 0) 1).rows = 128) && (eqAt (coreAt t 0) 0).words.isEmpty) = true ∧
    after (.cTok 8) (atQ 4 0x460000080000) (fun t => decide ((cshAt (coreAt t 0) 4).hold = 8) && (eqAt (coreAt t 0) 4).words.isEmpty) = true := by decide
theorem test_reset : State.reset.memOk = true := by decide
/-- A word that is fetched is what runs: `li x3, -2` placed at K's program counter. -/
theorem test_fetch : (match step (State.reset.withFetchWord 64 (syl 0x16 0 3 0 1023 0xFFFE)) with | .next t => decide (getX t aK 3 = -2) && decide (pcOf t aK = 1) | _ => false) = true := by decide

/-! ### States and operands that meet the hypotheses of the obligations

Each theorem `meets_<Name>` takes the clauses of `Obligations.<Name>` in their order. -/

/-- The hypotheses of a syllable: its context moves, and the queues that it pops and pushes are ready. -/
def ready (s : State) (a : At) (pops pushes : List Nat) : Bool :=
  decide (s.cur = .cl a.k a.c a.x) && decide ((∀ q ∈ pops, pops.count q ≤ qHeld (coreAt s a.k) a.c q) ∧ ∀ q ∈ pushes, pushes.count q ≤ qFree (coreAt s a.k) q)
theorem ready_meets {s : State} {a : At} {p q : List Nat} (h : ready s a p q = true) : Moves s a ∧ QueuesOk s a p q := by
  simp only [ready, Bool.and_eq_true, decide_eq_true_eq] at h
  exact ⟨h.1, h.2⟩
def okIs {ε α : Type} [DecidableEq α] (e : Except ε α) (a : α) : Bool := match e with | .ok b => decide (b = a) | .error _ => false
def errIs {ε α : Type} [DecidableEq ε] (e : Except ε α) (a : ε) : Bool := match e with | .ok _ => false | .error b => decide (b = a)
/-- A step that goes on without a record. -/
def clean (i : Instr) (s : State) : Bool := after i s fun t => decide (t.dev.nextToken = s.dev.nextToken)

/-- K of core 0 with `x1` and `x2`, and entries in `q14`, which K consumes. -/
def qK (l : List Word) : State := at0 .K fun s => modCore (xs aK [(1, 7), (2, 9)] s) 0 fun o => { o with sq := sset [] o.sq 14 l }
theorem meets_IntegerArithmetic : ready (two 7 9) aK (popsS [.x 1, .x 2]) (pushS (.x 3)) = true ∧ ready (qK [1, 2]) aK (popsS [.q 2, .q 2]) (pushS (.q 0)) = true ∧
    ready (two 7 9) aK (popsS [.x 1]) (pushS (.x 0)) = true := by decide
theorem meets_MultiplyDivideCount : ready (two 7 0) aK (popsS [.x 1, .x 2]) (pushS (.x 3)) = true ∧ ready (qK [1]) aK (popsS [.q 2]) (pushS (.x 3)) = true ∧
    ((-1 : Word) ≠ 0 ∧ ¬((7 : Word) = 0x8000000000000000 ∧ (-1 : Word) = -1)) := by decide
theorem meets_FieldsAndConstants : ready (two 7 9) aK (popsS [.x 1]) (pushS (.x 3)) = true ∧ (63 : BitVec 6).toNat + ((0 : BitVec 6).toNat + 1) ≤ 64 ∧
    64 < (63 : BitVec 6).toNat + ((1 : BitVec 6).toNat + 1) ∧ ready (two 7 9) aK [] (pushS (.q 0)) = true := by decide
theorem meets_CompareSelectTransfer : ready (qK [1, 2]) aK (popsS [.q 2, .q 2]) [] = true ∧ ready (two 7 9) aK (popsS [.x 1]) [] = true ∧
    ready (two 7 9) aK (popsS [.x 1, .x 2]) (pushS (.x 3)) = true ∧ ready (two 7 9) aK [] (pushS (.x 3)) = true := by decide
theorem meets_FloatingPoint : ready (two 7 9) aK (popsS [.x 1, .x 2, .x 3]) (pushS (.x 3)) = true ∧ ready (two 7 9) aK (popsS [.x 1, .x 2]) (pushS (.x 3)) = true ∧
    fIsNan .fp32 0x7F800001 = true ∧ fIsNan .fp16 0x7C00 = false ∧ fIsNan .fp16 0x7E00 = true ∧ etyInt .i32 = true ∧
    (fIsNan .fp32 0x3F800000 = false ∧ fIsInf .fp32 0x3F800000 = false) ∧ (fIsInf .fp32 0x7F800000 = true ∧ fIsInf .fp32 0xFF800000 = true ∧ fNeg .fp32 0x7F800000 ≠ fNeg .fp32 0xFF800000) ∧
    fNeg .fp32 0x7F800000 = fNeg .fp32 0x7F800000 ∧ fIsZero .fp32 0x80000000 = true := by decide
theorem meets_Rounding : 0 < (⟨1, 3⟩ : Q).d ∧ (⟨0, 1⟩ : Q).n = 0 ∧ (⟨1, 3⟩ : Q).n ≠ 0 ∧ fIsInf .fp32 (fRne .fp32 false ⟨1, 3⟩) = false ∧ fIsInf .fp32 (fRne .fp32 false ⟨2 ^ 200, 1⟩) = true ∧
    fRne .fp32 false ⟨1, 3⟩ = 0x3EAAAAAB ∧ 0x3EAAAAAB % 2 = 1 ∧ fIsNan .fp32 0x3EAAAAAB = false ∧
    (let dist := fun (x : Q) (y : Q) => let z := qAdd x (qNeg y); if z.n < 0 then qNeg z else z
     qLt (dist (fQ .fp32 0x3EAAAAAB) ⟨1, 3⟩) (dist (fQ .fp32 0x3EAAAAAB) ⟨1, 3⟩) = false) := by decide +kernel
theorem meets_PredicateLogic : ready (two 0 0) aK [] [] = true ∧ (15 : Nat) < 16 ∧ (15 : Nat) ≠ 0 ∧ (0 : Nat) ≠ 15 := by decide
theorem meets_OperandsAndStalls : (63 : Nat) < 64 ∧ (63 : Nat) ≠ 0 ∧ ¬((1 : Fin 4) = 1 ∧ (aK.c = .X1 ∨ ended (coreAt (qK [1]) 0).x0.run = true)) ∧ (coreAt (qK [1]) 0).runClk = false ∧
    (qK [1]).cur = .cl 0 .K .user ∧ ready (qK [1]) aK (popsS [.q 2, .q 2]) (pushS (.x 3)) = false := by decide
def atPc (c : Cluster) (pc : Nat) (s : State) : State := modCtx s ⟨0, c, .user⟩ fun t => { t with pc := pc }
/-- The same level on its last pass. -/
def lastPass : State := modCtx looped aK fun t => { t with lv := sset {} t.lv 2 { start := 0, fin := 0, count := 1, armed := true } }
theorem meets_NextSyllable : (ctxOf (atPc .K 32766 (two 0 0)) aK).pc + 1 < pcLimit aK ∧ (∀ j ∈ (ctxOf (two 0 0) aK).order, (sget {} (ctxOf (two 0 0) aK).lv j).armed = true → (sget {} (ctxOf (two 0 0) aK).lv j).fin ≠ (ctxOf (two 0 0) aK).pc) ∧
    pcLimit aK ≤ (ctxOf (atPc .K 32767 (two 0 0)) aK).pc + 1 ∧
    ((ctxOf lastPass aK).order = [2] ∧ (sget {} (ctxOf lastPass aK).lv 2).armed = true ∧ (sget {} (ctxOf lastPass aK).lv 2).fin = (ctxOf lastPass aK).pc ∧ (sget {} (ctxOf lastPass aK).lv 2).count ≤ 1 ∧
      ([].filter (· != 2) : List Nat) = [] ∧ (ctxOf lastPass aK).pc + 1 < pcLimit aK) ∧
    ((ctxOf looped aK).order = [] ++ 2 :: [] ∧ (ctxOf looped aK).order.Nodup ∧ (sget {} (ctxOf looped aK).lv 2).fin < 5 ∧ ¬(0 < (sget {} (ctxOf looped aK).lv 2).start ∨ (sget {} (ctxOf looped aK).lv 2).fin < 0)) ∧
    ((ctxOf looped aK).order = [2] ∧ (sget {} (ctxOf looped aK).lv 2).armed = true ∧ (sget {} (ctxOf looped aK).lv 2).fin = (ctxOf looped aK).pc ∧
      1 < (sget {} (ctxOf looped aK).lv 2).count ∧ (sget {} (ctxOf looped aK).lv 2).start < pcLimit aK) ∧
    ((pcOf (two 0 0) aK : Int) + (0 : BitVec 26).toInt = 0 ∧ (pcOf (two 0 0) aK : Int) + (32767 : BitVec 26).toInt = 32767) ∧
    ((pcOf (two 0 0) aK : Int) + (-1 : BitVec 26).toInt < 0 ∧ 32767 < (pcOf (two 0 0) aK : Int) + (32768 : BitVec 26).toInt) ∧
    (ready (two 32767 32768) aK (popsS [.x 1]) [] = true ∧ (takeS aK (.x 1) (two 32767 32768)).1.toNat ≤ 32767 ∧ 32767 < (takeS aK (.x 2) (two 32767 32768)).1.toNat) ∧
    32767 < pcLimit aK := by decide
/-- Level 1 of a context is armed, by `rloop`. -/
def rotating (c : Cluster) (s : State) : State := modCtx s ⟨0, c, .user⟩ fun t => { t with lv := sset {} t.lv 1 { start := 1, fin := 9, count := 3, armed := true, rot := true }, order := [1] }
theorem meets_LoopLevels :
    (ready (two 4 0) aK (popsS [.x 1]) [] = true ∧ ¬(aK.x = .user ∧ aK.c = .K ∧ (coreAt (two 4 0) 0).ks.uliActive = true) ∧ (32767 : BitVec 16) ≠ 0 ∧
      (ctxOf (two 4 0) aK).pc + (32767 : BitVec 16).toNat ≤ 32767 ∧ ((List.range 6).any fun j => (sget {} (ctxOf (two 4 0) aK).lv j).armed && (sget {} (ctxOf (two 4 0) aK).lv j).rot) = false ∧
      (takeS aK (.x 1) (two 4 0)).1.toNat % 2 ^ 32 ≠ 0 ∧ (takeS aK (.x 2) (two 4 0)).1.toNat % 2 ^ 32 = 0) ∧
    32767 < (ctxOf (atPc .K 1 (two 4 0)) aK).pc + (32767 : BitVec 16).toNat ∧
    ((List.range 6).any fun j => (sget {} (ctxOf (rotating .K (two 4 0)) aK).lv j).armed && (sget {} (ctxOf (rotating .K (two 4 0)) aK).lv j).rot) = true ∧
    (ready (at0 .X0 (xs aX [(1, 4)])) aX (popsS [.x 1]) [] = true ∧ aX.x = .user ∧ aX.c ≠ .K ∧
      ((List.range 6).any fun j => j != 0 && (sget {} (ctxOf (at0 .X0) aX).lv j).armed && (sget {} (ctxOf (at0 .X0) aX).lv j).rot) = false ∧
      ((List.range 6).any fun j => j != 0 && (sget {} (ctxOf (rotating .X0 (at0 .X0)) aX).lv j).armed && (sget {} (ctxOf (rotating .X0 (at0 .X0)) aX).lv j).rot) = true) := by decide
/-- A registered image of 128 zero bytes. -/
def imaged (s : State) : State := { s with images := sput s.images 0 { part := 0, file := [], size := 128, database := 0 } }
theorem meets_StreamsAndSystemRegisters :
    ready (two 0 0) aK [] [] = true ∧ (aK.x = .user ∧ sBit (two 0 0) aK = false ∧ (coreAt (two 0 0) 0).lsmask.getLsbD 0 = true ∧ (cluAt (two 0 0) 0 .K).syncWait = false) ∧
    (∃ d, (coreAt (two 0 0) 0).lsmask.getLsbD (cnum d) = true ∧ ended (cluAt (two 0 0) 0 d).run = false ∧ d ≠ .K ∧ (cluAt (two 0 0) 0 d).syncCnt ≤ (cluAt (two 0 0) 0 .K).syncCnt) ∧
    ((coreAt (modCore (two 0 0) 0 fun o => { o with lsmask := 1 }) 0).lsmask.getLsbD 0 = true ∧
      ∀ c ∈ [Cluster.A, .X0, .X1], (coreAt (modCore (two 0 0) 0 fun o => { o with lsmask := 1 }) 0).lsmask.getLsbD (cnum c) = false) ∧
    ((coreAt (two 0 0) 0).preempt = false ∧ (coreAt (modCore (two 0 0) 0 fun o => { o with preempt := true }) 0).preempt = true) ∧
    ((coreAt (two 0 0) 0).ks.uliActive = false ∧ (coreAt (modKs (two 0 0) 0 fun ks => { ks with uliActive := true }) 0).ks.uliActive = true) ∧
    (imageOf (two 0 0) 0 = none ∧ (imageOf (imaged (two 0 0)) 0).isSome = true ∧ ovlSect { part := 0, file := [], size := 128, database := 0 } .K 1 = none) ∧
    okIs (sysRead (two 0 0) aK 0x22) 0 = true ∧ errIs (sysRead (two 0 0) aK 7) .illegalOperand = true ∧ ready (two 0 0) aK [] (pushS (.x 3)) = true ∧
    (match sysWrite (two 5 0) aK 0x20 5 with | .ok t => decide ((coreAt t 0).lsmask = 5) | .error _ => false) = true ∧ errIs (sysWrite (two 5 0) aK 0x22 5) .illegalPrivilege = true := by
  refine ⟨by decide, by decide, ⟨.A, by decide⟩, by decide, by decide, by decide, by decide, by decide, by decide, by decide, by decide, by decide⟩
def fetched (q w : Nat) : State := State.reset.withFetchWord q w
theorem meets_StepRunsTheInstruction :
    (let s := fetched 64 (syl 0x80 8 1 2 3 0)
     let s1 := closeRun 0 { s with agenda := [] }
     s.agenda = [.cl 0 .X0 .user] ∧ userFree s1 ⟨0, .X0, .user⟩ = true ∧ isMember (coreAt s1 0) .X0 = true ∧ (atSync s1 0 .X0 = false) ∧ (cluAt s1 0 .X0).skipOne = false ∧ (cluAt s1 0 .X0).idling = false ∧
       okIs (sylAt s1 ⟨0, .X0, .user⟩) ⟨false, false, 0, .vadd .fp32 false none (.v 1) (.v 2) (.v 3), 0⟩ = true ∧ getP s1 ⟨0, .X0, .user⟩ 0 ≠ false) ∧
    (let s := fetched 64 (syl 0x10 0 1 2 3 0)
     let s1 := closeRun 0 { s with agenda := [] }
     let s2 := countSlot 0 s1
     s.agenda = [.cl 0 .K .user] ∧ kInRun (coreAt s1 0) = false ∧ fwFree s1 0 = false ∧ pagerFree s2 0 = false ∧ uliDue s2 0 = false ∧ userFree s2 aK = true ∧ atSync s2 0 .K = false ∧ (cluAt s2 0 .K).skipOne = false ∧
       (cluAt s2 0 .K).idling = false ∧ okIs (sylAt s2 aK) ⟨false, false, 0, .add (.x 1) (.x 2) (.x 3), 0⟩ = true ∧ getP s2 aK 0 ≠ false) ∧
    (let s := fetched 48 0x080000000000
     s.agenda = [.eq 0 0] ∧ (headOf s 0 0).isSome = true ∧ coreHeld s 0 = false ∧ qStopped (coreAt s 0) 0 = false ∧ (coreAt s 0).inst ≠ none ∧ (∀ w, headOf s 0 0 = some w → gleanOk w = true) ∧
       decodeEng 0 0x080000000000 = some .mMark) ∧
    ({ State.reset with agenda := [Act.ev .deviceReset] }.agenda = [Act.ev .deviceReset] ∧ State.reset.agenda = []) ∧
    ((syl 0x10 0 1 2 3 0) < 2 ^ 64 ∧ clusterOfWord (syl 0x10 0 1 2 3 0) = (.K, false) ∧ clusterOfWord (syl 0x80 8 1 2 3 0) = (.X0, false)) ∧
    (let s := modClu (two 0 0) 0 .K fun u => { u with imem := sset 0 u.imem 0 (BitVec.ofNat 64 (syl 0x0F 0 0 0 0 0)) }
     errIs (sylAt s aK) .opcode = true) ∧
    (let s := fetched 64 (2 ^ 62 + syl 0x10 0 1 2 3 0)
     okIs (sylAt s aK) ⟨false, true, 0, .add (.x 1) (.x 2) (.x 3), 0⟩ = true ∧ getP s aK 0 = true) ∧
    (let s := modKs (fetched 64 (syl 0x10 0 1 2 3 0)) 0 fun ks => { ks with fwReady := true }
     let s1 := closeRun 0 { s with agenda := [] }
     let a : At := ⟨0, .K, .fw⟩
     fwTakes s1 0 = true ∧ okIs (sylAt (countSlot 0 s1) a) ⟨false, false, 0, .add (.x 1) (.x 2) (.x 3), 0⟩ = true ∧ getP (countSlot 0 s1) a 0 ≠ false) ∧
    (let s := fetched 64 (syl 0x0E 3 0 0 0 0)
     let s2 := countSlot 0 (closeRun 0 { s with agenda := [] })
     let a : At := ⟨0, .K, .pager⟩
     s.agenda = [.cl 0 .K .pager] ∧ clusterOfWord (syl 0x0E 3 0 0 0 0) = (.K, true) ∧ pagerFree s2 0 = true ∧ okIs (sylAt s2 a) ⟨false, false, 0, .eret, 0⟩ = true ∧ getP s2 a 0 ≠ false) ∧
    decodeTableWord 48 0x080000000000 = some .mMark := by
  refine ⟨?_, ?_, ?_, ?_, ?_, ?_, ?_, ?_, ?_, ?_⟩
  · decide
  · decide
  · refine ⟨by decide, by decide, by decide, by decide, by decide, ?_, by decide⟩
    intro w h
    cases h
    decide
  all_goals decide
/-- A record that K of core 0 stands at. -/
def atRec (ty : FT) : FRec := { ty := ty, prec := true, token := 1, who := .cl 0 .K }
def stands : State := modClu (two 0 0) 0 .K fun u => { u with stop := some 1 }
theorem meets_TakingATrap :
    (aK.x = .user ∧ FT.illegalOperand ≠ .pageFault ∧ (partRec (two 0 0) (rqAt (two 0 0) (clRec (two 0 0) aK .illegalOperand).rq).part).policy.getLsbD 0 = false ∧
      (ringAt (two 0 0) (clRec (two 0 0) aK .illegalOperand).ring).held.length < 16) ∧
    (ringAt (modRing (two 0 0) 0 fun g => { g with held := List.replicate 15 (atRec .digit) }) 0).held.length = 15 ∧ ready (two 0 0) aK (popsS [.x 1]) [] = true ∧
    ((atRec .userTrap).ty = .userTrap ∧ (atRec .userTrap).who = .cl 0 .K ∧ savedAt stands 0 0 = none ∧ (cluAt stands 0 .K).stop = some (atRec .userTrap).token ∧ (atRec .userTrap).prec = true) := by decide
/-- Function 0 is bound to partition 0, so the host may speak for it. -/
def bound (s : State) : State := modDev s fun d => { d with vfs := [(0, 0)] }
/-- A record waits for its answer. -/
def pending (ty : FT) : State := modRing (bound (two 0 0)) 0 fun g => { g with pend := [{ atRec ty with who := .ring 0 }], wridx := 4, ringlog := 4 }
theorem meets_HostAnswers : hostCan (pending .malformedLength) 0 = true ∧ (∀ r ∈ (ringAt (pending .digit) 0).pend, r.token ≠ 2) ∧
    (ringAt (pending .digit) 0).pend.find? (fun x => x.token == 1) = some { atRec .digit with who := .ring 0 } ∧ ftNoAnswer .digit = false ∧
    ((0 : BitVec 32) - (ringAt (pending .malformedLength) 0).rdidx).toNat = 0 ∧ availOf (ringAt (pending .malformedLength) 0) < ((5 : BitVec 32) - (ringAt (pending .malformedLength) 0).rdidx).toNat := by decide
/-- Queue 4 and K stand at a record. -/
def queueStands : State := modEQ stands 0 4 fun e => { e with words := [{ w := 1, g := some 2 }], stop := some 1 }
theorem meets_AnswerEffects : (∀ ty ∈ [FT.digit, .barrierUnreachable, .userTrap], ftNoAnswer ty = false ∧ ty ∉ [FT.pagerFault, .runDeadlock]) ∧ (atRec .digit).prec = true ∧ savedAt queueStands (atRec .digit).launch 0 = none ∧
    (atRec .digit).who = .cl 0 .K ∧ (cluAt queueStands 0 .K).stop = some (atRec .digit).token ∧ FT.digit ∉ [FT.userTrap, .waitDeadlock] ∧ FT.digit ∉ [FT.barrierUnreachable, .sheafLost, .waitDeadlock] ∧
    (eqAt (coreAt queueStands 0) 4).stop = some (atRec .digit).token ∧ stopWord (eqAt (coreAt queueStands 0) 4) = some { w := 1, g := some 2 } ∧
    (∀ g, (atRec .digit).who ≠ .ring g) ∧ (atRec .digit).rq = 0 ∧ ({ atRec .digit with rq := 7 } : FRec).rq ≠ 0 := by
  refine ⟨by decide, by decide, by decide, by decide, by decide, by decide, by decide, by decide, by decide, ?_, by decide, by decide⟩
  intro g h
  cases h
def heldRec (n : BitVec 32) (u : Bool) : State := modRing (bound (two 0 0)) 0 fun g => { g with held := [atRec .digit], exqlog := 4, exqwr := n, unwritable := u }
theorem meets_ExceptionQueues : (ringAt (heldRec 15 false) 0).held = [atRec .digit] ∧
    (2 ^ (ringAt (heldRec 16 false) 0).exqlog < ((ringAt (heldRec 16 false) 0).exqwr - (ringAt (heldRec 16 false) 0).exqrd).toNat + recEntries (atRec .digit)) ∧
    ((ringAt (heldRec 15 false) 0).unwritable = false ∧ ((ringAt (heldRec 15 false) 0).exqwr - (ringAt (heldRec 15 false) 0).exqrd).toNat + recEntries (atRec .digit) ≤ 2 ^ (ringAt (heldRec 15 false) 0).exqlog) ∧
    (List.replicate 8 0).length = 8 ∧ hostCan (heldRec 15 true) 0 = true ∧ hostCan State.reset 0 = false ∧ (ringAt (heldRec 15 true) 0).unwritable = true ∧ (ringAt (two 0 0) 0).held = [] ∧
    (ringAt (modRing (two 0 0) 0 fun g => { g with unwritable := true }) 0).unwritable = true ∧
    ((ringAt (heldRec 15 true) 0).exqwr - (ringAt (heldRec 15 true) 0).exqrd).toNat + recEntries (atRec .digit) ≤ 2 ^ (ringAt (heldRec 15 true) 0).exqlog := by decide

/-- Where an access of K's or A's context at `va` goes, and what is left to check at that place. -/
def goesTo (s : State) (a : At) (va n : Nat) (w : Bool) (p : Place) : Bool :=
  let r := resolve s a.k (tlOf a) (partyOf a) (partAt s a.k) (issuerOf a) va n w
  okIs r.2 p && tagRoom r.1 a (tagsOf a.k n p)
def failsAt (s : State) (a : At) (va n : Nat) (w : Bool) : Bool :=
  match (resolve s a.k (tlOf a) (partyOf a) (partAt s a.k) (issuerOf a) va n w).2 with | .error _ => true | .ok _ => false
/-- Device 1 is in the device set of partition 0, and its link key is held. -/
def peered (s : State) : State := modPart (modDev s fun d => { d with linkKeys := [(0, 1)], route := sset 0 d.route 1 0x80 }) 0 fun p => { p with devset := 2 }
/-- Translation is on, and an entry of K's and of A's translation cache maps the page at 0x1_0000_0000 to device memory at 0x3_0000. -/
def mapped (s : State) : State := modCore (modPart s 0 fun p => { p with ptroot := 1 }) 0 fun o => { o with tlbK := [⟨false, 0, 0x100000000, 65536, 0x3000D, none⟩], tlbA := [⟨false, 0, 0x100000000, 65536, 0x3000D, none⟩] }
/-- Tables at 0x2000, 0x10000 and 0x20000 that map the same page. -/
def paged (s : State) : State :=
  let w := fun (s : State) (ad v : Nat) => storeHome s .host .dram ad (bytesOf 8 v)
  modPart (w (w (w s 0x2000 0x10001) 0x10040 0x20001) 0x20000 0x3000D) 0 fun p => { p with ptroot := 0x2001 }
/-- The mapped page holds the exception queue of ring pair 0, with room. -/
def exqPaged (r : FRec) : State := modRing (paged (two 0 0)) 0 fun g => { g with held := [r], exqlog := 4, exqwr := 15, exqbase := 0x100000000, unwritable := true }
theorem meets_ExceptionQueues_room :
    okIs (resolve (exqPaged (atRec .digit)) 64 .none .host 0 .device (exqAddr (ringAt (exqPaged (atRec .digit)) 0) 0) 64 true).2 (.home [(.dram, 0x303C0, 64)] 0) = true ∧ Space.real .dram = true ∧
    ((ringAt (exqPaged (atRec .digit)) 0).exqwr - (ringAt (exqPaged (atRec .digit)) 0).exqrd).toNat + 1 ≤ 2 ^ (ringAt (exqPaged (atRec .digit)) 0).exqlog ∧ (atRec .digit).ty ≠ .recordLost ∧ ([] : List FRec).length < 16 ∧
    (let s := exqPaged (atRec .recordLost)
     let w := devWrite (modRing s 0 fun g => { g with exqwr := 14 }) 0 0x100000380 (List.replicate 64 1)
     okIs w.2 () = true ∧ okIs (devWrite w.1 0 0x1000003C0 (List.replicate 64 1)).2 () = true) := by decide +kernel
theorem meets_ScalarLoadsAndStores :
    (etyNib .i32 = false ∧ ready (two 0x4000000 0) aK (popsS [.x 1, .x 2]) (pushS (.x 3)) = true ∧ ready (two 0x4000000 0) aK (popsS [.x 1, .x 2, .x 3]) [] = true) ∧
    (((0x4000000 : Word) + 0 + (2 : BitVec 16).signExtend 64).toNat % (etyW .i32 / 8) ≠ 0 ∧ ((0x4000000 : Word) + 0 + (4 : BitVec 16).signExtend 64).toNat % (etyW .i32 / 8) = 0) ∧
    failsAt (two 0 0) aK 4 4 false = true ∧ failsAt (two 0 0) aK 4 4 true = true ∧
    goesTo (two 0 0) aK 0x400FFFC 4 false (.home [(.kdm 0, 0xFFFC, 4)] 0) = true ∧ goesTo (two 0 0) aK 0x400FFFC 4 true (.home [(.kdm 0, 0xFFFC, 4)] 0) = true ∧
    goesTo (mapped (two 0 0)) aK 0x100000004 4 false (.home [(.dram, 0x30004, 4)] 0) = true ∧ goesTo (paged (two 0 0)) aK 0x100000004 4 true (.home [(.dram, 0x30004, 4)] 0) = true ∧
    portFree (two 0 0) 0 [(.kdm 0, 0xFFFC, 4)] = true ∧ portFree (modCore (two 0 0) 1 fun o => { o with frozen := true }) 0 [(.spad 1, 0, 4)] = false ∧
    piecesPoison (two 0 0) 0 [(.kdm 0, 0xFFFC, 4)] = false ∧ piecesPoison { two 0 0 with poison := [(granKey (.kdm 0) 0xFFFC, true)] } 0 [(.kdm 0, 0xFFFC, 4)] = true ∧
    goesTo (peered (two 0 0)) aK 0xC04000000000 4 false (.peer 1 0) = true ∧ goesTo (peered (two 0 0)) aK 0xC04000000000 4 true (.peer 1 0) = true ∧ etyInt .i32 = true ∧ etyF .fp32 = some .fp32 := by decide
theorem meets_StoreFrame : ([(Space.dram, 0x1FFFC, 4), (.near, 0, 4)].map fun p => p.2.2).foldl (· + ·) 0 = (List.replicate 8 (0 : Byte)).length ∧
    (∀ p ∈ [(Space.dram, 0x1FFFC, 4), (.near, 0, 4)], Space.real p.1 = true) ∧ Space.real (.spad 63) = true ∧ (∀ p ∈ [(Space.dram, 0x1FFFC, 4), (.near, 0, 4)], Space.dram = p.1 → 0x20000 < p.2.1 ∨ p.2.1 + p.2.2 ≤ 0x20000) := by decide
theorem meets_AddressesAndWalks : regionOf 0x21FFFFF = .spad ∧ regionOf 0x2200000 = .spadRange ∧ regionOf 0x4000000 = .kdm ∧ regionOf 0x400FFFF = .kdm ∧ regionOf 0x4010000 = .unmapped ∧ regionOf 0xFFFFFFFF = .unmapped ∧
    regionOf 0x100000000 = .user ∧ regionOf 0x7FFFFFFFFFFF = .user ∧ regionOf 0x800000000000 = .win 0 ∧ regionOf 0x900000000000 = .host ∧ regionOf 0x9FFFFFFFFFFF = .host ∧ regionOf 0xA00000000000 = .unmapped ∧
    regionOf (2 ^ 48) = .unmapped ∧ runsPart State.reset 0 63 = false ∧ inSet State.reset 0 1 = false ∧
    ((0 : Nat).testBit 0 = false ∧ (0x2001 : Nat).testBit 0 = true) ∧
    (let s := paged State.reset
     let e1 := readEntry s .host (0x2001 / 2 ^ 13 % 2 ^ 35 * 2 ^ 13 + 8 * (0x100000000 / 2 ^ 38 % 2 ^ 10))
     let e2 := readEntry s .host (0x10000 + 8 * (0x100000000 / 2 ^ 29 % 2 ^ 9))
     let e3 := readEntry s .host (0x20000 + 8 * (0x100000000 / 2 ^ 16 % 2 ^ 13))
     e1.testBit 0 = true ∧ e1.testBit 2 = false ∧ nextTable e1 (2 ^ 12) = some 0x10000 ∧ e2.testBit 0 = true ∧ e2.testBit 2 = false ∧ nextTable e2 (2 ^ 16) = some 0x20000 ∧
       e3.testBit 0 = true ∧ e3.testBit 2 = true ∧ e3 / 2 ^ 4 % 4 = 0 ∧ leafMalformed e3 = false ∧ leafDenied e3 (isHostVa 0x100000000) = false ∧ e3.testBit 3 = true) ∧
    (readEntry State.reset .host 0x2000).testBit 0 = false ∧ (0x5 : Nat).testBit 2 = true ∧ (0x30005 : Nat).testBit 3 = false ∧
    (nextTable 3 (2 ^ 12) = none ∧ nextTable 0x11001 (2 ^ 16) = none ∧ nextTable 0x10001 (2 ^ 16) = some 0x10000) ∧ (leafDenied 0x300CD false = true ∧ leafDenied 0x3000D true = true ∧ leafDenied 0x3000D false = false) ∧
    ((0x2000002D : Nat).testBit 2 = true ∧ 0x2000002D / 2 ^ 4 % 4 = 2 ∧ leafMalformed 0x2000002D = false ∧ 0x20001D / 2 ^ 4 % 4 = 1) := by decide
/-- A moves, and an entry stands in `q8`, which A consumes. -/
def qA (f : State → State := id) : State := at0 .A fun s => modCore (f (xs aA [(1, 0x100000000), (2, 0)] s)) 0 fun o => { o with vq := sset [] o.vq 8 [7] }
/-- A stream register over the scratchpad: tf8, a nest of 4 by 4 steps. -/
def srSpad : SReg := BitVec.ofNat 256 (11 * 2 ^ 50 + 2 ^ 54 + 8 * 2 ^ 111 + 4 * 2 ^ 183 + 4 * 2 ^ 201)
/-- The four steps of a stream in the mapped page, as a launch reads them. -/
def preAds : List Int := [0x100000000, 0x100000040, 0x100000080, 0x1000000C0]
def prefetched (s : State) : State := (preRead 0 0 4 preAds s).getD s
theorem meets_StreamsOfA :
    (ready (qA mapped) aA (popsS [.x 1, .x 2]) [0] = true ∧ ready (qA mapped) aA (popsS [.x 1, .x 2] ++ [8]) [] = true ∧
      ((0x100000000 : Word) + 0 + (32 : BitVec 16).signExtend 64).toNat % 64 ≠ 0 ∧ ((0x100000000 : Word) + 0 + (64 : BitVec 16).signExtend 64).toNat % 64 = 0 ∧ failsAt (qA) aA 0x100000040 512 false = true ∧
      goesTo (qA mapped) aA 0x100000040 512 false (.home [(.dram, 0x30040, 512)] 0) = true ∧ goesTo (qA paged) aA 0x10000FE00 512 true (.home [(.dram, 0x3FE00, 512)] 0) = true ∧
      (poisonFlags (qA mapped) 0 [(.dram, 0x30040, 512)]).all (!·) = true) ∧
    (ready (qA) aA (popsS [.x 1]) [0] = true ∧ ready (qA) aA (popsS [.x 1] ++ [8]) [] = true ∧ streamOkT (sfld 0) .tf8 = false ∧ streamOkT (sfld srSpad) .tf8 = true ∧ (64 : BitVec 16).toNat % 64 = 0 ∧ (32 : BitVec 16).toNat % 64 ≠ 0 ∧
      (sfld srSpad).bnd = true ∧ ((sfld srSpad).e1 : Int) ≤ 4 ∧ ¬((3 : Int) < 0 ∨ ((sfld srSpad).e1 : Int) ≤ 3) ∧
      ((coreAt (qA) 0).pre.find? (fun p => p.sr == 4)) = none ∧ (preHead (coreAt (prefetched (mapped (two 0 0))) 0) 4).map (fun p => (p.addr, p.bad.all (!·))) = some (0x100000000, true)) ∧
    (portFree (qA) 0 [(.spad 0, 0, 512)] = true ∧ portFree (modCore (qA) 1 fun o => { o with frozen := true }) 0 [(.spad 1, 0, 512)] = false ∧ (SOp.x 1) ≠ .x 0) ∧ ((sfld srSpad).i1 < (sfld srSpad).e1 ∧ (sfld srSpad).i2 < (sfld srSpad).e2) ∧
    ((-64 : Int) < 0 ∧ (2 ^ 48 - 512 : Int) < 2 ^ 48 - 511 ∧ (0 : Int) ≤ 2 ^ 48 - 512 ∧ (sfld 0).space = 0 ∧ (sfld 0).swzc = 0 ∧ 0x2200000 < (0x2200000 - 511 : Int).toNat + 512 ∧ (0x2200000 - 512 : Int).toNat + 512 ≤ 0x2200000 ∧
      regionOf (0x100000000 : Int).toNat ≠ .spad ∧ regionOf (0x100000000 : Int).toNat ≠ .kdm ∧ regionOf (0x4000000 : Int).toNat = .kdm) ∧
    tagRoom (qA) aA (tagsOf 0 512 (.home [(.spad 0, 0, 512)] 0)) = true ∧ (poisonFlags (qA) 0 [(.spad 0, 0, 512)]).all (!·) = true ∧ tagRoom (qA peered) aA (tagsOf 0 512 (.peer 1 0)) = true := by decide +kernel
theorem meets_StreamRegistersAndQueues : (preRead 0 0 4 [0x100000000] (mapped (two 0 0))).isSome = true ∧ (preRead 0 0 4 preAds (two 0 0)).isSome = false ∧ ready (qA) aA (popsS [.x 1, .x 2]) [] = true ∧ tagRoom (qA) aA 1 = true ∧ ready (qA) aA (popsS [.x 1]) [] = true ∧ ready (qA) aA [] (pushS (.x 3)) = true ∧ (3 : Nat) < 4 ∧
    ((two 0 0).cur = .cl 0 .K .user ∧ (coreAt (two 0 0) 0).runClk = false ∧ (coreAt (two 0 0) 0).hcTook = [] ∧ (coreAt (two 0 0) 0).hcPost = []) ∧
    (let c := (sget 0 (coreAt (modCore (two 0 0) 0 fun o => { o with hc := sset 0 o.hc 3 200 }) 0).hc 3).toNat
     255 < c + (56 : BitVec 8).toNat ∧ c + (55 : BitVec 8).toNat ≤ 255 ∧ c < (201 : BitVec 8).toNat ∧ (200 : BitVec 8).toNat ≤ c ∧ (55 : BitVec 8) ≠ 0) := by decide +kernel
/-- An arena stream of the mapped page, its first step read at the launch; what the page holds afterwards does not show (R174). -/
def srPage : SReg := BitVec.ofNat 256 (0x100000000 + 2 * 2 ^ 48 + 11 * 2 ^ 50 + 2 ^ 54 + 3 * 2 ^ 65 + 4 * 2 ^ 183 + 4 * 2 ^ 201)
theorem test_prefetch : after (.lds .tf8 0 4 (.x 0) 0) (at0 .A fun s => storeHome (prefetched (setSR (mapped s) 0 4 srPage)) .host .dram 0x30000 [7])
      (fun t => decide ((coreAt t 0).vq = [(0, [0])]) && decide ((coreAt t 0).pre.length = 3)) = true ∧
    after (.lds .tf8 0 4 (.x 0) 0) (at0 .A fun s => storeHome (setSR (mapped s) 0 4 srPage) .host .dram 0x30000 [7])
      (fun t => decide ((coreAt t 0).vq = [(0, [7])])) = true := by decide +kernel
theorem meets_PushEngineWord : ready (two (2 ^ 48) 0x080000000000) aK (popsS [.x 1]) [] = true ∧ (takeS aK (.x 1) (two (2 ^ 48) 0x080000000000)).1.toNat / 2 ^ 48 ≠ 0 ∧
    (takeS aK (.x 2) (two (2 ^ 48) 0x080000000000)).1.toNat / 2 ^ 48 = 0 ∧ (eqAt (coreAt (two 0 0) 0) 4).words.length < 64 ∧
    64 ≤ (eqAt (coreAt (modEQ (two 0 0) 0 4 fun e => { e with words := List.replicate 64 { w := 0, g := some 0 } }) 0) 4).words.length ∧ decodeEng 4 0 = none ∧ aK.x = .user := by decide
theorem meets_WhoSeesAStore : (3 : Nat) < (List.replicate 4 (0 : Byte)).length ∧ ownOf (.cl 0 .K .user) (.cl 0 .A .user) = false ∧ Space.real (.kdm 63) = true ∧
    (∀ w ∈ (two 0 0).pend, ownOf w.who (Party.cl 0 .K .user) = true → w.lvl ≠ 0) ∧ (∀ w ∈ (storePlain (two 0 0) (.cl 0 .A .user) .dram 0 [1] 0).pend, ownOf w.who (Party.cl 0 .K .user) = true → w.lvl ≠ 0) := by decide
theorem meets_ReleaseAndAcquire : (∀ w ∈ (storePlain (two 0 0) (.cl 0 .A .user) .dram 0 [1] 0).pend, w.lvl < 5 ∧ w.least ≤ 5) ∧ (storePlain (two 0 0) (.cl 0 .A .user) .dram 0 [1] 0).pend ≠ [] ∧
    (let s := release (storePlain (two 0 0) (.cl 0 .A .user) .dram 0 [1] 0) (.cl 0 .A .user) 2
     let o := obsOf s (.cl 0 .A .user)
     let t := observe (.cl 0 .K .user) s o
     o.1 ≠ .cl 0 .K .user ∧ relevant s o = true ∧ (t.pend.zip (acquire t (.cl 0 .K .user) 2).pend ≠ []) ∧
       ∀ w ∈ t.pend, w.who ≠ .cl 0 .K .user ∧ .cl 0 .K .user ∉ w.req ∧ ∃ r ∈ w.pubs, within 2 r.1 (.cl 0 .K .user) = true ∧ within r.2.2 r.1 (.cl 0 .K .user) = true ∧ r.2.1 ≤ seenNo t (.cl 0 .K .user) r.1) ∧
    (∀ w ∈ (release (storePlain (two 0 0) (.cl 0 .A .user) .dram 0 [1] 0) (.cl 0 .A .user) 2).pend, w.who = .cl 0 .A .user ∧ w.least ≤ 2) ∧
    (two 0 0).cur = .cl 0 .K .user ∧ relReady (two 0 0) (partyOf aK) (lvlOf .sy) = true := by decide
theorem meets_Atomics : ready (two 0x4000000 1) aK (popsS [.x 1, .x 2, .x 0]) (pushS (.x 3)) = true ∧ 0x4000002 % (etyW (atyE .i32) / 8) ≠ 0 ∧ 0x4000004 % (etyW (atyE .i32) / 8) = 0 ∧ failsAt (two 0 0) aK 8 8 true = true ∧
    goesTo (two 0 0) aK 0x400FFFC 4 true (.home [(.kdm 0, 0xFFFC, 4)] 0) = true ∧ goesTo (mapped (two 0 0)) aK 0x100000008 8 true (.home [(.dram, 0x30008, 8)] 0) = true ∧
    (regionOf 0x900000000000 = .host ∧ goesTo (modCore (mapped (two 0 0)) 0 fun o => { o with tlbK := [⟨false, 0, 0x900000000000, 65536, 0x8D, none⟩] }) aK 0x900000000000 4 true (.home [(.host, 0, 4)] 5) = true) ∧
    relReady (two 0 0) (partyOf aK) (lvlOf .dv) = true ∧ piecesPoison (two 0 0) 0 [(.kdm 0, 0xFFFC, 4)] = false ∧
    piecesPoison { two 0 0 with poison := [(granKey (.kdm 0) 0xFFFC, true)] } 0 [(.kdm 0, 0xFFFC, 4)] = true ∧ isRel .ar = true ∧ isAcq .ar = true ∧ portFree (two 0 0) 0 [(.kdm 0, 0xFFFC, 4)] = true ∧ goesTo (peered (two 0 0)) aK 0xC04000000000 4 true (.peer 1 0) = true := by decide
/-- A context with a wait. -/
def waiting (w : Wait) (s : State) : State := modCtx s aK fun t => { t with wait := some w }
/-- Every slot of unit 0 is held by a watch of core 0. -/
def fullUnit : State := modKs (two 0 0) 0 fun ks => { ks with watches := (List.range 32).map fun i => (i, ⟨1, .ne, 0, true, false⟩) }
theorem meets_MemoryWaits :
    (let s := mapped (two 0x100000004 5)
     ready s aK (popsS [.x 1, .x 2]) (pushS (.x 3)) = true ∧ (ctxOf s aK).wait = none ∧ 0x100000004 % (etyW (atyE .i32) / 8) = 0 ∧ goesTo s aK 0x100000004 4 false (.home [(.dram, 0x30004, 4)] 0) = true ∧
       slotFree s aK (.mem false 0x30004 .i32 .eq 5) = true ∧ (resolve s 0 .k (partyOf aK) 0 .k 0x100000004 4 false).1 = s ∧ mcondOk .i32 .eq 0 (5 : Word).toNat = false ∧ mcondOk .i32 .ne 0 (5 : Word).toNat = true ∧
       anyPoison s 0 .dram 0x30004 4 = false ∧ anyPoison (markPoison s .dram 0x30004 true) 0 .dram 0x30004 4 = true ∧
       (resolve (markPoison s .dram 0x30004 true) 0 .k (partyOf aK) 0 .k 0x100000004 4 false).1 = markPoison s .dram 0x30004 true) ∧
    (ctxOf (waiting ⟨.mem false 0x30004 .i32 .eq 5, true, some ⟨5, false, []⟩, false⟩ (two 0 0)) aK).wait = some ⟨.mem false 0x30004 .i32 .eq 5, true, some ⟨5, false, []⟩, false⟩ ∧ 0x100000006 % (etyW (atyE .i32) / 8) ≠ 0 ∧
    (goesTo (peered (two 0 0)) aK 0xC04000000000 4 false (.peer 1 0) = true ∧ goesTo (two 0 0) aK 0x4000000 4 false (.home [(.kdm 0, 0, 4)] 0) = true ∧
      goesTo (modCore (mapped (two 0 0)) 0 fun o => { o with tlbK := [⟨false, 0, 0x100000000, 65536, 0x3004D, none⟩] }) aK 0x100000004 4 false (.home [(.near, 0x30004, 4)] 0) = true ∧ slotFree (two 0 0) aK (.mem true 0x30004 .i32 .eq 5) = true) ∧
    (let s := waiting ⟨.mem false 0x30004 .i32 .eq 5, true, none, false⟩ (two 0 0)
     let w : PStore := { who := .cl 0 .A .user, sp := .dram, addr := 0x30004, bytes := [5], lvl := 0, least := 0, req := [], obs := (.cl 0 .A .user, 0) }
     let t := { s with pend := [w] }
     let met := fun (s : State) => mcondOk .i32 .eq (ofBytes (curBytes s (partyOf aK) .dram 0x30004 4)) (5 : Word).toNat
     aK.x = .user ∧ (ctxOf s aK).wait = some ⟨.mem false 0x30004 .i32 .eq 5, true, none, false⟩ ∧ met (storeHome s .host .dram 0x30004 [5]) = true ∧ anyPoison (storeHome s .host .dram 0x30004 [5]) 0 .dram 0x30004 4 = false ∧
       met (storeDevice s .dram 0x30004 [6]) = false ∧ met (publishOne t w 5) = true) ∧
    anyPoison (two 0 0) 0 (nearOr false) 0x30004 4 = false ∧ queuedAt (two 0 0) 0 .K = none ∧ queuedAt (waiting ⟨.sg 1 .ne 0, false, none, false⟩ fullUnit) 0 .K = some aK ∧
    ((holdersOf (two 0 0) 0).length + (watchesOf (two 0 0) 0).length < 32 ∧ eventOpen (two 0 0) 0 = false ∧ 32 ≤ (holdersOf fullUnit 0).length + (watchesOf fullUnit 0).length ∧ eventOpen fullUnit 0 = false ∧
      eventOpen (modRing (two 0 0) 0 fun g => { g with pend := [{ ty := .waitDeadlock, event := some 0 }] }) 0 = true) := by decide
/-- A write to a signal word of core 0 is on its way. -/
def sent (f : Core → Core := id) (u : Option Nat := none) (s : State := two 0 0) : State := { modCore s 0 f with sig := [⟨0, 12, .write, 1, u, []⟩] }
theorem meets_SignalWords :
    (ready (two 0 64) aK (popsS [.x 1, .x 2]) [] = true ∧ ready (two 0 0) aK [] (pushS (.x 3)) = true ∧ ready (two 0 0) aK (popsS [.x 2]) (pushS (.x 3)) = true ∧ (63 : Word).toNat < 64 ∧ 64 ≤ (64 : Word).toNat ∧
      runsPart (two 0 0) 0 0 = true ∧ runsPart (two 0 0) 0 63 = false ∧ (ctxOf (two 0 0) aK).wait = none ∧ slotFree (two 0 0) aK (.sg 12 .geu 1) = true ∧
      coreShut (coreAt (two 0 0) 0) = false ∧ coreShut (coreAt (modCore (two 0 0) 0 fun o => { o with frozen := true }) 0) = true ∧ (64 : Nat) / 2 ^ 6 % 4 ≠ 0 ∧ (0x10000 : Nat) / 2 ^ 16 ≠ 0 ∧ (0x13F : Nat) / 2 ^ 6 % 4 = 0 ∧
      tagRoom (two 0 0) aK 1 = true ∧ relReady (two 0 0) (partyOf aK) 5 = true ∧ tagRoom (modCore (two 0 0) 0 fun o => { o with tagsK := 32 }) aK 1 = false ∧
      (ctxOf (waiting ⟨.sg 12 .geu 1, true, some ⟨1, false, []⟩, false⟩ (two 0 0)) aK).wait = some ⟨.sg 12 .geu 1, true, some ⟨1, false, []⟩, false⟩ ∧
      (ctxOf (waiting ⟨.sg 12 .geu 1, true, none, false⟩ (two 0 0)) aK).wait = some ⟨.sg 12 .geu 1, true, none, false⟩ ∧ scondOk .geu 0 1 = false ∧ scondOk .geu 1 1 = true) ∧
    (runDead (two 0 0) 0 = false ∧ (two 0 0).sig[0]? = none ∧ (sent).sig[0]? = some ⟨0, 12, .write, 1, none, []⟩ ∧ (coreAt (sent) 0).inst ≠ none ∧ (coreAt (sent fun o => { o with inst := none }) 0).inst = none ∧
      (coreAt (sent fun o => { o with frozen := true }) 0).frozen = true ∧ (coreAt (sent) 0).frozen = false ∧ (coreAt (sent) 0).dbgQuiet = false ∧ (sent id (some 26)).sig[0]? = some ⟨0, 12, .write, 1, some 26, []⟩ ∧
      (coreAt (sent fun o => { o with inst := some ⟨0, 0, 0, [], false⟩ }) 0).inst = some ⟨0, 0, 0, [], false⟩) := by decide
/-- A lockstep run of K and A in which each waits on an empty queue that the other would fill. -/
def deadRun : Core := { (coreAt (two 0 0) 0) with inRun := true, lsmask := 3, k := { (cluAt (two 0 0) 0 .K) with ctx := { blocked := .qEmpty 14 } }, a := { (cluAt (two 0 0) 0 .A) with ctx := { blocked := .qEmpty 12 } } }
theorem meets_SignalWords_deadlock : runDead (modCore (two 0 0) 0 fun _ => deadRun) 0 = true := by decide
def bar0 (b : Barrier) : State := { two 0 0 with barriers := sset {} [] 5 b }
theorem meets_BarrierArrivals :
    ((two 0 0).cur = .cl 0 .K .user ∧ aK.x = .user ∧ (ctxOf (two 0 0) aK).tickCo = none ∧ slotFree (two 0 0) aK (.barCo 0) = true ∧ (coreAt (two 0 0) 0).barArr = [] ∧ ended (cluAt (two 0 0) 0 .A).run = false ∧
      ended (cluAt (two 0 0) 0 .K).run = false) ∧
    (let s := modCtx (two 0 0) aK fun t => { t with tickCo := some 4, wait := some ⟨.barCo 4, true, none, false⟩ }
     (ctxOf s aK).tickCo = some 4 ∧ (ctxOf s aK).wait = some ⟨.barCo 4, true, none, false⟩) ∧
    (let s := modCtx (two 0 0) aK fun t => { t with tickCo := some 4, wait := some ⟨.barCo 4, true, some ⟨0, false, []⟩, false⟩ }
     (ctxOf s aK).tickCo = some 4 ∧ (ctxOf s aK).wait = some ⟨.barCo 4, true, some ⟨0, false, []⟩, false⟩) ∧
    ((ctxOf (two 0 0) aK).tickDv = none ∧ (barAt (two 0 0) 5).owner ≠ partAt (two 0 0) 0 ∧ (barAt (bar0 { owner := 0, mask := 2 }) 5).mask.getLsbD 0 = false) ∧
    (let b : Barrier := { owner := 0, mask := 3, expect := 2 }
     (barAt (bar0 b) 5).owner = 0 ∧ (barAt (bar0 b) 5).mask.getLsbD 0 = true ∧ (barArrive (barAt (bar0 b) 5) 0 (partyOf aK, 0)).isSome = true ∧ slotFree (bar0 b) aK (.barDv 5 0) = true ∧ engBusy (bar0 b) 0 = false ∧
       relReady (bar0 b) (partyOf aK) (bardLvl (bar0 b) 0) = true ∧ b.arrmask.getLsbD 63 = false ∧ { b with arrmask := 1 }.arrmask.getLsbD 0 = true ∧ { b with arrmask := 1, next := 1 }.next.getLsbD 0 = true) ∧
    (let v : Barrier := { owner := 0, mask := 3, expect := 2, arrived := 2, arrmask := 3, next := 1 }
     v.owner ≠ 31 ∧ 0 < v.expect ∧ v.arrived = v.expect ∧ popcW v.next ≠ v.expect ∧ { v with arrived := 1 }.arrived ≠ v.expect ∧
       (ctxOf (waiting ⟨.barDv 5 0, true, none, false⟩ (bar0 v)) aK).wait = some ⟨.barDv 5 0, true, none, false⟩) := by decide
theorem meets_BarrierTable :
    (ready (two 1 0) aK [] (pushS (.x 3)) = true ∧ ready (two 1 0) aK (popsS [.x 1, .x 2]) (pushS (.x 3)) = true ∧ (barAt (two 1 0) 5).owner ≠ partAt (two 1 0) 0 ∧
      (barAt (bar0 { owner := 0, mask := 3, expect := 2, arrived := 1 }) 5).arrived ≠ 0 ∧ (barAt (bar0 { owner := 0 }) 5).arrived = 0 ∧ (barAt (bar0 { owner := 0 }) 5).next = 0) ∧
    ((1 : Nat) ≠ 0 ∧ maskRuns (two 1 0) 0 1 = true ∧ (1 : Nat) ≤ popcN 64 1 ∧ (1 : Nat) ≤ 127 ∧ (∀ i < 0, (barAt (two 1 0) i).owner ≠ 31) ∧ (barAt (two 1 0) 0).owner = 31) ∧
    (hostCan (bound (bar0 { owner := 0 })) 0 = true ∧ (barAt (bound (bar0 { owner := 0 })) 5).owner = 0 ∧ (5 : Nat) < 64 ∧ hostCan State.reset 0 = false ∧ (3 : BitVec 64) ≠ 0 ∧ (two 0 0).park = []) ∧
    ((coreAt (two 0 0) 0).frozen = false ∧ (coreAt (modCore (two 0 0) 0 fun o => { o with frozen := true, freezeMore := true }) 0).frozen = true ∧
      (coreAt (modCore (two 0 0) 0 fun o => { o with frozen := true, freezeMore := true }) 0).freezeMore = true) := by decide
theorem meets_UserInterrupts :
    uliDue (modKs (two 0 0) 0 fun ks => { ks with uliEn := true, uliPend := 4 }) 0 = true ∧
    (ready (two 32767 32768) aK (popsS [.x 1]) [] = true ∧ (takeS aK (.x 1) (two 32767 32768)).1.toNat ≤ 32767 ∧ 32767 < (takeS aK (.x 2) (two 32767 32768)).1.toNat ∧ (23 : BitVec 10).toNat ≤ 23 ∧ 23 < (24 : BitVec 10).toNat) ∧
    ((slook (coreAt (modKs (two 0 0) 0 fun ks => { ks with watches := [(23, ⟨1, .ne, 0, true, false⟩)] }) 0).ks.watches 23).isSome = true ∧ slotFree (two 0 0) aK (.sg 12 .geu 0) = true ∧
      scondOk .geu (getSg (two 0 0) 0 12) 0 = true ∧ scondOk .ne (getSg (two 0 0) 0 12) 0 = false) ∧
    ((coreAt (modKs (two 0 0) 0 fun ks => { ks with uliActive := true }) 0).ks.uliActive = true ∧ (coreAt (two 0 0) 0).ks.uliActive = false ∧ (1 : BitVec 16) ≠ 0 ∧ pcOf (two 0 0) aK + (32767 : BitVec 16).toNat ≤ 32767) := by decide

/-- X0 moves, and entries stand in `q0`. -/
def qX (l : List VReg) (f : State → State := id) : State := at0 .X0 fun s => f (modCore s 0 fun o => { o with vq := sset [] o.vq 0 l })
theorem meets_VectorElements : ready (at0 .X0) aX (portV 1 (.v 1) ++ portV 1 (.v 2) ++ portV 1 (.v 639)) (portV 1 (.v 3)) = true ∧ ready (qX [1, 2]) aX (portV 1 (.q 0) ++ portV 1 (.q 0)) (portV 1 (.q 8)) = true ∧
    ready (qX [1]) aX (portV 1 (.q 0)) (portV 1 (.v 3)) = true ∧ etyF .i8 = none ∧ (128 : Int) > intHi .i8 ∧ (-129 : Int) < intLo .i8 ∧ intLo .i8 ≤ (127 : Int) ∧ (127 : Int) ≤ intHi .i8 ∧ etyInt .n8 = true ∧
    (255 : Nat) < 2 ^ etyW .n8 ∧ (7 : Nat) < etyW .n8 := by decide
theorem meets_BroadcastCompare : ready (at0 .X0) aX (popsS [.x 1]) (portV 1 (.v 3)) = true ∧ ready (at0 .X0) aX [] (portV 1 (.v 3)) = true ∧
    ready (qX [1, 2]) aX (portV 1 (.q 0) ++ portV 1 (.q 0)) [] = true ∧ etyF .fp16 = some .fp16 ∧ etyF .i64 = none ∧ 63 < 4096 / etyW .i64 ∧ (1023 : Nat) < 1024 := by decide
theorem meets_SelectAndMove : ready (qX [1, 2]) aX (portV 1 (.q 0) ++ portV 1 (.q 0)) (portV 1 (.v 3)) = true ∧ ready (at0 .X0) aX (portV 1 (.v 1)) (portV 1 (.v 3)) = true ∧ 1023 < 4096 / etyW .n4 := by decide
theorem meets_ConversionsAndReductions : groupOk 4 (.v 636) = true ∧ groupOk 4 (.v 638) = false ∧ groupOk 2 (.v 638) = true ∧ groupOk 2 (.v 5) = false ∧ ready (at0 .X0) aX (portV 4 (.v 636)) (portV 1 (.v 3)) = true ∧
    ready (at0 .X0) aX (portV 1 (.v 3)) (portV 2 (.v 638)) = true ∧ ready (at0 .X0) aX (portV 4 (.v 636) ++ portV 1 (.v 1) ++ popsS [.x 0]) (portV 1 (.v 3)) = true ∧ etyInt .i16 = true ∧ etyF .bf16 = some .bf16 ∧
    (List.replicate 64 0).length = etyE .i64 ∧ (3 : Nat) < [0, 1, 2, 3].length := by decide
theorem meets_PermutesAndLanes : (etyE .i8 + 255) / 256 = 2 ∧ groupOk 2 (.v 638) = true ∧ groupOk 2 (.v 5) = false ∧ ready (at0 .X0) aX (portV 1 (.v 1) ++ portV 2 (.v 638)) (portV 1 (.v 3)) = true ∧
    ready (at0 .X0) aX (portV 1 (.v 1) ++ portV 2 (.v 638) ++ popsX (.imm 5)) (portV 1 (.v 3)) = true ∧ ready (at0 .X0) aX (popsS [.x 1] ++ popsX (.reg (.x 2))) [] = true ∧
    ready (at0 .X0) aX (portV 1 (.v 1) ++ popsX (.imm 63)) (pushS (.x 3)) = true ∧ (63 : Nat) < etyE .i64 ∧ etyE .i64 ≤ 64 ∧ etyInt .n16 = true ∧ etySigned .i16 = true ∧ etySigned .n16 = false := by decide
theorem meets_FunctionsAndScans : groupOk ((256 + etyE .fp32 - 1) / etyE .fp32) (.v 638) = true ∧ groupOk ((256 + etyE .fp32 - 1) / etyE .fp32) (.v 5) = false ∧ fIsNan .fp32 0x7FC00001 = true ∧
    (fIsNan .fp32 0xBF800000 = false ∧ fIsZero .fp32 0xBF800000 = false ∧ fNeg .fp32 0xBF800000 = true) ∧ ready (at0 .X0) aX (portV 1 (.v 1)) (pushS (.x 3)) = true ∧ etyW .fp32 ≤ 32 ∧ etyF .fp16 = some .fp16 := by decide
theorem meets_FunctionsAndScans_nan :
    let nan := fun i => bitN (maskOf aX none (twoV (0x7FC00000 * 2 ^ 32) 0)) i && isNanE .fp32 (elemN 32 (0x7FC00000 * 2 ^ 32) i)
    nan 1 = true ∧ ∀ j < 1, nan j = false := by decide +kernel
theorem meets_MaskLogic : ready (at0 .X0) aX [] (pushS (.x 3)) = true ∧ ready (qX [1, 2]) aX (portV 1 (.q 0) ++ portV 1 (.q 0)) [] = true ∧ (15 : Nat) < 16 ∧ (0 : Nat) ≠ 15 ∧ etyE .n4 ≤ 1024 := by decide
/-- Context 0 of X0 with attributes and with entry 0 valid or not. -/
def dtCtx (attr valid : Nat) : State := at0 .X0 fun s => modXs s aX fun x => setDtPart (setDtPart x 0 8 valid) 0 9 (attr * 2 ^ 2048)
theorem meets_AwnLanes : (dtA 0).ok = false ∧ (dtA 0x1FF).ok = true ∧ (dtA 0x101FF).ok = true ∧ ready (at0 .X0) aX (portV 1 (.v 1) ++ portV 1 (.v 2)) (portV 1 (.v 3)) = true ∧ ready (at0 .X0) aX (portV 1 (.v 1)) (portV 1 (.v 3)) = true ∧
    groupOk 4 (.v 5) = false ∧ 10 < (9 : Fin 10).val + ((1 : Fin 8).val + 1) ∧ (9 : Fin 10).val + ((0 : Fin 8).val + 1) ≤ 10 ∧ runOk 2 (.v 511) = false ∧ runOk 8 (.v 504) = true ∧ ready (at0 .X0) aX (portV 8 (.v 504)) [] = true ∧
    ready (at0 .X0) aX [] (portV 8 (.v 504)) = true ∧ ready (at0 .X0 (xs aX [(1, 65535), (2, 65536)])) aX (popsS [.x 1]) [] = true ∧ (65535 : Word).toNat ≤ 65535 ∧ 65535 < (65536 : Word).toNat ∧ ready (at0 .X0) aX [] (pushS (.x 3)) = true ∧
    (cluAt (at0 .X0) 0 .X0).xs.dtActive = false ∧ (cluAt (at0 .X0 fun s => modXs s aX fun x => { x with dtActive := true }) 0 .X0).xs.dtActive = true ∧ inLockstep (coreAt (at0 .X0) 0) .X0 = false := by decide +kernel
theorem meets_AwnLanes_runs :
    (let t := (cluAt (dtCtx 0x1FF 1) 0 .X0).xs
     dtAttr t 0 = 0x1FF ∧ dtValid t 0 0 = true ∧ (match dtAll (dtNum t 0 (dtA 0x1FF) 0 0) (dtA 0x1FF).n 0 with | .ok _ => true | .error _ => false) = true) ∧
    (let t := (cluAt (dtCtx 0x1FF 0) 0 .X0).xs
     dtValid t 0 0 = false ∧ errIs (dtAll (dtNum t 0 (dtA 0x1FF) 0 0) (dtA 0x1FF).n 0) ⟨0, 0, 0, 0⟩ = true) ∧
    (∀ k < (dtA 0x101FF).n, ∀ j < (dtA 0x101FF).w, ¬bitN (dtA 0x101FF).vcode ((dtA 0x101FF).digit 0 k j) = false) ∧ bitN (dtA 0x1FF).vcode ((dtA 0x1FF).digit 0 0 0) = false := by decide +kernel
/-- Partition 0 has a quota, and request 7 is in a state. -/
def withRq (st : RqSt) (s : State) : State := modPart { s with rq := sset {} s.rq 7 { st := st, part := 0 } } 0 fun p => { p with quota := 2 }
theorem meets_Requests :
    (ready (two 7 0) aK (popsS [.x 1, .x 2]) (pushS (.x 3)) = true ∧ (64 : Word).toNat % 128 ≠ 0 ∧ (rqAt (withRq .free (two 7 0)) 7).st = .free ∧ (rqAt (withRq .open (two 7 0)) 7).st ≠ .free ∧ liveCount (withRq .free (two 7 0)) (fun _ => true) < 16384 ∧
      liveCount (withRq .free (two 7 0)) (fun r => r.part == 0) < (partRec (withRq .free (two 7 0)) 0).quota ∧ (partRec (two 7 0) 0).quota ≤ liveCount (two 7 0) (fun r => r.part == 0) ∧ failsAt (two 7 0) aK 0x100000080 128 true = true ∧
      goesTo (mapped (two 7 0)) aK 0x100000080 128 true (.home [(.dram, 0x30080, 128)] 0) = true) ∧
    (65535 < (65536 : Word).toNat ∧ rqOpenIn (two 7 0) 0 7 = false ∧ rqOpenIn (withRq .open (two 7 0)) 0 7 = true) ∧
    (let f := (List.range 4).map fun i => 0x0007 / 2 ^ (16 * i) % 2 ^ 16
     f.filter (· != 0) ≠ [] ∧ (f.filter (· != 0)).Nodup ∧ (∀ i ∈ f.filter (· != 0), rqOpenIn (withRq .open (two 7 0)) 0 i = true)) ∧
    (let f := (List.range 4).map fun i => 0x00070007 / 2 ^ (16 * i) % 2 ^ 16
     ¬(f.filter (· != 0)).Nodup) ∧
    (127 ≤ 127 ∧ (7 : Word).toNat ≤ 65535 ∧ 127 + ((0 : BitVec 7).toNat + 1) ≤ 128 ∧ 128 < 127 + ((1 : BitVec 7).toNat + 1)) ∧ ready (two 7 0) aK (popsS [.x 1]) (pushS (.x 3)) = true ∧
    (rqStateIn (two 7 0) 0 7 = .free ∧ rqStateIn (withRq .open (two 7 0)) 0 7 = .open ∧ rqStateIn (withRq .halted (two 7 0)) 0 7 = .halted ∧ rqStateIn (withRq .draining (two 7 0)) 0 7 = .draining ∧
      rqStateIn (withRq .cancelling (two 7 0)) 0 7 = .cancelling ∧ rqLive (withRq .open (two 7 0)) 0 7 = true ∧ rqLive (two 7 0) 0 7 = false) ∧
    rqiOf (two 7 0) aK = 0 ∧ rqiOf (modClu (two 7 0) 0 .K fun u => { u with rqi := 7 }) aK ≠ 0 ∧
    (carried (withRq .draining (two 7 0)) 0 7 = false ∧ carried (modClu (withRq .draining (two 7 0)) 0 .K fun u => { u with rqi := 7 }) 0 7 = true ∧ (rqAt (withRq .draining (two 7 0)) 7).record = 0 ∧
      (partRec (two 7 0) 0).dying = false) := by decide
/-- The request table is full. -/
theorem meets_Requests_full (s : State) (n : Nat) : n ≤ liveCount { s with rq := List.replicate n (0, { st := .open }) } (fun _ => true) := by
  simp [liveCount]
theorem meets_Requests_record :
    (let s := paged (two 7 0)
     okIs (devWrite s 0 0x100000080 (finalBytes 7 {})).2 () = true ∧ 0x100000080 ≠ 0) ∧
    (match (devWrite (two 7 0) 0 0x100000080 (finalBytes 7 {})).2 with | .error _ => true | .ok _ => false) = true := by decide +kernel
/-- A region of three copies and 16 cells. -/
def region0 : Region := ⟨[0, 1, 2], [0x40000, 0x1000040000, 0x2000040000], 16⟩
def sheaved (s : State) : State := modPart s 0 fun p => { p with regions := sput p.regions 0 region0 }
theorem meets_SheafCells :
    (ready (sheaved (two 0xF0 1)) aK (popsS [.x 1, .x 2, .x 3]) (pushS (.x 3)) = true ∧ (ctxOf (two 0 0) aK).sheafRes = none ∧ shBusy (two 0 0) aK = false ∧ tagRoom (sheaved (two 0 0)) aK 1 = true ∧
      (ctxOf (modCtx (two 0 0) aK fun t => { t with sheafRes := some (5, true) }) aK).sheafRes = some (5, true) ∧ shBusy (modCtx { two 0 0 with shOps := [{ id := 1, core := 0, c := .K, kind := .mst, part := 0, region := 0, cell := 15, sites := [0, 1, 2], ids := [] }] } aK fun t => { t with sheafBusy := some 1 }) aK = true) ∧
    (okIs (sheafAddr (sheaved (two 0 0)) 0 0xF0) (0, 15) = true ∧ errIs (sheafAddr (sheaved (two 0 0)) 0 0x100) .addrUnmapped = true ∧ errIs (sheafAddr (sheaved (two 0 0)) 0 0xF8) .misaligned = true ∧
      errIs (sheafAddr (sheaved (two 0 0)) 0 0x100000000) .addrUnmapped = true ∧ okIs (repairCheck (sheaved (two 0 0)) 0 0 16) (0, 0) = true ∧
      errIs (sheafAddr (modDev (sheaved (two 0 0)) fun d => { d with sheafdown := 3 }) 0 0xF0) .sheafLost = true) ∧
    ((2 : Nat) ^ 36 ≤ 2 ^ 36 ∧ (2 : Nat) ^ 36 - 16 < 2 ^ 36 ∧ regionAt (two 0 0) 0 15 = none ∧ regionAt (sheaved (two 0 0)) 0 0 = some region0 ∧ (liveStacks (sheaved (two 0 0)) region0).length = 3) ∧
    (ready (two 0xFFC0 0) aK (popsS [.x 1]) (pushS (.x 3)) = true ∧ (0xFFC0 : Word).toNat % 64 = 0 ∧ (0xFFC0 : Word).toNat ≤ 0x10000 - 64 ∧ 0x10000 - 64 < (0x10000 : Word).toNat ∧ (0xFFC8 : Word).toNat % 64 ≠ 0) ∧
    (let map := 7 + 16 * 2 ^ 64 + 0x40000 * 2 ^ 128 + 0x1000040000 * 2 ^ 192 + 0x2000040000 * 2 ^ 256
     descBad 0 = true ∧ descBad map = false ∧ map.testBit 16 = false ∧ map.testBit 17 = false ∧ descBad (2 ^ 16) = false ∧ (2 ^ 16).testBit 16 = true ∧ map.testBit 2 = true ∧ map / 2 ^ 12 % 16 = 0) ∧
    ((∀ o ∈ (sheaved (two 0 0)).shOps, ¬(o.part = 0 ∧ o.region = 0)) ∧
    (∃ o ∈ { sheaved (two 0 0) with shOps := [{ id := 1, core := 0, c := .K, kind := .mst, part := 0, region := 0, cell := 15, sites := [0, 1, 2], ids := [] }] }.shOps, o.part = 0 ∧ o.region = 0)) := by decide +kernel
def shOp0 : ShOp := { id := 1, core := 0, c := .K, kind := .mst, part := 0, region := 0, cell := 15, sites := [0, 1, 2], ids := [], newv := 9 }
def shState (m : List ShMsg) (n : List ShAns) : State := { sheaved (two 0 0) with shOps := [shOp0], shMsgs := m, shAns := n }
theorem meets_SheafProtocol :
    (copyGet (two 0 0) 0x40000 1 < 0x10000 ∧ copyGet (two 0 0) 0x40000 3 < 0x10000 ∧ (0 : Nat) ≤ copyGet (two 0 0) 0x40000 1 ∧ copyGet (two 0 0) 0x40000 3 = 0 ∧
      copyGet (copySet 0 0x40000 3 0x10001 (copySet 0 0x40000 1 0x10000 (two 0 0))) 0x40000 1 = 0x10000 ∧ copyGet (copySet 0 0x40000 3 0x20001 (copySet 0 0x40000 1 0x10000 (two 0 0))) 0x40000 3 = 0x20001) ∧
    ((shState [⟨1, 0, 0, 0, 15, .read⟩] []).shMsgs[0]? = some ⟨1, 0, 0, 0, 15, .read⟩ ∧ regionAt (shState [] []) 0 0 = some region0 ∧ (shState [] []).shMsgs[0]? = none ∧ (shState [] []).shAns[0]? = none) ∧
    ((shState [] [⟨1, 0, 15, .read 0 0 0⟩]).shAns[0]? = some ⟨1, 0, 15, .read 0 0 0⟩ ∧ shOp { shState [] [⟨1, 0, 15, .read 0 0 0⟩] with shAns := [] } 1 = some shOp0 ∧ shOp0.gone.contains 0 = false ∧
      { shOp0 with gone := [0] }.gone.contains 0 = true) ∧
    (shOp0.phase = 0 ∧ shOp0.kind = .mst ∧ shOp0.reads.length < 2 ∧ 2 ≤ shOp0.reads.length + stillOut (shState ((List.range 3).map fun k => ⟨1, k, 0, 0, 15, .read⟩) []) shOp0 (shOp0.reads.map (·.1)) ∧ 2 ≤ { shOp0 with reads := [(0, 0, 0, 0), (1, 0, 0, 0)] }.reads.length ∧
      { shOp0 with gone := [0, 1] }.reads.length + stillOut (shState ((List.range 3).map fun k => ⟨1, k, 0, 0, 15, .read⟩) []) { shOp0 with gone := [0, 1] } [] < 2) ∧
    (2 ≤ { shOp0 with phase := 2, oks := [0, 1] }.oks.length ∧ { shOp0 with phase := 2, nos := [0, 1] }.oks.length < 2 ∧ 3 - 2 < { shOp0 with phase := 2, nos := [0, 1] }.nos.length ∧
      2 ≤ { shOp0 with phase := 3, holds := [0, 1] }.holds.length ∧ { shOp0 with phase := 1, kind := .mcas, holds := [0, 1], val := 4, expv := 5 }.val ≠ 5) ∧
    (maxCounter shOp0.reads + 1 < 2 ^ 48 ∧ 2 ^ 48 ≤ maxCounter [(0, 0, (2 ^ 48 - 1) * 2 ^ 16, 0)] + 1) ∧
    (awaits (shState [⟨1, 0, 0, 0, 15, .read⟩] []) 1 0 = true ∧ awaits (shState [] []) 1 3 = false ∧ shOp (two 0 0) 1 = none ∧ (0 : Nat) ∈ region0.sites ∧ 15 < region0.cells ∧ regionAt (two 0 0) 0 0 = none) := by decide +kernel

def qw (w : BitVec 48) (rqi : Nat := 0) (seq : Nat := 0) : QWord := { w := w, g := some w, rqi := rqi, seq := seq }
/-- A stream register of arena space: 64 positions, `e2` of the second extent, a slot step of 2 granules, at an offset into the mapped page. -/
def srArena (off e2 : Nat) : SReg := BitVec.ofNat 256 (0x100000000 + off + 2 * 2 ^ 48 + 3 * 2 ^ 65 + 2 * 2 ^ 159 + 64 * 2 ^ 183 + e2 * 2 ^ 201)
def arenaSrs : List SReg := [srArena 0 2, srArena 0x4000 2, srArena 0x8000 4, srSpad, srSpad, srSpad]
def arenaState (s : State) : State := paged (setSR (setSR (setSR (setSR (setSR s 0 4 (srArena 0 2)) 0 5 (srArena 0x4000 2)) 0 6 (srArena 0x8000 4)) 0 8 srSpad) 0 9 srSpad)
/-- An identity of the queue's head that is halted. -/
def haltedHead (q : Nat) (w : BitVec 48) (f : State → State := id) : State := modEQ (withRq .halted (atQ q w f)) 0 q fun e => { e with words := [qw w 7] }
theorem meets_ThresherQueue :
    (let s := atQ 8 0x820200000003 arenaState
     s.cur = .eq 0 8 ∧ headOf s 0 8 = some (qw 0x820200000003) ∧ allStopped s 0 (realIds [0]) = false ∧ slotFault (thRegs s 0 4 0 0) (some 3) = none ∧ slotFault (thRegs s 0 4 8 8) none = none ∧
       (match slotHome s 0 (thRegs s 0 4 0 0) 3 with | .ok _ => true | _ => false) = true ∧
       (match engPlace s 0 .none (thParty 0 0 0) .device (sfld ((thRegs s 0 4 0 0).getD 2 0)) false .addrUnmapped .spadRange (sideAt (arenaOf (thRegs s 0 4 0 0)) 3) 64 false with
         | (_, .ok p) => (homeOf p).isSome | _ => false) = true) ∧
    (let s := atQ 8 0x820200000003 fun s => setSR s 0 6 (srArena 0x8000 4)
     (match slotHome s 0 (thRegs s 0 4 0 0) 3 with | .error _ => true | _ => false) = true) ∧
    slotFault (thRegs (atQ 8 0 arenaState) 0 4 0 0) (some 4) = some .arenaInvalid ∧ slotFault (thRegs (atQ 8 0 arenaState) 0 8 0 0) none = some .arenaInvalid ∧
    (headOf (haltedHead 8 0x820200000003) 0 8 = some (qw 0x820200000003 7) ∧ allStopped (haltedHead 8 0x820200000003) 0 (realIds [7]) = true) ∧
    (let s := atQ 8 0x850000140001
     ((eqAt (coreAt s 0) 8).parked.any fun p => decide (p.seq < 0)) = false ∧ (coreAt s 0).eng.thOut = [] ∧ runsPart s 0 0 = true ∧ runsPart s 0 63 = false ∧ coreShut (coreAt s 0) = false ∧ allStopped s 0 (realIds [0]) = false ∧
       coreShut (coreAt (modCore s 0 fun o => { o with frozen := true }) 0) = true ∧ (coreAt (modEng s 0 fun e => { e with thOut := [5] }) 0).eng.thOut ≠ []) ∧
    ((eqAt (coreAt (modEQ (atQ 8 0x850000140001) 0 8 fun e => { e with parked := [qw 0x820200000003 7 0], words := [qw 0x850000140001 0 1] }) 0) 8).parked.any fun p => decide (p.seq < 1)) = true := by decide +kernel
def thCmd (i : Instr) (pinned : Bool := false) : ThCmd := { id := 5, core := 0, launch := 0, part := 0, word := qw 0x820200000003, i := i, srs := arenaSrs, pinned := pinned }
def atThr (t : Thr) (s : State := two 0 0) : State := modThr s 0 fun _ => t
theorem meets_ThresherWork :
    ((thrAt (two 0 0) 0).waiting.find? (pinGrantable (two 0 0) 0) = none ∧
      (let s := atThr { waiting := [⟨0, 3, true, 0, 1, some 5⟩], cmds := [thCmd (.tMerge 0 4 1 3)] }
       (thrAt s 0).waiting.find? (pinGrantable s 0) = some ⟨0, 3, true, 0, 1, some 5⟩ ∧ pinFree (thrAt s 0) ⟨0, 3, true, 0, 1, some 5⟩ = true)) ∧
    (let s := fun i => atThr { cmds := [thCmd i true] }
     ((thrAt (two 0 0) 0).cmds.take 16)[0]? = none ∧ ((thrAt (s (.kPinTake 4 3)) 0).cmds.take 16)[0]? = some (thCmd (.kPinTake 4 3) true) ∧ (thCmd (.kPinTake 4 3) true).stop = none ∧
       readersOf (thrAt (s (.kPinRelease 4 3)) 0) 0 3 = 0 ∧ readersOf (thrAt (atThr { pins := [⟨0, 3, [0], none⟩] }) 0) 0 3 ≠ 0) ∧
    (let c := thCmd (.kAppend 0 4 8 8 1)
     (1 : BitVec 16).toNat ≤ { c with row := 1 }.row ∧ c.row < (1 : BitVec 16).toNat ∧ (1 : BitVec 16).toNat = c.row + 1 ∧
       (match appendRow 0 c 1 0 (homeSetRun (arenaState (two 0 0)) (.spad 0) 1 [0x10]) with | .done _ => true | _ => false) = true ∧
       (match appendRow 0 { c with srs := arenaSrs.take 5 ++ [srArena 0x10000 1] } 1 0 (two 0 0) with | .fault _ => true | _ => false) = true ∧
       (match appendRow 0 c 1 0 (atThr { pins := [⟨0, 0, [], some 2⟩] } (arenaState (two 0 0))) with | .wait => true | _ => false) = true) ∧
    (let s := mapped (two 0x100000040 0)
     ready s aK (popsS [.x 1]) (pushS (.x 3)) = true ∧ 0x100000040 % 64 = 0 ∧ 0x100000020 % 64 ≠ 0 ∧
       (match resolve s 0 .k (partyOf aK) 0 .k 0x100000040 64 false with | (s1, .ok (.home ((sp, ad, m) :: ps) l)) => (homeOf (.home ((sp, ad, m) :: ps) l)).isSome && tagRoom s1 aK 1 | _ => false) = true) := by decide +kernel
theorem meets_MatrixQueue :
    ((atQ 0 0x0707E0000000).cur = .eq 0 0 ∧ (shadowAt (coreAt (atQ 0 0) 0) 0).ta < 2 ^ 32 ∧ (shadowAt (coreAt (atQ 0 0) 0) 0).tb < 2 ^ 32) ∧
    (let s := atQ 0 0x090000200000 fun s => setSR s 0 0 srSpad
     let o := coreAt s 0
     headOf s 0 0 = some (qw 0x090000200000) ∧ allStopped s 0 (servedIds o (qw 0x090000200000) (shadowAt o 0)) = false ∧ arbiter s 0 = some 0 ∧ goConfigBad o (qw 0x090000200000) (shadowAt o 0) = false ∧
       streamOkT (sfld (getSR s 0 0)) .tf8 = true ∧ goBstr (qw 0x090000200000) = true ∧ arbiter s 0 ≠ some 1) ∧
    (let s := atQ 0 0x090000000000
     goConfigBad (coreAt s 0) (qw 0x090000000000) (shadowAt (coreAt s 0) 0) = true ∧ arbiter s 0 = some 0) ∧
    (let s := atQ 0 0x010000000000 fun s => setSR s 0 0 srSpad
     headOf s 0 0 = some (qw 0x010000000000) ∧ arbiter s 0 = some 0 ∧ streamOkT (sfld (getSR s 0 0)) .tf8 = true ∧ streamOkT (sfld (getSR s 0 1)) .tf8 = false) ∧
    (let s := atQ 0 0x0A002C000001 fun s => setSR s 0 0 srSpad
     arbiter s 0 = some 0 ∧ allStopped s 0 (servedIds (coreAt s 0) (qw 0x0A002C000001) (shadowAt (coreAt s 0) 0)) = false) ∧
    (let s := haltedHead 0 0x010000000000
     headOf s 0 0 = some (qw 0x010000000000 7) ∧ allStopped s 0 (servedIds (coreAt s 0) (qw 0x010000000000 7) {}) = true) ∧
    8 ≤ (List.replicate 8 ({ id := 1, q := 0, kind := .go, word := qw 0, sh := {} } : MOp)).length := by decide +kernel
def mop (k : MKind) (w : BitVec 48) : MOp := { id := 1, q := 0, kind := k, word := qw w, sh := { rows := 1, kb := 1 }, sa := srSpad, sb := srSpad }
def withOp (op : MOp) (s : State := two 0 0) : State := modEng s 0 fun e => { e with mops := [op] }
theorem meets_MatrixOrderAndState :
    (let s := atQ 0 0x0B0000050001
     s.cur = .eq 0 0 ∧ headOf s 0 0 = some (qw 0x0B0000050001) ∧ ((eqAt (coreAt s 0) 0).parked.any fun p => decide (p.seq < 0)) = false ∧ (∀ e ∈ (coreAt s 0).eng.mops, e.q ≠ 0) ∧ runsPart s 0 0 = true ∧ runsPart s 0 63 = false ∧ coreShut (coreAt s 0) = false ∧ coreShut (coreAt (modCore s 0 fun o => { o with frozen := true }) 0) = true ∧
       (tokensHeld (coreAt s 0)).getLsbD 7 = false ∧ (getSg s 0 7).toNat < (1 : BitVec 16).toNat ∧ (0 : BitVec 16).toNat ≤ (getSg s 0 7).toNat) ∧
    (∃ e ∈ (coreAt (withOp (mop .go 0)) 0).eng.mops, e.q = 0) ∧ (tokensHeld (coreAt (modEng (two 0 0) 0 fun e => { e with cmds := [{ id := 1, q := 4, word := qw 0, sh := {}, hold := 0x80 }] }) 0)).getLsbD 7 = true ∧
    ((eqAt (coreAt (modEQ (two 0 0) 0 0 fun e => { e with parked := [qw 0 7 0] }) 0) 0).parked.any fun p => decide (p.seq < 1)) = true ∧
    ((4 < (5 : BitVec 10).toNat ∧ (5 : BitVec 10).toNat < 64) ∧ 127 < (128 : BitVec 10).toNat ∧ (4 : BitVec 10).toNat ≤ 4 ∧ 64 ≤ (64 : BitVec 10).toNat ∧ (127 : BitVec 10).toNat ≤ 127 ∧ ready (two 0 0) aK [] (pushS (.x 3)) = true) := by
  refine ⟨by decide, ⟨mop .go 0, by decide⟩, by decide, by decide, by decide⟩
/-- A loaded plane, a row of A that lies outside its extent, and row 0 masked. -/
def goState (op : MOp) : State := modEng (withOp op) 0 fun e => { e with planes := sput e.planes 0 { loaded := true } }
def srOut : SReg := BitVec.ofNat 256 (11 * 2 ^ 50 + 2 ^ 54 + 3 * 2 ^ 65 + 1 * 2 ^ 183 + 4 * 2 ^ 201)
def goOp (acc : Bool) : MOp := { mop .go (if acc then 0x090000800000 else 0x090000000000) with sh := { rows := 2, kb := 1 }, sa := srOut, masked := if acc then [0] else [0, 1] }
def plOp : MOp := { mop .plane 0x010000000000 with sh := { gang := 4, kb := 1 }, sb := srOut }
theorem meets_MatrixCommits :
    (mopAt (coreAt (two 0 0) 0) 1 = none ∧ mopAt (coreAt (withOp (mop .go 0)) 0) 1 = some (mop .go 0) ∧ (mop .go 0).stop = none ∧ (coreAt (withOp (mop .go 0)) 0).frozen = false ∧
      opReady (coreAt (withOp (mop .go 0)) 0) (mop .go 0) = true) ∧
    (match loadPlane (withOp plOp) 0 plOp 0 0 with | (_, .ok _) => true | _ => false) = true ∧ (mop .plane 0).again = false ∧ { mop .plane 0 with again := true }.again = true ∧ tagFree (withOp plOp) 0 plOp.sb = true ∧
    (tagFree (modCore (two 0 0) 0 fun o => { o with tagsF := 4096 }) 0 (srArena 0 2) = false ∧
      (match (goIter (modCore (goState (goOp false)) 0 fun o => { o with tagsF := 4096 }) 0 { goOp false with sa := srArena 0 2 }).2 with | .wait => true | _ => false) = true) ∧
    (match (loadPlane (two 0 0) 0 { mop .plane 0x010000000000 with sb := srArena 0 2 } 0 0).2 with | .error _ => true | _ => false) = true ∧
    (nestTotal (mcounts (goOp false).sh) = (goOp false).iter + 1 ∧ { goOp false with iter := 1 }.iter = nestTotal (mcounts (goOp false).sh) ∧ (goOp false).iter < nestTotal (mcounts (goOp false).sh) ∧
      (match (goIter (goState (goOp false)) 0 (goOp false)).2 with | .ok _ => true | _ => false) = true) ∧
    ((mop .drain 0x0A002C000001).iter < 32 * drN (mop .drain 0x0A002C000001).word ∧ { mop .drain 0x0A002C000001 with iter := 32 }.iter = 32 * drN (mop .drain 0x0A002C000001).word ∧
      sumOk (tileRow (coreAt (modEng (two 0 0) 0 fun e => { e with tiles := sset {} e.tiles 0 { sum := 1 } }) 0) 0) = false) ∧
    (({} : Block).spec = none ∧ specOf (some 5) none = some 5 ∧ [1, 2].length = [3, 4].length) := by decide +kernel
/-- An accumulation into a row whose sum is wrong, with a NaN in its row of A. -/
def badGo : MOp := { goOp true with sh := { rows := 2, kb := 1 }, sa := srSpad }
def badSum : State := homeSetRun (modEng (goState badGo) 0 fun e => { e with tiles := sset {} e.tiles 1 { sum := 1 } }) (.spad 0) 512 [0x80]
def isMismatch : IterRes → Bool | .mismatch => true | _ => false
theorem meets_MatrixCommits_mismatch : isMismatch (goIter badSum 0 badGo).2 = true := by decide +kernel
def cmd0 (ph : Nat) (f : Cmd → Cmd := id) : Cmd := f { id := 1, q := 4, word := qw 0x490050000000, sh := {}, ss := srSpad, sd := srSpad, phase := ph }
def withCmd (c : Cmd) (s : State := two 0 0) : State := modEng s 0 fun e => { e with cmds := [c] }
/-- An arena stream in bounds mode whose first coordinate lies outside, one of a page that nothing maps, one of a peer's window. -/
def sideOf (r : SReg) (bnd : Bool := false) : Side := { srcSide {} r with bnd := bnd }
/-- The party of a queue's head that takes pins. -/
abbrev pin4 : Party := cmdParty 0 uCopy 4 0
theorem meets_CopyQueue :
    (atQ 4 0x400000000000).cur = .eq 0 4 ∧
    (let s := haltedHead 4 0x490050000000
     headOf s 0 4 = some (qw 0x490050000000 7) ∧ (qw 0 7).keepC = none ∧ allStopped s 0 (realIds [7]) = true ∧ allCancelled s 0 (realIds [7]) = false ∧
       allCancelled (modEQ (withRq .cancelling (atQ 4 0)) 0 4 fun e => { e with words := [qw 0 7] }) 0 (realIds [7]) = true) ∧
    (let s := atQ 4 0x490050000000
     allStopped s 0 (realIds [0]) = false ∧ (coreAt s 0).eng.cmds.length < 8 ∧ (tokensHeld (coreAt s 0) &&& 0x80) = 0 ∧ taken s 0 = false) ∧
    8 ≤ (List.replicate 8 (cmd0 0)).length ∧ (tokensHeld (coreAt (withCmd (cmd0 0 fun c => { c with hold := 0x80 })) 0) &&& 0x80) ≠ 0 ∧
    taken (modCore (two 0 0) 0 fun o => { o with preempt := true, k := { safeStop := true }, a := { safeStop := true }, x0 := { safeStop := true }, x1 := { safeStop := true } }) 0 = true ∧ streamOk (srcSide {} srSpad).f = true ∧ streamOk (srcSide {} (srArena 0 2)).f = true ∧ (sfld srSpad).space ≠ 2 ∧
    (match cmdPins 0 pin4 (qw 0) (sideOf (srArena 0 2)) (sideOf srSpad) [] 64 (two 0 0) with | .error (_, 0) => true | _ => false) = true ∧
    (match cmdPins 0 pin4 (qw 0) (sideOf srSpad) (sideOf (srArena 0 2)) [] 64 (two 0 0) with | .error (_, 1) => true | _ => false) = true ∧
    (match sidePin 0 pin4 (qw 0) (sideOf (srArena 0 2)) [] false (two 0 0) with | .go _ => true | _ => false) = true ∧
    (match sidePin 0 pin4 (qw 0) (sideOf (srArena 0 2)) [] true (paged (two 0 0)) with | .wait _ => true | _ => false) = true ∧
    (match sidePin 0 pin4 (qw 0) (sideOf (srArena 0 2)) [] true (modThr (paged (two 0 0)) 0 fun t => { t with pins := [⟨0, 0, [], some (copyOwner 0 0)⟩] }) with | .go _ => true | _ => false) = true ∧
    (let s := peered (atQ 4 0x4702000C0001)
     headOf s 0 4 = some (qw 0x4702000C0001) ∧ ((eqAt (coreAt s 0) 4).parked.any fun p => decide (p.seq < 0)) = false ∧ ((coreAt s 0).eng.cmds.any fun c => c.q == 4) = false ∧
       runsPart s 0 63 = false ∧ runsPart s 0 0 = true ∧ coreShut (coreAt s 0) = false ∧ coreShut (coreAt (modCore s 0 fun o => { o with frozen := true }) 0) = true ∧
       inSet s 0 ((0x2FF : BitVec 16).toNat / 2 ^ 8) = false ∧ inSet s 0 ((0x1FF : BitVec 16).toNat / 2 ^ 8) = true ∧ (tokensHeld (coreAt s 0) &&& 8) = 0 ∧
       (getSg s 0 255).toNat < (1 : BitVec 16).toNat ∧ (0 : BitVec 16).toNat ≤ (getSg s 0 255).toNat) ∧
    ((coreAt (withCmd (cmd0 0)) 0).eng.cmds.any fun c => c.q == 4) = true := by decide +kernel
/-- A stream in global space at an offset of the window of device 1. -/
def srPeer : SReg := BitVec.ofNat 256 (0xC04000000000 + 2 ^ 48 + 3 * 2 ^ 65 + 4 * 2 ^ 183 + 4 * 2 ^ 201)
theorem meets_CopyWork :
    (let s := withCmd (cmd0 0)
     cmdAt (coreAt (two 0 0) 0) 1 = none ∧ cmdAt (coreAt s 0) 1 = some (cmd0 0) ∧ (cmd0 0).stop = none ∧ (cmd0 0).parked = false ∧ (coreAt s 0).frozen = false ∧ allStopped s 0 (realIds (cmd0 0).ids) = false ∧
       (cmd0 0 fun c => { c with stop := some 1 }).stop.isSome = true ∧ allStopped (withRq .halted s) 0 (realIds [7]) = true ∧ (cmd0 1).phase = 1 ∧ (cmd0 3).phase = 3 ∧ (cmd0 5).phase = 5 ∧ (cmd0 4).phase = 4) ∧
    ((cmd0 6).phase = 6 ∧ (match cmdPins 0 pin4 (qw 0) (sideOf (srArena 0 2)) (sideOf srSpad) [] 64 (two 0 0) with | .error _ => true | _ => false) = true ∧
      (match cmdPins 0 pin4 (qw 0) (sideOf srSpad) (sideOf srSpad) [] 64 (two 0 0) with | .ok (_, true) => true | _ => false) = true ∧
      (match cmdPins 0 pin4 (qw 0) (sideOf srSpad) (sideOf (srArena 0 2)) [] 64 (paged (two 0 0)) with | .ok (_, false) => true | _ => false) = true) ∧
    (farGrans 0 [(.dram, 0, 64)] ≠ 0 ∧ copyLeft (modCore (two 0 0) 0 fun o => { o with tagsC := 4096 }) 0 = 0 ∧ copyLeft (two 0 0) 0 ≠ 0 ∧ farGrans 0 [(.spad 0, 0, 64)] = 0 ∧
      portFree (modCore (two 0 0) 1 fun o => { o with frozen := true }) 0 [(.spad 1, 0, 64)] = false) ∧
    (let at' := fun (d : Side) (w : Bool) (s : State) => sidePlace s 0 (cmdParty 0 uCopy 4 1) d.f (sideAddr d [0, 0, 0, 0, 0, 0]) 64 w
     (match at' (sideOf (srArena 0 2)) false (two 0 0) with | (_, .error _) => true | _ => false) = true ∧ (match at' (sideOf srSpad) false (two 0 0) with | (_, .ok (some (.home _ _))) => true | _ => false) = true ∧
       (match at' (sideOf (srArena 0 2)) true (paged (two 0 0)) with | (_, .ok (some (.home _ _))) => true | _ => false) = true ∧
       (match at' (sideOf srPeer) false (peered (two 0 0)) with | (_, .ok (some (.peer 1 0))) => true | _ => false) = true ∧
       sideAddr { sideOf srSpad true with d1 := [4] } [1] = none ∧ (sideAddr { sideOf srSpad true with d1 := [3] } [1]).isSome = true ∧ sideAddr { sideOf srSpad true with d1 := [-1] } [1] = none) ∧
    (let c : CShadow := { lv := sset {} [] 0 { count := 2 } }
     0 + 1 < nestTotal (ccounts c) ∧ nestTotal (ccounts c) ≤ 1 + 1) ∧
    (tokensHeld (coreAt (withCmd (cmd0 0 fun c => { c with hold := 8 })) 0) &&& 8) ≠ 0 ∧ ready (two 0x4000C05 9) aK (popsS [.x 1, .x 2]) [] = true ∧ ready (two 0 0) aK [] (pushS (.x 3)) = true ∧
    (let bad := fun n : Nat => decide (n / 2 ^ 26 ≠ 0 ∨ n / 2 ^ 14 % 4 ≠ 0 ∨ 1 < n / 2 ^ 24 % 4)
     bad 0x4000000 = true ∧ bad 0x4000 = true ∧ bad 0x2000000 = true ∧ bad 0x1FF3FFF = false) ∧
    (let s := two 0 0
     tagRoom s aK 1 = true ∧ relReady s (partyOf aK) 5 = true ∧ tagRoom (modCore s 0 fun o => { o with tagsK := 32 }) aK 1 = false) := by decide +kernel
/-- An image of 256 bytes: its header, four descriptors of one base text each (R53, R54), and eight zero words at 192. -/
def goodImage : Image :=
  let d := fun (c : Nat) => 1 + c * 2 ^ 16 + 192 * 2 ^ 64 + 64 * 2 ^ 128
  let n := 0x4D495856 + 2 ^ 32 + 4 * 2 ^ 48 + 256 * 2 ^ 64 + 64 * 2 ^ 256 + (d 0 + d 1 * 2 ^ 256 + d 2 * 2 ^ 512 + d 3 * 2 ^ 768) * 2 ^ 512
  { part := 0, file := ((List.range 192).zip (bytesOf 192 n)).filter fun e => e.2 != 0, size := 256, database := 0 }
def withImage (s : State) : State := modPart { s with images := sput s.images 0 goodImage } 0 fun p => { p with cmask := 7, live := true }
theorem test_image_accepted : imgOk goodImage = true ∧ imgOk { goodImage with file := goodImage.file.tail } = false := by decide +kernel
/-- A ring of a bound function; open, it has slots written, and the mapped page holds its packets. -/
def ringed (f : Ring → Ring) (s : State := two 0 0) : State := modRing (bound s) 0 fun g => f { g with ringlog := 4, exqlog := 4 }
def openAt (n rd : BitVec 32) (v : Nat) (s : State := two 0 0) : State :=
  storeHome (ringed (fun g => { g with state := 1, wridx := n, rdidx := rd, ringbase := 0x100000000 }) (paged s)) .host .dram 0x30000 (bytesOf 128 v)
/-- A LAUNCH: two slots, request 7, image 0, one level of parallel instances. -/
def pkt0 (n cls : Nat) : Nat := 1 + 2 * 2 ^ 8 + 7 * 2 ^ 32 + cls * 2 ^ 48 + n * 2 ^ 448 + 2 * 2 ^ 480 + 3 * 2 ^ 832
def rd4 (s : State) (n : Nat) : Nat := match devRead s 0 (slotVa (ringAt s 0)) n with | (_, .ok bs) => ofBytes bs | _ => 0
theorem meets_Rings :
    (let ok := fun (g : Ring) => decide (g.state = 0 ∧ 4 ≤ g.ringlog ∧ g.ringlog ≤ 16 ∧ 4 ≤ g.exqlog ∧ g.exqlog ≤ 16 ∧ g.ringbase % 64 = 0 ∧ g.exqbase % 64 = 0 ∧ (g.savebase = 0 ∨ 40 ≤ g.savestride))
     hostCan State.reset 0 = false ∧ hostCan (ringed id) 0 = true ∧ ok (ringAt (ringed id) 0) = true ∧ ok (ringAt (ringed fun g => { g with ringlog := 16, exqlog := 16, savebase := 64, savestride := 40 }) 0) = true ∧
       ok (ringAt (ringed fun g => { g with savebase := 64, savestride := 39 }) 0) = false ∧ (ringAt (openAt 1 0 0) 0).state = 1) ∧
    (let s := openAt 17 0 0
     (ringAt s 0).state = 1 ∧ (ringAt s 0).head = none ∧ (ringAt s 0).wridx ≠ (ringAt s 0).rdidx ∧ 16 < availOf (ringAt s 0)) ∧
    (let hdr := fun (s : State) => rd4 s 4
     let bad := fun (s : State) => let len := hdr s / 2 ^ 8 % 2 ^ 8; decide (len = 0 ∨ 16 < len ∨ 16 < (ringAt s 0).rdidx.toNat % 16 + len)
     availOf (ringAt (openAt 16 0 0) 0) ≤ 16 ∧ bad (openAt 1 0 0) = true ∧ bad (openAt 16 0 (17 * 2 ^ 8)) = true ∧ bad (openAt 17 15 0) = true ∧ bad (openAt 16 0 (16 * 2 ^ 8)) = false ∧
       1 < hdr (openAt 2 0 0x202) % 2 ^ 8 ∧ hdr (openAt 1 0 0x201) % 2 ^ 8 ≤ 1 ∧ availOf (ringAt (openAt 1 0 0x201) 0) < 2 ∧ hdr (openAt 1 0 0x100) = 0x100 ∧ hdr (openAt 3 0 0x301) / 2 ^ 8 % 2 ^ 8 ≠ 2) ∧
    (let s := openAt 2 0 (pkt0 2 1) (withImage (withRq .open (two 0 0)))
     let v := rd4 s 128
     v = pkt0 2 1 ∧ pktBad s 0 v = false ∧ rqOpenIn s 0 (pktOf v 0 []).rq = true ∧ imageGood s 0 = true ∧ rqOpenIn (openAt 2 0 0) 0 7 = false ∧
       (match readPrime s 0 (v / 2 ^ 192 % 2 ^ 64) with | (_, .ok (some [])) => true | _ => false) = true ∧ 32 < instancesOf (pktOf (pkt0 33 0) 0 []) ∧
       (∃ l ∈ levels (pktOf (pkt0 0 0) 0 []), (l.1 = 2 ∨ l.1 = 3) ∧ l.2 = 0) ∧
       1 < ((levels (pktOf (pkt0 1 0 + 2 ^ 512 + 3 * 2 ^ 544 + 2 ^ 576 + 3 * 2 ^ 608) 0 [])).filter fun l => l.1 == 3).length) := by decide +kernel
/-- The launch of `placed`, its core as `f` leaves it. -/
def lnch (f : Launch → Launch := id) : Launch := f { id := 0, ring := 0, part := 0, pkt := placedPkt, cores := [0], left := [0], st := .running }
def lst (l : Launch) (s : State := two 0 0) : State := { withImage s with launches := [l] }
/-- Every stream of core 0 has ended. -/
def allEnded (o : Core) : Core := { mapClus o (fun _ u => { u with run := .exited, stop := none }) with inst := some ⟨0, 0, 0, [], true⟩ }
def headed (p : LPkt) (s : State := two 0 0) : State := modRing (withImage (withRq .open s)) 0 fun g => { g with state := 1, exqlog := 4, head := some p }
def pktA : LPkt := { pktOf (pkt0 2 1) 0 [] with lattol := 5, cmask := 0 }
def back (w : Nat) : Launch := lnch fun l => { l with st := .saved, saved := [⟨0, {}, none, []⟩], pkt := { placedPkt with lattol := w } }
theorem meets_Launches :
    (let s := headed pktA
     picks s (coreFree s) 0 0 pktA = some [(1, 0, 0), (2, 0, 1)] ∧ picks s (coreFree s) 0 0 { pktA with counts := [3] } = none ∧ (choose (two 0 0) 0).2 = none ∧ (choose s 0).2 = some ⟨0, 1, none⟩ ∧
       (ringAt (choose s 0).1 0).head = some pktA ∧ rqOpenIn (choose s 0).1 0 pktA.rq = true ∧ rqOpenIn (choose (modRing (two 0 0) 0 id) 0).1 0 7 = false ∧
       (∀ x, (choose s 0).2 = some x → x.ring ≠ 1) ∧ (1, 0, 0) ∈ [(1, 0, 0), (2, 0, 1)] ∧ ([(1, 0, 0), (2, 0, 1)].map (·.1)).Nodup) ∧
    ((coreAt (two 0 0) 1).lastPart = none ∧ (∃ k < 64, (coreAt (two 0 0) k).pwr ≠ .l0) ∧
      let s := modCore (two 0 0) 1 fun o => { o with lastPart := some 3 }
      (coreAt s 1).lastPart = some 3 ∧ (lnch).part ≠ 3 ∧ (coreAt (modCore (two 0 0) 1 fun o => { o with lastPart := some 0 }) 1).lastPart = some (lnch).part ∧
      pktA.handoff.length = 8) ∧
    (let s := lst (lnch) (modCore (two 0 0) 0 fun o => { o with inst := some ⟨0, 0, 0, [], false⟩ })
     (coreAt s 0).inst = some ⟨0, 0, 0, [], false⟩ ∧ launchAt s 0 = some lnch ∧ imageOf s 0 = some goodImage ∧ (coreAt s 0).waking = false ∧ s.dev.l3 = false ∧ (lnch).saved.find? (·.core == 0) = none ∧
       (back 0).saved.find? (·.core == 0) = some ⟨0, {}, none, []⟩ ∧ launchAt (lst (back 0) s) 0 = some (back 0)) ∧
    (let s := lst lnch (modCore (two 0 0) 0 allEnded)
     (coreAt s 0).inst = some ⟨0, 0, 0, [], true⟩ ∧ launchAt s 0 = some lnch ∧ instDone s 0 = true ∧ (partRec s 0).plat < 40) ∧ ended (cluAt (lst lnch) 0 .K).run = false ∧
    (launchOf (lst (lnch fun l => { l with left := [] })) 0 = some (lnch fun l => { l with left := [] }) ∧ (lnch).left ≠ [] ∧
      (match devWrite (two 0 0) 0 0 (bytesOf 8 0) with | (_, .error _) => true | _ => false) = true ∧
      (match devWrite (paged (two 0 0)) 0 0x100000000 (bytesOf 8 0) with | (_, .ok _) => true | _ => false) = true) := by
  refine ⟨by decide +kernel, ⟨by decide, ⟨1, by decide⟩, by decide⟩, by decide +kernel, by decide +kernel, by decide +kernel, by decide +kernel⟩
/-- Core 0 is asked for a pre-emption and stands at safe points. -/
def asked (s : State := two 0 0) : State := modCore s 0 fun o => { mapClus o (fun _ u => { u with safeStop := true }) with preempt := true }
theorem meets_Preemption :
    (let s := headed pktA (lst (lnch fun l => { l with pkt := { placedPkt with cls := 2 } }))
     (ringAt s 0).head = some pktA ∧ pktA.lattol ≠ 0 ∧ (picks s (coreFree s) 0 0 pktA).isSome = true ∧ ({ pktA with lattol := 0 } : LPkt).lattol = 0) ∧
    (let f := fun (s : State) => s.launches.find? fun l => l.ring == 0 && decide (l.st = .saved)
     f (lst (back 5)) = some (back 5) ∧ (back 5).pkt.lattol ≠ 0 ∧ (back 0).pkt.lattol = 0 ∧ f (lst lnch) = none ∧ f (headed pktA) = none ∧ f (two 0 0) = none ∧
       let s := lst (back 5) (modCore (two 0 0) 0 fun o => { o with inst := none })
       f s = some (back 5) ∧ ∀ e ∈ (back 5).saved, coreFree s e.core = true) ∧
    (ringAt (two 0 0) 0).head = none ∧ ((lnch).preempt = false ∧ 0 ∈ (lnch).left ∧ launchNo (lst lnch) 0 = some (lnch).id) ∧
    ((coreAt asked 0).preempt = true ∧ (coreAt (two 0 0) 0).preempt = false ∧ (coreAt asked 0).preLate = false ∧ launchAt (lst lnch asked) 0 = some lnch ∧
      (∀ c ∈ clusters, ended (cluAt asked 0 c).run = true ∨ (cluAt asked 0 c).safeStop = true) ∧
      let s := modClu asked 0 .A fun u => { u with safeStop := false }
      (coreAt s 0).preempt = true ∧ ended (cluAt s 0 .A).run = false ∧ (cluAt s 0 .A).safeStop = false) ∧
    (saveReady (lst lnch asked) 0 = true ∧ imageOf (lst lnch asked) 0 = some goodImage ∧ saveReady (lst lnch) 0 = false ∧ allSafe (coreAt (lst lnch asked) 0) = true ∧
      (let s := lst lnch (modCore (two 0 0) 0 fun o => { mapClus o (fun _ u => { u with run := .exited }) with preempt := true, a := { o.a with run := .on, stop := some 1 } })
       saveReady s 0 = true ∧ allSafe (coreAt s 0) = false) ∧ (saveArea (lst lnch asked) lnch ⟨0, 0, 0, [], true⟩).2.isSome = true) ∧
    (let l := back 0
     let s := lst l (modRing (modCore (two 0 0) 0 fun o => { o with inst := none }) 0 id)
     launchOf s 0 = some l ∧ (choose s 0).2 = some ⟨0, 0, some 0⟩ ∧ (choose (lst lnch) 0).2 = none ∧ launchOf (lst lnch) 0 = some lnch ∧ (l.saved.map (·.core)).Nodup ∧
       (choose (headed pktA (lst lnch)) 0).2 = some ⟨0, 1, none⟩) := by decide +kernel
/-- Tables that map a page of 512 MiB at 0x1_2000_0000, ACC and D set, and the save area of ring 0 there; `ps` and `d` are what the save itself
changes. -/
def hugeDram : List Host.Cell := [(0x2000, 1), (0x2002, 1), (0x10048, 0x2D), (0x10049, 3), (0x1004B, 0x20)]
def hugeBase : State :=
  modRing (modPart (lst lnch asked) 0 fun p => { p with ptroot := 0x2001 }) 0 fun g => { g with savebase := 0x120000000, savestride := 40 }
def huge (ps : Sparse PageFill) (d : Dev) : State := { hugeBase with dram := hugeDram, pages := ps, dev := d }
def lowClear (ps : Sparse PageFill) : Prop := slook ps 0 = none ∧ slook ps 512 = none
theorem huge_default {ps : Sparse PageFill} (h : lowClear ps) (d : Dev) (a : Nat) (ha : a < 0x20000) : byteDefault (huge ps d) .dram a = 0 := by
  have e : pageFill (huge ps d) .dram a = none := by
    have k : pageKey .dram a = 0 ∨ pageKey .dram a = 512 := by show a / 2 ^ 16 * 512 + 0 = 0 ∨ a / 2 ^ 16 * 512 + 0 = 512; omega
    show slook ps _ = none
    rcases k with k | k <;> rw [k]
    · exact h.1
    · exact h.2
  show (match pageFill (huge ps d) .dram a with | some f => Config.freeByte f.epoch a | none => 0) = 0
  rw [e]
theorem huge_entry {ps : Sparse PageFill} (h : lowClear ps) (d : Dev) (a : Nat) (ha : a + 8 ≤ 0x20000) :
    readEntry (huge ps d) .dev a = ofBytes ((List.range 8).map fun i => sget 0 hugeDram (a + i)) := by
  have e : ∀ i < 8, curByte (huge ps d) .dev .dram (a + i) = sget 0 hugeDram (a + i) := fun i hi => by
    show sget (byteDefault (huge ps d) .dram (a + i)) hugeDram (a + i) = _
    rw [huge_default h d _ (by omega)]
  unfold readEntry curBytes
  exact congrArg ofBytes (List.map_congr_left fun i hi => e i (List.mem_range.mp hi))
theorem huge_same {ps : Sparse PageFill} (h : lowClear ps) (d : Dev) (bs : List Byte) (a : Nat) (ha : a + bs.length ≤ 0x20000)
    (hb : ∀ i (hi : i < bs.length), sset 0 hugeDram (a + i) bs[i] = hugeDram) : homeSetRun (huge ps d) .dram a bs = huge ps d := by
  induction bs generalizing a with
  | nil => rfl
  | cons b bs ih =>
    have e : homeSet (huge ps d) .dram a b = huge ps d := by
      unfold homeSet
      rw [huge_default h d a (by simp at ha; omega)]
      show setCells (huge ps d) .dram (sset 0 hugeDram a b) = _
      have := hb 0 (by simp)
      simp only [Nat.add_zero, List.getElem_cons_zero] at this
      rw [this]; rfl
    show homeSetRun (homeSet (huge ps d) .dram a b) .dram (a + 1) bs = _
    rw [e]
    refine ih (a + 1) (by simp at ha; omega) fun i hi => ?_
    have := hb (i + 1) (by simp; omega)
    rwa [show a + (i + 1) = a + 1 + i by omega, List.getElem_cons_succ] at this
theorem huge_setEntry {ps : Sparse PageFill} (h : lowClear ps) (d : Dev) : setEntryBit (huge ps d) .dev 0x10048 (teAccBit ||| teDBit) = huge ps d := by
  unfold setEntryBit commitBytes
  rw [huge_entry h d _ (by decide)]
  show pokeMem (homeSetRun (huge ps d) .dram 0x10048 _) = _
  rw [huge_same h d _ _ (by decide) (by decide +kernel)]
  rfl
theorem huge_translates {ps : Sparse PageFill} (hp : lowClear ps) (d : Dev) (va : Nat) (h : 0x120000000 ≤ va) (h' : va < 0x140000000) :
    translate1 (huge ps d) 64 .none .host 0 va true = (huge ps d, .ok (.dram, 0x20000000 + va % szBytes 2)) := by
  have e1 : fld va 38 10 = 0 := by unfold fld; rw [Nat.shiftRight_eq_div_pow]; omega
  have e2 : fld va 29 9 = 9 := by unfold fld; rw [Nat.shiftRight_eq_div_pow]; omega
  have e3 : isHostVa va = false := by
    have : fld va 44 4 = 0 := by unfold fld; rw [Nat.shiftRight_eq_div_pow]; omega
    simp [isHostVa, this]
  have r : (partRec (huge ps d) 0).ptroot.toNat = 0x2001 := rfl
  have w : walk (huge ps d) .dev 0x2001 va true = .leaf 0x2000032D 0x10048 := by
    have r1 : readEntry (huge ps d) .dev (fld 0x2001 13 35 * 2 ^ 13 + 8 * 0) = 0x10001 := (huge_entry hp d _ (by decide)).trans (by decide)
    have r2 : readEntry (huge ps d) .dev (0x10000 + 8 * 9) = 0x2000032D := (huge_entry hp d _ (by decide)).trans (by decide)
    have n : nextTable 0x10001 (2 ^ 12) = some 0x10000 := by decide
    unfold walk
    rw [e1, e2, e3]
    simp only [r1, n, r2]
    rfl
  unfold translate1
  simp only [r, walkParty, w, tlGet, List.find?_nil, if_true, huge_setEntry hp d]
  rfl
theorem huge_resolves {ps : Sparse PageFill} (hp : lowClear ps) (d : Dev) (va : Nat) (h : 0x120000000 ≤ va) (h' : va + 65536 ≤ 0x140000000) (hm : va % 65536 = 0) :
    resolve (huge ps d) 64 .none .host 0 .device va 65536 true = (huge ps d, .ok (.home [(.dram, 0x20000000 + va % szBytes 2, 65536)] 0)) := by
  have r1 : regionOf va = .user := by unfold regionOf; rw [if_neg (by omega), if_neg (by omega), if_neg (by omega), if_neg (by omega), if_pos (by omega)]
  have r2 : regionOf (va + 65536 - 1) = .user := by unfold regionOf; rw [if_neg (by omega), if_neg (by omega), if_neg (by omega), if_neg (by omega), if_pos (by omega)]
  have e : va / 65536 = (va + 65536 - 1) / 65536 := by omega
  unfold resolve Sys2Proof.Machine.translate
  rw [r1, r2, huge_translates hp d va h (by omega)]
  simp [regionFault, e]
theorem huge_fills {ps : Sparse PageFill} (hp : lowClear ps) (d : Dev) (a : Nat) (h : 0x20000000 ≤ a) :
    ∃ ps' d', lowClear ps' ∧ saveFill 0 (huge ps d) (.dram, a, 65536) = huge ps' d' := by
  have c : sclear hugeDram (a / 2 ^ 16 * 2 ^ 16) (2 ^ 16) = hugeDram := by
    unfold sclear
    refine List.filter_eq_self.mpr fun e he => ?_
    have : e.1 < 0x20000 := by revert e; decide
    simp; omega
  have k : pageKey .dram (a / 2 ^ 16 * 2 ^ 16) = a / 2 ^ 16 * 2 ^ 16 / 2 ^ 16 * 512 + 0 := rfl
  refine ⟨sput ps (pageKey .dram (a / 2 ^ 16 * 2 ^ 16)) ⟨d.nextEpoch, (partRec (huge ps d) 0).key⟩, { d with nextEpoch := d.nextEpoch + 1 }, ⟨?_, ?_⟩, ?_⟩
  · exact (slook_sput_ne _ _ _ _ (by omega)).trans hp.1
  · exact (slook_sput_ne _ _ _ _ (by omega)).trans hp.2
  · unfold saveFill fillPage
    rw [if_pos (show (65536 : Nat) = 2 ^ 16 by decide)]
    show pokeMem (setCells (huge _ _) .dram (sclear hugeDram _ _)) = _
    rw [c]
    rfl
theorem huge_saves {stop : Nat} (hs : stop ≤ 0x140000000) (hm' : stop % 65536 = 0) : ∀ n {ps : Sparse PageFill}, lowClear ps → ∀ d va, 0x120000000 ≤ va → va ≤ stop → va % 65536 = 0 →
    ∃ ps' d', savePages (huge ps d) 0 va stop n = (huge ps' d', none)
  | 0, ps, _, d, _, _, _, _ => ⟨ps, d, rfl⟩
  | n + 1, ps, hp, d, va, h, h', hm => by
    unfold savePages
    by_cases e : va = stop
    · subst e
      exact ⟨ps, d, by rw [if_pos]; split <;> omega⟩
    · have m : (if (va / 2 ^ 16 + 1) * 2 ^ 16 < stop then (va / 2 ^ 16 + 1) * 2 ^ 16 else stop) - va = 65536 := by split <;> omega
      obtain ⟨ps1, d1, hp1, f⟩ := huge_fills hp d (0x20000000 + va % szBytes 2) (by omega)
      obtain ⟨ps2, d2, g⟩ := huge_saves hs hm' n hp1 d1 (va + 65536) (by omega) (by omega) (by omega)
      refine ⟨ps2, d2, ?_⟩
      simp only [m, huge_resolves hp d va h (by omega) hm, List.foldl_cons, List.foldl_nil, f, g]
      rfl
theorem meets_Preemption_save : let s := huge [] {}
    (coreAt s 0).inst = some ⟨0, 0, 0, [], true⟩ ∧ launchAt s 0 = some lnch ∧ imageOf s 0 = some goodImage ∧ saveReady s 0 = true ∧
      ∃ s1, saveArea s lnch ⟨0, 0, 0, [], true⟩ = (s1, none) ∧ launchAt s1 0 = some lnch := by
  obtain ⟨ps, d, h⟩ := huge_saves (stop := 0x120000000 + 40 * 2 ^ 20) (by decide) (by decide) 641 (ps := []) ⟨rfl, rfl⟩ {} 0x120000000 (by decide) (by decide) (by decide)
  refine ⟨by decide +kernel, by decide +kernel, by decide +kernel, by decide +kernel, huge ps d, ?_, rfl⟩
  have e : (ringAt (huge [] {}) (lnch).ring).savebase + 0 * (ringAt (huge [] {}) (lnch).ring).savestride * 2 ^ 20 = 0x120000000 := by decide
  unfold saveArea
  simp only [e]
  exact h
/-- The pager of core 0 serves a trap, or a request. -/
def serving (r : PagerRun) (s : State) : State := modKs s 0 fun ks => { ks with pagerRun := r }
def queued (r : FRec) : State := modKs (two 0 0) 0 fun ks => { ks with pagerQ := [r] }
theorem meets_FirmwareAndPager :
    ready (two 0xFFC0 0) aK (popsS [.x 1]) (pushS (.x 3)) = true ∧ (255 < (256 : BitVec 16).toNat ∧ (255 : BitVec 16).toNat ≤ 255) ∧
    (let v := fun (n : Word) => (takeS aK (.x 1) (two n 0)).1.toNat
     (v 0xFFC0 % 64 = 0 ∧ v 0xFFC0 ≤ 0xFFC0) ∧ v 0xFFC1 % 64 ≠ 0 ∧ 0xFFC0 < v 0x10000) ∧
    (aK.x = .user ∧ (⟨0, .K, .fw⟩ : At).x ≠ .user ∧ (coreAt (two 0 0) 0).ks.pagerRun = .idle ∧ (coreAt (serving (.trap (atRec .digit)) (two 0 0)) 0).ks.pagerRun ≠ .idle) ∧
    (let s := serving (.trap (atRec .digit)) (at0 .K id .pager)
     s.cur = .cl 0 .K .pager ∧ (coreAt s 0).ks.pagerRun = .trap (atRec .digit) ∧ (coreAt (serving (.request 5 (.x 3)) (at0 .K id .pager)) 0).ks.pagerRun = .request 5 (.x 3)) ∧
    ((cluAt (two 0 0) 0 .K).run = .on ∧ launchNo (two 0 0) 0 = some 0) ∧
    ((coreAt (queued (atRec .digit)) 0).ks.pagerRun = .idle ∧ (coreAt (queued (atRec .digit)) 0).ks.pagerQ = [atRec .digit] ∧ (coreAt (two 0 0) 0).ks.pagerQ = []) ∧
    (let s := serving (.trap (atRec .digit)) (at0 .K (xs ⟨0, .K, .pager⟩ [(1, 0xFFC0), (2, 0x10000), (3, 8)]) .pager)
     let a : At := ⟨0, .K, .pager⟩
     ready s a (popsS [.x 1]) [] = true ∧ (takeS a (.x 1) s).1.toNat ≤ 0xFFC0 ∧ (takeS a (.x 1) s).1.toNat % 64 = 0 ∧ 0xFFC0 < (takeS a (.x 2) s).1.toNat ∧ (takeS a (.x 2) s).1.toNat % 64 = 0 ∧
       (takeS a (.x 3) s).1.toNat % 64 ≠ 0) := by decide
theorem meets_Translations :
    (ready (two 0x100000000 0x3000D) aK (popsS [.x 1, .x 2]) [] = true ∧ (∃ e ∈ (coreAt (mapped (two 0 0)) 0).tlbK, e.part = 0 ∧ covers e 0 0x10000FFFF = true ∧ covers e 0 0x100010000 = false) ∧
      runsPart (two 0 0) 0 0 = true ∧ runsPart (two 0 0) 0 1 = false) ∧
    (let good := fun (va e : Nat) => teV e && teLeaf e && !leafMalformed e && !leafDenied e (isHostVa va)
     good 0x100000000 0x3000D = true ∧ good 0x900000000000 0x3000D = false ∧ good 0x100000000 0x3000C = false ∧ good 0x100000000 0x2000002D = true) ∧
    (let bad := fun (va e : Nat) => decide ((teV e = false ∧ teSz e = 3) ∨ (teV e = true ∧ leafGood e va = false))
     bad 0x100000000 0x30 = true ∧ bad 0x100000000 9 = true ∧ bad 0x100000000 0x3000D = false ∧ bad 0x100000000 0 = false ∧ teSz 0x2000002D = 2 ∧ teSz 0x20001D = 1 ∧ teSz 0x3000D = 0) ∧
    (let l1 := fun (s : State) => pointerTo (readEntry s (partyOf aK) (fld (partRec s 0).ptroot.toNat 13 35 * 2 ^ 13 + 8 * fld 0x100000000 38 10)) (2 ^ 12)
     let l2 := fun (va : Nat) => pointerTo (readEntry (paged (two 0 0)) (partyOf aK) (0x10000 + 8 * fld va 29 9)) (2 ^ 16)
     l1 (two 0 0) = none ∧ l1 (paged (two 0 0)) = some 0x10000 ∧ l2 0x100000000 = some 0x20000 ∧ l2 0x120000000 = none) ∧
    (let w : Walk := ⟨0, 0, 0x100000000, false⟩
     let s := modCore (paged (two 0 0)) 0 fun o => { o with walks := [w] }
     let r := fun (s : State) => translate1 (modCore s 0 fun o => { o with walks := [] }) 0 (walkTl 0 0).1 (walkTl 0 0).2 0 0x100000000 false
     (coreAt s 0).walks = [w] ∧ (coreAt (two 0 0) 0).walks = [] ∧ regionOf w.va = .user ∧ (match r s with | (_, .ok _) => true | _ => false) = true ∧ (match r (two 0 0) with | (_, .error _) => true | _ => false) = true) ∧
    (let l : OvlLoad := ⟨.A, 32767, [5]⟩
     (coreAt (modCore (two 0 0) 0 fun o => { o with ovl := [l] }) 0).ovl = [l] ∧ (coreAt (two 0 0) 0).ovl = [] ∧ l.base ≤ 32767 ∧ 32767 < l.base + l.words.length) := by
  refine ⟨⟨by decide, ⟨⟨false, 0, 0x100000000, 65536, 0x3000D, none⟩, by decide⟩, by decide, by decide⟩, by decide +kernel, by decide +kernel, by decide +kernel, by decide +kernel, by decide⟩
/-- A request packet of device 1, and the device that it comes to. -/
def pkt (op : BitVec 8) (addr : BitVec 48) (ids : List (BitVec 16) := []) (dst : BitVec 8 := 0) : Packet :=
  { op := op, dst := dst, src := 1, part := 0, score := 0, addr := addr, len := 0, xid := 5, iset := ids, poison := 0, value := 1, opnd2 := 0, byteen := 0, data := List.replicate 64 7 }
def hosts (s : State := two 0 0) : State := paged (peered s)
/-- The last page below the scratchpad window is mapped too. -/
def crossed : State :=
  let w := fun (s : State) (ad v : Nat) => storeHome s .host .dram ad (bytesOf 8 v)
  w (w hosts 0x10FB8 0x20001) 0x2FFF8 0x3000D
/-- A packet of this device that waits for its answer. -/
def outTo (f : Out → Out := id) : Out :=
  f { p := { pkt 2 0 with dst := 1, src := 0 }, why := .access 0 .K .user 0 (.scalar (.x 3) .i32) 4 0 4 none, sent := true }
def withOut (o : Out) : State := { hosts with out := [o] }
theorem meets_Peers :
    (let ids := fun (l : List (BitVec 16)) (st : RqSt) => allHalted (hosts (withRq st (two 0 0))) 0 (packetIds (pkt 1 0 l))
     headerOk (pkt 1 0) = true ∧ headerOk (pkt 0 0) = false ∧ headerOk { pkt 1 0 with rsv := 1 } = false ∧ (pkt 0 0).dst = hosts.dev.mydev ∧
       (pkt 1 0).op ≠ 2 ∧ (pkt 1 0 [] 3).dst ≠ hosts.dev.mydev ∧ (pkt 1 0).dst = hosts.dev.mydev ∧ (pkt 1 0).src ≠ hosts.dev.mydev ∧ (partRec hosts 0).live = true ∧ inSet hosts 0 1 = true ∧ inSet (two 0 0) 0 1 = false ∧
       portShut hosts (pkt 4 0) = false ∧ hosts.dev.l3 = false ∧ ids [7] .halted = true ∧ ids [] .halted = false ∧ ids [7] .open = false ∧ hosts.park.length < 1024) ∧
    1024 ≤ (List.replicate 1024 (pkt 1 0)).length ∧
    (∀ n ∈ [1, 2, 4, 5, 8], (pkt (BitVec.ofNat 8 n) 0).op = BitVec.ofNat 8 n ∧ headerOk (pkt (BitVec.ofNat 8 n) 0) = true) ∧
    ((match targetPlace hosts (pkt 1 0) 64 true with | (_, .error _) => true | _ => false) = true ∧
      (match targetPlace hosts (pkt 1 0x100000000) 64 true with | (t, .ok _) => decide (t.dev.mydev = 0) | _ => false) = true ∧
      (match targetPlace hosts (pkt 2 0x3F00000000) 64 false with | (t, .ok _) => decide (t.dev.mydev = 0) | _ => false) = true ∧ (pkt 1 0).byteen = 0) ∧
    (let a : Nat := 0x3EFFFFFFC0
     let p := pkt 1 0x3EFFFFFFC0
     p.addr.toNat = a ∧ a < 0x3F00000000 ∧ 0x3F00000000 < a + 128 ∧
       (match targetRun crossed p a (0x3F00000000 - a) true with
       | (s1, .ok _) => (match targetRun s1 p 0x3F00000000 (128 - (0x3F00000000 - a)) true with | (_, .ok _) => true | _ => false)
       | _ => false) = true) ∧
    (runsPart hosts 0 ((pkt 4 0).addr.toNat / 2 ^ 8 % 2 ^ 6) = true ∧ runsPart hosts 0 ((pkt 4 0x3F00).addr.toNat / 2 ^ 8 % 2 ^ 6) = false) ∧
    ((atomicFn 0).isSome = true ∧ (atomicTy (atyCode .i32)).isSome = true ∧ windowVa 0xFFFFFFFF < 0x100000000 ∧ ¬windowVa 0x3F00000000 < 0x100000000) ∧
    (let s := withOut outTo
     let cas := outTo fun o => { o with p := { o.p with op := 8, byteen := BitVec.ofNat 64 (7 + 2 ^ 8 * atyCode .i32), value := 4 } }
     (pkt 3 0).op = 3 ∧ answered s (pkt 3 0) = some outTo ∧ answered hosts (pkt 3 0) = none ∧ isAccess outTo = true ∧ isAccess (outTo fun o => { o with why := .copyRead 0 1 }) = false ∧ (pkt 3 0).poison.getLsbD 0 = false ∧
       cas.why = .access 0 .K .user 0 (.scalar (.x 3) .i32) 4 0 4 none ∧ atomicNew cas.p (pkt 9 0).value.toNat = none ∧
       ∀ n ∈ [3, 6, 7, 9], (pkt (BitVec.ofNat 8 n) 0).op = BitVec.ofNat 8 n) ∧
    (let late := fun (o : Out) => o.sent && decide (o.why ≠ .answer) && o.p.xid.toNat == 5 && !o.parked && !o.retry && o.stop.isNone
     hosts.out.find? late = none ∧ (withOut outTo).out.find? late = some outTo ∧
       (partRec hosts 0).live = true ∧ (1 : BitVec 8) ≠ hosts.dev.mydev ∧ inSet hosts 0 (1 : BitVec 8).toNat = true) ∧
    ((withOut (outTo fun o => { o with retry := true })).out.find? (fun o => o.retry && o.p.xid.toNat == 5) = some (outTo fun o => { o with retry := true }) ∧
      allStopped (withRq .halted (two 0 0)) 0 (packetIds (pkt 1 0 [7])) = true ∧ allStopped hosts 0 (packetIds (outTo).p) = false ∧ (outTo).why ≠ .answer) := by
  refine ⟨by decide +kernel, by decide +kernel, by decide, by decide +kernel, by decide +kernel, by decide, by decide, ?_, by decide +kernel, by decide +kernel⟩
  decide +kernel
/-- Partition 0 with a debug policy, and function 0 bound to it. -/
def policed (b : BitVec 5) (s : State := two 0 0) : State := modPart (bound s) 0 fun p => { p with policy := b, vfmask := 1, tenant := some 9 }
def banked : State := modDev (two 0 0) fun d => { d with win := { d.win with bank := some ⟨1, 0, [], [], [], []⟩ } }
theorem meets_HostAndDebug :
    ready (two 0 0) aK (popsS [.x 1]) (pushS (.x 3)) = true ∧ (partRec (policed 2) 0).policy.getLsbD 1 = true ∧ (partRec (two 0 0) 0).policy.getLsbD 1 = false ∧ ready (two 0 0) aK [] (pushS (.x 3)) = true ∧
    (banked.dev.win.bank.isSome = true ∧ (two 0 0).dev.win.bank = none ∧ (two 0 0).dev.win.fwd = false) ∧
    (let can := fun (s : State) => decide (hostCan s 0 = true ∧ (partRec s 0).cmask.getLsbD 0 = true ∧ ((partRec s 0).policy.getLsbD 3 = true ∨ (partRec s 0).policy.getLsbD 4 = true))
     can (policed 8) = true ∧ can (policed 16) = true ∧ can (policed 7) = false ∧ (coreAt asked 0).preempt = true ∧ (coreAt (two 0 0) 0).preempt = false) ∧
    (hostCan (policed 0) 0 = true ∧ (0 : Nat) = (partRec (policed 0) 0).nonce ∧ (1 : Nat) ≠ (partRec (policed 0) 0).nonce ∧ hostCan (two 0 0) 0 = false ∧ (partRec (policed 0) 0).tenant = some 9 ∧ (partRec (two 0 0) 0).tenant = none ∧ (policed 0).park = []) ∧
    ((ringAt (policed 0) 0).state = 0 ∧ (ringAt (openAt 1 0 0) 0).state ≠ 0 ∧ (17 : BitVec 64).toNat % 16 = 1 ∧ (3 : BitVec 64).toNat % 16 = 3 ∧ ¬((2 : BitVec 64).toNat % 16 = 1 ∨ (2 : BitVec 64).toNat % 16 = 3)) ∧
    ((∃ e ∈ (two 0 0).parts, e.2.live = true) ∧ ∀ e ∈ State.reset.parts, e.2.live = false) ∧
    ((two 0 0).dev.l3 = false ∧ (modDev (two 0 0) fun d => { d with l3 := true, hbmWaking := true }).dev.l3 = true ∧ (modDev (two 0 0) fun d => { d with hbmWaking := true }).dev.hbmWaking = true ∧
      (two 0 0).hostWait = [] ∧ ({ two 0 0 with hostWait := [(.dram, 0, [1])] } : State).hostWait ≠ [] ∧ Space.near ≠ .host ∧ dramBytes - 1 + [(1 : Byte)].length ≤ dramBytes ∧ nearBytes - 1 + [(1 : Byte)].length ≤ nearBytes) := by
  refine ⟨by decide, by decide, by decide, by decide, by decide, by decide, by decide, by decide, ⟨⟨(0, { live := true, cmask := 1 }), by decide⟩, by decide⟩, by decide⟩
/-- A command block at 0 of host memory. -/
def blkAt (b : Nat) (s : State := State.reset) : State := storeHome s .host .host 0 (bytesOf 64 b)
theorem meets_PartitionsAndPower :
    (let bad := fun (s : State) => let b := readBlock s 0; decide ((partRec s (b / 2 ^ 4 % 2 ^ 4)).live = true ∨ b / 2 ^ 8 % 2 ^ 72 ≠ 0 ∨ b / 2 ^ 80 % 2 ^ 16 = 0) ||
       (s.parts.any fun e => e.2.live && e.1 != b / 2 ^ 4 % 2 ^ 4 && (e.2.cmask &&& BitVec.ofNat 64 (b / 2 ^ 128) != 0 || e.2.vfmask &&& BitVec.ofNat 64 (b / 2 ^ 448) != 0))
     let good := 0x11 + 2 ^ 80 + 2 ^ 128 + 2 ^ 448
     readBlock (blkAt good) 0 = good ∧ bad (blkAt good) = false ∧ bad (blkAt 0x11) = true ∧ bad (blkAt good (two 0 0)) = true ∧ bad (blkAt (good + 2 ^ 129 - 2 ^ 128) (two 0 0)) = false ∧ bad (blkAt (good - 16) (two 0 0)) = true ∧
       readBlock (blkAt 2) 0 % 16 = 2 ∧ readBlock (blkAt 3) 0 % 16 = 3 ∧ (partRec (blkAt 2 (two 0 0)) 0).live = true ∧ (partRec (blkAt 2) 0).live = false ∧
       (partRec (policed 0) 0).live = true ∧ (partRec (policed 0) 0).vfmask.getLsbD 0 = true ∧ (partRec (policed 0) 0).vfmask.getLsbD 63 = false) ∧
    (let s := modDev (bound (peered (two 0 0))) fun d => { d with spdm := sput d.spdm 1 { ver := true, caps := true, algs := true, keyex := true, session := true, key := 9 } }
     slook s.dev.vfs (1 - 1) = some 0 ∧ (slook s.dev.vfs (2 - 1)).isSome = false ∧ (sget {} s.dev.spdm 1).keyex = true ∧ (sget {} s.dev.spdm 1).peer = none ∧ (sget {} s.dev.spdm 1).session = true ∧ (sget {} s.dev.spdm 1).algs = true ∧ (sget {} s.dev.spdm 0).algs = false ∧ (sget {} s.dev.spdm 0).session = false ∧
       (let x := fun (b : Bool) => ({ algs := true, keyex := true, session := b, peer := some 1 } : Spdm)
        let t := fun (b : Bool) => modDev s fun d => { d with spdm := sput d.spdm 0 (x b) }
        (sget {} (t true).dev.spdm 0).peer = some 1 ∧ (sget {} (t true).dev.spdm 0).session = true ∧ (sget {} (t false).dev.spdm 0).peer = some 1 ∧ (sget {} (t false).dev.spdm 0).session = false ∧
          (sget {} (t false).dev.spdm 0).keyex = true) ∧ (sget {} s.dev.spdm 0).ver = false ∧
       (∃ e ∈ s.parts, e.2.live = true ∧ e.2.devset.getLsbD 1 = true)) ∧
    (let s := atQ 0 0x090000200000 fun s => setSR s 0 0 srSpad
     arbiter s 0 = some 0 ∧ headOf s 0 0 = some (qw 0x090000200000) ∧ mKind (qw 0x090000200000) = .go ∧ mKind (qw 0x010000000000) ≠ .go ∧ (coreAt s 0).frozen = false ∧ (coreAt s 0).dbgQuiet = false ∧ (coreAt s 0).dbgPorous = false) ∧
    (arbiter (two 0 0) 0 = none ∧ (coreAt (modCore (two 0 0) 0 fun o => { o with waking := true }) 0).waking = true ∧ (coreAt (two 0 0) 0).waking = false ∧ (two 0 0).dev.hbmWaking = false ∧ (modDev (two 0 0) fun d => { d with hbmWaking := true }).dev.hbmWaking = true ∧ (two 0 0).hostWait = [] ∧
      (∃ j < 64, (coreAt (two 0 0) j).inst ≠ none) ∧ (two 0 0).out = []) ∧
    (let s := State.reset
     (∀ j < 64, (coreAt s j).inst = none ∧ (coreAt s j).pwr = .l2) ∧ (∀ e ∈ s.parts, e.2.live = true → 400 ≤ e.2.plat) ∧ s.out = [] ∧ s.hostWait = [] ∧ s.shMsgs = [] ∧ ∀ e ∈ s.thr, e.2.cmds = []) := by
  refine ⟨by decide +kernel, ⟨by decide, by decide, by decide, by decide, by decide, by decide, by decide, by decide, by decide, by decide, ⟨(0, { live := true, cmask := 1, devset := 2 }), by decide⟩⟩, by decide +kernel,
    ⟨by decide, by decide, by decide, by decide, by decide, by decide, ⟨0, by decide⟩, by decide⟩, by decide⟩
/-- The steps that the frames speak of go on without a record. -/
theorem meets_SyllableFrames : clean (.add (.x 3) (.x 1) (.x 2)) (two 1 2) = true ∧ clean (.bfi 3 (.x 1) 4 3) (two 1 2) = true ∧ clean (.cmpEq 3 (.x 1) (.x 2)) (two 1 2) = true ∧
    clean (.pand 3 1 2) (two 1 2) = true ∧ clean (.mand 3 1 2) (at0 .X0) = true ∧ clean (.xtop (.x 1)) (two 1 2) = true ∧ clean (.mpopc (.x 3) 1) (at0 .X0) = true ∧ clean .nop (two 1 2) = true ∧
    clean (.vadd .i32 false none (.v 1) (.v 2) (.v 3)) (at0 .X0) = true ∧ clean (.vwiden .i32 .i16 false none (.v 4) (.v 2)) (at0 .X0) = true ∧ clean (.vcmp .i32 .lt none 3 (.v 4) (.v 5)) (at0 .X0) = true ∧
    clean (.vext .i32 (.x 3) (.v 2) (.imm 1)) (at0 .X0) = true := by decide +kernel
theorem meets_MemoryKept : State.reset.memOk = true ∧ (paged (two 0 0)).memOk = true ∧
    (match step (fetched 64 (syl 0x10 0 1 2 3 0)) with | .next t => t.memOk | _ => false) = true := by decide
def syl0 : Syl := ⟨false, true, 5, .add (.x 63) (.q 3) (.x 7), 0⟩
theorem meets_RoundTrip : syl0.i.wf = true ∧ syl0.i ≠ .safept ∧ syl0.id = 0 ∧ (encodeSyl syl0).isSome = true ∧ (Instr.mMark).wf = true ∧ encode .mMark = some (48, 0x080000000000) ∧
    (encode syl0.i).any (fun e => e.1 == 64) = true := by decide
theorem meets_WordsHaveOneMeaning : syl 0x10 0 1 2 3 0 < 2 ^ 64 ∧ okIs (decodeWith none (syl 0x10 0 1 2 3 0)) ⟨false, false, 0, .add (.x 1) (.x 2) (.x 3), 0⟩ = true ∧ decodeEWord 0x080000000000 = some .mMark ∧
    okIs (decodeWith (some (.A, false)) (syl 0x10 0 1 2 3 0)) ⟨false, false, 0, .add (.x 1) (.x 2) (.x 3), 0⟩ = true := by decide
/-! ### Hypotheses of clauses beside those above -/

theorem meets_FloatingPoint_more :
    (fIsNan .fp32 0 = false ∧ fIsNan .fp32 0x80000000 = false ∧ fOrd .fp32 0x80000000 = fOrd .fp32 0 ∧ fNeg .fp32 0x80000000 = true ∧ fNeg .fp32 0 = false ∧ fOrd .fp32 0xBF800000 < fOrd .fp32 0) ∧
    (etyInt .i8 = true ∧ etyF .fp16 = some .fp16 ∧ fIsInf .fp16 0x7C00 = true ∧ fIsInf .fp16 0x7BFF = false ∧ fIsNan .fp16 0x7C00 = false ∧ fIsNan .fp16 0x7C01 = true) ∧
    tapIsNan false 0x80 = true ∧ tapIsNan false 0x7F = false ∧ tapIsNan true 0x20 = true ∧ tapIsNan true 0x1F = false := by decide +kernel
/-- An access of K has reserved the next entry of `q14`. -/
def lateQ : State := modCore (two 0 0) 0 fun o => { o with late := [⟨14, .user, none⟩] }
theorem meets_ScalarOperands_more : ((coreAt lateQ 0).late.any fun e => e.q == 12 + 2) = true ∧ ∀ e ∈ (coreAt (two 0 0) 0).late, e.q ≠ 12 + 2 := by decide
theorem meets_StreamsAndSystemRegisters_more :
    errIs (sysWrite (two 0 0) aK 7 0) .illegalOperand = true ∧ errIs (sysWrite (two 0 0) aK 0 0) .illegalPrivilege = true ∧ launchAt (lst lnch) 0 = some lnch ∧ imageOf (lst lnch) 0 = some goodImage ∧
    (coreAt (two 0 0) 0).inst = some ⟨0, 0, 0, [], true⟩ ∧ isX aX.c = true ∧ isX aK.c = false ∧ aK.x = .user ∧ errIs (sysRead (two 0 0) aK 0x142) .illegalOperand = true := by decide +kernel
/-- A store of K to the device's own id that has not been performed. -/
def ownStore : State := { two 0 0 with out := [outTo fun o => { o with p := { o.p with dst := 0, op := 1 }, why := .access 0 .K .user 0 .none 0 0 4 none }] }
theorem meets_MemoryAccess_own : ownOut ownStore (partyOf aK) = true ∧ ownOut (two 0 0) (partyOf aK) = false ∧ (0 : Nat) % 4 = 0 := by decide
theorem meets_AddressesAndWalks_root : (let root := 1 + 2 ^ 48 - 2 ^ 13
    root.testBit 0 = true ∧ 0xC000000000 < root / 2 ^ 13 % 2 ^ 35 * 2 ^ 13 + 2 ^ 13) ∧ (let root := 0xBFFFFFE001
    root.testBit 0 = true ∧ root / 2 ^ 13 % 2 ^ 35 * 2 ^ 13 + 2 ^ 13 ≤ 0xC000000000) := by decide
/-- A store of A that is required for K. -/
def reqStore : State := { two 0 0 with pend := [{ who := .cl 0 .A .user, sp := .dram, addr := 0, bytes := [5], lvl := 2, least := 0, req := [partyOf aK], obs := (.cl 0 .A .user, 0) }] }
theorem meets_ReleaseAndAcquire_more : (∀ w ∈ reqStore.pend, w.lvl < 5 ∧ w.least ≤ 5) ∧ (reqStore.pend.any fun w => w.req.contains (partyOf aK) && within 4 w.who (partyOf aK)) = true := by decide
/-- K is the last of the core to arrive at its barrier: A waits, the others have ended. -/
def lastCo : State := modCore (two 0 0) 0 fun o =>
  { o with barArr := [1], a := { o.a with ctx := { o.a.ctx with wait := some ⟨.barCo 0, true, none, false⟩ } }, x0 := { o.x0 with run := .exited }, x1 := { o.x1 with run := .exited } }
theorem meets_BarrierArrivals_more :
    (lastCo.cur = .cl 0 .K .user ∧ (ctxOf lastCo aK).tickCo = none ∧ (ctxOf lastCo aK).wait = none ∧ slotFree lastCo aK (.barCo 0) = true ∧ (coreAt lastCo 0).barNext = [] ∧ cnum aK.c ∉ (coreAt lastCo 0).barArr) ∧
    (∀ c ∈ [Cluster.A, .X0, .X1], ended (cluAt lastCo 0 c).run = true ∨ cnum c ∈ (coreAt lastCo 0).barArr) ∧
    ((cluAt lastCo 0 .A).ctx.wait = some ⟨.barCo 0, true, none, false⟩ ∧ 0 ≤ (coreAt lastCo 0).barGen) ∧
    (ctxOf (modCtx (two 0 0) aK fun t => { t with tickDv := some (7, 1) }) aK).tickDv ≠ some (8, 1) := by decide
theorem meets_FunctionsAndScans_more : fIsNan .fp32 0x3F800000 = false ∧ fIsInf .fp32 0x3F800000 = false ∧ fIsZero .fp32 0x3F800000 = false ∧ fNeg .fp32 0x3F800000 = false ∧ fIsZero .fp32 0x80000000 = true := by decide
/-- Request 7 is cancelled while K, under it, is inside a service. -/
def served : State := modKs (modClu (withRq .cancelling (two 0 0)) 0 .K fun u => { u with rqi := 7, fwStall := true }) 0 fun ks => { ks with pagerRun := .request 0 (.x 3) }
theorem meets_RequestEnd_more :
    (rqAt served 7).st = .cancelling ∧ carried (killUnder 0 7 served) 0 7 = true ∧ ((clusUnder served 0 7).all fun e => inService served e.1 e.2) = true ∧ clusUnder served 0 7 ≠ [] ∧
    (rqAt (withRq .draining (two 0 0)) 7).st = .draining ∧ carried (withRq .draining (two 0 0)) 0 7 = false ∧
    ((lst (lnch fun l => { l with pkt := { placedPkt with rq := 7 } })).launches.any fun l => l.part == 0 && l.pkt.rq == 7) = true := by decide +kernel
theorem meets_SheafProtocol_more : awaits (shState [] []) 1 0 = false ∧ awaits (shState [⟨1, 0, 0, 0, 15, .read⟩] []) 1 0 = true := by decide
/-- A go word that loads its plane, one whose stream of A faults, and an operation that drains a row. -/
def loadOp : MOp := { goOp false with word := qw 0x090000200000, sh := { rows := 2, kb := 1, gang := 4 }, sb := srOut }
def faultGo : MOp := { goOp false with sa := srArena 0 2, masked := [] }
def drainOp : MOp := { mop .drain 0x0A002C000001 with sa := srSpad }
def drainAt (op : MOp) (s : State) : Bool :=
  let f := sfld op.sa
  match engPlace (midWalk 0 3 .m none (some (addr64 (stepAddr f 0 0 0))) (f.s1 * 64) s) 0 .m (cmdParty 0 uMatrix 0 1) .matrix f true .addrUnmapped .spadRange
    (addr64 (stepAddr f 0 0 0)) (256 * (etyW (drTy op.word) / 8)) true with
  | (s1, .ok (.home ps _)) => portFree s1 0 ps && farGrans 0 ps == 0
  | _ => false
theorem meets_MatrixCommits_go :
    (goBstr loadOp.word = true ∧ (loadOp.lastSb != some (nestSum (sbSteps loadOp.sh) (nestAt 0 (trips (mcounts loadOp.sh))))) = true ∧ tagFree (goState loadOp) 0 loadOp.sb = true ∧ tagFree (goState loadOp) 0 loadOp.sa = true ∧
      goBstr (goOp false).word = false) := by decide +kernel
theorem meets_MatrixCommits_plane : (match loadPlane (goState loadOp) 0 loadOp 0 0 with | (s1, .ok _) => (planeAt (coreAt s1 0) 0).loaded | _ => false) = true := by decide +kernel
theorem meets_MatrixCommits_fault : (match (goIter (goState faultGo) 0 faultGo).2 with | .fault _ 0 => true | _ => false) = true := by decide +kernel
theorem meets_MatrixCommits_row :
    (let o := coreAt (withOp drainOp) 0
     let row := tileRow o (32 * drTile drainOp.word)
     sumOk row = true ∧ (row.stale || rqStopped (withOp drainOp) 0 row.id || ((sfld drainOp.sa).bnd && decide ((sfld drainOp.sa).e1 ≤ 0))) = false ∧ { row with stale := true }.stale = true) ∧
    drainAt drainOp (withOp drainOp) = true ∧ drZero drainOp.word = false := by decide +kernel
theorem meets_MatrixCommits_replay :
    (eqAt (coreAt (withOp drainOp) 0) 0).issued < 1 + (eqAt (coreAt (modEQ (withOp drainOp) 0 0 fun e => { e with window := [⟨qw 0, none⟩] }) 0) 0).window.length ∧ { drainOp with failed := true }.failed = true ∧ drainOp.failed = false ∧
    accOld (coreAt (withOp drainOp) 0) [] [] = false ∧
    (let g := { goOp true with fresh := [1] }
     accOld (coreAt (withOp g) 0) [] [g] = true ∧ accOld (coreAt (withOp g) 0) [1] [g] = false) ∧
    ([drainOp].map (·.id)).Pairwise (· < ·) := by decide +kernel
theorem meets_MatrixCommits_drainFault :
    (match engPlace (two 0 0) 0 .m (cmdParty 0 uMatrix 0 1) .matrix (sfld (srArena 0 2)) true .addrUnmapped .spadRange (addr64 (stepAddr (sfld (srArena 0 2)) 0 0 0)) 1024 true with | (_, .error _) => true | _ => false) = true := by decide +kernel
/-- A command that has the answer of its peer, and one whose packet must wait for tags. -/
theorem meets_CopyWork_more :
    (cmd0 2 fun c => { c with got := List.replicate 64 7 }).phase = 2 ∧ (cmd0 2 fun c => { c with got := List.replicate 64 7 }).got ≠ [] ∧ (cmd0 2).got = [] ∧ (cmd0 2).zf = false ∧ (cmd0 2 fun c => { c with zf := true }).zf = true ∧
    copyLeft (modCore (two 0 0) 0 fun o => { o with tagsC := 4096 }) 0 < (cmd0 0 fun c => { c with run := 1 }).run ∧ ¬copyLeft (two 0 0) 0 < (cmd0 0 fun c => { c with run := 64 }).run := by decide +kernel
/-- An arena whose slot 3 holds a header with `n` tokens, `c` of them cold, of code format `f`; and one whose keys no page maps. -/
def headered (n c f : Nat) : State :=
  let s := arenaState (two 0 0)
  match arenaPlace s 0 0 (thParty 0 5 0) (arenaOf arenaSrs).side (sideAt (arenaOf arenaSrs) 3) 64 true with
  | (s1, .ok ((sp, a, _) :: _, _)) => homeSetRun s1 sp a (bytesOf 16 (n + 2 ^ 32 * c + 2 ^ 64 * f))
  | _ => s
def headAt (s : State) : Hdr :=
  match readPlace s 0 (thParty 0 5 0) (arenaPlace s 0 0 (thParty 0 5 0) (arenaOf arenaSrs).side (sideAt (arenaOf arenaSrs) 3) 64 true) with
  | (_, .ok (hb, _)) => hdrOf hb
  | _ => ⟨0, 0, 0, 0⟩
theorem meets_ThresherWork_heads :
    headAt (headered 3 1 11) = ⟨3, 1, 11, 0⟩ ∧ (headAt (headered 2 1 0)).len ≤ (headAt (headered 2 1 0)).cold + 1 ∧ (headAt (headered 0 0 0)).cfmt = 0 ∧
    (match readPlace (two 0 0) 0 (thParty 0 5 0) (arenaPlace (two 0 0) 0 0 (thParty 0 5 0) (arenaOf arenaSrs).side (sideAt (arenaOf arenaSrs) 3) 64 true) with | (_, .error _) => true | _ => false) = true := by
  decide +kernel
theorem meets_ThresherWork_tokens :
    (match readToks 0 (thCmd (.tMerge 0 4 1 3) true) 1 3 [1, 2] (headered 3 1 0) with | (_, .ok (_ :: _)) => true | _ => false) = true ∧
    (match readToks 0 (thCmd (.tMerge 0 4 1 3) true) 1 3 [1, 2] (two 0 0) with | (_, .error _) => true | _ => false) = true ∧
    (match readBoth 0 (thCmd (.tMerge 0 4 1 3) true) 1 3 [1] (headered 3 1 0) with | (_, .ok _) => true | _ => false) = true ∧
    (match readBoth 0 (thCmd (.tMerge 0 4 1 3) true) 1 3 [1] (two 0 0) with | (_, .error _) => true | _ => false) = true := by decide +kernel
theorem meets_ThresherWork_places :
    (match engPlace (arenaState (two 0 0)) 0 .none (thParty 0 5 0) .device (arenaOf arenaSrs).side false .addrUnmapped .spadRange (sideAt (arenaOf arenaSrs) 3) 64 true with
      | (_, .ok (.home ps _)) => (ps.all fun x => pieceHome x == some 0) && ps.any fun x => pieceHome x != some 1
      | _ => false) = true := by decide +kernel
theorem meets_ThresherWork_numbers :
    (let t : Tok := { key := [0x3C00], val := [0x3C00], m := 1, kbad := [false], vbad := [false] }
     let l := engLoc 0 uThresher 0
     t.m + t.m ≤ 255 ∧ (t.kbad ++ t.vbad ++ t.kbad ++ t.vbad).any id = false ∧ fIsNan .fp32 (cosOf l t.key t.key) = false ∧
       fOrd .fp32 (fRne .fp32 false ⟨16384, 16384⟩) ≤ fOrd .fp32 (cosOf l t.key t.key) ∧ fIsZero .fp32 (fMul .fp32 l (h32 l 0) (h32 l 0)) = true) := by decide +kernel
/-- A closing ring whose only record cannot be written, and that needs no answer. -/
theorem meets_Rings_closed :
    (let g := ringAt (modRing { two 0 0 with launches := [] } 0 fun g => { g with state := 3, held := [atRec .digit] }) 0
     g.state = 3 ∧ g.pend = [] ∧ g.held.length ≤ 16 ∧ (g.held.all fun r => !ftNoAnswer r.ty) = true) ∧ ({ two 0 0 with launches := [] } : State).launches = [] ∧ (ringAt (two 0 0) 0).state ≠ 3 := by decide
theorem meets_Launches_more : (two 0 0).park = [] ∧ (two 0 0).linkWait = [] ∧ (coreAt (two 0 0) 0).waking = false := by decide
theorem meets_Preemption_more :
    taken asked 0 = true ∧ taken (modClu asked 0 .A fun u => { u with safeStop := false }) 0 = false ∧
    (let l := lnch fun l => { l with pkt := { placedPkt with cls := 2 } }
     let s := headed pktA (lst l (modRing (two 0 0) 0 fun g => { g with savebase := 64 }))
     pktA.cls < l.pkt.cls ∧ l.killed = false ∧ l.st = .running ∧ (ringAt s l.ring).savebase ≠ 0 ∧ (l.left.any fun k => allowed s 0 pktA k) = true) := by decide +kernel
/-- The result of a load of K through a peer window is on its way. -/
theorem meets_FirmwareAndPager_more :
    resultOut (withOut outTo) 0 (fun c x => c == .K && x == .user) = true ∧ resultOut (two 0 0) 0 (fun c x => c == .K && x == .user) = false ∧ resultOut (withOut outTo) 0 (fun _ x => x != .pager) = true := by decide
/-- A debugger halt of core 0 that waits. -/
def halting (p : Bool) : State := modCore (two 0 0) 0 fun o => { o with dbgNext := some (true, false), preempt := p }
theorem meets_Peers_more :
    (portShut (modCore hosts 0 fun o => { o with frozen := true }) (pkt 4 0) = true ∧ (modDev hosts fun d => { d with l3 := true }).dev.l3 = true) ∧
    (headerOk { pkt 3 0 with rsv := 1 } = false ∧ headerOk (pkt 3 0) = true ∧ (pkt 3 0).dst = hosts.dev.mydev ∧ (pkt 3 0).src ≠ hosts.dev.mydev) ∧
    (let o := outTo fun o => { o with why := .pkt 0 .user 0 0 0, retry := true }
     let s := { two 0 0 with out := [o] }
     s.out.find? (fun o => o.retry && o.p.xid.toNat == 5) = some o ∧ allStopped s 0 (packetIds o.p) = false ∧ inSet s 0 1 = false ∧ inSet (withOut o) 0 1 = true) := by decide +kernel
theorem meets_HostAndDebug_more :
    (coreAt (halting false) 0).dbgNext = some (true, false) ∧ (coreAt (halting true) 0).preempt = true ∧ (coreAt (halting false) 0).preempt = false ∧ resultOut (halting false) 0 (fun _ x => x != .pager) = false ∧
    (coreAt (two 0 0) 0).dbgNext = none ∧ (coreAt (withOut outTo) 0).dbgQuiet = false ∧ (coreAt (withOut outTo) 0).dbgPorous = false ∧ (policed 8).linkWait = [] := by decide
theorem meets_PartitionsAndPower_more : State.reset.linkWait = [] ∧ ({ State.reset with linkWait := [pkt 1 0] } : State).linkWait ≠ [] := by decide
theorem meets_StepRunsTheInstruction_more : saveFailed (two 0 0) 0 = false ∧ (aA.c ≠ .K ∨ aA.x ≠ .user) := by decide
end Sys2Proof.Tests
end

/-! O20. R42: `push` checks bits [63:48] of its register and nothing else; a word is checked when it stands at the head of its queue. -/

namespace Sys2Proof.Machine

/-! ### The engines and the program counters under the shared operations -/

/-- What a trap leaves alone in a core (R37, R42): the engines with their queues, and the program counters of the user contexts. -/
def engPcs (o : Core) : Eng × Nat × Nat × Nat × Nat := (o.eng, o.k.ctx.pc, o.a.ctx.pc, o.x0.ctx.pc, o.x1.ctx.pc)
def engPcsAt (s : State) (k : Nat) : Eng × Nat × Nat × Nat × Nat := engPcs (coreAt s k)

theorem eqAt_of_engPcs {o o' : Core} (h : engPcs o' = engPcs o) (q : Nat) : eqAt o' q = eqAt o q := by
  have he : o'.eng = o.eng := congrArg Prod.fst h
  rw [eqAt, he, eqAt]
theorem userPc_of_engPcs {o o' : Core} (h : engPcs o' = engPcs o) (c : Cluster) : (clOf o' c).ctx.pc = (clOf o c).ctx.pc := by
  simp only [engPcs, Prod.mk.injEq] at h
  obtain ⟨-, hk, ha, hx0, hx1⟩ := h
  cases c
  · exact hk
  · exact ha
  · exact hx0
  · exact hx1

theorem engPcsAt_modCore (s : State) (k j : Nat) {f : Core → Core} (h : engPcs (f (coreAt s k)) = engPcs (coreAt s k)) :
    engPcsAt (modCore s k f) j = engPcsAt s j := by
  by_cases hj : j = k
  · subst hj; simpa [engPcsAt] using h
  · rw [engPcsAt, coreAt_modCore_ne s f hj, engPcsAt]
@[simp] theorem engPcsAt_modKs (s : State) (k : Nat) (f : KSt → KSt) (j : Nat) : engPcsAt (modKs s k f) j = engPcsAt s j :=
  engPcsAt_modCore s k j rfl
theorem engPcsAt_modClu (s : State) (k : Nat) (c : Cluster) {f : Clu → Clu} (h : ∀ u, (f u).ctx.pc = u.ctx.pc) (j : Nat) :
    engPcsAt (modClu s k c f) j = engPcsAt s j :=
  engPcsAt_modCore s k j (by cases c <;> simp [engPcs, modCl, h])
@[simp] theorem engPcsAt_modDev (s : State) (f : Dev → Dev) (k : Nat) : engPcsAt (modDev s f) k = engPcsAt s k := rfl
@[simp] theorem engPcsAt_modRing (s : State) (r : Nat) (f : Ring → Ring) (k : Nat) : engPcsAt (modRing s r f) k = engPcsAt s k := rfl
@[simp] theorem engPcsAt_modPart (s : State) (p : Nat) (f : Part → Part) (k : Nat) : engPcsAt (modPart s p f) k = engPcsAt s k := rfl
@[simp] theorem engPcsAt_modRq (s : State) (id : Nat) (f : Rq → Rq) (k : Nat) : engPcsAt (modRq s id f) k = engPcsAt s k := rfl
@[simp] theorem engPcsAt_addMeter (s : State) (id m n k : Nat) : engPcsAt (addMeter s id m n) k = engPcsAt s k := rfl

/-- A fold leaves alone what each of its steps leaves alone. -/
theorem engPcsAt_foldl {α : Type} (f : State → α → State) (k : Nat) (hf : ∀ s x, engPcsAt (f s x) k = engPcsAt s k) (l : List α) (s : State) :
    engPcsAt (l.foldl f s) k = engPcsAt s k := by
  induction l generalizing s with
  | nil => rfl
  | cons x l ih => rw [List.foldl_cons, ih, hf]

/-! ### Writes at the homes -/

@[simp] theorem engPcsAt_homeSet (s : State) (sp : Space) (a : Nat) (b : Byte) (k : Nat) : engPcsAt (homeSet s sp a b) k = engPcsAt s k := by
  cases sp with
  | dram | near | host => rfl
  | spad c | kdm c => exact engPcsAt_modCore s c k rfl
@[simp] theorem engPcsAt_homeSetRun (bs : List Byte) (s : State) (sp : Space) (a k : Nat) : engPcsAt (homeSetRun s sp a bs) k = engPcsAt s k := by
  induction bs generalizing s a with
  | nil => rfl
  | cons b bs ih => rw [homeSetRun, ih, engPcsAt_homeSet]
@[simp] theorem engPcsAt_noteWrote (s : State) (sp : Space) (a n : Nat) (o : Option Obs) (k : Nat) :
    engPcsAt (noteWrote s sp a n o) k = engPcsAt s k := by
  unfold noteWrote
  split
  · rfl
  · split <;> rfl
@[simp] theorem engPcsAt_commitBytes (s : State) (q : Party) (sp : Space) (a : Nat) (bs : List Byte) (k : Nat) :
    engPcsAt (commitBytes s q sp a bs) k = engPcsAt s k := by
  rw [commitBytes, engPcsAt_homeSetRun, engPcsAt_noteWrote]; rfl
@[simp] theorem engPcsAt_commitStore (s : State) (w : PStore) (k : Nat) : engPcsAt (commitStore s w) k = engPcsAt s k := by
  rw [commitStore, engPcsAt_homeSetRun, engPcsAt_noteWrote]; rfl
/-- A wait that is tested again keeps its context's program counter. -/
theorem engPcs_pokeCore (s : State) (k : Nat) (o : Core) : engPcs (pokeCore s k o) = engPcs o := rfl
theorem engPcs_sget_map (f : Nat → Core → Core) (h : ∀ i o, engPcs (f i o) = engPcs o) (l : Sparse Core) (k : Nat) :
    engPcs (sget {} (l.map fun e => (e.1, f e.1 e.2)) k) = engPcs (sget {} l k) := by
  induction l with
  | nil => rfl
  | cons e l ih =>
    obtain ⟨i, o⟩ := e
    simp only [List.map_cons, sget]
    split
    · exact h i o
    · exact ih
@[simp] theorem engPcsAt_pokeMem (s : State) (k : Nat) : engPcsAt (pokeMem s) k = engPcsAt s k :=
  engPcs_sget_map (pokeCore s) (engPcs_pokeCore s) s.cores k
@[simp] theorem engPcsAt_storeDevice (s : State) (sp : Space) (a : Nat) (bs : List Byte) (k : Nat) :
    engPcsAt (storeDevice s sp a bs) k = engPcsAt s k := by
  rw [storeDevice, engPcsAt_pokeMem, engPcsAt_commitBytes]
@[simp] theorem engPcsAt_stamp (s : State) (part : Nat) (sp : Space) (a n k : Nat) : engPcsAt (stamp s part sp a n) k = engPcsAt s k := by
  unfold stamp
  exact engPcsAt_foldl _ k (fun s i => by rfl) _ s

/-! ### Releases and observations -/

@[simp] theorem engPcsAt_publishOne (s : State) (w : PStore) (lvl k : Nat) : engPcsAt (publishOne s w lvl) k = engPcsAt s k := by
  rw [publishOne, engPcsAt_pokeMem]
  split
  · exact engPcsAt_commitStore s w k
  · split <;> rfl
@[simp] theorem engPcsAt_numberRel (s : State) (q : Party) (lvl k : Nat) : engPcsAt (numberRel s q lvl) k = engPcsAt s k := by
  unfold numberRel; split <;> rfl
@[simp] theorem engPcsAt_release (s : State) (q : Party) (lvl k : Nat) : engPcsAt (release s q lvl) k = engPcsAt s k := by
  rw [release, engPcsAt_foldl _ k fun s w => ?_, engPcsAt_numberRel]
  split
  · exact engPcsAt_publishOne s w lvl k
  · rfl
@[simp] theorem engPcsAt_observe (q : Party) (s : State) (o : Obs) (k : Nat) : engPcsAt (observe q s o) k = engPcsAt s k := by
  unfold observe; split <;> rfl
@[simp] theorem engPcsAt_observeAll (q : Party) (s : State) (l : List Obs) (k : Nat) : engPcsAt (observeAll q s l) k = engPcsAt s k :=
  engPcsAt_foldl _ k (fun s o => engPcsAt_observe q s o k) l s

/-! ### Scalar operands -/

theorem engPcs_notePop (o : Core) (key : Nat) : engPcs (notePop o key) = engPcs o := by
  unfold notePop; split <;> rfl
theorem engPcs_popScalar (o : Core) (c : Cluster) (q : Nat) : engPcs (popScalar o c q).2 = engPcs o := by
  unfold popScalar; split <;> exact engPcs_notePop _ _
@[simp] theorem engPcsAt_takeS (a : At) (x : SOp) (s : State) (k : Nat) : engPcsAt (takeS a x s).2 k = engPcsAt s k := by
  cases x with
  | x n => rfl
  | q n => simp only [takeS, popS, engPcsAt_observeAll]; exact engPcsAt_modCore s a.k k (engPcs_popScalar _ _ _)

/-! ### Writes of the device itself -/

@[simp] theorem engPcsAt_setEntryBit (s : State) (q : Party) (a bit k : Nat) : engPcsAt (setEntryBit s q a bit) k = engPcsAt s k := by
  rw [setEntryBit, engPcsAt_pokeMem, engPcsAt_commitBytes]
theorem engPcs_tlSet (o : Core) (t : Tl) (l : List TlbE) : engPcs (tlSet o t l) = engPcs o := by cases t <;> rfl
@[simp] theorem engPcsAt_tlInstall (s : State) (c : Nat) (t : Tl) (e : TlbE) (k : Nat) : engPcsAt (tlInstall s c t e) k = engPcsAt s k :=
  engPcsAt_modCore s c k (engPcs_tlSet _ _ _)
@[simp] theorem engPcsAt_touchD (s : State) (c : Nat) (t : Tl) (q : Party) (x : TlbE) (w : Bool) (k : Nat) :
    engPcsAt (touchD s c t q x w) k = engPcsAt s k := by
  unfold touchD
  split
  · split
    · exact (engPcsAt_modCore _ c k (engPcs_tlSet _ _ _)).trans (engPcsAt_setEntryBit ..)
    · rfl
  · rfl
@[simp] theorem engPcsAt_translate1 (s : State) (c : Nat) (t : Tl) (q : Party) (part va : Nat) (w : Bool) (k : Nat) :
    engPcsAt (translate1 s c t q part va w).1 k = engPcsAt s k := by
  unfold translate1
  dsimp only
  split
  · rfl
  · split
    · split
      · rfl
      · exact engPcsAt_touchD ..
    · split
      · rfl
      · dsimp only
        split
        · exact engPcsAt_setEntryBit ..
        · rw [engPcsAt_tlInstall, engPcsAt_setEntryBit]
@[simp] theorem engPcsAt_translate (s : State) (c : Nat) (t : Tl) (q : Party) (part va n : Nat) (w : Bool) (k : Nat) :
    engPcsAt (Machine.translate s c t q part va n w).1 k = engPcsAt s k := by
  unfold Machine.translate
  dsimp only
  generalize (if va / 2 ^ 16 = (va + n - 1) / 2 ^ 16 then n else 2 ^ 16 - va % 2 ^ 16) = n1
  split
  · rfl
  · rename_i s1 sp a e
    have h1 : engPcsAt s1 k = engPcsAt s k := by simpa [e] using engPcsAt_translate1 s c t q part va w k
    split
    · exact h1
    · split
      · rfl
      · rename_i e2
        have h2 := engPcsAt_translate1 s1 c t q part (va + n1) w k
        rw [e2] at h2
        exact h2.trans h1
@[simp] theorem engPcsAt_resolve (s : State) (c : Nat) (t : Tl) (q : Party) (part : Nat) (i : Issuer) (va n : Nat) (w : Bool) (k : Nat) :
    engPcsAt (resolve s c t q part i va n w).1 k = engPcsAt s k := by
  unfold resolve
  dsimp only
  have h := engPcsAt_translate s c t q part va n w k
  split
  · rfl
  · split
    · rfl
    · split
      case h_5 | h_6 => split <;> (rename_i e; rw [e] at h; exact h)
      all_goals rfl
@[simp] theorem engPcsAt_devWrite (s : State) (part va : Nat) (bs : List Byte) (k : Nat) : engPcsAt (devWrite s part va bs).1 k = engPcsAt s k := by
  have h := engPcsAt_resolve s 64 .none .host part .device va bs.length true k
  unfold devWrite
  split
  · rename_i e; rw [e] at h; exact h
  · rename_i s1 ps l e
    rw [e] at h
    refine Eq.trans ?_ h
    generalize bs = b
    clear e h
    induction ps generalizing s1 b with
    | nil => rfl
    | cons p ps ih => exact (ih _ _).trans (by simp)
  · rename_i e; rw [e] at h; exact h

/-! ### Posting a record -/

@[simp] theorem engPcsAt_traceWrite (s : State) (part : Nat) (bs : List Byte) (k : Nat) : engPcsAt (traceWrite s part bs) k = engPcsAt s k := by
  unfold traceWrite
  dsimp only
  split
  · rfl
  · split
    · rfl
    · have h := engPcsAt_devWrite s part ((partRec s part).trbase + 32 * ((partRec s part).trwr % 2 ^ (partRec s part).trlog)) bs k
      split <;> (rename_i e; rw [e] at h; exact h)
@[simp] theorem engPcsAt_traceIt (s : State) (rq kind core cl wh payload k : Nat) :
    engPcsAt (traceIt s rq kind core cl wh payload) k = engPcsAt s k := by
  unfold traceIt traceEvent
  dsimp only
  split
  · rfl
  · exact engPcsAt_traceWrite _ _ _ k
@[simp] theorem engPcsAt_postRec (s : State) (r : FRec) (k : Nat) : engPcsAt (postRec s r) k = engPcsAt s k := by
  unfold postRec
  split
  · unfold notePosted
    split
    · rfl
    · exact engPcsAt_traceIt _ _ _ _ _ _ _ k
  · rfl
@[simp] theorem engPcsAt_raise (s : State) (r : FRec) (k : Nat) : engPcsAt (raise s r).2 k = engPcsAt s k := by
  unfold raise
  dsimp only
  split
  · rw [engPcsAt_modKs]; rfl
  · rw [engPcsAt_postRec]; rfl

/-! ### Traps -/

theorem engPcs_enterScalar (o : Core) (q : Nat) (v : Word) : engPcs (enterScalar o q v) = engPcs o := by
  unfold enterScalar; split <;> rfl
theorem engPcs_notePush (o : Core) (q : Nat) (b : Obs) : engPcs (notePush o q b) = engPcs o := by
  unfold notePush
  split
  · dsimp only
    split <;> split <;> rfl
  · rfl
theorem engPcs_drainLate (q n : Nat) (o : Core) : engPcs (drainLate q n o) = engPcs o := by
  induction n generalizing o with
  | zero => rfl
  | succ n ih =>
    unfold drainLate
    split
    · split
      · rw [ih, engPcs_enterScalar, engPcs_notePush]; rfl
      · rfl
    · rfl
theorem engPcs_dropLate (o : Core) (q : Nat) (x : CtxK) : engPcs (dropLate o q x) = engPcs o := engPcs_drainLate _ _ _
theorem engPcs_dropLates (l : List Nat) (x : CtxK) (o : Core) : engPcs (l.foldl (fun o q => dropLate o q x) o) = engPcs o := by
  induction l generalizing o with
  | nil => rfl
  | cons q l ih => rw [List.foldl_cons, ih, engPcs_dropLate]
@[simp] theorem engPcsAt_dropPagerWork (c : Nat) (s : State) (k : Nat) : engPcsAt (dropPagerWork c s) k = engPcsAt s k := by
  rw [dropPagerWork, engPcsAt_modCore]
  · rfl
  · rw [engPcs_dropLates]; rfl
@[simp] theorem engPcsAt_pagerFail (s : State) (c own wh cause k : Nat) : engPcsAt (pagerFail s c own wh cause) k = engPcsAt s k := by
  unfold pagerFail
  dsimp only
  split <;> simp [postNew, withToken]
/-- A trap reaches no engine and no program counter of a user context (R37). -/
@[simp] theorem engPcsAt_takeTrap (a : At) (r : FRec) (s : State) (k : Nat) : engPcsAt (takeTrap a r s) k = engPcsAt s k := by
  unfold takeTrap
  split
  · exact engPcsAt_pagerFail ..
  · simp [withToken]
  · rw [engPcsAt_modClu]
    · exact engPcsAt_raise s r k
    · exact fun _ => rfl
theorem eqAt_trapTy (a : At) (ty : FT) (s : State) (k q : Nat) : eqAt (coreAt (trapTy a ty s) k) q = eqAt (coreAt s k) q :=
  eqAt_of_engPcs (engPcsAt_takeTrap a (clRec s a ty) s k) q
/-- A user context that traps stays at its syllable (R37). -/
theorem pcOf_trapTy {a : At} (h : a.x = .user) (ty : FT) (s : State) : pcOf (trapTy a ty s) a = pcOf s a := by
  simpa only [pcOf, ctxOf, h, cluAt, trapTy] using userPc_of_engPcs (engPcsAt_takeTrap a (clRec s a ty) s a.k) a.c
theorem clRec_prec (s : State) (a : At) (ty : FT) : (clRec s a ty).prec = true := by
  unfold clRec withLaunch; split <;> rfl

/-! ### push -/

/-- The state in which a pushed word enters its queue: the source is taken and the pusher has released (R154). -/
def pushFrom (a : At) (e : Fin 9) (x : SOp) (s : State) : State := release (takeS a x s).2 (partyOf a) (pushLvl e.val)
/-- The word that a push enters. -/
def pushWord (a : At) (e : Fin 9) (x : SOp) (s : State) : QWord := mkQWord (pushFrom a e x s) a e.val ((takeS a x s).1.setWidth 48)
/-- The state with the word in its queue, before the syllable retires. -/
def pushTo (a : At) (e : Fin 9) (x : SOp) (s : State) : State :=
  modEng (modEQ (pushFrom a e x s) a.k e.val fun q => { q with words := q.words ++ [pushWord a e x s] }) a.k fun g => { g with pushSeq := g.pushSeq + 1 }

section
variable {s : State} {a : At} {e : Fin 9} {x : SOp}

/-- The three answers of a push whose source is there. -/
theorem exec_push_ready (hm : Moves s a) (hq : QueuesOk s a (popsS [x]) []) :
    exec (.push e x) s = .next (
      if (takeS a x s).1.toNat / 2 ^ 48 ≠ 0 then trapTy a .illegalOperand s
      else if 64 ≤ (eqAt (coreAt s a.k) e.val).words.length then block a .other s
      else retire a (pushTo a e x s)) := by
  rw [exec_push, execPush, onCl_moves hm, needQ_ok hq]; rfl
/-- The word stands last in its queue. -/
theorem words_pushTo : (eqAt (coreAt (pushTo a e x s) a.k) e.val).words = (eqAt (coreAt s a.k) e.val).words ++ [pushWord a e x s] := by
  have hs : eqAt (coreAt (pushFrom a e x s) a.k) e.val = eqAt (coreAt s a.k) e.val :=
    eqAt_of_engPcs ((engPcsAt_release _ _ _ a.k).trans (engPcsAt_takeS a x s a.k)) e.val
  have ht : eqAt (coreAt (pushTo a e x s) a.k) e.val =
      eqAt (coreAt (modEQ (pushFrom a e x s) a.k e.val fun q => { q with words := q.words ++ [pushWord a e x s] }) a.k) e.val := by
    rw [pushTo, coreAt_modEng]; rfl
  rw [ht, eqAt_modEQ_same, hs]
end

/-- The head of a queue at which a fault stands keeps its place, and the queue stops at the record. -/
theorem eqAt_stopHead (k q unit low : Nat) (w : QWord) (ids : List Nat) (f : AFault) (s : State) :
    eqAt (coreAt (stopHead k q unit low w ids f s) k) q = { eqAt (coreAt s k) q with stop := some s.dev.nextToken, stopSeq := w.seq } := by
  have hr := eqAt_of_engPcs (engPcsAt_raise s (engRec s k unit q low w ids f [] 0 (.queue k q)) k) q
  simp only [stopHead, stopHeadAt, eqAt_modEQ_same, hr, raise_token]
/-- A word that is not defined stops its queue when its turn comes (R42). -/
theorem issueEng_undefined {k q : Nat} {w : QWord} (h : decodeEng q w.w.toNat = none) (s : State) :
    issueEng k q w s = .next (stopHead k q (qUnit q) (qLow q) w [w.rqi] ⟨.ewordUndefined, 0, 0⟩ s) := by
  unfold issueEng; rw [h]

/-- Settles O20: the check of bits [63:48] is the only one that `push` makes, and neither the trap nor the release of the push reaches the queues. -/
theorem pushEngineWord : Obligations.PushEngineWord := by
  intro s a e x hm hq u
  have hx := exec_push_ready (e := e) hm hq
  refine ⟨fun hb => ⟨?_, clRec_prec s a _, fun hu => pcOf_trapTy hu _ s, eqAt_trapTy a _ s a.k⟩,
    fun hb hl => ⟨pushTo a e x s, pushWord a e x s, ?_, rfl, words_pushTo⟩, fun hb hl => ?_, fun q w hd => ?_⟩
  · rw [hx, if_pos hb]
  · rw [hx, if_neg (not_not.mpr hb), if_neg (Nat.not_le.mpr hl)]
  · rw [hx, if_neg (not_not.mpr hb), if_pos hl]
  · have hs := eqAt_stopHead a.k q (qUnit q) (qLow q) w [w.rqi] ⟨.ewordUndefined, 0, 0⟩ s
    exact ⟨_, _, issueEng_undefined hd s, by rw [hs], by rw [hs]⟩

end Sys2Proof.Machine

/-! O7. R121: predicate logic. -/

namespace Sys2Proof.Machine

/-- A syllable whose meaning is `go` for the cluster context that moves answers with the next state that `go` makes. -/
theorem goes_of_exec_eq_onCl {i : Instr} {go : At → State → State} (h : ∀ s, exec i s = onCl s go) : Goes i go := by
  intro s a hm
  rw [h, onCl_moves hm]

/-! ### The six functions -/

section
variable (d p q : Fin 16)

theorem goes_pand : Goes (.pand d p q) fun a s => retire a (setP s a d.val (getP s a p.val && getP s a q.val)) :=
  goes_of_exec_eq_onCl (exec_pand d p q)
theorem goes_por : Goes (.por d p q) fun a s => retire a (setP s a d.val (getP s a p.val || getP s a q.val)) :=
  goes_of_exec_eq_onCl (exec_por d p q)
theorem goes_pxor : Goes (.pxor d p q) fun a s => retire a (setP s a d.val (getP s a p.val != getP s a q.val)) :=
  goes_of_exec_eq_onCl (exec_pxor d p q)
theorem goes_pandn : Goes (.pandn d p q) fun a s => retire a (setP s a d.val (getP s a p.val && !getP s a q.val)) :=
  goes_of_exec_eq_onCl (exec_pandn d p q)
theorem goes_pnot : Goes (.pnot d p) fun a s => retire a (setP s a d.val (!getP s a p.val)) :=
  goes_of_exec_eq_onCl (exec_pnot d p)
theorem goes_pmov : Goes (.pmov d p) fun a s => retire a (setP s a d.val (getP s a p.val)) :=
  goes_of_exec_eq_onCl (exec_pmov d p)
end

/-- Settles O7: each of the six syllables writes its function of the sources and retires; `p0` reads 1 and keeps it, and a write to another
predicate is read back there and nowhere else. -/
theorem predicateLogic : Obligations.PredicateLogic := by
  refine ⟨fun d p q => ⟨goes_pand d p q, goes_por d p q, goes_pxor d p q, goes_pandn d p q, goes_pnot d p, goes_pmov d p⟩,
    getP_zero, setP_zero, fun s a v n hn h0 => ⟨?_, fun m hm hne => ?_⟩⟩
  · exact getP_setP_same s a n v h0 hn
  · exact getP_setP_ne s a v hne hm

end Sys2Proof.Machine

/-! O31. R135: selection and moves of vector registers. -/

namespace Sys2Proof.Machine

/-- A syllable that waits for its queues and then goes on by `go`, for the cluster context that moves. -/
theorem goesQ_of_exec_eq_needQ {i : Instr} {pops pushes : List Nat} {go : At → State → State}
    (h : ∀ s, exec i s = onCl s fun a s => needQ a pops pushes (go a) s) : GoesQ i pops pushes go := by
  intro s a hm hq
  rw [h, onCl_moves hm, needQ_ok hq]

/-! ### One vector register as an operand -/

/-- One register is a group, whatever its number (R127). -/
@[simp] theorem groupOk_one (x : VOp) : groupOk 1 x = true := by
  cases x with
  | v n => simp [groupOk, Nat.mod_one]
  | q n => rfl
theorem takeV_one_v (s : State) (a : At) (n : Fin 640) : takeV a 1 (.v n) s = ((getV s a n.val).toNat, s) := by
  simp only [takeV, getVG, Nat.mul_zero, Nat.add_zero]
theorem putV_one_v (s : State) (a : At) (n : Fin 640) (r : Nat) : putV a 1 (.v n) r s = setV s a n.val (BitVec.ofNat 4096 r) := rfl

/-! ### vsel and vmov -/

/-- The register that `vsel` writes: elements of `u` under the mask register `ms`, of `v` elsewhere. -/
def selected (t : Ety) (s : State) (a : At) (ms : Fin 16) (u v : Nat) : Nat :=
  mergeV (etyW t) (etyE t) (maskOf a (some ms) s) v fun i => elemN (etyW t) u i

theorem bitN_maskOf_some (s : State) (a : At) (ms : Fin 16) (i : Nat) : bitN (maskOf a (some ms) s) i = (getM s a ms.val).getLsbD i := by
  rw [bitN_eq, maskOf, BitVec.testBit_toNat]
theorem elemN_selected (t : Ety) (s : State) (a : At) (ms : Fin 16) (u v : Nat) {i : Nat} (h : i < etyE t) :
    elemN (etyW t) (selected t s a ms u v) i = if (getM s a ms.val).getLsbD i then elemN (etyW t) u i else elemN (etyW t) v i := by
  rw [selected, mergeV, elemN_mergeV _ _ _ _ _ h, bitN_maskOf_some, Nat.mod_eq_of_lt (elemN_lt ..)]

section
variable (t : Ety) (ms : Fin 16) (d x y : VOp)

theorem goesQ_vsel : GoesQ (.vsel t ms d x y) (portV 1 x ++ portV 1 y) (portV 1 d) fun a s =>
    let u := takeV a 1 x s
    let v := takeV a 1 y u.2
    retire a (putV a 1 d (selected t s a ms u.1 v.1) v.2) :=
  goesQ_of_exec_eq_needQ (exec_vsel t ms d x y)
theorem goesQ_vmov : GoesQ (.vmov d x) (portV 1 x) (portV 1 d) fun a s => retire a (putV a 1 d (takeV a 1 x s).1 (takeV a 1 x s).2) := by
  refine goesQ_of_exec_eq_needQ fun s => ?_
  simp only [exec_vmov, execVmov, vgrp1, groupOk_one, Bool.not_true, Bool.or_self, Bool.false_eq_true, if_false]
end

/-- Settles O31: the elements that `vsel` merges are those of its two sources, and what `vmov` takes from a register is what a later read
of the destination gives. -/
theorem selectAndMove : Obligations.SelectAndMove := by
  intro t ms d x y s a hm
  refine ⟨fun hq => ⟨_, goesQ_vsel t ms d x y s a hm hq, fun i hi => ?_⟩, goesQ_vmov d x s a hm, takeV_one_v s a, fun n r => ⟨?_, ?_⟩⟩
  · exact elemN_selected t s a ms _ _ hi
  · exact putV_one_v s a n r
  · exact getV_setV_same s a n.val _

end Sys2Proof.Machine

/-! O35. R146, R147: mask logic, and the count of a mask's bits. -/

namespace Sys2Proof.Machine

/-! ### Counting bits -/

theorem popcN_eq_countP (n x : Nat) : popcN n x = (List.range n).countP x.testBit := by
  induction n generalizing x with
  | zero => rfl
  | succ n ih =>
    have hs : (x.testBit ∘ Nat.succ) = (x / 2).testBit := funext fun i => Nat.testBit_succ x i
    rw [popcN, ih, List.range_succ_eq_map, List.countP_cons, List.countP_map, hs, Nat.testBit_zero]
    rcases Nat.mod_two_eq_zero_or_one x with h | h <;> simp [h, Nat.add_comm]
theorem popcN_toNat {w : Nat} (n : Nat) (v : BitVec w) : popcN n v.toNat = (List.range n).countP fun i => v.getLsbD i :=
  popcN_eq_countP n v.toNat
/-- Where nothing above `n` counts, a longer range counts the same. -/
theorem countP_range_of_le {n m : Nat} (h : n ≤ m) (p : Nat → Bool) (hp : ∀ i, n ≤ i → p i = false) :
    (List.range m).countP p = (List.range n).countP p := by
  obtain ⟨k, rfl⟩ := Nat.exists_eq_add_of_le h
  have hz : ((List.range k).map (n + ·)).countP p = 0 := by
    rw [List.countP_eq_zero]
    simp [hp]
  rw [List.range_add, List.countP_append, hz, Nat.add_zero]

/-! ### Masks made of conditions -/

/-- No bit of a number that was put together of `n` bits lies at `n` or above. -/
theorem testBit_buildN_of_le {n i : Nat} (f : Nat → Nat) (h : n ≤ i) : (buildN 1 n f).testBit i = false := by
  have hb : buildN 1 n f < 2 ^ n := by simpa using buildN_lt 1 n f
  exact Nat.testBit_lt_two_pow (hb.trans_le (Nat.pow_le_pow_right Nat.two_pos h))
/-- A condition on each element writes no bit at E or above (R134). -/
theorem getLsbD_maskFrom_of_le {n i : Nat} (mask : Nat) (f : Nat → Bool) (h : n ≤ i) : (maskFrom n mask f).getLsbD i = false := by
  rw [maskFrom, BitVec.getLsbD_ofNat, testBit_buildN_of_le _ h, Bool.and_false]
/-- A register has at most as many elements as a mask has bits (R57, R123). -/
theorem etyE_le (t : Ety) : etyE t ≤ 1024 := by
  cases t <;> decide

/-! ### The syllables -/

section
variable (d p q : Fin 16)

theorem goes_mand : Goes (.mand d p q) fun a s => retire a (setM s a d.val (getM s a p.val &&& getM s a q.val)) :=
  goes_of_exec_eq_onCl (exec_mand d p q)
theorem goes_mor : Goes (.mor d p q) fun a s => retire a (setM s a d.val (getM s a p.val ||| getM s a q.val)) :=
  goes_of_exec_eq_onCl (exec_mor d p q)
theorem goes_mxor : Goes (.mxor d p q) fun a s => retire a (setM s a d.val (getM s a p.val ^^^ getM s a q.val)) :=
  goes_of_exec_eq_onCl (exec_mxor d p q)
theorem goes_mandn : Goes (.mandn d p q) fun a s => retire a (setM s a d.val (getM s a p.val &&& ~~~getM s a q.val)) :=
  goes_of_exec_eq_onCl (exec_mandn d p q)
theorem goes_mnot : Goes (.mnot d p) fun a s => retire a (setM s a d.val (~~~getM s a p.val)) :=
  goes_of_exec_eq_onCl (exec_mnot d p)
theorem goes_mmov : Goes (.mmov d p) fun a s => retire a (setM s a d.val (getM s a p.val)) :=
  goes_of_exec_eq_onCl (exec_mmov d p)
theorem goesQ_mpopc (g : SOp) : GoesQ (.mpopc g p) [] (pushS g) fun a s =>
    retire a (putS a g (BitVec.ofNat 64 ((List.range 1024).countP fun i => (getM s a p.val).getLsbD i)) s) := by
  refine goesQ_of_exec_eq_needQ fun s => ?_
  simp only [exec_mpopc, execMpopc, popcN_toNat]
theorem goesQ_vcmp (t : Ety) (c : VCond) (m : VMask) (x y : VOp) : GoesQ (.vcmp t c m d x y) (portV 1 x ++ portV 1 y) [] fun a s =>
    let u := takeV a 1 x s
    let v := takeV a 1 y u.2
    retire a (setM v.2 a d.val (maskFrom (etyE t) (maskOf a m s) fun i => vcond t c (elemN (etyW t) u.1 i) (elemN (etyW t) v.1 i))) :=
  goesQ_of_exec_eq_needQ (exec_vcmp t c m d x y)
end

/-- Settles O35: each syllable of mask logic writes its function of whole masks, `mpopc` counts all their bits, and of a mask that `vcmp`
writes the bits below E are all there are. -/
theorem maskLogic : Obligations.MaskLogic := by
  refine fun d p q g => ⟨goes_mand d p q, goes_mor d p q, goes_mxor d p q, goes_mandn d p q, goes_mnot d p, goes_mmov d p, goesQ_mpopc p g,
    fun s a v n _ => ⟨getM_setM_same s a n v, fun k _ hk => getM_setM_ne s a v hk⟩, fun t c m x y s a hm hq => ?_⟩
  refine ⟨_, _, goesQ_vcmp d t c m x y s a hm hq, ?_, ?_⟩
  · exact fun i => getLsbD_maskFrom_of_le _ _
  · exact countP_range_of_le (etyE_le t) _ fun i => getLsbD_maskFrom_of_le _ _

end Sys2Proof.Machine
